-- ==== Sys2Proof/Word.lean ====
section
/-!
DEFINITION. The word types of the Am486 (spec/20_memory.md R123, spec/30_encoding.md R305, R308).
-/
namespace Sys2Proof

/-- A byte, the unit of memory (20_memory.md R120). -/
abbrev Byte := BitVec 8
/-- A word of 16 bits. -/
abbrev Word16 := BitVec 16
/-- A doubleword of 32 bits. -/
abbrev Word32 := BitVec 32
/-- An extended-precision register image of the FPU (45_fpu_common.md R651). -/
abbrev Ext80 := BitVec 80

/-- An operand or address size of 16 or 32 bits (30_encoding.md R305). -/
inductive Size where
  | s16
  | s32
deriving DecidableEq, Repr

/-- The width of one integer operand: byte, word or doubleword (30_encoding.md R308, field `w` with `OS`). -/
inductive Width where
  | byte
  | word
  | dword
deriving DecidableEq, Repr

/-- The number of bits of an operand width. -/
abbrev Width.bits : Width → Nat
  | .byte => 8
  | .word => 16
  | .dword => 32

/-- The number of bytes of an operand width. -/
abbrev Width.bytes : Width → Nat
  | .byte => 1
  | .word => 2
  | .dword => 4

/-- The operand width a `w = 1` operand has under an operand size (30_encoding.md R305). -/
abbrev Size.width : Size → Width
  | .s16 => .word
  | .s32 => .dword

/-- The number of bits of a size. -/
abbrev Size.bits : Size → Nat
  | .s16 => 16
  | .s32 => 32

/-- The number of bytes of a size. -/
abbrev Size.bytes : Size → Nat
  | .s16 => 2
  | .s32 => 4

end Sys2Proof
end

