-- ==== Sys2Proof/Config.lean ====
section
/-!
DEFINITION. What an implementation fixes, and the free values (spec/92_eei_decisions.md section 1,
spec/93_implementation_defined.md part 1). A constant without a body has no value a proof can use.
-/
namespace Sys2Proof

/-- What the FPU hands back for a function the spec gives no algorithm for: the extended value, whether it is
inexact, and whether the last rounding went upward (45_fpu_common.md R675). -/
structure FpuResult where
  value : Ext80
  inexact : Bool
  roundUp : Bool
deriving DecidableEq, Repr, Inhabited

/-- What the upper halves of the general registers become when a task is loaded from a 286 TSS
(92_eei_decisions.md D51, parameter TSS286_UPPER). -/
inductive Tss286Upper where
  | unchanged
  | zero
  | ones
deriving DecidableEq, Repr, Inhabited

/-- The stepping identifier DL holds after reset (70_reset_and_hazards.md R1024, parameter REVID).
DESIGN CHOICE (log entry 2), unsafe: the first value of HRM Table 6-4. -/
def Config.revId : Byte := 0x01#8

/-- EAX after a reset with built-in self test (70_reset_and_hazards.md R1021, parameter BIST_RESULT, default 0). -/
def Config.bistResult : Word32 := 0#32

/-- Parameter TSS286_UPPER (61_tasking.md R995; 92_eei_decisions.md D51 leaves it open). -/
opaque Config.tss286Upper : Tss286Upper

/-- A free value of `w` bits, numbered by the draw counter: an undefined flag, result or field. -/
opaque Config.freeBits (w : Nat) (draw : Nat) : BitVec w

/-- What the platform answers to an I/O read; the draw counter stands for time (20_memory.md R160). -/
opaque Config.ioRead (port : Word16) (bytes : Nat) (draw : Nat) : Word32

/-- Which of two signaling NaNs of equal significand an operation takes (45_fpu_common.md R666 says no more); true: the
first. -/
opaque Config.snanTie (a b : Ext80) : Bool

/-- 2^x - 1 (45_fpu_common.md R675), a function of the operand and RC alone. -/
opaque Config.f2xm1 (x : Ext80) (rc : BitVec 2) : FpuResult
/-- y * log2 x. -/
opaque Config.fyl2x (x y : Ext80) (rc : BitVec 2) : FpuResult
/-- y * log2 (x + 1). -/
opaque Config.fyl2xp1 (x y : Ext80) (rc : BitVec 2) : FpuResult
/-- The arctangent of y / x. -/
opaque Config.fpatan (x y : Ext80) (rc : BitVec 2) : FpuResult
/-- The tangent, with the argument reduced by the 66-bit constant of 45_fpu_common.md R670. -/
opaque Config.ftan (x : Ext80) (rc : BitVec 2) : FpuResult
/-- The sine. -/
opaque Config.fsin (x : Ext80) (rc : BitVec 2) : FpuResult
/-- The cosine. -/
opaque Config.fcos (x : Ext80) (rc : BitVec 2) : FpuResult

end Sys2Proof
end

