-- ==== Sys2Proof/Syntax.lean ====
section
/-!
DEFINITION. The instructions of spec/opcode_table.json and their operand forms (spec/30_encoding.md).
Every mnemonic of the table is a constructor; a mnemonic whose rows do different work (CALL near and far, MOV to a
segment register) is several constructors. An operand size, address size or width that the prefixes and the code
segment decide is recorded in the instruction; a segment override, REP and LOCK are instructions of their own.
-/
namespace Sys2Proof

/-- The eight register codes of R312. With a byte operand the codes name AL, CL, DL, BL, AH, CH, DH, BH in this order. -/
inductive Reg where
  | eax | ecx | edx | ebx | esp | ebp | esi | edi
deriving DecidableEq, Repr

/-- The six segment registers, in the order of `sreg3` (R312). -/
inductive SReg where
  | es | cs | ss | ds | fs | gs
deriving DecidableEq, Repr

/-- The control registers `eee` may name (R312). -/
inductive CReg where
  | cr0 | cr2 | cr3
deriving DecidableEq, Repr

/-- The debug registers `eee` may name. -/
inductive DReg where
  | dr0 | dr1 | dr2 | dr3 | dr6 | dr7
deriving DecidableEq, Repr

/-- The test registers `eee` may name. -/
inductive TReg where
  | tr3 | tr4 | tr5 | tr6 | tr7
deriving DecidableEq, Repr

/-- A stack element number of the FPU: ST(i). -/
abbrev StIdx := Fin 8

/-- The displacement of an addressing form: absent (mod 00), one byte (mod 01), or full size (mod 10). -/
inductive Disp (n : Nat) where
  | none
  | d8 (d : Byte)
  | full (d : BitVec n)
deriving DecidableEq, Repr

/-- The base and index combinations of 16-bit addressing (R311), in the order of r/m. -/
inductive Base16 where
  | bxsi | bxdi | bpsi | bpdi | si | di | bp | bx
deriving DecidableEq, Repr

/-- The scale of an index (R314): 1, 2, 4 or 8. -/
inductive Scale where
  | x1 | x2 | x4 | x8
deriving DecidableEq, Repr

/-- A memory operand (R311, R313, R314). In `sib` and `sibAbs` the index code ESP stands for no index. -/
inductive Mem where
  | abs16 (d : Word16)
  | ind16 (b : Base16) (d : Disp 16)
  | abs32 (d : Word32)
  | ind32 (b : Reg) (d : Disp 32)
  | sib (s : Scale) (i b : Reg) (d : Disp 32)
  | sibAbs (s : Scale) (i : Reg) (d : Word32)
deriving DecidableEq, Repr

/-- A register or memory operand chosen by mod r/m. -/
inductive RM where
  | reg (r : Reg)
  | mem (m : Mem)
deriving DecidableEq, Repr

/-- An immediate of the operand's own width. -/
inductive Imm where
  | i8 (v : Byte)
  | i16 (v : Word16)
  | i32 (v : Word32)
deriving DecidableEq, Repr

/-- An offset of `moffs` or of a far pointer. -/
inductive Offset where
  | o16 (v : Word16)
  | o32 (v : Word32)
deriving DecidableEq, Repr

/-- A relative branch target (R317): one byte with the operand size that masks the result, or a full one. -/
inductive Rel where
  | r8 (os : Size) (d : Byte)
  | r16 (d : Word16)
  | r32 (d : Word32)
deriving DecidableEq, Repr

/-- The forms of ADD, OR, ADC, SBB, AND, SUB, XOR, CMP. -/
inductive AluForm where
  | acc (v : Imm)
  | rmImm (rm : RM) (v : Imm)
  | rmImm8 (os : Size) (rm : RM) (v : Byte)
  | rmReg (w : Width) (rm : RM) (r : Reg)
  | regRm (w : Width) (r : Reg) (rm : RM)
deriving DecidableEq, Repr

/-- The forms of TEST. -/
inductive TestForm where
  | acc (v : Imm)
  | rmImm (rm : RM) (v : Imm)
  | rmReg (w : Width) (rm : RM) (r : Reg)
deriving DecidableEq, Repr

/-- The forms of BT, BTS, BTR, BTC. -/
inductive BitForm where
  | reg (os : Size) (rm : RM) (r : Reg)
  | imm (os : Size) (rm : RM) (v : Byte)
deriving DecidableEq, Repr

/-- The forms of INC and DEC. -/
inductive IncForm where
  | rm (w : Width) (rm : RM)
  | reg (os : Size) (r : Reg)
deriving DecidableEq, Repr

/-- The forms of IMUL. -/
inductive ImulForm where
  | one (w : Width) (rm : RM)
  | two (os : Size) (r : Reg) (rm : RM)
  | three8 (os : Size) (r : Reg) (rm : RM) (v : Byte)
  | three (r : Reg) (rm : RM) (v : Imm)
deriving DecidableEq, Repr

/-- The port of IN and OUT. -/
inductive IoForm where
  | imm (w : Width) (port : Byte)
  | dx (w : Width)
deriving DecidableEq, Repr

/-- The count of a shift or rotate. -/
inductive Count where
  | one
  | cl
  | imm (v : Byte)
deriving DecidableEq, Repr

/-- The count of SHLD and SHRD. -/
inductive DCount where
  | cl
  | imm (v : Byte)
deriving DecidableEq, Repr

/-- The data forms of MOV. -/
inductive MovForm where
  | rmReg (w : Width) (rm : RM) (r : Reg)
  | regRm (w : Width) (r : Reg) (rm : RM)
  | accMoffs (w : Width) (o : Offset)
  | moffsAcc (w : Width) (o : Offset)
  | regImm (r : Reg) (v : Imm)
  | rmImm (rm : RM) (v : Imm)
deriving DecidableEq, Repr

/-- The forms of MOVSX and MOVZX: a byte or word source. -/
inductive ExtForm where
  | byte (os : Size) (r : Reg) (rm : RM)
  | word (os : Size) (r : Reg) (rm : RM)
deriving DecidableEq, Repr

/-- The data forms of PUSH. -/
inductive PushForm where
  | rm (os : Size) (rm : RM)
  | reg (os : Size) (r : Reg)
  | imm8 (os : Size) (v : Byte)
  | imm (v : Imm)
deriving DecidableEq, Repr

/-- The data forms of POP. -/
inductive PopForm where
  | rm (os : Size) (rm : RM)
  | reg (os : Size) (r : Reg)
deriving DecidableEq, Repr

/-- The forms of XCHG. -/
inductive XchgForm where
  | acc (os : Size) (r : Reg)
  | rm (w : Width) (rm : RM) (r : Reg)
deriving DecidableEq, Repr

/-- The forms of near CALL and JMP: relative, or indirect through r/m. -/
inductive NearForm where
  | rel (d : Rel)
  | ind (os : Size) (rm : RM)
deriving DecidableEq, Repr

/-- The forms of far CALL and JMP: a pointer in the instruction, or in memory. -/
inductive FarForm where
  | ptr (off : Offset) (sel : Word16)
  | mem (os : Size) (m : Mem)
deriving DecidableEq, Repr

/-- The forms of RET: how many parameter bytes are released. -/
inductive RetForm where
  | plain (os : Size)
  | imm (os : Size) (n : Word16)
deriving DecidableEq, Repr

/-- The forms of FADD, FMUL, FSUB, FSUBR, FDIV, FDIVR. -/
inductive FArith where
  | m32 (m : Mem)
  | m64 (m : Mem)
  | toSt (i : StIdx)
  | toSti (i : StIdx)
deriving DecidableEq, Repr

/-- The forms of FCOM and FCOMP. -/
inductive FCmp where
  | m32 (m : Mem)
  | m64 (m : Mem)
  | st (i : StIdx)
deriving DecidableEq, Repr

/-- The integer memory operand of FIADD, FICOM and FIST. -/
inductive FInt where
  | m16 (m : Mem)
  | m32 (m : Mem)
deriving DecidableEq, Repr

/-- The integer memory operand of FILD and FISTP. -/
inductive FIntL where
  | m16 (m : Mem)
  | m32 (m : Mem)
  | m64 (m : Mem)
deriving DecidableEq, Repr

/-- The forms of FLD and FSTP. -/
inductive FLdSt where
  | m32 (m : Mem)
  | m64 (m : Mem)
  | m80 (m : Mem)
  | st (i : StIdx)
deriving DecidableEq, Repr

/-- The forms of FST. -/
inductive FStForm where
  | m32 (m : Mem)
  | m64 (m : Mem)
  | st (i : StIdx)
deriving DecidableEq, Repr

/-- The destination of FNSTSW and FSTSW. -/
inductive FSwForm where
  | mem (m : Mem)
  | ax
deriving DecidableEq, Repr

/-- The three encodings the 8087 and 80287 used (45_fpu_common.md R692). -/
inductive FLegacy where
  | feni | fdisi | fsetpm
deriving DecidableEq, Repr

/-- The instructions. -/
inductive Instr where
  -- A to C
  | aad (base : Byte) | aam (base : Byte) | adc (f : AluForm) | add (f : AluForm) | and (f : AluForm)
  | arpl (rm : RM) (r : Reg) | bound (os : Size) (r : Reg) (m : Mem) | bsf (os : Size) (r : Reg) (rm : RM)
  | bsr (os : Size) (r : Reg) (rm : RM) | bswap (os : Size) (r : Reg) | bt (f : BitForm) | btc (f : BitForm)
  | btr (f : BitForm) | bts (f : BitForm) | callNear (f : NearForm) | callFar (f : FarForm) | cmp (f : AluForm)
  | cmpsb (as : Size) | cmpsw (os as : Size) | cmpxchg (w : Width) (rm : RM) (r : Reg)
  -- D to I
  | dec (f : IncForm) | div (w : Width) (rm : RM) | enter (os : Size) (bytes : Word16) (level : Byte)
  | idiv (w : Width) (rm : RM) | imul (f : ImulForm) | inp (f : IoForm) | inc (f : IncForm) | insb (as : Size)
  | insw (os as : Size) | intN (vector : Byte) | invlpg (m : Mem)
  -- conditional jumps
  | jo (d : Rel) | jno (d : Rel) | jb (d : Rel) | jc (d : Rel) | jnae (d : Rel) | jae (d : Rel) | jnb (d : Rel)
  | jnc (d : Rel) | je (d : Rel) | jz (d : Rel) | jne (d : Rel) | jnz (d : Rel) | jbe (d : Rel) | jna (d : Rel)
  | ja (d : Rel) | jnbe (d : Rel) | js (d : Rel) | jns (d : Rel) | jp (d : Rel) | jpe (d : Rel) | jnp (d : Rel)
  | jpo (d : Rel) | jl (d : Rel) | jnge (d : Rel) | jge (d : Rel) | jnl (d : Rel) | jle (d : Rel) | jng (d : Rel)
  | jg (d : Rel) | jnle (d : Rel) | jcxz (os : Size) (d : Byte) | jecxz (os : Size) (d : Byte)
  | jmpNear (f : NearForm) | jmpFar (f : FarForm)
  -- L
  | lar (os : Size) (r : Reg) (rm : RM) | lds (os : Size) (r : Reg) (m : Mem) | les (os : Size) (r : Reg) (m : Mem)
  | lfs (os : Size) (r : Reg) (m : Mem) | lgs (os : Size) (r : Reg) (m : Mem) | lss (os : Size) (r : Reg) (m : Mem)
  | lea (os : Size) (r : Reg) (m : Mem) | leave (os : Size) | lgdt (os : Size) (m : Mem)
  | lidt (os : Size) (m : Mem) | lldt (rm : RM) | lmsw (rm : RM) | lodsb (as : Size) | lodsw (os as : Size)
  | loop (os as : Size) (d : Byte) | loope (os as : Size) (d : Byte) | loopne (os as : Size) (d : Byte)
  | lsl (os : Size) (r : Reg) (rm : RM) | ltr (rm : RM)
  -- M to R
  | mov (f : MovForm) | movFromSeg (os : Size) (rm : RM) (s : SReg) | movToSeg (s : SReg) (rm : RM)
  | movFromCr (r : Reg) (c : CReg) | movToCr (c : CReg) (r : Reg) | movFromDr (r : Reg) (x : DReg)
  | movToDr (x : DReg) (r : Reg) | movFromTr (r : Reg) (t : TReg) | movToTr (t : TReg) (r : Reg)
  | movsb (as : Size) | movsw (os as : Size) | movsx (f : ExtForm) | movzx (f : ExtForm)
  | mul (w : Width) (rm : RM) | neg (w : Width) (rm : RM) | not (w : Width) (rm : RM) | or (f : AluForm)
  | outp (f : IoForm) | outsb (as : Size) | outsw (os as : Size) | pop (f : PopForm)
  | popSeg (os : Size) (s : SReg) | push (f : PushForm) | pushSeg (os : Size) (s : SReg)
  | rcl (w : Width) (rm : RM) (c : Count) | rcr (w : Width) (rm : RM) (c : Count) | retNear (f : RetForm)
  | retFar (f : RetForm) | rol (w : Width) (rm : RM) (c : Count) | ror (w : Width) (rm : RM) (c : Count)
  -- S to X
  | sal (w : Width) (rm : RM) (c : Count) | sar (w : Width) (rm : RM) (c : Count) | sbb (f : AluForm)
  | scasb (as : Size) | scasw (os as : Size) | seto (rm : RM) | setno (rm : RM) | setb (rm : RM) | setae (rm : RM)
  | sete (rm : RM) | setne (rm : RM) | setbe (rm : RM) | seta (rm : RM) | sets (rm : RM) | setns (rm : RM)
  | setp (rm : RM) | setnp (rm : RM) | setl (rm : RM) | setge (rm : RM) | setle (rm : RM) | setg (rm : RM)
  | sgdt (os : Size) (m : Mem) | shl (w : Width) (rm : RM) (c : Count)
  | shld (os : Size) (rm : RM) (r : Reg) (c : DCount) | shr (w : Width) (rm : RM) (c : Count)
  | shrd (os : Size) (rm : RM) (r : Reg) (c : DCount) | sidt (os : Size) (m : Mem) | sldt (os : Size) (rm : RM)
  | smsw (os : Size) (rm : RM) | stosb (as : Size) | stosw (os as : Size) | str (os : Size) (rm : RM)
  | sub (f : AluForm) | test (f : TestForm) | verr (rm : RM) | verw (rm : RM)
  | xadd (w : Width) (rm : RM) (r : Reg) | xchg (f : XchgForm) | xlat (as : Size) | xor (f : AluForm)
  -- floating point
  | fadd (f : FArith) | faddp (i : StIdx) | fbld (m : Mem) | fbstp (m : Mem) | fcom (f : FCmp) | fcomp (f : FCmp)
  | fdiv (f : FArith) | fdivp (i : StIdx) | fdivr (f : FArith) | fdivrp (i : StIdx) | ffree (i : StIdx)
  | fiadd (f : FInt) | fimul (f : FInt) | ficom (f : FInt) | ficomp (f : FInt) | fisub (f : FInt)
  | fisubr (f : FInt) | fidiv (f : FInt) | fidivr (f : FInt) | fild (f : FIntL) | fist (f : FInt)
  | fistp (f : FIntL) | fld (f : FLdSt) | fldcw (m : Mem) | fldenv (os : Size) (m : Mem) | fmul (f : FArith)
  | fmulp (i : StIdx) | fnsave (os : Size) (m : Mem) | fnstcw (m : Mem) | fnstenv (os : Size) (m : Mem)
  | fnstsw (f : FSwForm) | frstor (os : Size) (m : Mem) | fsave (os : Size) (m : Mem) | fst (f : FStForm)
  | fstcw (m : Mem) | fstenv (os : Size) (m : Mem) | fstp (f : FLdSt) | fstsw (f : FSwForm) | fsub (f : FArith)
  | fsubp (i : StIdx) | fsubr (f : FArith) | fsubrp (i : StIdx) | fucom (i : StIdx) | fucomp (i : StIdx)
  | fxch (i : StIdx) | fpuNop (k : FLegacy)
  -- The same, without operands (after the others: the compiler numbers at most 245 constructors with arguments).
  -- prefixes (R304)
  | lockPrefix | repnePrefix | repPrefix | segEs | segCs | segSs | segDs | segFs | segGs | opSizePrefix
  | addrSizePrefix
  -- A to C
  | aaa | aas | cbw | cwde | cwd | cdq | clc | cld | cli | clts | cmc
  -- D to I
  | daa | das | hlt | int3 | into | invd | iret | iretd
  -- L
  | lahf
  -- M to R
  | nop | popa | popad | popf | popfd | pusha | pushad | pushf | pushfd
  -- S to X
  | sahf | stc | std | sti | wait | wbinvd
  -- floating point
  | f2xm1 | fabs | fchs | fclex | fcompp | fcos | fdecstp | fincstp | finit | fld1 | fldl2e | fldl2t | fldlg2
  | fldln2 | fldpi | fldz | fnclex | fninit | fnop | fpatan | fprem | fprem1 | fptan | frndint | fscale | fsin
  | fsincos | fsqrt | ftst | fucompp | fwait | fxam | fxtract | fyl2x | fyl2xp1
deriving DecidableEq, Repr

/-- The sixteen conditions of Jcc and SETcc (R318), in the order of `tttn`. -/
inductive Cond where
  | o | no | b | nb | e | ne | be | nbe | s | ns | p | np | l | nl | le | nle
deriving DecidableEq, Repr

/-- The instruction the decoder answers for the words of an instruction: itself, but for a mnemonic that shares its
words with another (R360). A wait form (FINIT and its like) is two instructions: its words start with WAIT. DESIGN
CHOICE (log entry 42). -/
def Instr.canonical : Instr → Instr
  | .jc d => .jb d
  | .jnae d => .jb d
  | .jnb d => .jae d
  | .jnc d => .jae d
  | .jz d => .je d
  | .jnz d => .jne d
  | .jna d => .jbe d
  | .jnbe d => .ja d
  | .jpe d => .jp d
  | .jpo d => .jnp d
  | .jnge d => .jl d
  | .jnl d => .jge d
  | .jng d => .jle d
  | .jnle d => .jg d
  | .sal w rm c => .shl w rm c
  | .fwait => .wait
  | .fclex => .wait
  | .finit => .wait
  | .fsave _ _ => .wait
  | .fstcw _ => .wait
  | .fstenv _ _ => .wait
  | .fstsw _ => .wait
  | i => i

end Sys2Proof
end

