-- ==== Sys2Proof/Machine/State.lean ====
section
/-!
DEFINITION. The state of the machine (spec/10_state.md R20), the reasons a step can stop, and the state after reset
(spec/10_state.md R80, spec/70_reset_and_hazards.md R1022).
-/
namespace Sys2Proof.Machine
open Sys2Proof

/-- A reason the machine stops with a fault. Architectural exceptions are not here: they are taken. -/
inductive Fault where
  /-- Raised by a physical memory access when A20M# is asserted outside Real Mode: 20_memory.md R122 calls the effect
  undefined and 93_implementation_defined.md U20 says refuse. Safe: the hardware does something the spec does not give. -/
  | a20OutsideRealMode
deriving DecidableEq, Repr

/-- A reason an instruction has no meaning. -/
inductive Refusal where
  /-- Raised by an arm of exec that has no meaning yet. Safe. -/
  | notModelled (mnemonic : String)
deriving DecidableEq, Repr

/-- The eight general registers (10_state.md R21). -/
structure Gprs where
  eax : Word32
  ecx : Word32
  edx : Word32
  ebx : Word32
  esp : Word32
  ebp : Word32
  esi : Word32
  edi : Word32
deriving DecidableEq, Repr

/-- A segment register: the visible selector and the hidden descriptor cache (10_state.md R27). -/
structure SegReg where
  sel : Word16
  base : Word32
  limit : Word32
  /-- False when the register holds a null selector or a selector not yet checked (21 R186, 61 R990 step 12). -/
  usable : Bool
  present : Bool
  dpl : BitVec 2
  /-- The S bit: code or data. -/
  s : Bool
  /-- The four type bits: E, ED or C, W or R, A from high to low (21 R193). -/
  typ : BitVec 4
  /-- D of a code segment, B of a stack or expand-down segment (21 R195). -/
  db : Bool
  g : Bool
  avl : Bool
deriving DecidableEq, Repr

/-- The six segment registers. -/
structure Segs where
  es : SegReg
  cs : SegReg
  ss : SegReg
  ds : SegReg
  fs : SegReg
  gs : SegReg
deriving DecidableEq, Repr

/-- GDTR or IDTR (10_state.md R36, R37). -/
structure TableReg where
  base : Word32
  limit : Word16
deriving DecidableEq, Repr

/-- LDTR (10_state.md R38): the selector, and base, limit and attributes of its descriptor (`access` is byte 5 of the
descriptor, `top` the upper half of byte 6: G, D/B, bit 21 and AVL); `valid` is false when it holds a null selector. -/
structure LdtReg where
  sel : Word16
  base : Word32
  limit : Word32
  access : Byte
  top : BitVec 4
  valid : Bool
deriving DecidableEq, Repr

/-- The two formats of a task state segment (61_tasking.md R981, R982). -/
inductive TssFormat where
  | tss286
  | tss486
deriving DecidableEq, Repr

/-- TR (10_state.md R39). -/
structure TaskReg where
  sel : Word16
  base : Word32
  limit : Word32
  format : TssFormat
deriving DecidableEq, Repr

/-- The debug registers (10_state.md R40 to R43). -/
structure DebugRegs where
  dr0 : Word32
  dr1 : Word32
  dr2 : Word32
  dr3 : Word32
  dr6 : Word32
  dr7 : Word32
deriving DecidableEq, Repr

/-- Four doublewords: the cache fill buffer or the cache read buffer (71 R1100). -/
structure LineBuf where
  d0 : Word32
  d1 : Word32
  d2 : Word32
  d3 : Word32
deriving DecidableEq, Repr

/-- The test registers (10_state.md R44 to R48) and the two cache test buffers. -/
structure TestRegs where
  tr3 : Word32
  tr4 : Word32
  tr5 : Word32
  tr6 : Word32
  tr7 : Word32
  fill : LineBuf
  read : LineBuf
deriving DecidableEq, Repr

/-- The three pseudo-LRU bits of a set (71 R1101). -/
structure Lru where
  b0 : Bool
  b1 : Bool
  b2 : Bool
deriving DecidableEq, Repr

/-- One line of the internal cache: 21-bit tag, valid bit, 16 bytes (bit 0 of `data` is bit 0 of byte 0). -/
structure CacheLine where
  valid : Bool
  tag : BitVec 21
  data : BitVec 128
deriving DecidableEq, Repr

/-- One set of the internal cache. -/
structure CacheSet where
  i0 : CacheLine
  i1 : CacheLine
  i2 : CacheLine
  i3 : CacheLine
  lru : Lru
deriving DecidableEq, Repr

/-- One TLB entry (71 R1103). -/
structure TlbEntry where
  valid : Bool
  tag : BitVec 17
  dirty : Bool
  user : Bool
  writable : Bool
  page : BitVec 20
  pcd : Bool
  pwt : Bool
deriving DecidableEq, Repr

/-- One set of the TLB. -/
structure TlbSet where
  w0 : TlbEntry
  w1 : TlbEntry
  w2 : TlbEntry
  w3 : TlbEntry
  lru : Lru
deriving DecidableEq, Repr

/-- The status word's own bits (10_state.md R52): the six exception flags, the stack fault, the condition codes, TOP.
ES and B are not stored: they always follow from the flags and the masks (`Fpu.error`). -/
structure FpuStatus where
  ie : Bool
  de : Bool
  ze : Bool
  oe : Bool
  ue : Bool
  pe : Bool
  sf : Bool
  c0 : Bool
  c1 : Bool
  c2 : Bool
  c3 : Bool
  top : Fin 8
deriving DecidableEq, Repr

/-- The FPU (10_state.md R50 to R54). `regs` and `empty` are numbered physically, R0 to R7. -/
structure Fpu where
  regs : Vector Ext80 8
  empty : Vector Bool 8
  cw : Word16
  status : FpuStatus
  fip : Word32
  fcs : Word16
  fdp : Word32
  fds : Word16
  fop : BitVec 11
deriving DecidableEq, Repr

/-- The two repeat prefixes (30_encoding.md R304): F3 and F2. -/
inductive Rep where
  | repe
  | repne
deriving DecidableEq, Repr

/-- The instruction in flight: where it starts, the prefixes seen, the stores it has made but not committed (newest
first, by physical address) and the data breakpoints it has matched; then what its meaning tells the end of the
instruction: the commit point of a task switch has been passed, a fault raised now is one of steps 13 to 17 of the switch
(61 R990), another iteration of a string instruction follows, RF keeps the value just loaded, an interrupt shadow begins.
All at rest between instructions. -/
structure Insn where
  start : Word32
  seg : Option SReg
  opSize : Bool
  addrSize : Bool
  rep : Option Rep
  lock : Bool
  stores : List Host.Cell
  hits : BitVec 4
  committed : Bool
  arrived : Bool
  again : Bool
  keepRf : Bool
  inhibit : Bool
  stiShadow : Bool
deriving DecidableEq, Repr

/-- An event being delivered (60_exceptions.md R920): vector, software or not, the error code if any, whether it is a
fault, whose saved EFLAGS image has RF set; for a debug exception the DR6 bits it reports. -/
structure Event where
  vector : Byte
  software : Bool
  code : Option Word16
  isFault : Bool
  debug : Option Word32
deriving DecidableEq, Repr

/-- The run state (10_state.md R64; 60_exceptions.md R944 for frozen). `redeliver` holds an event whose delivery met
a page fault again and again and is tried again by the next step (60_exceptions.md R925, log entry 11). -/
inductive RunState where
  | running
  | halted
  | shutdown
  | frozen
  | redeliver (e : Event)
deriving DecidableEq, Repr

/-- Debug traps waiting for the next instruction boundary (71 R1083, R1084, R1086): single step, task switch, data
breakpoint; `hits` says which data breakpoints matched, enabled or not (71 R1087). -/
structure Traps where
  bs : Bool
  bt : Bool
  data : Bool
  hits : BitVec 4
deriving DecidableEq, Repr

/-- What the platform can see of the processor besides memory (92_eei_decisions.md D2). -/
inductive BusEvent where
  | ioRead (port : Word16) (bytes : Nat)
  | ioWrite (port : Word16) (bytes : Nat) (value : Word32)
  | intAck (vector : Byte)
  | halt
  | shutdown
  | flush
  | writeBack
deriving DecidableEq, Repr

/-- Interrupt-related latches (10_state.md R63). -/
structure IntLatches where
  nmiMasked : Bool
  nmiPending : Bool
  inhibitNext : Bool
  stiShadow : Bool
deriving DecidableEq, Repr

/-- Pin inputs (10_state.md R66, 70 R1070). True means asserted. -/
structure Pins where
  intr : Bool
  intVector : Byte
  a20m : Bool
  ignne : Bool
  ken : Bool
deriving DecidableEq, Repr

/-- The whole state (10_state.md R20). `bufferSpoiled` says that a data reference has been made since the cache read buffer
was last loaded, which corrupts the buffer (71 R1102). -/
structure State where
  gpr : Gprs
  eip : Word32
  eflags : Word32
  seg : Segs
  cpl : BitVec 2
  cr0 : Word32
  cr2 : Word32
  cr3 : Word32
  gdtr : TableReg
  idtr : TableReg
  ldtr : LdtReg
  tr : TaskReg
  dr : DebugRegs
  test : TestRegs
  bufferSpoiled : Bool
  fpu : Fpu
  cache : List (Nat × CacheSet)
  tlb : List (Nat × TlbSet)
  run : RunState
  latch : IntLatches
  traps : Traps
  insn : Insn
  pins : Pins
  events : List BusEvent
  freeCtr : Nat
  mem : List Host.Cell
deriving DecidableEq, Repr

/-- A cache line that holds nothing. -/
def CacheLine.blank : CacheLine := { valid := false, tag := 0#21, data := 0#128 }
/-- The LRU bits after reset or flush (71 R1101). -/
def Lru.zero : Lru := { b0 := false, b1 := false, b2 := false }
/-- A cache set that holds nothing: what a set not listed in `State.cache` is. -/
def CacheSet.blank : CacheSet :=
  { i0 := .blank, i1 := .blank, i2 := .blank, i3 := .blank, lru := .zero }
/-- A TLB entry that holds nothing. -/
def TlbEntry.blank : TlbEntry :=
  { valid := false, tag := 0#17, dirty := false, user := false, writable := false, page := 0#20,
    pcd := false, pwt := false }
/-- A TLB set that holds nothing: what a set not listed in `State.tlb` is. -/
def TlbSet.blank : TlbSet := { w0 := .blank, w1 := .blank, w2 := .blank, w3 := .blank, lru := .zero }

/-- The instruction latch at rest, with the address the next instruction starts at. -/
def Insn.idle (start : Word32) : Insn :=
  { start := start, seg := none, opSize := false, addrSize := false, rep := none, lock := false,
    stores := [], hits := 0#4, committed := false, arrived := false, again := false, keepRf := false, inhibit := false,
    stiShadow := false }

/-- No debug trap pending. -/
def Traps.none : Traps := { bs := false, bt := false, data := false, hits := 0#4 }

/-- A Real Mode segment register of selector `sel` and base `base` (10_state.md R28): limit FFFFh, present,
read/write, expand-up, 16-bit, level 0. The S, type, G and AVL bits are a DESIGN CHOICE (log entry 3). -/
def SegReg.real (sel : Word16) (base : Word32) : SegReg :=
  { sel := sel, base := base, limit := 0xFFFF#32, usable := true, present := true, dpl := 0#2, s := true,
    typ := 0x3#4, db := false, g := false, avl := false }

/-- A status word of zeros. -/
def FpuStatus.zero : FpuStatus :=
  { ie := false, de := false, ze := false, oe := false, ue := false, pe := false, sf := false,
    c0 := false, c1 := false, c2 := false, c3 := false, top := 0 }

/-- The FPU as FNINIT leaves it, with registers of zeros (47 R764; log entry 6). -/
def Fpu.init : Fpu :=
  { regs := Vector.replicate 8 0#80, empty := Vector.replicate 8 true, cw := 0x037F#16, status := .zero,
    fip := 0#32, fcs := 0#16, fdp := 0#32, fds := 0#16, fop := 0#11 }

/-- The machine right after RESET (10_state.md R80). -/
def State.reset : State :=
  { gpr := { eax := Config.bistResult, ecx := 0#32, edx := 0x400#32 + Config.revId.setWidth 32, ebx := 0#32,
             esp := 0#32, ebp := 0#32, esi := 0#32, edi := 0#32 }
    eip := 0xFFF0#32
    eflags := 0x2#32
    seg := { es := .real 0#16 0#32, cs := .real 0xF000#16 0xFFFF0000#32, ss := .real 0#16 0#32,
             ds := .real 0#16 0#32, fs := .real 0#16 0#32, gs := .real 0#16 0#32 }
    cpl := 0#2
    cr0 := 0x60000010#32
    cr2 := 0#32
    cr3 := 0#32
    gdtr := { base := 0#32, limit := 0#16 }
    idtr := { base := 0#32, limit := 0x3FF#16 }
    ldtr := { sel := 0#16, base := 0#32, limit := 0#32, access := 0#8, top := 0#4, valid := false }
    tr := { sel := 0#16, base := 0#32, limit := 0xFFFF#32, format := .tss486 }
    dr := { dr0 := 0#32, dr1 := 0#32, dr2 := 0#32, dr3 := 0#32, dr6 := 0#32, dr7 := 0#32 }
    test := { tr3 := 0#32, tr4 := 0#32, tr5 := 0#32, tr6 := 0#32, tr7 := 0#32,
              fill := { d0 := 0#32, d1 := 0#32, d2 := 0#32, d3 := 0#32 },
              read := { d0 := 0#32, d1 := 0#32, d2 := 0#32, d3 := 0#32 } }
    bufferSpoiled := false
    fpu := .init
    cache := []
    tlb := []
    run := .running
    latch := { nmiMasked := false, nmiPending := false, inhibitNext := false, stiShadow := false }
    traps := .none
    insn := .idle 0xFFF0#32
    pins := { intr := false, intVector := 0#8, a20m := false, ignne := false, ken := true }
    events := []
    freeCtr := 0
    mem := [] }

end Sys2Proof.Machine
end

