-- ==== Sys2Proof/Machine/Memory.lean ====
section
/-!
DEFINITION. Physical memory, the internal cache, and one byte's physical access
(spec/20_memory.md R120 to R131, R170 to R174; spec/71_debug_and_test_registers.md R1101).
-/
namespace Sys2Proof.Machine
open Sys2Proof

/-- The bytes of a number, least significant first (20_memory.md R123). -/
def toBytes : Nat → Nat → List Byte
  | 0, _ => []
  | n + 1, v => BitVec.ofNat 8 v :: toBytes n (v / 256)

/-- The number whose bytes are given, least significant first (20_memory.md R123). -/
def ofBytes : List Byte → Nat
  | [] => 0
  | b :: t => b.toNat + 256 * ofBytes t

/-- What a byte of memory that nothing has written reads as. DESIGN CHOICE (log entry 8), unsafe. -/
def Memory.unlisted : Byte := 0#8

/-- The byte at an address. -/
def Memory.read : List Host.Cell → Nat → Byte
  | [], _ => Memory.unlisted
  | (k, v) :: t, a => if k = a then v else if a < k then Memory.unlisted else Memory.read t a

/-- Write one byte, keeping the canonical form: addresses strictly rising, no entry equal to `Memory.unlisted`. -/
def Memory.write : List Host.Cell → Nat → Byte → List Host.Cell
  | [], a, v => if v = Memory.unlisted then [] else [(a, v)]
  | (k, w) :: t, a, v =>
    if a < k then (if v = Memory.unlisted then (k, w) :: t else (a, v) :: (k, w) :: t)
    else if a = k then (if v = Memory.unlisted then t else (a, v) :: t)
    else (k, w) :: Memory.write t a v

/-- Every address of `m` is above `lo`, rising strictly, below 2^32, and no entry is `Memory.unlisted`. -/
def Memory.wfFrom : Nat → List Host.Cell → Bool
  | _, [] => true
  | lo, (k, v) :: t => decide (lo ≤ k) && decide (k < 2 ^ 32) && decide (v ≠ Memory.unlisted) && Memory.wfFrom (k + 1) t

/-- The canonical form of memory. -/
def Memory.wf (m : List Host.Cell) : Bool := Memory.wfFrom 0 m

/-- The element of a sparse array kept in rising order of its index; `d` where none is listed. -/
def sparseGet {α : Type} (d : α) : List (Nat × α) → Nat → α
  | [], _ => d
  | (k, v) :: t, i => if k = i then v else if i < k then d else sparseGet d t i

/-- Set an element of a sparse array. -/
def sparseSet {α : Type} : List (Nat × α) → Nat → α → List (Nat × α)
  | [], i, v => [(i, v)]
  | (k, w) :: t, i, v =>
    if i < k then (i, v) :: (k, w) :: t else if i = k then (i, v) :: t else (k, w) :: sparseSet t i v

/-- The four ways of a set. -/
inductive Way where
  | w0 | w1 | w2 | w3
deriving DecidableEq, Repr

/-- The way a two-bit field names. -/
def Way.ofBits (b : BitVec 2) : Way :=
  if b = 0#2 then .w0 else if b = 1#2 then .w1 else if b = 2#2 then .w2 else .w3

/-- The two bits that name a way. -/
def Way.toBits : Way → BitVec 2
  | .w0 => 0#2
  | .w1 => 1#2
  | .w2 => 2#2
  | .w3 => 3#2

/-- The LRU bits after an access to a way (71 R1101, Touch). -/
def Lru.touch (l : Lru) : Way → Lru
  | .w0 => { l with b0 := true, b1 := true }
  | .w1 => { l with b0 := true, b1 := false }
  | .w2 => { l with b0 := false, b2 := true }
  | .w3 => { l with b0 := false, b2 := false }

/-- The way to replace when all four are valid (71 R1101, Victim). -/
def Lru.oldest (l : Lru) : Way :=
  if l.b0 then (if l.b2 then .w3 else .w2) else (if l.b1 then .w1 else .w0)

/-- The way to replace: the first invalid one, else the least recently used (71 R1101). -/
def victimOf (v0 v1 v2 v3 : Bool) (l : Lru) : Way :=
  if !v0 then .w0 else if !v1 then .w1 else if !v2 then .w2 else if !v3 then .w3 else l.oldest

def CacheSet.get (c : CacheSet) : Way → CacheLine
  | .w0 => c.i0
  | .w1 => c.i1
  | .w2 => c.i2
  | .w3 => c.i3

def CacheSet.put (c : CacheSet) (w : Way) (x : CacheLine) : CacheSet :=
  match w with
  | .w0 => { c with i0 := x }
  | .w1 => { c with i1 := x }
  | .w2 => { c with i2 := x }
  | .w3 => { c with i3 := x }

/-- The way of the valid line with a tag. Where several valid lines of the set hold it, as test writes through TR5 can leave them,
the lowest way answers, and it alone takes a write or an invalidate cycle: 20_memory.md R170 to R174 and 71 R1101 and R1102 do not
say. DESIGN CHOICE (log entry 60). -/
def CacheSet.hit (c : CacheSet) (tag : BitVec 21) : Option Way :=
  if c.i0.valid && c.i0.tag == tag then some .w0
  else if c.i1.valid && c.i1.tag == tag then some .w1
  else if c.i2.valid && c.i2.tag == tag then some .w2
  else if c.i3.valid && c.i3.tag == tag then some .w3
  else none

def CacheSet.victim (c : CacheSet) : Way :=
  victimOf c.i0.valid c.i1.valid c.i2.valid c.i3.valid c.lru

/-- A set with its valid and LRU bits cleared; tags and data stay (71 R1102, CONTROL = 11). -/
def CacheSet.flushed (c : CacheSet) : CacheSet :=
  { i0 := { c.i0 with valid := false }, i1 := { c.i1 with valid := false },
    i2 := { c.i2 with valid := false }, i3 := { c.i3 with valid := false }, lru := .zero }

/-- The set of a physical address: bits 10 to 4. -/
def cacheIndex (a : Word32) : Nat := (a.extractLsb' 4 7).toNat
/-- The tag of a physical address: bits 31 to 11. -/
def cacheTag (a : Word32) : BitVec 21 := a.extractLsb' 11 21

/-- Byte `i` of a line. -/
def lineByte (d : BitVec 128) (i : Nat) : Byte := d.extractLsb' (8 * i) 8
/-- A line with byte `i` replaced. -/
def lineSetByte (d : BitVec 128) (i : Nat) (v : Byte) : BitVec 128 :=
  (d &&& ~~~((0xFF#128) <<< (8 * i))) ||| ((v.setWidth 128) <<< (8 * i))

/-- The sixteen bytes of memory of the line that holds an address. -/
def memLine (m : List Host.Cell) (a : Word32) : BitVec 128 :=
  BitVec.ofNat 128 (ofBytes ((List.range 16).map fun i => Memory.read m (a.toNat / 16 * 16 + i)))

/-- Bit `i` of CR0. -/
def State.cr0Bit (s : State) (i : Nat) : Bool := s.cr0.getLsbD i

/-- The cache set that a physical address falls into. -/
def State.cacheSetAt (s : State) (a : Word32) : CacheSet := sparseGet .blank s.cache (cacheIndex a)

/-- Store a cache set. -/
def State.putCacheSet (s : State) (i : Nat) (c : CacheSet) : State := { s with cache := sparseSet s.cache i c }

/-- The byte of a store of the current instruction not yet committed. -/
def pendingByte : List Host.Cell → Nat → Option Byte
  | [], _ => none
  | (k, v) :: t, a => if k = a then some v else pendingByte t a

/-- May a read miss allocate a line (20_memory.md R170, R171)? -/
def State.mayFill (s : State) (cacheable locked : Bool) : Bool :=
  cacheable && !locked && !s.cr0Bit 30 && s.pins.ken

/-- Read one physical byte through the cache (20_memory.md R170, R171; a locked read goes to memory, R131). DESIGN
CHOICE (log entry 15). -/
def State.readPhys (s : State) (a : Word32) (cacheable locked : Bool) : Byte × State :=
  match pendingByte s.insn.stores a.toNat with
  | some v => (v, s)
  | none =>
    let c := s.cacheSetAt a
    match (if locked then none else c.hit (cacheTag a)) with
    | some w =>
      (lineByte (c.get w).data (a.extractLsb' 0 4).toNat,
        s.putCacheSet (cacheIndex a) { c with lru := c.lru.touch w })
    | none =>
      if s.mayFill cacheable locked then
        let w := c.victim
        (Memory.read s.mem a.toNat,
          s.putCacheSet (cacheIndex a)
            { c.put w { valid := true, tag := cacheTag a, data := memLine s.mem a } with lru := c.lru.touch w })
      else (Memory.read s.mem a.toNat, s)

/-- Write one physical byte: a hit updates the line; memory is written too unless CD = NW = 1 and it hits
(20_memory.md R170, R171). A miss allocates nothing. DESIGN CHOICE (log entry 44): with CD = NW = 1 a locked write that hits
stays in the cache too, where R131 sends it to memory as well and R171 does not. -/
def State.writePhys (s : State) (a : Word32) (v : Byte) : State :=
  let c := s.cacheSetAt a
  match c.hit (cacheTag a) with
  | some w =>
    let l := c.get w
    let s := s.putCacheSet (cacheIndex a)
      { c.put w { l with data := lineSetByte l.data (a.extractLsb' 0 4).toNat v } with lru := c.lru.touch w }
    if s.cr0Bit 30 && s.cr0Bit 29 then s else { s with mem := Memory.write s.mem a.toNat v }
  | none => { s with mem := Memory.write s.mem a.toNat v }

/-- A locked read-modify-write of one physical byte, made at once (20_memory.md R131): the byte read is that of external
memory. Where a store that the instruction holds back covers the byte, the change is made to that store's byte too, which
comes to memory later (R155). -/
def State.updatePhys (s : State) (a : Word32) (f : Byte → Byte) : State :=
  let t := s.writePhys a (f (Memory.read s.mem a.toNat))
  match pendingByte s.insn.stores a.toNat with
  | none => t
  | some v => { t with insn := { t.insn with stores := (a.toNat, f v) :: t.insn.stores } }

/-- Commit the stores of the current instruction, oldest first. -/
def State.commitList (s : State) : List Host.Cell → State
  | [] => s
  | (a, v) :: t => (s.commitList t).writePhys (BitVec.ofNat 32 a) v

/-- Commit the stores of the current instruction and forget them. -/
def State.commitStores (s : State) : State :=
  let t := s.commitList s.insn.stores
  { t with insn := { t.insn with stores := [] } }

/-- Mark every line of the cache invalid (20_memory.md R172). -/
def State.flushCache (s : State) : State :=
  { s with cache := s.cache.map fun p => (p.1, p.2.flushed) }

end Sys2Proof.Machine
end

