-- ==== Sys2Proof/Machine/Paging.lean ====
section
/-!
DEFINITION. The monad of the meanings, the paging unit and accesses at linear addresses
(spec/21_segmentation_paging_protection.md R260 to R268; spec/71_debug_and_test_registers.md R1081, R1086, R1103).
-/
namespace Sys2Proof.Machine
open Sys2Proof

/-- What ends a meaning before its end. -/
inductive Exc where
  /-- An exception of the program's own instruction, a fault: vector, error code, and the DR6 bits its cause adds. -/
  | exn (vector : Byte) (code : Option Word16) (dr6 : Word32)
  /-- A software interrupt: INT n, INT 3, INTO (60_exceptions.md R920). -/
  | soft (vector : Byte)
  /-- The processor shuts down (60_exceptions.md R935). -/
  | shutdown
  /-- The processor freezes before this FPU instruction (45_fpu_common.md R664). -/
  | freeze
  /-- The model stops. -/
  | stop (f : Fault)
deriving DecidableEq, Repr

/-- A computation of a meaning: it reads and changes the state and may end early. -/
abbrev M (α : Type) := EStateM Exc State α

/-- Divide error. -/
def excDE : Exc := .exn 0#8 none 0#32
/-- Bound range exceeded. -/
def excBR : Exc := .exn 5#8 none 0#32
/-- Invalid opcode. -/
def excUD : Exc := .exn 6#8 none 0#32
/-- Device not available. -/
def excNM : Exc := .exn 7#8 none 0#32
/-- Invalid TSS. -/
def excTS (code : Word16) : Exc := .exn 10#8 (some code) 0#32
/-- Segment not present. -/
def excNP (code : Word16) : Exc := .exn 11#8 (some code) 0#32
/-- Stack fault. -/
def excSS (code : Word16) : Exc := .exn 12#8 (some code) 0#32
/-- General protection. -/
def excGP (code : Word16) : Exc := .exn 13#8 (some code) 0#32
/-- Page fault. -/
def excPF (code : Word16) : Exc := .exn 14#8 (some code) 0#32
/-- Floating-point error. -/
def excMF : Exc := .exn 16#8 none 0#32
/-- Alignment check. -/
def excAC : Exc := .exn 17#8 (some 0#16) 0#32

/-- Raise unless a condition holds. -/
def check (c : Bool) (e : Exc) : M Unit := if c then pure () else throw e

/-- A free value of `w` bits (log entry 9). -/
def draw (w : Nat) : M (BitVec w) := do
  let s ← get
  set { s with freeCtr := s.freeCtr + 1 }
  pure (Config.freeBits w s.freeCtr)

/-- Protection enabled. -/
def State.pe (s : State) : Bool := s.cr0Bit 0
/-- The VM flag. -/
def State.vm (s : State) : Bool := s.eflags.getLsbD 17
/-- Real Mode: CR0.PE = 0. -/
def State.real (s : State) : Bool := !s.pe
/-- Virtual 8086 Mode: PE = 1 and VM = 1. -/
def State.v86 (s : State) : Bool := s.pe && s.vm
/-- Protected Mode with VM = 0. -/
def State.prot (s : State) : Bool := s.pe && !s.vm
/-- Paging enabled. -/
def State.paging (s : State) : Bool := s.cr0Bit 31

/-- A20M# (20_memory.md R122): bit 20 is forced to 0 in Real Mode; its effect elsewhere is undefined, and the model
stops (93_implementation_defined.md U20). DESIGN CHOICE (log entry 35). -/
def maskA20 (a : Word32) : M Word32 := do
  let s ← get
  if !s.pins.a20m then pure a
  else if s.real then pure (a &&& 0xFFEFFFFF#32)
  else throw (.stop .a20OutsideRealMode)

/-- Read `n` bytes at a physical address, aligned structures of the paging unit. -/
def physRead (a : Word32) (cacheable locked : Bool) : Nat → M (List Byte)
  | 0 => pure []
  | n + 1 => do
    let p ← maskA20 a
    let s ← get
    let (v, t) := s.readPhys p cacheable locked
    set t
    let rest ← physRead (a + 1#32) cacheable locked n
    pure (v :: rest)

/-- Set bits in the bytes from a physical address on, with locked read-modify-writes made at once. -/
def physOr (a : Word32) : List Byte → M Unit
  | [] => pure ()
  | b :: t => do
    let p ← maskA20 a
    modify fun s => s.updatePhys p (· ||| b)
    physOr (a + 1#32) t

/-- The doubleword of a page table. -/
def physDword (a : Word32) (cacheable locked : Bool) : M Word32 := do
  let l ← physRead a cacheable locked 4
  pure (BitVec.ofNat 32 (ofBytes l))

def TlbSet.get (c : TlbSet) : Way → TlbEntry
  | .w0 => c.w0
  | .w1 => c.w1
  | .w2 => c.w2
  | .w3 => c.w3

def TlbSet.put (c : TlbSet) (w : Way) (x : TlbEntry) : TlbSet :=
  match w with
  | .w0 => { c with w0 := x }
  | .w1 => { c with w1 := x }
  | .w2 => { c with w2 := x }
  | .w3 => { c with w3 := x }

def TlbSet.victim (c : TlbSet) : Way :=
  victimOf c.w0.valid c.w1.valid c.w2.valid c.w3.valid c.lru

/-- The ways that satisfy a test. -/
def TlbSet.matching (c : TlbSet) (p : TlbEntry → Bool) : List Way :=
  [Way.w0, .w1, .w2, .w3].filter fun w => p (c.get w)

/-- The TLB set of a linear address: bits 14 to 12 (71 R1103). -/
def tlbIndex (lin : Word32) : Nat := (lin.extractLsb' 12 3).toNat
/-- The TLB tag of a linear address: bits 31 to 15. -/
def tlbTag (lin : Word32) : BitVec 17 := lin.extractLsb' 15 17

def State.tlbSetAt (s : State) (i : Nat) : TlbSet := sparseGet .blank s.tlb i
def State.putTlbSet (s : State) (i : Nat) (c : TlbSet) : State := { s with tlb := sparseSet s.tlb i c }

/-- The one way whose valid entry has the tag of a linear address: a tag held twice does not hit (71 R1104). -/
def TlbSet.hit (c : TlbSet) (tag : BitVec 17) : Option Way :=
  match c.matching (fun e => e.valid && e.tag == tag) with
  | [w] => some w
  | _ => none

/-- Flush the whole TLB (21 R267 c). DESIGN CHOICE (log entry 45): the LRU bits of every set become 0, as at reset and as those
of the cache do when it is flushed (71 R1101). -/
def State.flushTlb (s : State) : State := { s with tlb := [] }

/-- Invalidate the TLB entries of one page (INVLPG, 21 R267 c). Where several entries of the set hold the page, as writes through TR6 can
leave them, all of them become invalid: 21 R267 and 41 R466 speak of one entry. DESIGN CHOICE (log entry 66). -/
def State.invalidatePage (s : State) (lin : Word32) : State :=
  let c := s.tlbSetAt (tlbIndex lin)
  let f := fun e : TlbEntry => if e.tag == tlbTag lin then { e with valid := false } else e
  s.putTlbSet (tlbIndex lin) { c with w0 := f c.w0, w1 := f c.w1, w2 := f c.w2, w3 := f c.w3 }

/-- Is the access permitted by the combined attributes (21 R263)? -/
def pagePermits (s : State) (us rw write user : Bool) : Bool :=
  if user then us && (!write || rw) else !(write && !rw && s.cr0Bit 16)

/-- Raise a page fault at a linear address (21 R266); bits 15 to 3 of the code are free. DESIGN CHOICE (log entry 9). -/
def pageFault {α : Type} (lin : Word32) (present write user : Bool) : M α := do
  let u ← draw 13
  modify fun s => { s with cr2 := lin }
  throw (excPF (u ++ BitVec.ofBool user ++ BitVec.ofBool write ++ BitVec.ofBool present))

/-- The entry that an update goes by: the one first read where it has the bits already, else the one that the locked read of the
update finds (21 R262, 20_memory.md R131). -/
def secondRead (a : Word32) (old bits : Word32) : M Word32 :=
  if old &&& bits = bits then pure old else physDword a false true

/-- Set bits of a page table entry that the entry first read lacks, in the locked write of the update (21 R262, 20_memory.md R131). -/
def setEntryBits (a : Word32) (old bits : Word32) : M Unit :=
  if old &&& bits = bits then pure () else physOr a (toBytes 4 bits.toNat)

/-- The combined attributes of a page, user and writable: the numerically smaller of U/S:R/W of its two entries (21 R264). -/
def pageRights (pde pte : Word32) : Bool × Bool :=
  let a := min (pde.extractLsb' 1 2).toNat (pte.extractLsb' 1 2).toNat
  (decide (2 ≤ a), decide (a % 2 = 1))

/-- A page directory entry must be present (21 R260). -/
def checkPde (lin : Word32) (write user : Bool) (pde : Word32) : M Unit :=
  if pde.getLsbD 0 then pure () else pageFault lin false write user

/-- A page table entry must be present and, with its directory entry, permit the access (21 R260, R263). -/
def checkPte (lin : Word32) (write user : Bool) (pde pte : Word32) : M Unit := do
  let s ← get
  if !pte.getLsbD 0 then pageFault lin false write user
  else if pagePermits s (pageRights pde pte).1 (pageRights pde pte).2 write user then pure ()
  else pageFault lin true write user

/-- The two entries the paging unit walks through: the combined attributes and the page (21 R260, R264). An update reads its entry a
second time and what that read finds is used (R262): the walk goes by it, its P, U/S and R/W too. So the tests are made again on it,
before the update sets a bit, since an access that faults sets none. DEDUCED (log entry 61). -/
def walk (lin : Word32) (write user : Bool) : M TlbEntry := do
  let s ← get
  let pdeAddr := (s.cr3 &&& 0xFFFFF000#32) + ((lin >>> 22) <<< 2)
  let pde1 ← physDword pdeAddr (!s.cr3.getLsbD 4) false
  checkPde lin write user pde1
  let pde ← secondRead pdeAddr pde1 0x20#32
  checkPde lin write user pde
  setEntryBits pdeAddr pde1 0x20#32
  let pteAddr := (pde &&& 0xFFFFF000#32) + (((lin >>> 12) &&& 0x3FF#32) <<< 2)
  let pte1 ← physDword pteAddr (!pde.getLsbD 4) false
  checkPte lin write user pde pte1
  let need := if write then 0x60#32 else 0x20#32
  let pte ← secondRead pteAddr pte1 need
  checkPte lin write user pde pte
  setEntryBits pteAddr pte1 need
  pure { valid := true, tag := tlbTag lin, dirty := write || pte.getLsbD 6, user := (pageRights pde pte).1,
         writable := (pageRights pde pte).2, page := pte.extractLsb' 12 20, pcd := pte.getLsbD 4, pwt := pte.getLsbD 3 }

/-- Put a translation into the TLB and make it the most recent. Where the set already holds the page, as after the walk that a write
forces through an entry with D = 0 (21 R262), the translation takes the place of that entry, the first where several hold it, and not
of the least recently used one: 21 R262, R267 and 71 R1101 to R1104 do not say. DESIGN CHOICE (log entry 59). -/
def State.fillTlb (s : State) (lin : Word32) (e : TlbEntry) : State :=
  let c := s.tlbSetAt (tlbIndex lin)
  let w := match c.matching (fun x => x.valid && x.tag == e.tag) with
    | w :: _ => w
    | [] => c.victim
  s.putTlbSet (tlbIndex lin) { c.put w e with lru := c.lru.touch w }

/-- The TLB entry that serves an access: a permitted write through an entry not yet dirty walks again (21 R262). -/
def State.tlbServes (s : State) (lin : Word32) (write user : Bool) : Option Way :=
  let c := s.tlbSetAt (tlbIndex lin)
  match c.hit (tlbTag lin) with
  | some w =>
    if write && !(c.get w).dirty && pagePermits s (c.get w).user (c.get w).writable write user then none else some w
  | none => none

/-- The physical address of one byte and whether it may be cached (21 R260, R267, R268). DESIGN CHOICE (log entry
15). A hit that does not permit the access leaves the LRU bits of the set: 21 R267 and 71 R1101 to R1104 do not say. DESIGN CHOICE
(log entry 63). -/
def translate (lin : Word32) (write user : Bool) : M (Word32 × Bool) := do
  let s ← get
  if !s.paging then pure (lin, true)
  else
    match s.tlbServes lin write user with
    | some w =>
      let c := s.tlbSetAt (tlbIndex lin)
      let e := c.get w
      if pagePermits s e.user e.writable write user then do
        set (s.putTlbSet (tlbIndex lin) { c with lru := c.lru.touch w })
        pure (e.page ++ lin.extractLsb' 0 12, !e.pcd)
      else pageFault lin true write user
    | none => do
      let e ← walk lin write user
      modify fun s => s.fillTlb lin e
      pure (e.page ++ lin.extractLsb' 0 12, !e.pcd)

/-- The physical addresses of `n` bytes from a linear address on. Every page is checked before any byte moves. The bytes are translated
in the order of their addresses, so where both pages of an operand fault, the page of its first byte is the one reported, in CR2 and in
the error code: 20_memory.md R124 and 21 R260 and R266 give no order. DESIGN CHOICE (log entry 62). -/
def translateBytes (lin : Word32) (write user : Bool) : Nat → M (List (Word32 × Bool))
  | 0 => pure []
  | n + 1 => do
    let p ← translate lin write user
    let a ← maskA20 p.1
    let rest ← translateBytes (lin + 1#32) write user n
    pure ((a, p.2) :: rest)

/-- Read the bytes at physical addresses. -/
def readBytes (locked : Bool) : List (Word32 × Bool) → M (List Byte)
  | [] => pure []
  | p :: t => do
    let s ← get
    let (v, s') := s.readPhys p.1 p.2 locked
    set s'
    let rest ← readBytes locked t
    pure (v :: rest)

/-- Hold back the stores of bytes at physical addresses until the instruction completes. DEDUCED (log entry 40). -/
def storeBytes : List (Word32 × Bool) → List Byte → M Unit
  | p :: ps, v :: vs => do
    modify fun s => { s with insn := { s.insn with stores := (p.1.toNat, v) :: s.insn.stores } }
    storeBytes ps vs
  | _, _ => pure ()

/-- Write bytes at physical addresses at once. -/
def writeBytes : List (Word32 × Bool) → List Byte → M Unit
  | p :: ps, v :: vs => do
    modify fun s => s.updatePhys p.1 fun _ => v
    writeBytes ps vs
  | _, _ => pure ()

/-- Change bytes at physical addresses at once, each with a locked read-modify-write. -/
def updateBytes (f : Byte → Byte) : List (Word32 × Bool) → M Unit
  | [] => pure ()
  | p :: ps => do
    modify fun s => s.updatePhys p.1 f
    updateBytes f ps

/-- A data reference corrupts the cache read buffer; the fetch of an instruction is none (71 R1102). DEDUCED (log entry 17). -/
def State.refer (s : State) : State := { s with bufferSpoiled := true }

/-- A data reference is made. -/
def refer : M Unit := modify State.refer

/-- A supervisor read of `n` bytes at a linear address: descriptors, TSS (21 R265). -/
def sysRead (lin : Word32) (n : Nat) : M Nat := do
  refer
  let ps ← translateBytes lin false false n
  let l ← readBytes false ps
  pure (ofBytes l)

/-- A supervisor write of `n` bytes at a linear address, done at once (21 R265). -/
def sysWrite (lin : Word32) (n v : Nat) : M Unit := do
  refer
  let ps ← translateBytes lin true false n
  writeBytes ps (toBytes n v)

/-- A locked read-modify-write of one byte at a linear address, a supervisor access done at once (20_memory.md R131). -/
def sysUpdate (lin : Word32) (f : Byte → Byte) : M Unit := do
  refer
  let ps ← translateBytes lin true false 1
  updateBytes f ps

/-- Can a supervisor access of `n` bytes be made (61_tasking.md R993)? It changes nothing but what a walk changes. -/
def sysProbe (lin : Word32) (n : Nat) (write : Bool) : M Unit := do
  let _ ← translateBytes lin write false n
  pure ()

/-- The address register of breakpoint `n`. -/
def DebugRegs.addr (d : DebugRegs) : Nat → Word32
  | 0 => d.dr0
  | 1 => d.dr1
  | 2 => d.dr2
  | _ => d.dr3

/-- R/W of breakpoint `n` in DR7 (10_state.md R43). -/
def DebugRegs.rw (d : DebugRegs) (n : Nat) : BitVec 2 := d.dr7.extractLsb' (16 + 4 * n) 2
/-- LEN of breakpoint `n`. -/
def DebugRegs.len (d : DebugRegs) (n : Nat) : BitVec 2 := d.dr7.extractLsb' (18 + 4 * n) 2
/-- L or G of breakpoint `n` (71 R1088). -/
def DebugRegs.enabled (d : DebugRegs) (n : Nat) : Bool := d.dr7.getLsbD (2 * n) || d.dr7.getLsbD (2 * n + 1)

/-- The address bits a length masks; a length of 10 never matches (71 R1081). -/
def lenMask (len : BitVec 2) : Option Word32 :=
  if len = 0#2 then some 0#32 else if len = 1#2 then some 1#32 else if len = 3#2 then some 3#32 else none

/-- Is a linear address in the field of breakpoint `n` (71 R1081)? -/
def DebugRegs.inField (d : DebugRegs) (n : Nat) (a : Word32) : Bool :=
  match lenMask (d.len n) with
  | none => false
  | some m => a &&& ~~~m == d.addr n &&& ~~~m

/-- Is some byte of `[a, a + k - 1]` in the field of breakpoint `n`? -/
def DebugRegs.touches (d : DebugRegs) (n : Nat) (a : Word32) : Nat → Bool
  | 0 => false
  | k + 1 => d.inField n a || d.touches n (a + 1#32) k

/-- Bit `i` set when `f i` holds. -/
def bits4 (f : Nat → Bool) : BitVec 4 :=
  BitVec.ofBool (f 3) ++ BitVec.ofBool (f 2) ++ BitVec.ofBool (f 1) ++ BitVec.ofBool (f 0)

/-- Does breakpoint `n` match a data access (71 R1086)? -/
def DebugRegs.dataMatch (d : DebugRegs) (lin : Word32) (k : Nat) (write : Bool) (n : Nat) : Bool :=
  ((d.rw n == 1#2 && write) || d.rw n == 3#2) && d.touches n lin k

/-- The instruction breakpoints that match an instruction at a linear address (71 R1082). -/
def DebugRegs.instrMatch (d : DebugRegs) (lin : Word32) : BitVec 4 :=
  bits4 fun n => d.rw n == 0#2 && d.inField n lin

/-- Record a data reference of the program and the data breakpoints it matches. -/
def noteAccess (lin : Word32) (k : Nat) (write : Bool) : M Unit :=
  modify fun s =>
    { s.refer with insn := { s.insn with hits := s.insn.hits ||| bits4 (s.dr.dataMatch lin k write) } }

end Sys2Proof.Machine
end

