-- ==== Sys2Proof/Machine/Segment.lean ====
section
/-!
DEFINITION. Registers, segmentation, data accesses, the stack, descriptors and the loading of segment registers
(spec/10_state.md R21 to R30; spec/20_memory.md R123 to R142;
spec/21_segmentation_paging_protection.md R181 to R213).
-/
namespace Sys2Proof

/-- The register whose byte a byte register code names (R21): AL, CL, DL, BL, AH, CH, DH, BH. -/
def Reg.byteHome : Reg → Reg
  | .eax => .eax
  | .ecx => .ecx
  | .edx => .edx
  | .ebx => .ebx
  | .esp => .eax
  | .ebp => .ecx
  | .esi => .edx
  | .edi => .ebx

/-- Does a byte register code name bits 15 to 8 (R21)? -/
def Reg.isHigh : Reg → Bool
  | .eax | .ecx | .edx | .ebx => false
  | .esp | .ebp | .esi | .edi => true

/-- Keep the low 16 bits of an offset when the size is 16. -/
def Size.trunc : Size → Word32 → Word32
  | .s16, v => (v.setWidth 16).setWidth 32
  | .s32, v => v

/-- Replace the part of a 32-bit register a size names. -/
def Size.merge : Size → Word32 → Word32 → Word32
  | .s16, o, v => o.extractLsb' 16 16 ++ v.setWidth 16
  | .s32, _, v => v

end Sys2Proof

namespace Sys2Proof.Machine
open Sys2Proof

/-- A general register, all 32 bits. -/
def Gprs.get (g : Gprs) : Reg → Word32
  | .eax => g.eax
  | .ecx => g.ecx
  | .edx => g.edx
  | .ebx => g.ebx
  | .esp => g.esp
  | .ebp => g.ebp
  | .esi => g.esi
  | .edi => g.edi

/-- Replace a general register, all 32 bits. -/
def Gprs.put (g : Gprs) (r : Reg) (v : Word32) : Gprs :=
  match r with
  | .eax => { g with eax := v }
  | .ecx => { g with ecx := v }
  | .edx => { g with edx := v }
  | .ebx => { g with ebx := v }
  | .esp => { g with esp := v }
  | .ebp => { g with ebp := v }
  | .esi => { g with esi := v }
  | .edi => { g with edi := v }

/-- A register operand of a width (R21). -/
def Gprs.read (g : Gprs) : (w : Width) → Reg → BitVec w.bits
  | .byte, r => (g.get r.byteHome).extractLsb' (if r.isHigh then 8 else 0) 8
  | .word, r => (g.get r).setWidth 16
  | .dword, r => g.get r

/-- Write a register operand of a width; the other bits of the register stay (R21). -/
def Gprs.write (g : Gprs) : (w : Width) → Reg → BitVec w.bits → Gprs
  | .byte, r, v =>
    let o := g.get r.byteHome
    g.put r.byteHome
      (if r.isHigh then o.extractLsb' 16 16 ++ v ++ o.extractLsb' 0 8 else o.extractLsb' 8 24 ++ v)
  | .word, r, v => g.put r ((g.get r).extractLsb' 16 16 ++ v)
  | .dword, r, v => g.put r v

/-- Replace the general registers. -/
def State.setGpr (s : State) (g : Gprs) : State := { s with gpr := g }
/-- Replace EIP. -/
def State.setEip (s : State) (v : Word32) : State := { s with eip := v }

/-- Read a register operand. -/
def getReg (w : Width) (r : Reg) : M (BitVec w.bits) := do pure ((← get).gpr.read w r)
/-- Write a register operand. -/
def setReg (w : Width) (r : Reg) (v : BitVec w.bits) : M Unit :=
  modify fun s => s.setGpr (s.gpr.write w r v)

/-- A segment register. -/
def Segs.get (x : Segs) : SReg → SegReg
  | .es => x.es
  | .cs => x.cs
  | .ss => x.ss
  | .ds => x.ds
  | .fs => x.fs
  | .gs => x.gs

/-- Replace a segment register. -/
def Segs.put (x : Segs) (r : SReg) (v : SegReg) : Segs :=
  match r with
  | .es => { x with es := v }
  | .cs => { x with cs := v }
  | .ss => { x with ss := v }
  | .ds => { x with ds := v }
  | .fs => { x with fs := v }
  | .gs => { x with gs := v }

/-- Replace a segment register of the state. -/
def State.putSeg (s : State) (r : SReg) (v : SegReg) : State := { s with seg := s.seg.put r v }
/-- Replace a segment register. -/
def setSeg (r : SReg) (v : SegReg) : M Unit := modify fun s => s.putSeg r v

/-- Code segment: E = 1. -/
def SegReg.isCode (x : SegReg) : Bool := x.typ.getLsbD 3
/-- ED of a data segment, C of a code segment. -/
def SegReg.bit2 (x : SegReg) : Bool := x.typ.getLsbD 2
/-- W of a data segment, R of a code segment. -/
def SegReg.bit1 (x : SegReg) : Bool := x.typ.getLsbD 1

/-- The kinds of a checked access. -/
inductive Access where
  | read
  | write
deriving DecidableEq, Repr

/-- Do the type tests of R200 pass? Only Protected Mode makes them. -/
def segTypeOk (s : State) (x : SegReg) (k : Access) : Bool :=
  !s.prot ||
    (x.usable &&
      match k with
      | .write => !x.isCode && x.bit1
      | .read => !x.isCode || x.bit1)

/-- Does the limit test of R200 pass? With 16-bit addressing an access past offset FFFFh fails it too (R200, 40 R404 a). -/
def segLimitOk (z : Size) (x : SegReg) (off n : Nat) : Bool :=
  decide (z = .s32 ∨ off + n ≤ 0x10000) &&
    if !x.isCode && x.bit2 then
      decide (x.limit.toNat < off) && decide (off + n ≤ (if x.db then 0x100000000 else 0x10000))
    else decide (off + n ≤ x.limit.toNat + 1)

/-- The segment check of R200: the linear address of an n-byte access of an address size, or the exception. -/
def segCheck (z : Size) (r : SReg) (off : Word32) (n : Nat) (k : Access) : M Word32 := do
  let s ← get
  let x := s.seg.get r
  check (segTypeOk s x k) (excGP 0#16)
  check (segLimitOk z x off.toNat n) (if r = .ss then excSS 0#16 else excGP 0#16)
  pure (x.base + off)

/-- Is alignment checked now (20_memory.md R126)? -/
def State.alignOn (s : State) : Bool := s.cr0Bit 18 && s.eflags.getLsbD 18 && s.cpl == 3#2

/-- The alignment check (20_memory.md R126): after the segment check, before paging. -/
def alignCheck (lin : Word32) (a : Nat) : M Unit := do
  let s ← get
  check (!s.alignOn || decide (lin.toNat % a = 0)) excAC

/-- Is an access at the program's own privilege a user access (R263)? -/
def State.user (s : State) : Bool := s.cpl == 3#2

/-- Read an n-byte operand (00_scope.md R10): segment check, alignment, debug match, paging. -/
def memRead (z : Size) (r : SReg) (off : Word32) (n align : Nat) : M Nat := do
  let lin ← segCheck z r off n .read
  alignCheck lin align
  noteAccess lin n false
  let s ← get
  let ps ← translateBytes lin false s.user n
  let l ← readBytes s.insn.lock ps
  pure (ofBytes l)

/-- Check that an n-byte operand can be written, without writing it. -/
def memProbe (z : Size) (r : SReg) (off : Word32) (n align : Nat) : M Unit := do
  let lin ← segCheck z r off n .write
  alignCheck lin align
  let s ← get
  let _ ← translateBytes lin true s.user n
  pure ()

/-- Write an n-byte operand. -/
def memWrite (z : Size) (r : SReg) (off : Word32) (n align v : Nat) : M Unit := do
  let lin ← segCheck z r off n .write
  alignCheck lin align
  noteAccess lin n true
  let s ← get
  let ps ← translateBytes lin true s.user n
  storeBytes ps (toBytes n v)

/-- Read an n-byte operand that will be written back: the write is checked first (40 R400). DESIGN CHOICE (log entry 46): its
pages are translated as for a write from the start, so a page fault of such an operand has W/R = 1. -/
def memReadWrite (z : Size) (r : SReg) (off : Word32) (n align : Nat) : M Nat := do
  memProbe z r off n align
  memRead z r off n align

/-- The stack address size (20_memory.md R140). -/
def State.stackSize (s : State) : Size := if s.prot && s.seg.ss.db then .s32 else .s16

/-- The stack pointer: ESP, or SP extended with zeros. -/
def State.sp (s : State) : Word32 := s.stackSize.trunc s.gpr.esp

/-- Set the stack pointer: ESP, or SP alone. -/
def setSp (v : Word32) : M Unit :=
  modify fun s => s.setGpr { s.gpr with esp := s.stackSize.merge s.gpr.esp v }

/-- Push an n-byte item (20_memory.md R141). A Real Mode push that would straddle offset 0 shuts down
(60_exceptions.md R935). The stack pointer changes only after the write has passed its checks. DEDUCED (log entry
37). -/
def push (n v : Nat) : M Unit := do
  let s ← get
  let sp := s.sp
  if s.real && decide (0 < sp.toNat) && decide (sp.toNat < n) then throw .shutdown
  else do
    let off := s.stackSize.trunc (sp - BitVec.ofNat 32 n)
    memWrite s.stackSize .ss off n n v
    setSp off

/-- Read the n-byte item `k` bytes above the top of the stack. -/
def stackRead (k n : Nat) : M Nat := do
  let s ← get
  memRead s.stackSize .ss (s.stackSize.trunc (s.sp + BitVec.ofNat 32 k)) n n

/-- Release `k` bytes of stack. -/
def stackFree (k : Nat) : M Unit := do
  let s ← get
  setSp (s.sp + BitVec.ofNat 32 k)

/-- Pop an n-byte item (20_memory.md R142). -/
def pop (n : Nat) : M Nat := do
  let v ← stackRead 0 n
  stackFree n
  pure v

/-- A descriptor: the dwords at +0 and +4 (R188). -/
structure Desc where
  lo : Word32
  hi : Word32
deriving DecidableEq, Repr

/-- Type (R192). -/
def Desc.typ (d : Desc) : BitVec 4 := d.hi.extractLsb' 8 4
/-- S: code or data. -/
def Desc.s (d : Desc) : Bool := d.hi.getLsbD 12
def Desc.dpl (d : Desc) : BitVec 2 := d.hi.extractLsb' 13 2
def Desc.present (d : Desc) : Bool := d.hi.getLsbD 15
def Desc.db (d : Desc) : Bool := d.hi.getLsbD 22
def Desc.g (d : Desc) : Bool := d.hi.getLsbD 23
def Desc.avl (d : Desc) : Bool := d.hi.getLsbD 20
def Desc.base (d : Desc) : Word32 := d.hi.extractLsb' 24 8 ++ d.hi.extractLsb' 0 8 ++ d.lo.extractLsb' 16 16
/-- The effective limit (R194). -/
def Desc.limit (d : Desc) : Word32 :=
  let l := d.hi.extractLsb' 16 4 ++ d.lo.extractLsb' 0 16
  if d.g then l ++ 0xFFF#12 else l.setWidth 32
/-- A code segment descriptor. -/
def Desc.isCode (d : Desc) : Bool := d.s && d.hi.getLsbD 11
/-- A data segment descriptor. -/
def Desc.isData (d : Desc) : Bool := d.s && !d.hi.getLsbD 11
/-- A conforming code segment. -/
def Desc.conforming (d : Desc) : Bool := d.isCode && d.hi.getLsbD 10
/-- Writable data. -/
def Desc.writable (d : Desc) : Bool := d.isData && d.hi.getLsbD 9
/-- Data, or readable code. -/
def Desc.readable (d : Desc) : Bool := d.isData || (d.isCode && d.hi.getLsbD 9)
/-- The destination selector of a gate (R198). -/
def Desc.gateSel (d : Desc) : Word16 := d.lo.extractLsb' 16 16
/-- The destination offset of a gate: 32 bits for an Am486 gate, 16 for an 80286 gate (R198). -/
def Desc.gateOffset (d : Desc) : Word32 :=
  if d.hi.getLsbD 11 then d.hi.extractLsb' 16 16 ++ d.lo.extractLsb' 0 16 else (d.lo.extractLsb' 0 16).setWidth 32
/-- The word count of a call gate, masked to 5 bits. -/
def Desc.gateCount (d : Desc) : Nat := (d.hi.extractLsb' 0 5).toNat

/-- The RPL of a selector (R185). -/
def selRpl (x : Word16) : BitVec 2 := x.extractLsb' 0 2
/-- TI of a selector: true for the LDT. -/
def selTi (x : Word16) : Bool := x.getLsbD 2
/-- The offset of a selector's descriptor in its table. -/
def selOffset (x : Word16) : Word32 := (x &&& 0xFFF8#16).setWidth 32
/-- A null selector (R186). -/
def selNull (x : Word16) : Bool := x &&& 0xFFFC#16 == 0#16
/-- The error code that names a selector (60_exceptions.md R910). -/
def selCode (x : Word16) (ext : Bool) : Word16 := (x &&& 0xFFFC#16) ||| (BitVec.ofBool ext).setWidth 16
/-- A selector with its RPL replaced. -/
def withRpl (x : Word16) (l : BitVec 2) : Word16 := x.extractLsb' 2 14 ++ l
/-- The EXT bit as an error code. -/
def extCode (ext : Bool) : Word16 := (BitVec.ofBool ext).setWidth 16

/-- Is a selector within the limit of its table (R187)? -/
def selInTable (s : State) (x : Word16) : Bool :=
  if selTi x then s.ldtr.valid && decide ((selOffset x).toNat + 7 ≤ s.ldtr.limit.toNat)
  else decide ((selOffset x).toNat + 7 ≤ s.gdtr.limit.toNat)

/-- The linear address of a selector's descriptor. -/
def descAddr (s : State) (x : Word16) : Word32 :=
  (if selTi x then s.ldtr.base else s.gdtr.base) + selOffset x

/-- Read a selector's descriptor (R188). -/
def readDesc (x : Word16) : M Desc := do
  let s ← get
  let a := descAddr s x
  let lo ← sysRead a 4
  let hi ← sysRead (a + 4#32) 4
  pure { lo := BitVec.ofNat 32 lo, hi := BitVec.ofNat 32 hi }

/-- Set the Accessed bit of a code or data descriptor in memory if it is 0, with a locked read-modify-write of its byte 5
(R199, 20_memory.md R131). -/
def markAccessed (x : Word16) (d : Desc) : M Unit := do
  let s ← get
  if d.hi.getLsbD 8 then pure () else sysUpdate (descAddr s x + 5#32) (· ||| 1#8)

/-- The hidden part of a segment register loaded from a descriptor, with its selector. -/
def Desc.toSeg (d : Desc) (x : Word16) : SegReg :=
  { sel := x, base := d.base, limit := d.limit, usable := true, present := d.present, dpl := d.dpl, s := d.s,
    typ := d.typ ||| 1#4, db := d.db, g := d.g, avl := d.avl }

/-- A segment register holding a null selector (R186), or a selector not yet checked. -/
def SegReg.null (old : SegReg) (x : Word16) : SegReg := { old with sel := x, usable := false }

/-- A Real Mode load: only the selector and the base change (10_state.md R28, R181, D8). The mark that makes a register with a null
selector unusable goes away: R28 and D8 do not speak of it. DESIGN CHOICE (log entry 65). -/
def SegReg.loadReal (old : SegReg) (x : Word16) : SegReg :=
  { old with sel := x, base := x.setWidth 32 <<< 4, usable := true }

/-- A V86 load (10_state.md R28, R182). -/
def SegReg.v86 (x : Word16) : SegReg :=
  { sel := x, base := x.setWidth 32 <<< 4, limit := 0xFFFF#32, usable := true, present := true, dpl := 3#2,
    s := true, typ := 0x3#4, db := false, g := false, avl := false }

/-- Load DS, ES, FS or GS in Protected Mode (R210). -/
def loadDataSeg (r : SReg) (x : Word16) : M Unit := do
  let s ← get
  if selNull x then setSeg r ((s.seg.get r).null x)
  else do
    check (selInTable s x) (excGP (selCode x false))
    let d ← readDesc x
    check d.readable (excGP (selCode x false))
    check (d.conforming || (decide ((selRpl x).toNat ≤ d.dpl.toNat) && decide (s.cpl.toNat ≤ d.dpl.toNat)))
      (excGP (selCode x false))
    check d.present (excNP (selCode x false))
    markAccessed x d
    setSeg r (d.toSeg x)

/-- Load SS in Protected Mode (R211). -/
def loadStackSeg (x : Word16) : M Unit := do
  let s ← get
  check (!selNull x) (excGP 0#16)
  check (selInTable s x) (excGP (selCode x false))
  check (selRpl x == s.cpl) (excGP (selCode x false))
  let d ← readDesc x
  check d.writable (excGP (selCode x false))
  check (d.dpl == s.cpl) (excGP (selCode x false))
  check d.present (excSS (selCode x false))
  markAccessed x d
  setSeg .ss (d.toSeg x)

/-- Load a segment register other than CS in the current mode (10_state.md R28, R210, R211). -/
def loadSeg (r : SReg) (x : Word16) : M Unit := do
  let s ← get
  if s.prot then (if r = .ss then loadStackSeg x else loadDataSeg r x)
  else if s.v86 then setSeg r (SegReg.v86 x)
  else setSeg r ((s.seg.get r).loadReal x)

/-- Does an EIP lie within a code segment limit? -/
def eipOk (limit eip : Word32) : Bool := decide (eip.toNat ≤ limit.toNat)

end Sys2Proof.Machine
end

