-- ==== Sys2Proof/Machine/Flags.lean ====
section
/-!
DEFINITION. EFLAGS, the flag computations of every integer instruction and the arithmetic they go with
(spec/10_state.md R25, R26; spec/40_int_a_to_c.md R402; spec/43_int_m_to_r.md R581 to R587;
spec/44_int_s_to_x.md R601 to R611; spec/30_encoding.md R318).
-/
namespace Sys2Proof.Machine
open Sys2Proof

/-- The carry flag. -/
def State.cf (s : State) : Bool := s.eflags.getLsbD 0
/-- The parity flag. -/
def State.pf (s : State) : Bool := s.eflags.getLsbD 2
/-- The auxiliary carry flag. -/
def State.af (s : State) : Bool := s.eflags.getLsbD 4
/-- The zero flag. -/
def State.zf (s : State) : Bool := s.eflags.getLsbD 6
/-- The sign flag. -/
def State.sf (s : State) : Bool := s.eflags.getLsbD 7
/-- The trap flag. -/
def State.tf (s : State) : Bool := s.eflags.getLsbD 8
/-- The interrupt enable flag. -/
def State.ifl (s : State) : Bool := s.eflags.getLsbD 9
/-- The direction flag. -/
def State.df (s : State) : Bool := s.eflags.getLsbD 10
/-- The overflow flag. -/
def State.of (s : State) : Bool := s.eflags.getLsbD 11
/-- The I/O privilege level. -/
def State.iopl (s : State) : BitVec 2 := s.eflags.extractLsb' 12 2
/-- The nested task flag. -/
def State.nt (s : State) : Bool := s.eflags.getLsbD 14
/-- The resume flag. -/
def State.rf (s : State) : Bool := s.eflags.getLsbD 16

/-- A word with bit `i` replaced. -/
def setBit (v : Word32) (i : Nat) (b : Bool) : Word32 :=
  if b then v ||| (1#32 <<< i) else v &&& ~~~(1#32 <<< i)

/-- A word with the bits of a mask taken from another. -/
def mix (mask new old : Word32) : Word32 := (new &&& mask) ||| (old &&& ~~~mask)

/-- EFLAGS with its reserved bits at their fixed values (10_state.md R25). -/
def fixFlags (v : Word32) : Word32 := (v &&& 0x00077FD5#32) ||| 0x2#32

/-- Replace EFLAGS. -/
def State.setEflags (s : State) (v : Word32) : State := { s with eflags := v }

/-- What an instruction does to one status flag. -/
inductive FlagUpd where
  | keep
  | set (b : Bool)
  | undef
deriving DecidableEq, Repr

/-- What an instruction does to the six status flags. -/
structure StatusUpd where
  cf : FlagUpd := .keep
  pf : FlagUpd := .keep
  af : FlagUpd := .keep
  zf : FlagUpd := .keep
  sf : FlagUpd := .keep
  of : FlagUpd := .keep
deriving DecidableEq, Repr

/-- One flag after an update; `free` is the value an undefined flag takes. -/
def FlagUpd.apply (u : FlagUpd) (i : Nat) (free : Bool) (v : Word32) : Word32 :=
  match u with
  | .keep => v
  | .set b => setBit v i b
  | .undef => setBit v i free

/-- EFLAGS after an update; bit `k` of `d` is the free value of the `k`-th status flag. -/
def StatusUpd.apply (u : StatusUpd) (d : BitVec 6) (v : Word32) : Word32 :=
  u.of.apply 11 (d.getLsbD 5) (u.sf.apply 7 (d.getLsbD 4) (u.zf.apply 6 (d.getLsbD 3)
    (u.af.apply 4 (d.getLsbD 2) (u.pf.apply 2 (d.getLsbD 1) (u.cf.apply 0 (d.getLsbD 0) v)))))

/-- Does an update leave a flag undefined? -/
def StatusUpd.open? (u : StatusUpd) : Bool :=
  [u.cf, u.pf, u.af, u.zf, u.sf, u.of].any (· == .undef)

/-- Update the status flags; the undefined ones take free values. DESIGN CHOICE (log entry 9). -/
def setStatus (u : StatusUpd) : M Unit := do
  let d ← if u.open? then draw 6 else pure 0#6
  modify fun s => s.setEflags (u.apply d s.eflags)

/-- The six status flags undefined. -/
def StatusUpd.undefined : StatusUpd :=
  { cf := .undef, pf := .undef, af := .undef, zf := .undef, sf := .undef, of := .undef }

/-- Even parity of a byte (10_state.md R26). -/
def evenParity (b : Byte) : Bool :=
  !(b.getLsbD 0 ^^ b.getLsbD 1 ^^ b.getLsbD 2 ^^ b.getLsbD 3 ^^ b.getLsbD 4 ^^ b.getLsbD 5 ^^ b.getLsbD 6 ^^
    b.getLsbD 7)

/-- SetSZP of R402, over an update of the other flags. -/
def withSzp {n : Nat} (r : BitVec n) (u : StatusUpd) : StatusUpd :=
  { u with sf := .set r.msb, zf := .set (r == 0#n), pf := .set (evenParity (r.setWidth 8)) }

/-- AddFlags of R402: the sum and the flags. -/
def addFlags {n : Nat} (a b : BitVec n) (c : Bool) : BitVec n × StatusUpd :=
  let s := a.toNat + b.toNat + c.toNat
  let r := BitVec.ofNat n s
  (r, withSzp r
    { cf := .set (decide (2 ^ n ≤ s))
      af := .set (decide (16 ≤ a.toNat % 16 + b.toNat % 16 + c.toNat))
      of := .set (a.msb == b.msb && r.msb != a.msb) })

/-- SubFlags of R402: the difference and the flags. -/
def subFlags {n : Nat} (a b : BitVec n) (c : Bool) : BitVec n × StatusUpd :=
  let r := a - b - BitVec.ofNat n c.toNat
  (r, withSzp r
    { cf := .set (decide (a.toNat < b.toNat + c.toNat))
      af := .set (decide (a.toNat % 16 < b.toNat % 16 + c.toNat))
      of := .set (a.msb != b.msb && r.msb != a.msb) })

/-- LogicFlags of R402: CF and OF cleared, AF undefined. -/
def logicFlags {n : Nat} (r : BitVec n) : BitVec n × StatusUpd :=
  (r, withSzp r { cf := .set false, of := .set false, af := .undef })

/-- The flags of a shift by a count that is not 0 (44 R601): AF undefined, OF defined for a count of 1. -/
def shiftFlags {n : Nat} (c : Nat) (cf : FlagUpd) (of : Bool) (r : BitVec n) : BitVec n × StatusUpd :=
  (r, withSzp r { cf := cf, af := .undef, of := if c = 1 then .set of else .undef })

/-- SHL and SAL (44 R602, R608) by a masked count. -/
def shlOp {n : Nat} (x : BitVec n) (c : Nat) : BitVec n × StatusUpd :=
  if c = 0 then (x, {})
  else
    let r := x <<< c
    let cf := x.getLsbD (n - c)
    shiftFlags c (if c ≤ n then .set cf else .undef) (r.msb ^^ cf) r

/-- SHR (44 R610) by a masked count. -/
def shrOp {n : Nat} (x : BitVec n) (c : Nat) : BitVec n × StatusUpd :=
  if c = 0 then (x, {})
  else shiftFlags c (if c ≤ n then .set (x.getLsbD (c - 1)) else .undef) x.msb (x >>> c)

/-- SAR (44 R603) by a masked count. -/
def sarOp {n : Nat} (x : BitVec n) (c : Nat) : BitVec n × StatusUpd :=
  if c = 0 then (x, {})
  else shiftFlags c (.set ((x.sshiftRight (c - 1)).getLsbD 0)) false (x.sshiftRight c)

/-- The flags of a rotate by a count that is not 0 (43 R581). -/
def rotateFlags {n : Nat} (c : Nat) (cf of : Bool) (r : BitVec n) : BitVec n × StatusUpd :=
  (r, { cf := .set cf, of := if c = 1 then .set of else .undef })

/-- ROL (43 R586) by a masked count. -/
def rolOp {n : Nat} (x : BitVec n) (c : Nat) : BitVec n × StatusUpd :=
  if c = 0 then (x, {})
  else
    let r := x.rotateLeft (c % n)
    rotateFlags c (r.getLsbD 0) (r.msb ^^ r.getLsbD 0) r

/-- ROR (43 R587) by a masked count. -/
def rorOp {n : Nat} (x : BitVec n) (c : Nat) : BitVec n × StatusUpd :=
  if c = 0 then (x, {})
  else
    let r := x.rotateRight (c % n)
    rotateFlags c r.msb (r.msb ^^ r.getLsbD (n - 2)) r

/-- RCL (43 R582) by a masked count: a rotate of the n + 1 bits CF:x. -/
def rclOp {n : Nat} (x : BitVec n) (cf : Bool) (c : Nat) : BitVec n × StatusUpd :=
  if c = 0 then (x, {})
  else
    let v := (BitVec.cons cf x).rotateLeft (c % (n + 1))
    let r := v.setWidth n
    rotateFlags c v.msb (r.msb ^^ v.msb) r

/-- RCR (43 R583) by a masked count. -/
def rcrOp {n : Nat} (x : BitVec n) (cf : Bool) (c : Nat) : BitVec n × StatusUpd :=
  if c = 0 then (x, {})
  else
    let v := (BitVec.cons cf x).rotateRight (c % (n + 1))
    let r := v.setWidth n
    rotateFlags c v.msb (r.msb ^^ r.getLsbD (n - 2)) r

/-- SHLD (44 R609) with 0 < s < n: the bits of `i` come in from the right. -/
def shldOp {n : Nat} (d i : BitVec n) (s : Nat) : BitVec n × StatusUpd :=
  let r := (d <<< s) ||| (i >>> (n - s))
  shiftFlags s (.set (d.getLsbD (n - s))) (r.msb ^^ d.msb) r

/-- SHRD (44 R611) with 0 < s < n: the bits of `i` come in from the left. -/
def shrdOp {n : Nat} (d i : BitVec n) (s : Nat) : BitVec n × StatusUpd :=
  let r := (d >>> s) ||| (i <<< (n - s))
  shiftFlags s (.set (d.getLsbD (s - 1))) (r.msb ^^ d.msb) r

/-- AAA (40 R410) and AAS (40 R413) on AL and AH; `sub` chooses AAS. -/
def asciiAdjust (sub : Bool) (al ah : Byte) (af : Bool) : Byte × Byte × StatusUpd :=
  let adj := decide (9 < (al &&& 0x0F#8).toNat) || af
  let al' := if adj then (if sub then al - 6#8 else al + 6#8) else al
  let ah' := if adj then (if sub then ah - 1#8 else ah + 1#8) else ah
  (al' &&& 0x0F#8, ah',
    { cf := .set adj, af := .set adj, of := .undef, sf := .undef, zf := .undef, pf := .undef })

/-- DAA (41 R450) and DAS (41 R451) on AL; `sub` chooses DAS. -/
def decimalAdjust (sub : Bool) (al : Byte) (af cf : Bool) : Byte × StatusUpd :=
  let lowAdj := decide (9 < (al &&& 0x0F#8).toNat) || af
  let a1 := if lowAdj then (if sub then al - 6#8 else al + 6#8) else al
  let highAdj := decide (0x9F < a1.toNat) || cf
  let a2 := if highAdj then (if sub then a1 - 0x60#8 else a1 + 0x60#8) else a1
  (a2, withSzp a2 { cf := .set highAdj, af := .set lowAdj, of := .undef })

/-- The flags of AAD and AAM (40 R411, R412): SF, ZF, PF of AL, the rest undefined. -/
def asciiFlags (al : Byte) : StatusUpd :=
  withSzp al { cf := .undef, af := .undef, of := .undef }

/-- MUL (43 R566): the double-width product and the flags. -/
def mulOp {n : Nat} (a b : BitVec n) : BitVec (2 * n) × StatusUpd :=
  let p := a.toNat * b.toNat
  let big := decide (2 ^ n ≤ p)
  (BitVec.ofNat (2 * n) p,
    { cf := .set big, of := .set big, sf := .undef, zf := .undef, af := .undef, pf := .undef })

/-- IMUL (41 R457): the double-width product and the flags. -/
def imulOp {n : Nat} (a b : BitVec n) : BitVec (2 * n) × StatusUpd :=
  let p := a.toInt * b.toInt
  let big := decide (p ≠ (BitVec.ofInt n p).toInt)
  (BitVec.ofInt (2 * n) p,
    { cf := .set big, of := .set big, sf := .undef, zf := .undef, af := .undef, pf := .undef })

/-- DIV (41 R453): quotient and remainder, or none where #DE is raised. -/
def divOp {n : Nat} (d : BitVec (2 * n)) (v : BitVec n) : Option (BitVec n × BitVec n) :=
  if v = 0#n then none
  else if 2 ^ n ≤ d.toNat / v.toNat then none
  else some (BitVec.ofNat n (d.toNat / v.toNat), BitVec.ofNat n (d.toNat % v.toNat))

/-- IDIV (41 R456): quotient truncated toward 0 and remainder, or none where #DE is raised. -/
def idivOp {n : Nat} (d : BitVec (2 * n)) (v : BitVec n) : Option (BitVec n × BitVec n) :=
  if v = 0#n then none
  else
    let q := d.toInt.tdiv v.toInt
    if q < -(2 ^ (n - 1) : Int) ∨ (2 ^ (n - 1) : Int) ≤ q then none
    else some (BitVec.ofInt n q, BitVec.ofInt n (d.toInt.tmod v.toInt))

/-- A condition of Jcc and SETcc (30_encoding.md R318; 42 R500). -/
def State.cond (s : State) : Cond → Bool
  | .o => s.of
  | .no => !s.of
  | .b => s.cf
  | .nb => !s.cf
  | .e => s.zf
  | .ne => !s.zf
  | .be => s.cf || s.zf
  | .nbe => !(s.cf || s.zf)
  | .s => s.sf
  | .ns => !s.sf
  | .p => s.pf
  | .np => !s.pf
  | .l => s.sf != s.of
  | .nl => s.sf == s.of
  | .le => s.zf || (s.sf != s.of)
  | .nle => !s.zf && (s.sf == s.of)

/-- LoadFlags (41 R467): what POPF and IRET load, by the privilege level they run at. `rf` says whether RF is loaded. -/
def loadFlags (image : Word32) (size : Size) (cpl : BitVec 2) (rf : Bool) (old : Word32) : Word32 :=
  let iopl := old.extractLsb' 12 2
  let mask := 0x4DD5#32
    ||| (if cpl.toNat ≤ iopl.toNat then 0x200#32 else 0#32)
    ||| (if cpl = 0#2 then 0x3000#32 else 0#32)
    ||| (match size with
         | .s16 => 0#32
         | .s32 => if rf then 0x50000#32 else 0x40000#32)
  fixFlags (mix mask image old)

end Sys2Proof.Machine
end

