-- ==== Sys2Proof/Machine/Task.lean ====
section
/-!
DEFINITION. Task state segments, the task switch and the I/O permission map
(spec/61_tasking.md R981 to R997; spec/21_segmentation_paging_protection.md R290).
-/
namespace Sys2Proof.Machine
open Sys2Proof

/-- Replace CR0. -/
def State.setCr0 (s : State) (v : Word32) : State := { s with cr0 := v }
/-- Replace CPL. -/
def State.setCpl (s : State) (l : BitVec 2) : State := { s with cpl := l }
/-- Replace LDTR. -/
def State.setLdtr (s : State) (l : LdtReg) : State := { s with ldtr := l }

/-- LDTR loaded from a descriptor (10_state.md R38). -/
def Desc.toLdt (d : Desc) (x : Word16) : LdtReg :=
  { sel := x, base := d.base, limit := d.limit, access := d.hi.extractLsb' 8 8, top := d.hi.extractLsb' 20 4, valid := true }

/-- CR3 replaced, every bit as written (10_state.md R35, R71; 93_implementation_defined.md U4), and the TLB flushed (21
R267). -/
def State.setCr3 (s : State) (v : Word32) : State := { s.flushTlb with cr3 := v }

/-- Load CR3. -/
def loadCr3 (v : Word32) : M Unit := modify fun s => s.setCr3 v

/-- The busy bit of a TSS descriptor, changed by a locked read-modify-write (61 R984). -/
def setBusy (x : Word16) (b : Bool) : M Unit := do
  let s ← get
  sysUpdate (s.gdtr.base + selOffset x + 5#32) fun v => if b then v ||| 2#8 else v &&& 0xFD#8

/-- The initial stack pointer of a level: selector and offset (61 R983). -/
def tssStack (level : BitVec 2) (ext : Bool) : M (Word16 × Word32) := do
  let s ← get
  match s.tr.format with
  | .tss486 => do
    let a := 4 + 8 * level.toNat
    check (decide (a + 5 ≤ s.tr.limit.toNat)) (excTS (selCode s.tr.sel ext))
    let sp ← sysRead (s.tr.base + BitVec.ofNat 32 a) 4
    let ss ← sysRead (s.tr.base + BitVec.ofNat 32 (a + 4)) 2
    pure (BitVec.ofNat 16 ss, BitVec.ofNat 32 sp)
  | .tss286 => do
    let a := 2 + 4 * level.toNat
    check (decide (a + 3 ≤ s.tr.limit.toNat)) (excTS (selCode s.tr.sel ext))
    let sp ← sysRead (s.tr.base + BitVec.ofNat 32 a) 2
    let ss ← sysRead (s.tr.base + BitVec.ofNat 32 (a + 2)) 2
    pure (BitVec.ofNat 16 ss, BitVec.ofNat 32 sp)

/-- Does the I/O permission map allow ports `port` to `port + n - 1` (21 R290)? Two bytes of the map are read for each port. -/
def ioMapAllows (base : Nat) (port : Nat) : Nat → M Unit
  | 0 => pure ()
  | n + 1 => do
    let s ← get
    let off := base + port / 8
    check (decide (off + 1 ≤ s.tr.limit.toNat)) (excGP 0#16)
    let v ← sysRead (s.tr.base + BitVec.ofNat 32 off) 2
    check (!v.testBit (port % 8)) (excGP 0#16)
    ioMapAllows base (port + 1) n

/-- IoPermit (21 R290). -/
def ioPermit (port : Word16) (n : Nat) : M Unit := do
  let s ← get
  if s.real || (s.prot && decide (s.cpl.toNat ≤ s.iopl.toNat)) then pure ()
  else do
    check (decide (s.tr.format = .tss486)) (excGP 0#16)
    let base ← sysRead (s.tr.base + 0x66#32) 2
    ioMapAllows base port.toNat n

/-- The four kinds of task switch (61 R990). -/
inductive SwitchKind where
  | jmp
  | call
  | int
  | iret
deriving DecidableEq, Repr

/-- With nesting: the new task is linked back to the old one. -/
def SwitchKind.nests : SwitchKind → Bool
  | .call | .int => true
  | .jmp | .iret => false

/-- Write words or doublewords one after the other, at once. -/
def sysWriteList (n : Nat) (a : Word32) : List Nat → M Unit
  | [] => pure ()
  | v :: t => do
    sysWrite a n v
    sysWriteList n (a + BitVec.ofNat 32 n) t

/-- Write words `step` bytes apart, at once. -/
def sysWriteSels (step : Nat) (a : Word32) : List Word16 → M Unit
  | [] => pure ()
  | v :: t => do
    sysWrite a 2 v.toNat
    sysWriteSels step (a + BitVec.ofNat 32 step) t

/-- Save the outgoing task in its TSS (61 R990 step 5). DEDUCED (log entry 28). -/
def saveTask (ret fl : Word32) : M Unit := do
  let s ← get
  let g := s.gpr
  let regs := [ret, fl, g.eax, g.ecx, g.edx, g.ebx, g.esp, g.ebp, g.esi, g.edi].map BitVec.toNat
  match s.tr.format with
  | .tss486 => do
    sysWriteList 4 (s.tr.base + 0x20#32) regs
    sysWriteSels 4 (s.tr.base + 0x48#32)
      [s.seg.es.sel, s.seg.cs.sel, s.seg.ss.sel, s.seg.ds.sel, s.seg.fs.sel, s.seg.gs.sel]
  | .tss286 => do
    sysWriteList 2 (s.tr.base + 0x0E#32) regs
    sysWriteSels 2 (s.tr.base + 0x22#32) [s.seg.es.sel, s.seg.cs.sel, s.seg.ss.sel, s.seg.ds.sel]

/-- What a task switch reads from the new TSS (61 R990 step 9). -/
structure TaskImage where
  cr3 : Option Word32
  eip : Word32
  flags : Word32
  regs : List Word32
  es : Word16
  cs : Word16
  ss : Word16
  ds : Word16
  fs : Word16
  gs : Word16
  ldt : Word16
  trap : Bool
deriving DecidableEq, Repr

/-- Read `k` items of `n` bytes. -/
def sysReadList (n : Nat) (a : Word32) : Nat → M (List Nat)
  | 0 => pure []
  | k + 1 => do
    let v ← sysRead a n
    let t ← sysReadList n (a + BitVec.ofNat 32 n) k
    pure (v :: t)

/-- A word of the TSS at `base`. -/
def tssWord (base : Word32) (off : Nat) : M Word16 := do
  pure (BitVec.ofNat 16 (← sysRead (base + BitVec.ofNat 32 off) 2))

/-- Bits 31 to 16 of a register loaded from a 286 TSS (61 R995, parameter TSS286_UPPER). DESIGN CHOICE (log entry
39). -/
def upperHalf (old : Word32) : Word16 :=
  match Config.tss286Upper with
  | .unchanged => old.extractLsb' 16 16
  | .zero => 0#16
  | .ones => 0xFFFF#16

/-- Read the new task's state from its TSS (61 R990 step 9). -/
def readTask (base : Word32) (format : TssFormat) : M TaskImage := do
  let s ← get
  match format with
  | .tss486 => do
    let c ← sysRead (base + 0x1C#32) 4
    let l ← sysReadList 4 (base + 0x20#32) 10
    let w := l.map (BitVec.ofNat 32)
    let es ← tssWord base 0x48
    let cs ← tssWord base 0x4C
    let ss ← tssWord base 0x50
    let ds ← tssWord base 0x54
    let fs ← tssWord base 0x58
    let gs ← tssWord base 0x5C
    let ldt ← tssWord base 0x60
    let t ← tssWord base 0x64
    pure { cr3 := if s.paging then some (BitVec.ofNat 32 c) else none
           eip := w.headD 0#32, flags := w.tail.headD 0#32, regs := w.tail.tail
           es := es, cs := cs, ss := ss, ds := ds, fs := fs, gs := gs, ldt := ldt, trap := t.getLsbD 0 }
  | .tss286 => do
    let l ← sysReadList 2 (base + 0x0E#32) 10
    let g := s.gpr
    let old := [g.eax, g.ecx, g.edx, g.ebx, g.esp, g.ebp, g.esi, g.edi]
    let lows := (l.tail.tail).map (BitVec.ofNat 16)
    let es ← tssWord base 0x22
    let cs ← tssWord base 0x24
    let ss ← tssWord base 0x26
    let ds ← tssWord base 0x28
    let ldt ← tssWord base 0x2A
    pure { cr3 := none
           eip := BitVec.ofNat 32 (l.headD 0), flags := BitVec.ofNat 32 (l.tail.headD 0)
           regs := List.zipWith (fun o v => upperHalf o ++ v) old lows
           es := es, cs := cs, ss := ss, ds := ds, fs := 0#16, gs := 0#16, ldt := ldt, trap := false }

/-- The eight general registers from a list in the order of their codes. -/
def gprsOfList (l : List Word32) : Gprs :=
  { eax := l.getD 0 0#32, ecx := l.getD 1 0#32, edx := l.getD 2 0#32, ebx := l.getD 3 0#32,
    esp := l.getD 4 0#32, ebp := l.getD 5 0#32, esi := l.getD 6 0#32, edi := l.getD 7 0#32 }

/-- Load the LDTR of the new task (61 R990 step 13). -/
def taskLdt (x : Word16) (ext : Bool) : M Unit := do
  if selNull x then pure ()
  else do
    let s ← get
    check (!selTi x && selInTable s x) (excTS (selCode x ext))
    let d ← readDesc x
    check (!d.s && d.typ == 2#4) (excTS (selCode x ext))
    check d.present (excTS (selCode x ext))
    modify fun s => s.setLdtr (d.toLdt x)

/-- Check and load CS of the new task (61 R990 step 15). -/
def taskCs (x : Word16) (ext : Bool) : M Unit := do
  let s ← get
  check (!selNull x) (excTS (extCode ext))
  check (selInTable s x) (excTS (selCode x ext))
  let d ← readDesc x
  check d.isCode (excTS (selCode x ext))
  check (if d.conforming then decide (d.dpl.toNat ≤ (selRpl x).toNat) else d.dpl == selRpl x) (excTS (selCode x ext))
  check d.present (excNP (selCode x ext))
  markAccessed x d
  modify fun s => (s.putSeg .cs (d.toSeg x)).setCpl (selRpl x)

/-- Check and load SS of the new task (61 R990 step 15). -/
def taskSs (x : Word16) (ext : Bool) : M Unit := do
  let s ← get
  check (!selNull x) (excTS (extCode ext))
  check (selInTable s x) (excTS (selCode x ext))
  check (selRpl x == s.cpl) (excTS (selCode x ext))
  let d ← readDesc x
  check d.writable (excTS (selCode x ext))
  check (d.dpl == s.cpl) (excTS (selCode x ext))
  check d.present (excSS (selCode x ext))
  markAccessed x d
  setSeg .ss (d.toSeg x)

/-- Check and load DS, ES, FS or GS of the new task (61 R990 step 15). -/
def taskData (r : SReg) (x : Word16) (ext : Bool) : M Unit := do
  let s ← get
  if selNull x then pure ()
  else do
    check (selInTable s x) (excTS (selCode x ext))
    let d ← readDesc x
    check d.readable (excTS (selCode x ext))
    check (d.conforming || decide (max s.cpl.toNat (selRpl x).toNat ≤ d.dpl.toNat)) (excTS (selCode x ext))
    check d.present (excNP (selCode x ext))
    markAccessed x d
    setSeg r (d.toSeg x)

/-- Load the six segment registers as 8086 values (61 R990 step 14). -/
def loadV86Segs (es cs ss ds fs gs : Word16) : M Unit :=
  modify fun s =>
    ({ s with seg := { es := .v86 es, cs := .v86 cs, ss := .v86 ss, ds := .v86 ds, fs := .v86 fs, gs := .v86 gs } }
      : State).setCpl 3#2

/-- The probe of a task's descriptor in the GDT (61 R990 step 2): it is present, and byte 5 is writable where its busy bit
changes. -/
def probeDesc (x : Word16) (changes : Bool) : M Unit := do
  let s ← get
  sysProbe (s.gdtr.base + selOffset x) 8 false
  if changes then sysProbe (s.gdtr.base + selOffset x + 5#32) 1 true else pure ()

/-- Does the switch free the old task? -/
def SwitchKind.frees : SwitchKind → Bool
  | .jmp | .iret => true
  | .call | .int => false

/-- Does the switch make the new task busy? -/
def SwitchKind.takes : SwitchKind → Bool
  | .jmp | .call | .int => true
  | .iret => false

/-- The probe of step 2 (61 R993): every byte the switch will touch before its commit point. R993 puts the old TSS before the new
and is silent on the two descriptors: they come last, the old task's first. DESIGN CHOICE (log entry 52). A null TR selector names no
descriptor (10_state.md R36). -/
def probeTasks (k : SwitchKind) (ts : Word16) (base : Word32) (format : TssFormat) : M Unit := do
  let s ← get
  match s.tr.format with
  | .tss486 => sysProbe (s.tr.base + 0x20#32) 0x3E true
  | .tss286 => sysProbe (s.tr.base + 0x0E#32) 0x1C true
  if k.nests then sysProbe base 2 true else pure ()
  match format with
  | .tss486 => sysProbe base 0x68 false
  | .tss286 => sysProbe base 0x2C false
  if selNull s.tr.sel then pure () else probeDesc s.tr.sel k.frees
  probeDesc ts k.takes

/-- Load the registers read from the new TSS and leave every segment register unchecked (61 R990 steps 9 to 12). A task with VM
set runs at CPL 3 from here on (21 R280). A fault from here on is one of steps 13 to 17. -/
def State.loadTask (s : State) (k : SwitchKind) (i : TaskImage) : State :=
  let s := match i.cr3 with
    | some v => s.setCr3 v
    | none => s
  let fl := fixFlags (if k.nests then setBit i.flags 14 true else i.flags)
  { s with
    eip := i.eip
    gpr := gprsOfList i.regs
    eflags := fl
    cpl := if fl.getLsbD 17 then 3#2 else s.cpl
    dr := { s.dr with dr7 := s.dr.dr7 &&& 0xFFFFFEAA#32 }
    seg := { es := s.seg.es.null i.es, cs := s.seg.cs.null i.cs, ss := s.seg.ss.null i.ss,
             ds := s.seg.ds.null i.ds, fs := s.seg.fs.null i.fs, gs := s.seg.gs.null i.gs }
    ldtr := { s.ldtr with sel := i.ldt, valid := false }
    latch := { s.latch with inhibitNext := false, stiShadow := false,
                            nmiMasked := s.latch.nmiMasked && decide (k ≠ .iret) }
    insn := { s.insn with keepRf := true, committed := true, arrived := true } }

/-- Steps 13 to 15 of SWITCH-TASKS: the checks made in the new task. -/
def enterTask (i : TaskImage) (ext : Bool) : M Unit := do
  taskLdt i.ldt ext
  let s ← get
  if s.vm then loadV86Segs i.es i.cs i.ss i.ds i.fs i.gs
  else do
    taskCs i.cs ext
    taskSs i.ss ext
    taskData .ds i.ds ext
    taskData .es i.es ext
    taskData .fs i.fs ext
    taskData .gs i.gs ext

/-- The format of a TSS descriptor. -/
def Desc.tssFormat (d : Desc) : TssFormat := if d.typ.getLsbD 3 then .tss486 else .tss286

/-- Steps 1 to 8 of SWITCH-TASKS (61 R990): the old task is saved and left, the new one named. It answers the descriptor of the new
TSS. -/
def leaveTask (k : SwitchKind) (ts : Word16) (ret : Word32) (ext : Bool) : M Desc := do
  let s ← get
  let d ← readDesc ts
  check (match d.tssFormat with
    | .tss486 => decide (0x64 < d.limit.toNat)
    | .tss286 => decide (0x2B < d.limit.toNat)) (excTS (selCode ts ext))
  probeTasks k ts d.base d.tssFormat
  if k.frees && !selNull s.tr.sel then setBusy s.tr.sel false else pure ()
  saveTask ret (if k = .iret then setBit s.eflags 14 false else s.eflags)
  if k.nests then sysWrite d.base 2 s.tr.sel.toNat else pure ()
  if k.takes then setBusy ts true else pure ()
  modify fun s =>
    { s with tr := { sel := ts, base := d.base, limit := d.limit, format := d.tssFormat }
             cr0 := s.cr0 ||| 8#32
             insn := { s.insn with committed := true, arrived := false } }
  pure d

/-- SWITCH-TASKS (61 R990). It answers the T bit of the new TSS; the caller checks the new EIP and then raises the
trap. From the end of step 8 on every fault is one of the new task: `insn.committed` says so. Those of steps 13 to 17 are
fresh exceptions of it: `insn.arrived` says so. -/
def switchTasks (k : SwitchKind) (ts : Word16) (ret : Word32) (ext : Bool) : M Bool := do
  let d ← leaveTask k ts ret ext
  let i ← readTask d.base d.tssFormat
  modify fun s => s.loadTask k i
  enterTask i ext
  pure i.trap

/-- Say whether a fault raised from here on is one of steps 13 to 17 of a task switch (61 R990). -/
def setArrived (b : Bool) : M Unit := modify fun s => { s with insn := { s.insn with arrived := b } }

/-- The new EIP of a task switch lies within the new CS limit (61 R990 step 17). -/
def checkNewEip (e : Exc) : M Unit := do
  let s ← get
  check (eipOk s.seg.cs.limit s.eip) e

/-- The T bit of the new TSS leaves a trap pending (61 R990 step 16). -/
def pendTaskTrap (trap : Bool) : M Unit :=
  if trap then modify fun s => { s with traps := { s.traps with bt := true } } else pure ()

/-- The end of a task switch. A fault of the new EIP drops the trap of the T bit (71 R1083). -/
def finishSwitch (trap : Bool) (e : Exc) : M Unit := do
  checkNewEip e
  pendTaskTrap trap

end Sys2Proof.Machine
end

