-- ==== Sys2Proof/WellFormed.lean ====
section
/-!
DEFINITION. Which terms of `Instr` an encoding exists for (spec/30_encoding.md R311 to R314, R340), and the operand
and address size an instruction is encoded for (R305).
-/
namespace Sys2Proof

/-- The address size a memory operand is written for. -/
def Mem.as : Mem → Size
  | .abs16 _ => .s16
  | .ind16 _ _ => .s16
  | .abs32 _ => .s32
  | .ind32 _ _ => .s32
  | .sib _ _ _ _ => .s32
  | .sibAbs _ _ _ => .s32

/-- Has a memory operand an encoding (R311, R313, R314)? The codes taken by the direct form and by the s-i-b byte are
not base registers. -/
def Mem.wf : Mem → Bool
  | .abs16 _ => true
  | .ind16 b d => !(decide (b = .bp) && decide (d = .none))
  | .abs32 _ => true
  | .ind32 b d => decide (b ≠ .esp) && !(decide (b = .ebp) && decide (d = .none))
  | .sib _ _ b d => !(decide (b = .ebp) && decide (d = .none))
  | .sibAbs _ _ _ => true

/-- The memory operand of an r/m operand, if it is one. -/
def RM.mem? : RM → Option Mem
  | .reg _ => none
  | .mem m => some m

/-- The operand size a width needs. -/
def Width.os : Width → Option Size
  | .byte => none
  | .word => some .s16
  | .dword => some .s32

/-- The operand size an immediate needs. -/
def Imm.os : Imm → Option Size
  | .i8 _ => none
  | .i16 _ => some .s16
  | .i32 _ => some .s32

/-- The size of an offset. -/
def Offset.size : Offset → Size
  | .o16 _ => .s16
  | .o32 _ => .s32

/-- The operand size of a relative target. -/
def Rel.os : Rel → Size
  | .r8 os _ => os
  | .r16 _ => .s16
  | .r32 _ => .s32

/-- What the encoding of an instruction needs: a memory operand, an operand size, an address size; and whether the term
keeps the checks that concern no size. -/
structure Needs where
  mem : Option Mem := none
  os : Option Size := none
  as : Option Size := none
  ok : Bool := true
deriving DecidableEq, Repr

def AluForm.needs : AluForm → Needs
  | .acc v => { os := v.os }
  | .rmImm rm v => { mem := rm.mem?, os := v.os }
  | .rmImm8 os rm _ => { mem := rm.mem?, os := some os }
  | .rmReg w rm _ => { mem := rm.mem?, os := w.os }
  | .regRm w _ rm => { mem := rm.mem?, os := w.os }

def TestForm.needs : TestForm → Needs
  | .acc v => { os := v.os }
  | .rmImm rm v => { mem := rm.mem?, os := v.os }
  | .rmReg w rm _ => { mem := rm.mem?, os := w.os }

def BitForm.needs : BitForm → Needs
  | .reg os rm _ => { mem := rm.mem?, os := some os }
  | .imm os rm _ => { mem := rm.mem?, os := some os }

def IncForm.needs : IncForm → Needs
  | .rm w x => { mem := x.mem?, os := w.os }
  | .reg os _ => { os := some os }

/-- The three-operand form with a full immediate has no byte form. -/
def ImulForm.needs : ImulForm → Needs
  | .one w rm => { mem := rm.mem?, os := w.os }
  | .two os _ rm => { mem := rm.mem?, os := some os }
  | .three8 os _ rm _ => { mem := rm.mem?, os := some os }
  | .three _ rm v => { mem := rm.mem?, os := v.os, ok := v.os.isSome }

def IoForm.needs : IoForm → Needs
  | .imm w _ => { os := w.os }
  | .dx w => { os := w.os }

def MovForm.needs : MovForm → Needs
  | .rmReg w rm _ => { mem := rm.mem?, os := w.os }
  | .regRm w _ rm => { mem := rm.mem?, os := w.os }
  | .accMoffs w o => { os := w.os, as := some o.size }
  | .moffsAcc w o => { os := w.os, as := some o.size }
  | .regImm _ v => { os := v.os }
  | .rmImm rm v => { mem := rm.mem?, os := v.os }

def ExtForm.needs : ExtForm → Needs
  | .byte os _ rm => { mem := rm.mem?, os := some os }
  | .word os _ rm => { mem := rm.mem?, os := some os }

/-- The form with a full immediate has no byte form. -/
def PushForm.needs : PushForm → Needs
  | .rm os x => { mem := x.mem?, os := some os }
  | .reg os _ => { os := some os }
  | .imm8 os _ => { os := some os }
  | .imm v => { os := v.os, ok := v.os.isSome }

def PopForm.needs : PopForm → Needs
  | .rm os x => { mem := x.mem?, os := some os }
  | .reg os _ => { os := some os }

/-- XCHG of the accumulator with itself is NOP's encoding (R360). -/
def XchgForm.needs : XchgForm → Needs
  | .acc os r => { os := some os, ok := decide (r ≠ .eax) }
  | .rm w x _ => { mem := x.mem?, os := w.os }

def NearForm.needs : NearForm → Needs
  | .rel d => { os := some d.os }
  | .ind os rm => { mem := rm.mem?, os := some os }

/-- CALL has no one-byte displacement. -/
def NearForm.full : NearForm → Bool
  | .rel (.r8 _ _) => false
  | .rel (.r16 _) => true
  | .rel (.r32 _) => true
  | .ind _ _ => true

def FarForm.needs : FarForm → Needs
  | .ptr off _ => { os := some off.size }
  | .mem os m => { mem := some m, os := some os }

def RetForm.needs : RetForm → Needs
  | .plain os => { os := some os }
  | .imm os _ => { os := some os }

def FArith.needs : FArith → Needs
  | .m32 m => { mem := some m }
  | .m64 m => { mem := some m }
  | .toSt _ => {}
  | .toSti _ => {}

def FCmp.needs : FCmp → Needs
  | .m32 m => { mem := some m }
  | .m64 m => { mem := some m }
  | .st _ => {}

def FInt.needs : FInt → Needs
  | .m16 m => { mem := some m }
  | .m32 m => { mem := some m }

def FIntL.needs : FIntL → Needs
  | .m16 m => { mem := some m }
  | .m32 m => { mem := some m }
  | .m64 m => { mem := some m }

def FLdSt.needs : FLdSt → Needs
  | .m32 m => { mem := some m }
  | .m64 m => { mem := some m }
  | .m80 m => { mem := some m }
  | .st _ => {}

def FStForm.needs : FStForm → Needs
  | .m32 m => { mem := some m }
  | .m64 m => { mem := some m }
  | .st _ => {}

def FSwForm.needs : FSwForm → Needs
  | .mem m => { mem := some m }
  | .ax => {}

/-- What the encoding of each instruction needs. -/
def Instr.needs : Instr → Needs
  | .lockPrefix => {}
  | .repnePrefix => {}
  | .repPrefix => {}
  | .segEs => {}
  | .segCs => {}
  | .segSs => {}
  | .segDs => {}
  | .segFs => {}
  | .segGs => {}
  | .opSizePrefix => {}
  | .addrSizePrefix => {}
  | .aaa => {}
  | .aad _ => {}
  | .aam _ => {}
  | .aas => {}
  | .adc f => f.needs
  | .add f => f.needs
  | .and f => f.needs
  | .arpl rm _ => { mem := rm.mem? }
  | .bound os _ m => { mem := some m, os := some os }
  | .bsf os _ rm => { mem := rm.mem?, os := some os }
  | .bsr os _ rm => { mem := rm.mem?, os := some os }
  | .bswap os _ => { os := some os }
  | .bt f => f.needs
  | .btc f => f.needs
  | .btr f => f.needs
  | .bts f => f.needs
  | .callNear f => { f.needs with ok := f.full }
  | .callFar f => f.needs
  | .cbw => { os := some .s16 }
  | .cwde => { os := some .s32 }
  | .cwd => { os := some .s16 }
  | .cdq => { os := some .s32 }
  | .clc => {}
  | .cld => {}
  | .cli => {}
  | .clts => {}
  | .cmc => {}
  | .cmp f => f.needs
  | .cmpsb as => { as := some as }
  | .cmpsw os as => { os := some os, as := some as }
  | .cmpxchg w rm _ => { mem := rm.mem?, os := w.os }
  | .daa => {}
  | .das => {}
  | .dec f => f.needs
  | .div w rm => { mem := rm.mem?, os := w.os }
  | .enter os _ _ => { os := some os }
  | .hlt => {}
  | .idiv w rm => { mem := rm.mem?, os := w.os }
  | .imul f => f.needs
  | .inp f => f.needs
  | .inc f => f.needs
  | .insb as => { as := some as }
  | .insw os as => { os := some os, as := some as }
  | .intN _ => {}
  | .int3 => {}
  | .into => {}
  | .invd => {}
  | .invlpg m => { mem := some m }
  | .iret => { os := some .s16 }
  | .iretd => { os := some .s32 }
  | .jo d => { os := some d.os }
  | .jno d => { os := some d.os }
  | .jb d => { os := some d.os }
  | .jc d => { os := some d.os }
  | .jnae d => { os := some d.os }
  | .jae d => { os := some d.os }
  | .jnb d => { os := some d.os }
  | .jnc d => { os := some d.os }
  | .je d => { os := some d.os }
  | .jz d => { os := some d.os }
  | .jne d => { os := some d.os }
  | .jnz d => { os := some d.os }
  | .jbe d => { os := some d.os }
  | .jna d => { os := some d.os }
  | .ja d => { os := some d.os }
  | .jnbe d => { os := some d.os }
  | .js d => { os := some d.os }
  | .jns d => { os := some d.os }
  | .jp d => { os := some d.os }
  | .jpe d => { os := some d.os }
  | .jnp d => { os := some d.os }
  | .jpo d => { os := some d.os }
  | .jl d => { os := some d.os }
  | .jnge d => { os := some d.os }
  | .jge d => { os := some d.os }
  | .jnl d => { os := some d.os }
  | .jle d => { os := some d.os }
  | .jng d => { os := some d.os }
  | .jg d => { os := some d.os }
  | .jnle d => { os := some d.os }
  | .jcxz os _ => { os := some os, as := some .s16 }
  | .jecxz os _ => { os := some os, as := some .s32 }
  | .jmpNear f => f.needs
  | .jmpFar f => f.needs
  | .lahf => {}
  | .lar os _ rm => { mem := rm.mem?, os := some os }
  | .lds os _ m => { mem := some m, os := some os }
  | .les os _ m => { mem := some m, os := some os }
  | .lfs os _ m => { mem := some m, os := some os }
  | .lgs os _ m => { mem := some m, os := some os }
  | .lss os _ m => { mem := some m, os := some os }
  | .lea os _ m => { mem := some m, os := some os }
  | .leave os => { os := some os }
  | .lgdt os m => { mem := some m, os := some os }
  | .lidt os m => { mem := some m, os := some os }
  | .lldt rm => { mem := rm.mem? }
  | .lmsw rm => { mem := rm.mem? }
  | .lodsb as => { as := some as }
  | .lodsw os as => { os := some os, as := some as }
  | .loop os as _ => { os := some os, as := some as }
  | .loope os as _ => { os := some os, as := some as }
  | .loopne os as _ => { os := some os, as := some as }
  | .lsl os _ rm => { mem := rm.mem?, os := some os }
  | .ltr rm => { mem := rm.mem? }
  | .mov f => f.needs
  | .movFromSeg os rm _ => { mem := rm.mem?, os := some os }
  | .movToSeg s rm => { mem := rm.mem?, ok := decide (s ≠ .cs) }
  | .movFromCr _ _ => {}
  | .movToCr _ _ => {}
  | .movFromDr _ _ => {}
  | .movToDr _ _ => {}
  | .movFromTr _ _ => {}
  | .movToTr _ _ => {}
  | .movsb as => { as := some as }
  | .movsw os as => { os := some os, as := some as }
  | .movsx f => f.needs
  | .movzx f => f.needs
  | .mul w rm => { mem := rm.mem?, os := w.os }
  | .neg w rm => { mem := rm.mem?, os := w.os }
  | .nop => {}
  | .not w rm => { mem := rm.mem?, os := w.os }
  | .or f => f.needs
  | .outp f => f.needs
  | .outsb as => { as := some as }
  | .outsw os as => { os := some os, as := some as }
  | .pop f => f.needs
  | .popSeg os s => { os := some os, ok := decide (s ≠ .cs) }
  | .popa => { os := some .s16 }
  | .popad => { os := some .s32 }
  | .popf => { os := some .s16 }
  | .popfd => { os := some .s32 }
  | .push f => f.needs
  | .pushSeg os _ => { os := some os }
  | .pusha => { os := some .s16 }
  | .pushad => { os := some .s32 }
  | .pushf => { os := some .s16 }
  | .pushfd => { os := some .s32 }
  | .rcl w rm _ => { mem := rm.mem?, os := w.os }
  | .rcr w rm _ => { mem := rm.mem?, os := w.os }
  | .retNear f => f.needs
  | .retFar f => f.needs
  | .rol w rm _ => { mem := rm.mem?, os := w.os }
  | .ror w rm _ => { mem := rm.mem?, os := w.os }
  | .sahf => {}
  | .sal w rm _ => { mem := rm.mem?, os := w.os }
  | .sar w rm _ => { mem := rm.mem?, os := w.os }
  | .sbb f => f.needs
  | .scasb as => { as := some as }
  | .scasw os as => { os := some os, as := some as }
  | .seto rm => { mem := rm.mem? }
  | .setno rm => { mem := rm.mem? }
  | .setb rm => { mem := rm.mem? }
  | .setae rm => { mem := rm.mem? }
  | .sete rm => { mem := rm.mem? }
  | .setne rm => { mem := rm.mem? }
  | .setbe rm => { mem := rm.mem? }
  | .seta rm => { mem := rm.mem? }
  | .sets rm => { mem := rm.mem? }
  | .setns rm => { mem := rm.mem? }
  | .setp rm => { mem := rm.mem? }
  | .setnp rm => { mem := rm.mem? }
  | .setl rm => { mem := rm.mem? }
  | .setge rm => { mem := rm.mem? }
  | .setle rm => { mem := rm.mem? }
  | .setg rm => { mem := rm.mem? }
  | .sgdt os m => { mem := some m, os := some os }
  | .shl w rm _ => { mem := rm.mem?, os := w.os }
  | .shld os rm _ _ => { mem := rm.mem?, os := some os }
  | .shr w rm _ => { mem := rm.mem?, os := w.os }
  | .shrd os rm _ _ => { mem := rm.mem?, os := some os }
  | .sidt os m => { mem := some m, os := some os }
  | .sldt os rm => { mem := rm.mem?, os := some os }
  | .smsw os rm => { mem := rm.mem?, os := some os }
  | .stc => {}
  | .std => {}
  | .sti => {}
  | .stosb as => { as := some as }
  | .stosw os as => { os := some os, as := some as }
  | .str os rm => { mem := rm.mem?, os := some os }
  | .sub f => f.needs
  | .test f => f.needs
  | .verr rm => { mem := rm.mem? }
  | .verw rm => { mem := rm.mem? }
  | .wait => {}
  | .wbinvd => {}
  | .xadd w rm _ => { mem := rm.mem?, os := w.os }
  | .xchg f => f.needs
  | .xlat as => { as := some as }
  | .xor f => f.needs
  | .f2xm1 => {}
  | .fabs => {}
  | .fadd f => f.needs
  | .faddp _ => {}
  | .fbld m => { mem := some m }
  | .fbstp m => { mem := some m }
  | .fchs => {}
  | .fclex => {}
  | .fcom f => f.needs
  | .fcomp f => f.needs
  | .fcompp => {}
  | .fcos => {}
  | .fdecstp => {}
  | .fdiv f => f.needs
  | .fdivp _ => {}
  | .fdivr f => f.needs
  | .fdivrp _ => {}
  | .ffree _ => {}
  | .fiadd f => f.needs
  | .fimul f => f.needs
  | .ficom f => f.needs
  | .ficomp f => f.needs
  | .fisub f => f.needs
  | .fisubr f => f.needs
  | .fidiv f => f.needs
  | .fidivr f => f.needs
  | .fild f => f.needs
  | .fincstp => {}
  | .finit => {}
  | .fist f => f.needs
  | .fistp f => f.needs
  | .fld f => f.needs
  | .fld1 => {}
  | .fldcw m => { mem := some m }
  | .fldenv os m => { mem := some m, os := some os }
  | .fldl2e => {}
  | .fldl2t => {}
  | .fldlg2 => {}
  | .fldln2 => {}
  | .fldpi => {}
  | .fldz => {}
  | .fmul f => f.needs
  | .fmulp _ => {}
  | .fnclex => {}
  | .fninit => {}
  | .fnop => {}
  | .fnsave os m => { mem := some m, os := some os }
  | .fnstcw m => { mem := some m }
  | .fnstenv os m => { mem := some m, os := some os }
  | .fnstsw f => f.needs
  | .fpatan => {}
  | .fprem => {}
  | .fprem1 => {}
  | .fptan => {}
  | .frndint => {}
  | .frstor os m => { mem := some m, os := some os }
  | .fsave os m => { mem := some m, os := some os }
  | .fscale => {}
  | .fsin => {}
  | .fsincos => {}
  | .fsqrt => {}
  | .fst f => f.needs
  | .fstcw m => { mem := some m }
  | .fstenv os m => { mem := some m, os := some os }
  | .fstp f => f.needs
  | .fstsw f => f.needs
  | .fsub f => f.needs
  | .fsubp _ => {}
  | .fsubr f => f.needs
  | .fsubrp _ => {}
  | .ftst => {}
  | .fucom _ => {}
  | .fucomp _ => {}
  | .fucompp => {}
  | .fwait => {}
  | .fxam => {}
  | .fxch _ => {}
  | .fxtract => {}
  | .fyl2x => {}
  | .fyl2xp1 => {}
  | .fpuNop _ => {}

/-- An address size a memory operand and an instruction both fit, where they name one. -/
def Needs.asOk (n : Needs) (as : Size) : Bool :=
  n.as.all (· == as) && n.mem.all (fun m => m.as == as)

/-- Has an instruction an encoding? -/
def Instr.wf (i : Instr) : Bool :=
  i.needs.ok && i.needs.mem.all Mem.wf

/-- Is an instruction one the decoder can answer under an operand size and an address size (R305)? -/
def Instr.fits (os as : Size) (i : Instr) : Bool :=
  i.needs.os.all (· == os) && i.needs.asOk as

end Sys2Proof
end

