-- ==== Sys2Proof/Machine/Operands.lean ====
section
/-!
DEFINITION. Operands: effective addresses, register and memory operands, immediates, ports
(spec/30_encoding.md R311 to R317; spec/40_int_a_to_c.md R400, R422; spec/20_memory.md R160).
-/
namespace Sys2Proof

/-- A 16-bit displacement, sign-extended from one byte where it is one. -/
def Disp.val16 : Disp 16 → Word16
  | .none => 0#16
  | .d8 d => d.signExtend 16
  | .full d => d

/-- A 32-bit displacement, sign-extended from one byte where it is one. -/
def Disp.val32 : Disp 32 → Word32
  | .none => 0#32
  | .d8 d => d.signExtend 32
  | .full d => d

/-- The shift of a scale. -/
def Scale.shift : Scale → Nat
  | .x1 => 0
  | .x2 => 1
  | .x4 => 2
  | .x8 => 3

/-- An immediate as a value of a width; a shorter one never occurs in a decoded instruction. -/
def Imm.width : Imm → Width
  | .i8 _ => .byte
  | .i16 _ => .word
  | .i32 _ => .dword

/-- The value of an immediate, of its own width. -/
def Imm.val : (v : Imm) → BitVec v.width.bits
  | .i8 v => v
  | .i16 v => v
  | .i32 v => v

/-- The value of an offset, extended with zeros. -/
def Offset.val : Offset → Word32
  | .o16 v => v.setWidth 32
  | .o32 v => v

/-- The signed displacement of a relative target. -/
def Rel.disp : Rel → Word32
  | .r8 _ d => d.signExtend 32
  | .r16 d => d.signExtend 32
  | .r32 d => d

/-- The width of ADD and its like. -/
def AluForm.width : AluForm → Width
  | .acc v => v.width
  | .rmImm _ v => v.width
  | .rmImm8 os _ _ => os.width
  | .rmReg w _ _ => w
  | .regRm w _ _ => w

/-- The destination of ADD and its like. -/
def AluForm.dst : AluForm → RM
  | .acc _ => .reg .eax
  | .rmImm x _ => x
  | .rmImm8 _ x _ => x
  | .rmReg _ x _ => x
  | .regRm _ r _ => .reg r

/-- The width of TEST. -/
def TestForm.width : TestForm → Width
  | .acc v => v.width
  | .rmImm _ v => v.width
  | .rmReg w _ _ => w

/-- The first operand of TEST. -/
def TestForm.dst : TestForm → RM
  | .acc _ => .reg .eax
  | .rmImm x _ => x
  | .rmReg _ x _ => x

/-- The width of INC and DEC. -/
def IncForm.width : IncForm → Width
  | .rm w _ => w
  | .reg os _ => os.width

/-- The operand of INC and DEC. -/
def IncForm.dst : IncForm → RM
  | .rm _ x => x
  | .reg _ r => .reg r

end Sys2Proof

namespace Sys2Proof.Machine
open Sys2Proof

/-- The base and index sum of 16-bit addressing (R311). -/
def Gprs.base16 (g : Gprs) : Base16 → Word16
  | .bxsi => g.ebx.setWidth 16 + g.esi.setWidth 16
  | .bxdi => g.ebx.setWidth 16 + g.edi.setWidth 16
  | .bpsi => g.ebp.setWidth 16 + g.esi.setWidth 16
  | .bpdi => g.ebp.setWidth 16 + g.edi.setWidth 16
  | .si => g.esi.setWidth 16
  | .di => g.edi.setWidth 16
  | .bp => g.ebp.setWidth 16
  | .bx => g.ebx.setWidth 16

/-- The scaled index of an s-i-b byte; the code ESP is no index (R314, 92_eei_decisions.md D20). -/
def Gprs.index (g : Gprs) (s : Scale) (i : Reg) : Word32 :=
  if i = .esp then 0#32 else g.get i <<< s.shift

/-- The effective address of a memory operand (R315). -/
def Gprs.ea (g : Gprs) : Mem → Word32
  | .abs16 d => d.setWidth 32
  | .ind16 b d => (g.base16 b + d.val16).setWidth 32
  | .abs32 d => d
  | .ind32 b d => g.get b + d.val32
  | .sib s i b d => g.get b + g.index s i + d.val32
  | .sibAbs s i d => g.index s i + d

/-- The default segment of a memory operand (R316): SS where the base is BP, EBP or ESP. -/
def defaultSeg : Mem → SReg
  | .abs16 _ => .ds
  | .ind16 b _ => if b = .bpsi ∨ b = .bpdi ∨ b = .bp then .ss else .ds
  | .abs32 _ => .ds
  | .ind32 b _ => if b = .ebp ∨ b = .esp then .ss else .ds
  | .sib _ _ b _ => if b = .ebp ∨ b = .esp then .ss else .ds
  | .sibAbs _ _ _ => .ds

/-- The segment of a reference whose default is `d`: the override where a prefix gave one. -/
def State.segOr (s : State) (d : SReg) : SReg := s.insn.seg.getD d

/-- The segment of a memory operand. -/
def State.segOf (s : State) (m : Mem) : SReg := s.segOr (defaultSeg m)

/-- The address `k` bytes after an effective address, in the address size of the operand. -/
def eaPlus (m : Mem) (ea : Word32) (k : Nat) : Word32 := m.as.trunc (ea + BitVec.ofNat 32 k)

/-- Read `n` bytes at a memory operand. -/
def readMemN (m : Mem) (n align : Nat) : M Nat := do
  let s ← get
  memRead m.as (s.segOf m) (s.gpr.ea m) n align

/-- Read a memory operand of a width. -/
def readMem (w : Width) (m : Mem) : M (BitVec w.bits) := do
  pure (BitVec.ofNat w.bits (← readMemN m w.bytes w.bytes))

/-- Write a memory operand of a width. -/
def writeMem (w : Width) (m : Mem) (v : BitVec w.bits) : M Unit := do
  let s ← get
  memWrite m.as (s.segOf m) (s.gpr.ea m) w.bytes w.bytes v.toNat

/-- Read a memory operand that will be written back (R400: the write is checked first). -/
def updateMem (w : Width) (m : Mem) : M (BitVec w.bits) := do
  let s ← get
  pure (BitVec.ofNat w.bits (← memReadWrite m.as (s.segOf m) (s.gpr.ea m) w.bytes w.bytes))

/-- ReadRM of R400. -/
def readRM (w : Width) : RM → M (BitVec w.bits)
  | .reg r => getReg w r
  | .mem m => readMem w m

/-- WriteRM of R400. -/
def writeRM (w : Width) (v : BitVec w.bits) : RM → M Unit
  | .reg r => setReg w r v
  | .mem m => writeMem w m v

/-- ReadRM of a destination that is also a source (R400). -/
def updateRM (w : Width) : RM → M (BitVec w.bits)
  | .reg r => getReg w r
  | .mem m => updateMem w m

/-- The source of ADD and its like (40 R414): an immediate, a register or r/m. -/
def aluSource : (f : AluForm) → M (BitVec f.width.bits)
  | .acc v => pure v.val
  | .rmImm _ v => pure v.val
  | .rmImm8 os _ v => pure (v.signExtend os.width.bits)
  | .rmReg w _ r => getReg w r
  | .regRm w _ x => readRM w x

/-- The second operand of TEST (44 R621). -/
def testSource : (f : TestForm) → M (BitVec f.width.bits)
  | .acc v => pure v.val
  | .rmImm _ v => pure v.val
  | .rmReg w _ r => getReg w r

/-- A 16-bit selector from an r/m operand that the operand size widens (42 R535). -/
def readSel (os : Size) (rm : RM) : M Word16 := do
  let v ← readRM os.width rm
  pure (v.setWidth 16)

/-- The far pointer a far pointer load reads: offset, then selector; two accesses (42 R536). -/
def readFar (os : Size) (m : Mem) : M (Word32 × Word16) := do
  let s ← get
  let a := s.gpr.ea m
  let r := s.segOf m
  let off ← memRead m.as r a os.bytes os.bytes
  let sel ← memRead m.as r (eaPlus m a os.bytes) 2 2
  pure (BitVec.ofNat 32 off, BitVec.ofNat 16 sel)

/-- The far pointer of a far CALL or JMP, read as one operand of 4 or 6 bytes, offset first (40 R427, 42 R513); its alignment is
that of 20_memory.md R126. -/
def readFarOperand (os : Size) (m : Mem) : M (Word32 × Word16) := do
  let v ← readMemN m (os.bytes + 2) os.bytes
  pure (BitVec.ofNat 32 (v % 2 ^ os.bits), BitVec.ofNat 16 (v / 2 ^ os.bits))

/-- The masked count of a shift or rotate (43 R581). -/
def readCount : Count → M Nat
  | .one => pure 1
  | .cl => do pure ((← get).gpr.ecx.toNat % 32)
  | .imm v => pure (v.toNat % 32)

/-- The masked count of SHLD and SHRD (44 R609). -/
def readDCount : DCount → M Nat
  | .cl => do pure ((← get).gpr.ecx.toNat % 32)
  | .imm v => pure (v.toNat % 32)

/-- The port and width of IN and OUT (41 R458). -/
def ioPort : IoForm → M (Word16 × Width)
  | .imm w p => pure (p.setWidth 16, w)
  | .dx w => do pure ((← get).gpr.edx.setWidth 16, w)

/-- IoRead (20_memory.md R160): the value comes from the platform. -/
def ioIn (port : Word16) (n : Nat) : M Nat := do
  let s ← get
  set { s with freeCtr := s.freeCtr + 1, events := s.events ++ [BusEvent.ioRead port n] }
  pure ((Config.ioRead port n s.freeCtr).toNat % 2 ^ (8 * n))

/-- IoWrite (20_memory.md R160): the platform sees the value. -/
def ioOut (port : Word16) (n v : Nat) : M Unit :=
  modify fun s => { s with events := s.events ++ [BusEvent.ioWrite port n (BitVec.ofNat 32 v)] }

/-- Tell the platform of a special bus cycle (20_memory.md R162). -/
def emit (e : BusEvent) : M Unit := modify fun s => { s with events := s.events ++ [e] }

/-- The place of a bit-string bit in memory (40 R422): how far the word that holds it lies from the base, and its number. -/
def bitPlace (os : Size) (o : BitVec os.width.bits) : Word32 × Nat :=
  (BitVec.ofInt 32 (os.bytes * (o.toInt / os.bits)), (o.toInt % os.bits).toNat)

/-- Where a string destination lies: the segment is ES, no override (R316). -/
def State.dstIndex (s : State) (as : Size) : Word32 := as.trunc s.gpr.edi
/-- Where a string source lies. -/
def State.srcIndex (s : State) (as : Size) : Word32 := as.trunc s.gpr.esi

/-- Step a string index by `n` bytes in the direction DF gives (40 R436). -/
def State.stepIndex (s : State) (as : Size) (v : Word32) (n : Nat) : Word32 :=
  as.merge v (if s.df then v - BitVec.ofNat 32 n else v + BitVec.ofNat 32 n)

/-- Step (E)DI. -/
def stepDst (as : Size) (n : Nat) : M Unit :=
  modify fun s => s.setGpr { s.gpr with edi := s.stepIndex as s.gpr.edi n }
/-- Step (E)SI. -/
def stepSrc (as : Size) (n : Nat) : M Unit :=
  modify fun s => s.setGpr { s.gpr with esi := s.stepIndex as s.gpr.esi n }

/-- The checks of 60_exceptions.md R903 item 6 for a privileged instruction (21 R220). -/
def needCpl0 : M Unit := do
  let s ← get
  check (s.real || (s.prot && s.cpl == 0#2)) (excGP 0#16)

/-- An instruction recognised in Protected Mode alone (21 R222). -/
def needProt : M Unit := do
  let s ← get
  check s.prot excUD

/-- CLI and STI (21 R221). -/
def needIopl : M Unit := do
  let s ← get
  check (s.real || decide (s.cpl.toNat ≤ s.iopl.toNat)) (excGP 0#16)

/-- PUSHF, POPF, INT n and IRET in V86 Mode (21 R221). -/
def needV86Iopl : M Unit := do
  let s ← get
  check (!s.v86 || s.iopl == 3#2) (excGP 0#16)

end Sys2Proof.Machine
end

