-- ==== Sys2Proof/Machine/Ops.lean ====
section
/-!
DEFINITION. Taking an interrupt or exception, returning from one, and the end of an instruction
(spec/41_int_d_to_i.md R464, R467; spec/60_exceptions.md R905, R920 to R935;
spec/71_debug_and_test_registers.md R1084 to R1089).
-/
namespace Sys2Proof.Machine
open Sys2Proof

/-! Entering a handler. -/

/-- A push made with supervisor privilege and no alignment check (41 R464). -/
def pushSys (n v : Nat) : M Unit := do
  let s ← get
  let sp := s.sp
  if s.real && decide (0 < sp.toNat) && decide (sp.toNat < n) then throw .shutdown
  else do
    let off := s.stackSize.trunc (sp - BitVec.ofNat 32 n)
    let lin ← segCheck s.stackSize .ss off n .write
    noteAccess lin n true
    let ps ← translateBytes lin true false n
    storeBytes ps (toBytes n v)
    setSp off

/-- Push items of one size with supervisor privilege, in order. -/
def pushAllSys (n : Nat) : List Nat → M Unit
  | [] => pure ()
  | v :: t => do
    pushSys n v
    pushAllSys n t

/-- Is there room for `n` bytes below a stack pointer? They are one block, which does not wrap at 64 Kbytes on a 16-bit stack: a
pointer below `n` that is not 0 has no room (40 R427, 41 R464 say only "room"). DESIGN CHOICE (log entry 37). -/
def roomBelow (x : SegReg) (z : Size) (sp : Word32) (n : Nat) : Bool :=
  segLimitOk z x (z.trunc (sp - BitVec.ofNat 32 n)).toNat n

/-- Is there room for `n` bytes on the current stack? -/
def State.room (s : State) (n : Nat) : Bool := roomBelow s.seg.ss s.stackSize s.sp n

/-- Are the top `n` bytes of the current stack within the limit? They are one block, which does not wrap at 64 Kbytes on a 16-bit
stack (41 R467, 43 R575 and R585 do not say). DESIGN CHOICE (log entry 37). -/
def State.topOk (s : State) (n : Nat) : Bool := segLimitOk s.stackSize s.seg.ss s.sp.toNat n

/-- EXT of the error codes raised while an event is delivered (60 R910). DEDUCED (log entry 29). -/
def Event.ext (ev : Event) : Bool := !ev.software

/-- The error code that names an IDT gate (60 R910). -/
def Event.idtCode (ev : Event) : Word16 :=
  ev.vector.setWidth 16 * 8#16 + 2#16 + extCode ev.ext

/-- EFLAGS with RF cleared (71 R1089). -/
def clearRf (v : Word32) : Word32 := v &&& 0xFFFEFFFF#32

/-- The EFLAGS image a handler is entered with on its stack: RF set for a fault (60 R920), clear for a software interrupt, which is an
instruction that completes (41 R461, 71 R1089). DEDUCED (log entry 27). -/
def State.flagsImage (s : State) (ev : Event) : Word32 :=
  if ev.isFault then setBit s.eflags 16 true else if ev.software then clearRf s.eflags else s.eflags

/-- EFLAGS on entry to a handler: TF, NT, RF cleared, IF cleared by an interrupt gate (41 R464). DEDUCED (log entry
27). -/
def handlerFlags (clearIf : Bool) (v : Word32) : Word32 :=
  v &&& (if clearIf then 0xFFFEBCFF#32 else 0xFFFEBEFF#32)

/-- The error code as a list of items to push. -/
def Event.codeItems (ev : Event) : List Nat :=
  match ev.code with
  | none => []
  | some c => [c.toNat]

/-- What a debug exception does to DR6 and DR7 when it is taken (71 R1085, R1087). GD is cleared for the causes that R1080 lists;
an INT 1 or an interrupt with vector 1 leaves it set. DESIGN CHOICE (log entry 53). -/
def State.noteDebug (s : State) (ev : Event) : State :=
  match ev.debug with
  | none => s
  | some d => { s with dr := { s.dr with dr6 := s.dr.dr6 ||| d, dr7 := s.dr.dr7 &&& 0xFFFFDFFF#32 } }

/-- What a vector beyond the limit of the Real Mode interrupt table raises: exception 8 (60 R926). It shuts the processor down
where exception 8 is itself being delivered (R935). -/
def excTable : Exc := .exn 8#8 (some 0#16) 0#32

/-- Delivery in Real Mode (41 R464): IF, TF, NT and RF are cleared (10_state.md R29). -/
def deliverReal (ev : Event) (ret : Word32) : M Unit := do
  let s ← get
  check (decide (ev.vector.toNat * 4 + 3 ≤ s.idtr.limit.toNat)) excTable
  pushAllSys 2 [(s.eflags.setWidth 16).toNat, s.seg.cs.sel.toNat, (ret.setWidth 16).toNat]
  let a := s.idtr.base + BitVec.ofNat 32 (ev.vector.toNat * 4)
  let off ← sysRead a 2
  let sel ← sysRead (a + 2#32) 2
  modify fun t =>
    ((t.putSeg .cs (t.seg.cs.loadReal (BitVec.ofNat 16 sel))).setEip (BitVec.ofNat 32 off)).setEflags
      (handlerFlags true t.eflags)

/-- The bytes of each pushed item: 4 through an Am486 gate, 2 through an 80286 gate. -/
def Desc.gateBytes (d : Desc) : Nat := if d.hi.getLsbD 11 then 4 else 2

/-- An interrupt gate, not a trap gate (21 R196). -/
def Desc.isIntGate (d : Desc) : Bool := !d.hi.getLsbD 8

/-- The checks of a new inner stack (41 R464 INNER, 21 R232): its selector, pointer and descriptor. -/
def innerStack (level : BitVec 2) (ext : Bool) : M (Word16 × Word32 × Desc) := do
  let (ns, nsp) ← tssStack level ext
  let s ← get
  check (!selNull ns) (excTS (extCode ext))
  check (selInTable s ns) (excTS (selCode ns ext))
  check (selRpl ns == level) (excTS (selCode ns ext))
  let d ← readDesc ns
  check (d.dpl == level) (excTS (selCode ns ext))
  check d.writable (excTS (selCode ns ext))
  check d.present (excSS (selCode ns ext))
  pure (ns, nsp, d)

/-- The size of a stack segment's pointer by its B bit. -/
def Desc.stackSize (d : Desc) : Size := if d.db then .s32 else .s16

/-- The stack of a segment and an ESP. -/
def State.withStack (s : State) (x : SegReg) (esp : Word32) : State := (s.putSeg .ss x).setGpr { s.gpr with esp := esp }

/-- Switch to an inner stack, the level as yet unchanged. -/
def State.onStack (s : State) (ns : Word16) (nsp : Word32) (d : Desc) : State :=
  s.withStack (d.toSeg ns) (d.stackSize.merge s.gpr.esp nsp)

/-- Switch to an inner stack and level. -/
def State.enterInner (s : State) (level : BitVec 2) (ns : Word16) (nsp : Word32) (d : Desc) : State :=
  (s.onStack ns nsp d).setCpl level

/-- INNER and FROM-V86 of R464. The upper half of the doubleword slot of a selector is 0. DESIGN CHOICE (log entry 47). The
Accessed bits of the handler's CS and of the new SS are set before the frame is pushed, CS first: a push that page-faults leaves
both set. DESIGN CHOICE (log entry 56). -/
def deliverInner (ev : Event) (ret : Word32) (g : Desc) (c : Desc) : M Unit := do
  let s ← get
  let cs := g.gateSel
  let w := g.gateBytes
  check (!s.v86 || (c.dpl == 0#2 && decide (w = 4))) (excGP (selCode cs ev.ext))
  let (ns, nsp, d) ← innerStack c.dpl ev.ext
  let total := (if s.v86 then 36 else 5 * w) + w * ev.codeItems.length
  check (roomBelow (d.toSeg ns) d.stackSize nsp total) (excSS 0#16)
  check (eipOk c.limit g.gateOffset) (excGP 0#16)
  markAccessed cs c
  markAccessed ns d
  let frame := [s.seg.ss.sel.toNat, s.gpr.esp.toNat, (s.flagsImage ev).toNat, s.seg.cs.sel.toNat, ret.toNat]
    ++ ev.codeItems
  if s.v86 then do
    modify fun t =>
      let u := (t.setEflags (setBit t.eflags 17 false)).enterInner 0#2 ns nsp d
      u.setGpr { u.gpr with esp := nsp }
    pushAllSys 4 [s.seg.gs.sel.toNat, s.seg.fs.sel.toNat, s.seg.ds.sel.toNat, s.seg.es.sel.toNat]
    modify fun t =>
      { t with seg := { t.seg with gs := t.seg.gs.null 0#16, fs := t.seg.fs.null 0#16,
                                   ds := t.seg.ds.null 0#16, es := t.seg.es.null 0#16 } }
    pushAllSys 4 frame
  else do
    modify fun t => t.enterInner c.dpl ns nsp d
    pushAllSys w frame
  modify fun t =>
    ((t.putSeg .cs (c.toSeg (withRpl cs c.dpl))).setEip g.gateOffset).setEflags (handlerFlags g.isIntGate t.eflags)

/-- SAME-LEVEL of R464. The upper half of the doubleword slot of CS is 0. DESIGN CHOICE (log entry 47). The Accessed bit of the
handler's CS is set before the frame is pushed: a push that page-faults leaves it set. DESIGN CHOICE (log entry 56). -/
def deliverSame (ev : Event) (ret : Word32) (g : Desc) (c : Desc) : M Unit := do
  let s ← get
  let cs := g.gateSel
  let w := g.gateBytes
  check (s.room (3 * w + w * ev.codeItems.length)) (excSS 0#16)
  check (eipOk c.limit g.gateOffset) (excGP 0#16)
  markAccessed cs c
  pushAllSys w ([(s.flagsImage ev).toNat, s.seg.cs.sel.toNat, ret.toNat] ++ ev.codeItems)
  modify fun t =>
    ((t.putSeg .cs (c.toSeg (withRpl cs s.cpl))).setEip g.gateOffset).setEflags (handlerFlags g.isIntGate t.eflags)

/-- TRAP-OR-INTERRUPT-GATE of R464. -/
def deliverGate (ev : Event) (ret : Word32) (g : Desc) : M Unit := do
  let s ← get
  let cs := g.gateSel
  check (!selNull cs) (excGP (extCode ev.ext))
  check (selInTable s cs) (excGP (selCode cs ev.ext))
  let c ← readDesc cs
  check c.isCode (excGP (selCode cs ev.ext))
  check c.present (excNP (selCode cs ev.ext))
  if !c.conforming && decide (c.dpl.toNat < s.cpl.toNat) then deliverInner ev ret g c
  else do
    check (c.conforming || c.dpl == s.cpl) (excGP (selCode cs ev.ext))
    check (!s.v86) (excGP (selCode cs ev.ext))
    deliverSame ev ret g c

/-- Is a descriptor an available TSS (types 1 and 9)? -/
def Desc.isFreeTss (d : Desc) : Bool := !d.s && (d.typ == 1#4 || d.typ == 9#4)
/-- Is a descriptor a busy TSS (types 3 and B)? -/
def Desc.isBusyTss (d : Desc) : Bool := !d.s && (d.typ == 3#4 || d.typ == 0xB#4)

/-- The checks of a TSS selector reached through a task gate (41 R464, 40 R427, 42 R513): not null (10_state.md R36, 21 R186), in
the GDT, available, present. `e` makes the exception of all but the last. -/
def checkTss (ts : Word16) (ext : Bool) (e : Word16 → Exc) : M Unit := do
  let s ← get
  check (!selNull ts && !selTi ts && selInTable s ts) (e (selCode ts ext))
  let d ← readDesc ts
  check d.isFreeTss (e (selCode ts ext))
  check d.present (excNP (selCode ts ext))

/-- TASK-GATE of R464. The room for the error code is tested first, as the listing has it; then the new EIP, since no error code is
pushed where step 17 of the switch faults (61 R990). DEDUCED (log entry 50). A fault of the room or of the push is one raised while
the event is delivered (60 R925), unlike one of steps 13 to 17. -/
def deliverTask (ev : Event) (ret : Word32) (g : Desc) : M Unit := do
  let ts := g.gateSel
  checkTss ts ev.ext excTS
  let trap ← switchTasks .int ts ret ev.ext
  setArrived false
  let s ← get
  let w := if s.tr.format = .tss486 then 4 else 2
  check (ev.code.isNone || s.room w) (excSS 0#16)
  setArrived true
  checkNewEip (excGP 0#16)
  setArrived false
  pushAllSys w ev.codeItems
  pendTaskTrap trap

/-- Delivery in Protected Mode and V86 Mode (41 R464). -/
def deliverProtected (ev : Event) (ret : Word32) : M Unit := do
  let s ← get
  check (decide (ev.vector.toNat * 8 + 7 ≤ s.idtr.limit.toNat)) (excGP ev.idtCode)
  let a := s.idtr.base + BitVec.ofNat 32 (ev.vector.toNat * 8)
  let lo ← sysRead a 4
  let hi ← sysRead (a + 4#32) 4
  let g : Desc := { lo := BitVec.ofNat 32 lo, hi := BitVec.ofNat 32 hi }
  check (!g.s && (g.typ == 5#4 || (g.typ &&& 7#4 == 6#4) || (g.typ &&& 7#4 == 7#4))) (excGP ev.idtCode)
  check (!ev.software || decide (s.cpl.toNat ≤ g.dpl.toNat)) (excGP ev.idtCode)
  check g.present (excNP ev.idtCode)
  if g.typ == 5#4 then deliverTask ev ret g else deliverGate ev ret g

/-- The state a delivery starts in: DR6 has been updated (60 R920). EFLAGS stay: a task gate saves them as they are, RF too, for
software interrupts like the rest (61 R990 step 4; 10_state.md R29). -/
def State.startDelivery (s : State) (ev : Event) : State := { s.noteDebug ev with run := .running }

/-- Deliver (41 R464): the one way into a handler. `ret` is the EIP to be saved. -/
def deliver (ev : Event) (ret : Word32) : M Unit := do
  modify fun s => s.startDelivery ev
  let s ← get
  if s.real then deliverReal ev ret else deliverProtected ev ret

/-! What happens when delivery itself meets an exception. -/

/-- An exception of the program as an event. -/
def faultEvent (v : Byte) (code : Option Word16) (dr6 : Word32) : Event :=
  { vector := v, software := false, code := code, isFault := true, debug := if v = 1#8 then some dr6 else none }

/-- The double fault (60 R925). DESIGN CHOICE (log entry 32). -/
def doubleFault : Event := { vector := 8#8, software := false, code := some 0#16, isFault := false, debug := none }

/-- Is an event exception 8? An interrupt through vector 8 has no error code. -/
def Event.isDouble (ev : Event) : Bool := ev.vector == 8#8 && ev.code.isSome

/-- Is an event one of the exceptions 10 to 13? -/
def Event.contributory (ev : Event) : Bool :=
  ev.isFault && decide (10 ≤ ev.vector.toNat) && decide (ev.vector.toNat ≤ 13)

/-- Is an event a page fault? -/
def Event.isPageFault (ev : Event) : Bool := ev.isFault && ev.vector == 14#8

/-- What is delivered when exception `b` is raised while `a` is delivered; none: shutdown (60 R925). -/
def escalate (a b : Event) : Option Event :=
  if a.isDouble then none
  else if a.contributory || a.isPageFault then (if b.isPageFault then some b else some doubleFault)
  else some b

/-- The state before an instruction or a delivery, with what a fault leaves of its attempt (60 R905): page-table and
descriptor bits, cache, TLB, CR2, DR6 (updated before a delivery, R920), the corrupted read buffer (71 R1102), what the platform
has seen. -/
def State.abandon (s t : State) : State :=
  { s with mem := t.mem, cache := t.cache, tlb := t.tlb, cr2 := t.cr2, dr := { s.dr with dr6 := t.dr.dr6 },
           freeCtr := t.freeCtr, events := t.events, bufferSpoiled := t.bufferSpoiled,
           latch := { s.latch with inhibitNext := false, stiShadow := false } }

/-- The state at an address between instructions. -/
def State.restAt (s : State) (a : Word32) : State := { s with eip := a, insn := .idle a }

/-- Shutdown (60 R935): the special cycle is driven and nothing runs. -/
def State.shut (s : State) (a : Word32) : State :=
  { s.restAt a with run := .shutdown, events := s.events ++ [.shutdown] }

/-- Is some of the matched data breakpoints enabled (71 R1086)? -/
def State.anyEnabled (s : State) (hits : BitVec 4) : Bool :=
  (List.range 4).any fun n => hits.getLsbD n && s.dr.enabled n

/-- Is a debug trap pending? -/
def Traps.any (x : Traps) : Bool := x.bs || x.bt || x.data

/-- The pending traps after an instruction or a delivery: `hits` are the data breakpoints it matched, `bs` says that it
is single-stepped. Matches of disabled breakpoints alone are no trap (71 R1087). DEDUCED (log entry 31). -/
def State.addTraps (s : State) (hits : BitVec 4) (bs : Bool) : Traps :=
  let x : Traps :=
    { bs := s.traps.bs || bs, bt := s.traps.bt, data := s.traps.data || s.anyEnabled hits, hits := s.traps.hits ||| hits }
  if x.any then x else .none

/-- A state after a delivery: its stores committed, its debug traps pending. -/
def State.settle (t : State) (bs : Bool) : State :=
  let u := t.commitStores
  { u.restAt u.eip with traps := u.addTraps t.insn.hits bs }

/-- The outcome of a step. -/
abbrev Result := Host.Outcome State Fault Refusal

/-- The state that an exception raised in place of an event finds: the delivery that left `t` was tried from `p` at `a`. Before the
commit point of a task switch the attempt is undone; after it the new task is the current one, at its own EIP (61 R990 step 8).
DEDUCED (log entry 58). -/
def State.leftBy (p t : State) (a : Word32) : State :=
  if t.insn.committed then t.commitStores.restAt t.eip else (p.abandon t).restAt a

/-- A delivery that shuts the processor down (60 R935). -/
def State.shutBy (p t : State) (a : Word32) : State :=
  let q := p.leftBy t a
  q.shut q.eip

/-- Deliver an event, and whatever its delivery raises instead (60 R925). `ret` is the EIP saved for the event itself,
`fret` the one saved for an exception in its place; `bs` leaves a single-step trap pending when the event itself is
delivered (71 R1084). A shutdown leaves the EIP that the failed delivery would have saved (R935). A fault of steps 13 to 17 of a
task switch is a fresh exception of the new task (61 R990). A page fault that page-faults again and again is left for the next
step (log entry 11). -/
def deliverLoop : Nat → Event → Word32 → Word32 → Bool → State → Result
  | 0, ev, _, fret, _, p => .next { p.restAt fret with run := .redeliver ev }
  | n + 1, ev, ret, fret, bs, p =>
    match deliver ev ret p with
    | .ok _ t => .next (t.settle bs)
    | .error (.stop f) _ => .fault f
    | .error (.exn v c d) t =>
      if t.insn.arrived then deliverLoop n (faultEvent v c d) t.eip t.eip false (t.commitStores.restAt t.eip)
      else
        let q := p.leftBy t fret
        match escalate ev (faultEvent v c d) with
        | some e => deliverLoop n e q.eip q.eip false q
        | none => .next (p.shutBy t ret)
    | .error _ t => .next (p.shutBy t ret)

/-- How many deliveries one step tries. -/
def deliverFuel : Nat := 8

/-- Deliver an event that is not an instruction's own at an instruction boundary. -/
def State.deliverAt (s : State) (ev : Event) : Result :=
  deliverLoop deliverFuel ev s.eip s.eip false (s.restAt s.eip)

/-! The end of an instruction. -/

/-- The state after an instruction that completes: `s` is the state it started in, `t` the one its meaning left. RF is
cleared (71 R1089), a single-step trap is left pending if TF was set at the start (71 R1084), the interrupt shadow is
that of the instruction just completed (10_state.md R63). DEDUCED (log entry 30). -/
def finish (s t : State) : State :=
  let u := t.commitStores
  let a := if t.insn.again then t.insn.start else t.eip
  { u.restAt a with
    eflags := if t.insn.keepRf || t.insn.again then t.eflags else clearRf t.eflags
    traps := u.addTraps t.insn.hits s.tf
    latch := { t.latch with
      inhibitNext := if t.insn.again then t.latch.inhibitNext else t.insn.inhibit
      stiShadow := if t.insn.again then t.latch.stiShadow else t.insn.stiShadow } }

/-- An instruction that does not complete (60 R905, R920). A push of the instruction's own that shuts the processor down leaves CS:EIP at
the instruction and the registers as before it, and memory too, but for the words that earlier pushes of an ENTER have committed; 60 R935
and D46 speak of a failed delivery only. DESIGN CHOICE (log entry 64). A freeze ends the interrupt shadows, like a fault. DESIGN CHOICE (log entry 30). -/
def failure (s : State) (e : Exc) (t : State) : Result :=
  let a := s.insn.start
  match e with
  | .exn v c d =>
    if t.insn.committed then
      deliverLoop deliverFuel (faultEvent v c d) t.eip t.eip false (t.commitStores.restAt t.eip)
    else deliverLoop deliverFuel (faultEvent v c d) a a false ((s.abandon t).restAt a)
  | .soft v =>
    deliverLoop deliverFuel { vector := v, software := true, code := none, isFault := false, debug := none } t.eip a
      s.tf ((s.abandon t).restAt t.eip)
  | .shutdown => .next ((s.abandon t).shut a)
  | .freeze => .next { (s.abandon t).restAt a with run := .frozen }
  | .stop f => .fault f

/-- Run the meaning of an instruction. -/
def run (m : M Unit) (s : State) : Result :=
  match m s with
  | .ok _ t => .next (finish s t)
  | .error e t => failure s e t

/-- Run the meaning of a prefix: it changes the instruction latch and nothing else. -/
def runPrefix (f : Insn → Insn) (s : State) : Result := .next { s with insn := f s.insn }

/-! Returning from a handler. -/

/-- Load CS in Real or V86 Mode. -/
def loadCs8086 (x : Word16) : M Unit := do
  let s ← get
  setSeg .cs (if s.v86 then SegReg.v86 x else s.seg.cs.loadReal x)

/-- Tell the end of the instruction that RF keeps its value. -/
def keepRf : M Unit := modify fun s => { s with insn := { s.insn with keepRf := true } }

/-- REAL-RETURN of R467. -/
def iretReal (os : Size) : M Unit := do
  let w := os.bytes
  let ip ← stackRead 0 w
  let cs ← stackRead w w
  let fl ← stackRead (2 * w) w
  let s ← get
  check (eipOk s.seg.cs.limit (BitVec.ofNat 32 ip)) (excGP 0#16)
  stackFree (3 * w)
  loadCs8086 (BitVec.ofNat 16 cs)
  modify fun t =>
    (t.setEip (BitVec.ofNat 32 ip)).setEflags
      (loadFlags (BitVec.ofNat 32 fl) os (if s.v86 then 3#2 else 0#2) true t.eflags)

/-- TASK-RETURN of R467. A null back link names no TSS (10_state.md R36). -/
def iretTask : M Unit := do
  let s ← get
  let bl := BitVec.ofNat 16 (← sysRead s.tr.base 2)
  check (!selNull bl && !selTi bl && selInTable s bl) (excTS (selCode bl false))
  let d ← readDesc bl
  check d.isBusyTss (excTS (selCode bl false))
  check d.present (excNP (selCode bl false))
  let trap ← switchTasks .iret bl s.eip false
  finishSwitch trap (excGP 0#16)

/-- RETURN-TO-V86 of R467. -/
def iretV86 : M Unit := do
  let s ← get
  check (s.topOk 36) (excSS 0#16)
  let ip ← stackRead 0 4
  check (decide (ip ≤ 0xFFFF)) (excGP 0#16)
  let cs ← stackRead 4 4
  let fl ← stackRead 8 4
  let sp ← stackRead 12 4
  let ss ← stackRead 16 4
  let es ← stackRead 20 4
  let ds ← stackRead 24 4
  let fs ← stackRead 28 4
  let gs ← stackRead 32 4
  loadV86Segs (BitVec.ofNat 16 es) (BitVec.ofNat 16 cs) (BitVec.ofNat 16 ss) (BitVec.ofNat 16 ds)
    (BitVec.ofNat 16 fs) (BitVec.ofNat 16 gs)
  modify fun t =>
    ((t.setEflags (fixFlags (BitVec.ofNat 32 fl))).setEip (BitVec.ofNat 32 ip)).setGpr
      { t.gpr with esp := BitVec.ofNat 32 sp }

/-- The checks of a return CS (43 R585, 41 R467), for a return to level `level`: the descriptor. -/
def checkReturnCs (rcs : Word16) (level : BitVec 2) : M Desc := do
  let s ← get
  check (!selNull rcs) (excGP 0#16)
  check (selInTable s rcs) (excGP (selCode rcs false))
  let c ← readDesc rcs
  check c.isCode (excGP (selCode rcs false))
  check (if c.conforming then decide (c.dpl.toNat ≤ level.toNat) else c.dpl == level) (excGP (selCode rcs false))
  check c.present (excNP (selCode rcs false))
  pure c

/-- The checks of a return SS (43 R585, 41 R467): the descriptor. -/
def checkReturnSs (rss : Word16) (level : BitVec 2) : M Desc := do
  let s ← get
  check (!selNull rss) (excGP 0#16)
  check (selInTable s rss) (excGP (selCode rss false))
  check (selRpl rss == level) (excGP (selCode rss false))
  let d ← readDesc rss
  check d.writable (excGP (selCode rss false))
  check (d.dpl == level) (excGP (selCode rss false))
  check d.present (excNP (selCode rss false))
  pure d

/-- A data segment register after a return to an outer level (21 R235). -/
def SegReg.scrub (x : SegReg) (level : BitVec 2) : SegReg :=
  if x.usable && (!x.isCode || !x.bit2) && decide (x.dpl.toNat < level.toNat) then x.null 0#16 else x

/-- DS, ES, FS and GS after a return to an outer level (21 R235). -/
def State.scrub (s : State) (level : BitVec 2) : State :=
  { s with seg := { s.seg with ds := s.seg.ds.scrub level, es := s.seg.es.scrub level,
                               fs := s.seg.fs.scrub level, gs := s.seg.gs.scrub level } }

/-- Load CS:EIP, SS:(E)SP and CPL for a return to an outer level, then scrub. -/
def State.returnOuter (s : State) (os : Size) (rcs rss : Word16) (c d : Desc) (ip nsp : Word32) : State :=
  let t := ((s.putSeg .cs (c.toSeg rcs)).putSeg .ss (d.toSeg rss)).setEip ip
  ((t.setGpr { t.gpr with esp := os.merge t.gpr.esp nsp }).setCpl (selRpl rcs)).scrub (selRpl rcs)

/-- STACK-RETURN of R467. The slot of CS, which is read before the block of the frame is tested, wraps at 64 Kbytes on a 16-bit
stack. DESIGN CHOICE (log entry 37). -/
def iretStack (os : Size) : M Unit := do
  let w := os.bytes
  let rcs := BitVec.ofNat 16 (← stackRead w 2)
  let s ← get
  check (decide (s.cpl.toNat ≤ (selRpl rcs).toNat)) (excGP (selCode rcs false))
  if selRpl rcs = s.cpl then do
    check (s.topOk (3 * w)) (excSS 0#16)
    let c ← checkReturnCs rcs s.cpl
    let ip := BitVec.ofNat 32 (← stackRead 0 w)
    check (eipOk c.limit ip) (excGP 0#16)
    let fl := BitVec.ofNat 32 (← stackRead (2 * w) w)
    markAccessed rcs c
    stackFree (3 * w)
    modify fun t =>
      ((t.putSeg .cs (c.toSeg rcs)).setEip ip).setEflags (loadFlags fl os s.cpl true t.eflags)
  else do
    check (s.topOk (5 * w)) (excSS 0#16)
    let c ← checkReturnCs rcs (selRpl rcs)
    let rss := BitVec.ofNat 16 (← stackRead (4 * w) 2)
    let d ← checkReturnSs rss (selRpl rcs)
    let ip := BitVec.ofNat 32 (← stackRead 0 w)
    check (eipOk c.limit ip) (excGP 0#16)
    let fl := BitVec.ofNat 32 (← stackRead (2 * w) w)
    let nsp := BitVec.ofNat 32 (← stackRead (3 * w) w)
    markAccessed rcs c
    markAccessed rss d
    modify fun t =>
      (t.returnOuter os rcs rss c d ip nsp).setEflags (loadFlags fl os s.cpl true t.eflags)

/-- Does a 32-bit IRET at level 0 find VM = 1 in the flags image (41 R467)? -/
def iretToV86 (os : Size) : M Bool := do
  let s ← get
  if os = .s32 && s.cpl == 0#2 then do
    let fl ← stackRead 8 4
    pure (fl.testBit 17)
  else pure false

/-- IRET and IRETD (41 R467). -/
def iretOp (os : Size) : M Unit := do
  let s ← get
  needV86Iopl
  keepRf
  if s.real || s.v86 then iretReal os
  else if s.nt then iretTask
  else if ← iretToV86 os then iretV86
  else iretStack os
  modify fun t => { t with latch := { t.latch with nmiMasked := false } }

end Sys2Proof.Machine
end

