-- ==== Sys2Proof/Machine/Arith.lean ====
section
/-!
DEFINITION. The arithmetic and logical instructions of two operands, INC, DEC, NEG, NOT, CMPXCHG, XADD, the multiplies
and divides and the decimal adjusts (spec/40_int_a_to_c.md to spec/44_int_s_to_x.md).
-/
namespace Sys2Proof.Machine
open Sys2Proof

/-- What a two-operand instruction computes at each width: destination, source, CF; the result and the flags. -/
abbrev AluOp := (n : Nat) → BitVec n → BitVec n → Bool → BitVec n × StatusUpd

/-- A two-operand instruction on a destination and a source value; `store` is false for CMP and TEST. -/
def binRM (store : Bool) (w : Width) (x : RM) (b : BitVec w.bits) (op : AluOp) : M Unit := do
  let a ← if store then updateRM w x else readRM w x
  let s ← get
  let r := op w.bits a b s.cf
  if store then writeRM w r.1 x else pure ()
  setStatus r.2

/-- ADD and its like (40 R414): the source is read first, then the destination. -/
def aluOp (store : Bool) (op : AluOp) (f : AluForm) : M Unit := do
  let b ← aluSource f
  binRM store f.width f.dst b op

/-- ADC (40 R414). -/
def execAdc (f : AluForm) (s : State) : Result := run (aluOp true (fun _ a b c => addFlags a b c) f) s
/-- ADD (40 R415). -/
def execAdd (f : AluForm) (s : State) : Result := run (aluOp true (fun _ a b _ => addFlags a b false) f) s
/-- AND (40 R416). -/
def execAnd (f : AluForm) (s : State) : Result := run (aluOp true (fun _ a b _ => logicFlags (a &&& b)) f) s
/-- CMP (40 R435). -/
def execCmp (f : AluForm) (s : State) : Result := run (aluOp false (fun _ a b _ => subFlags a b false) f) s
/-- OR (43 R570). -/
def execOr (f : AluForm) (s : State) : Result := run (aluOp true (fun _ a b _ => logicFlags (a ||| b)) f) s
/-- SBB (44 R604). -/
def execSbb (f : AluForm) (s : State) : Result := run (aluOp true (fun _ a b c => subFlags a b c) f) s
/-- SUB (44 R620). -/
def execSub (f : AluForm) (s : State) : Result := run (aluOp true (fun _ a b _ => subFlags a b false) f) s
/-- XOR (44 R629). -/
def execXor (f : AluForm) (s : State) : Result := run (aluOp true (fun _ a b _ => logicFlags (a ^^^ b)) f) s

/-- TEST (44 R621): AND without the store. -/
def testOp (f : TestForm) : M Unit := do
  let b ← testSource f
  binRM false f.width f.dst b fun _ a b _ => logicFlags (a &&& b)

/-- TEST (44 R621). -/
def execTest (f : TestForm) (s : State) : Result := run (testOp f) s

/-- A one-operand read-modify-write. -/
def unaryRM (w : Width) (x : RM) (op : BitVec w.bits → BitVec w.bits × StatusUpd) : M Unit := do
  let a ← updateRM w x
  let r := op a
  writeRM w r.1 x
  setStatus r.2

/-- INC (41 R459): CF is kept. -/
def incOp {n : Nat} (a : BitVec n) : BitVec n × StatusUpd :=
  let r := addFlags a 1#n false
  (r.1, { r.2 with cf := .keep })

/-- DEC (41 R452): CF is kept. -/
def decOp {n : Nat} (a : BitVec n) : BitVec n × StatusUpd :=
  let r := subFlags a 1#n false
  (r.1, { r.2 with cf := .keep })

/-- INC (41 R459). -/
def execInc (f : IncForm) (s : State) : Result := run (unaryRM f.width f.dst fun a => incOp a) s
/-- DEC (41 R452). -/
def execDec (f : IncForm) (s : State) : Result := run (unaryRM f.width f.dst fun a => decOp a) s
/-- NEG (43 R567). -/
def execNeg (w : Width) (rm : RM) (s : State) : Result := run (unaryRM w rm fun a => subFlags (0#w.bits) a false) s
/-- NOT (43 R569): no flag changes. -/
def execNot (w : Width) (rm : RM) (s : State) : Result := run (unaryRM w rm fun a => (~~~a, {})) s

/-- CMPXCHG (40 R437): the destination is written whatever the comparison says. -/
def cmpxchgOp (w : Width) (x : RM) (r : Reg) : M Unit := do
  let d ← updateRM w x
  let acc ← getReg w .eax
  let v ← getReg w r
  if acc = d then writeRM w v x
  else do
    writeRM w d x
    setReg w .eax d
  setStatus (subFlags acc d false).2

/-- CMPXCHG (40 R437). -/
def execCmpxchg (w : Width) (rm : RM) (r : Reg) (s : State) : Result := run (cmpxchgOp w rm r) s

/-- XADD (44 R626): the source register takes the old destination, the destination the sum; when both are one register
the sum stays. -/
def xaddOp (w : Width) (x : RM) (r : Reg) : M Unit := do
  let d ← updateRM w x
  let v ← getReg w r
  let t := addFlags d v false
  match x with
  | .reg y => do
    setReg w r d
    setReg w y t.1
  | .mem m => do
    writeMem w m t.1
    setReg w r d
  setStatus t.2

/-- XADD (44 R626). -/
def execXadd (w : Width) (rm : RM) (r : Reg) (s : State) : Result := run (xaddOp w rm r) s

/-- The double-width accumulator: AX, DX:AX or EDX:EAX (41 R453). -/
def Gprs.wide (g : Gprs) (w : Width) : BitVec (2 * w.bits) :=
  match w with
  | .byte => (g.eax.setWidth 16 : Word16)
  | .word => (g.edx.setWidth 16 ++ g.eax.setWidth 16 : Word32)
  | .dword => (g.edx ++ g.eax : BitVec 64)

/-- The register of the upper half of the double-width accumulator: AH, DX or EDX. -/
def upperReg : Width → Reg
  | .byte => .esp
  | .word => .edx
  | .dword => .edx

/-- Write the two halves of the double-width accumulator: AL and AH, AX and DX, EAX and EDX. -/
def setHalves (w : Width) (low high : BitVec w.bits) : M Unit := do
  setReg w .eax low
  setReg w (upperReg w) high

/-- Write the double-width accumulator. -/
def setWide (w : Width) (p : BitVec (2 * w.bits)) : M Unit :=
  setHalves w (p.setWidth w.bits) (p.extractLsb' w.bits w.bits)

/-- DIV and IDIV: the flags are undefined (41 R453, R456). -/
def divideOp (op : (n : Nat) → BitVec (2 * n) → BitVec n → Option (BitVec n × BitVec n)) (w : Width) (x : RM) :
    M Unit := do
  let v ← readRM w x
  let s ← get
  match op w.bits (s.gpr.wide w) v with
  | none => throw excDE
  | some (q, r) => do
    setHalves w q r
    setStatus .undefined

/-- DIV (41 R453). -/
def execDiv (w : Width) (rm : RM) (s : State) : Result := run (divideOp (fun _ d v => divOp d v) w rm) s
/-- IDIV (41 R456). -/
def execIdiv (w : Width) (rm : RM) (s : State) : Result := run (divideOp (fun _ d v => idivOp d v) w rm) s

/-- The accumulator forms of MUL and IMUL. -/
def multiplyOp (op : (n : Nat) → BitVec n → BitVec n → BitVec (2 * n) × StatusUpd) (w : Width) (x : RM) : M Unit := do
  let v ← readRM w x
  let a ← getReg w .eax
  let p := op w.bits a v
  setWide w p.1
  setStatus p.2

/-- MUL (43 R566). -/
def execMul (w : Width) (rm : RM) (s : State) : Result := run (multiplyOp (fun _ a b => mulOp a b) w rm) s

/-- The forms of IMUL with a register destination (41 R457): the low half of the product is kept. -/
def imulTo (w : Width) (r : Reg) (x : RM) (other : M (BitVec w.bits)) : M Unit := do
  let a ← readRM w x
  let b ← other
  let p := imulOp a b
  setReg w r (p.1.setWidth w.bits)
  setStatus p.2

/-- IMUL (41 R457). -/
def imulForm : ImulForm → M Unit
  | .one w x => multiplyOp (fun _ a b => imulOp a b) w x
  | .two os r x => imulTo os.width r x (getReg os.width r)
  | .three8 os r x v => imulTo os.width r x (pure (v.signExtend os.width.bits))
  | .three r x v => imulTo v.width r x (pure v.val)

/-- IMUL (41 R457). -/
def execImul (f : ImulForm) (s : State) : Result := run (imulForm f) s

/-- AAA and AAS (40 R410, R413). -/
def asciiOp (sub : Bool) : M Unit := do
  let al ← getReg .byte .eax
  let ah ← getReg .byte .esp
  let s ← get
  let r := asciiAdjust sub al ah s.af
  setReg .byte .eax r.1
  setReg .byte .esp r.2.1
  setStatus r.2.2

/-- AAA (40 R410). -/
def execAaa (s : State) : Result := run (asciiOp false) s
/-- AAS (40 R413). -/
def execAas (s : State) : Result := run (asciiOp true) s

/-- AAD (40 R411) with any multiplier (92_eei_decisions.md D21). -/
def aadOp (base : Byte) : M Unit := do
  let al ← getReg .byte .eax
  let ah ← getReg .byte .esp
  let r := ah * base + al
  setReg .byte .eax r
  setReg .byte .esp 0#8
  setStatus (asciiFlags r)

/-- AAD (40 R411). -/
def execAad (base : Byte) (s : State) : Result := run (aadOp base) s

/-- AAM (40 R412) with any divisor; 0 raises #DE (92_eei_decisions.md D21). -/
def aamOp (base : Byte) : M Unit := do
  let al ← getReg .byte .eax
  check (base != 0#8) excDE
  setReg .byte .esp (al / base)
  setReg .byte .eax (al % base)
  setStatus (asciiFlags (al % base))

/-- AAM (40 R412). -/
def execAam (base : Byte) (s : State) : Result := run (aamOp base) s

/-- DAA and DAS (41 R450, R451). -/
def decimalOp (sub : Bool) : M Unit := do
  let al ← getReg .byte .eax
  let s ← get
  let r := decimalAdjust sub al s.af s.cf
  setReg .byte .eax r.1
  setStatus r.2

/-- DAA (41 R450). -/
def execDaa (s : State) : Result := run (decimalOp false) s
/-- DAS (41 R451). -/
def execDas (s : State) : Result := run (decimalOp true) s

end Sys2Proof.Machine
end

