-- ==== Sys2Proof/Machine/Bits.lean ====
section
/-!
DEFINITION. Shifts, rotates, bit tests and scans, BSWAP, sign conversions and SETcc
(spec/40_int_a_to_c.md R419 to R439; spec/43_int_m_to_r.md R581 to R587; spec/44_int_s_to_x.md R601 to R611).
-/
namespace Sys2Proof.Machine
open Sys2Proof

/-- A shift or rotate: value, CF, masked count; the result and the flags. -/
abbrev ShiftOp := (n : Nat) → BitVec n → Bool → Nat → BitVec n × StatusUpd

/-- The forms of the shifts and rotates (43 R581, 44 R601). -/
def shiftForm (op : ShiftOp) (w : Width) (x : RM) (c : Count) : M Unit := do
  let k ← readCount c
  let a ← updateRM w x
  let s ← get
  let r := op w.bits a s.cf k
  writeRM w r.1 x
  setStatus r.2

/-- RCL (43 R582). -/
def execRcl (w : Width) (rm : RM) (c : Count) (s : State) : Result := run (shiftForm (fun _ x f k => rclOp x f k) w rm c) s
/-- RCR (43 R583). -/
def execRcr (w : Width) (rm : RM) (c : Count) (s : State) : Result := run (shiftForm (fun _ x f k => rcrOp x f k) w rm c) s
/-- ROL (43 R586). -/
def execRol (w : Width) (rm : RM) (c : Count) (s : State) : Result := run (shiftForm (fun _ x _ k => rolOp x k) w rm c) s
/-- ROR (43 R587). -/
def execRor (w : Width) (rm : RM) (c : Count) (s : State) : Result := run (shiftForm (fun _ x _ k => rorOp x k) w rm c) s
/-- SAL (44 R602). -/
def execSal (w : Width) (rm : RM) (c : Count) (s : State) : Result := run (shiftForm (fun _ x _ k => shlOp x k) w rm c) s
/-- SAR (44 R603). -/
def execSar (w : Width) (rm : RM) (c : Count) (s : State) : Result := run (shiftForm (fun _ x _ k => sarOp x k) w rm c) s
/-- SHL (44 R608). -/
def execShl (w : Width) (rm : RM) (c : Count) (s : State) : Result := run (shiftForm (fun _ x _ k => shlOp x k) w rm c) s
/-- SHR (44 R610). -/
def execShr (w : Width) (rm : RM) (c : Count) (s : State) : Result := run (shiftForm (fun _ x _ k => shrOp x k) w rm c) s

/-- SHLD and SHRD (44 R609, R611). A count of 0 writes the operand back and changes no flag; a count of the operand
width or more leaves an undefined result and undefined flags. -/
def doubleShift (op : (n : Nat) → BitVec n → BitVec n → Nat → BitVec n × StatusUpd) (os : Size) (x : RM) (r : Reg)
    (c : DCount) : M Unit := do
  let k ← readDCount c
  let d ← updateRM os.width x
  let i ← getReg os.width r
  if k = 0 then writeRM os.width d x
  else if k < os.bits then do
    let t := op os.width.bits d i k
    writeRM os.width t.1 x
    setStatus t.2
  else do
    let v ← draw os.width.bits
    writeRM os.width v x
    setStatus .undefined

/-- SHLD (44 R609). -/
def execShld (os : Size) (rm : RM) (r : Reg) (c : DCount) (s : State) : Result :=
  run (doubleShift (fun _ d i k => shldOp d i k) os rm r c) s
/-- SHRD (44 R611). -/
def execShrd (os : Size) (rm : RM) (r : Reg) (c : DCount) (s : State) : Result :=
  run (doubleShift (fun _ d i k => shrdOp d i k) os rm r c) s

/-- A value with bit `k` replaced. -/
def putBit {n : Nat} (v : BitVec n) (k : Nat) (b : Bool) : BitVec n :=
  if b then v ||| (1#n <<< k) else v &&& ~~~(1#n <<< k)

/-- The flags of the bit tests: CF is the bit, the rest is undefined (40 R423). -/
def bitFlags (b : Bool) : StatusUpd := { StatusUpd.undefined with cf := .set b }

/-- Test bit `k` of a register, and where `f` says so replace it. -/
def bitReg (f : Option (Bool → Bool)) (w : Width) (r : Reg) (k : Nat) : M Unit := do
  let v ← getReg w r
  match f with
  | none => pure ()
  | some g => setReg w r (putBit v k (g (v.getLsbD k)))
  setStatus (bitFlags (v.getLsbD k))

/-- Test bit `k` of the word or doubleword at a distance from a memory operand, and where `f` says so replace it. A bit
string is checked for alignment to 4 (20_memory.md R126). DEDUCED (log entry 20). -/
def bitMem (f : Option (Bool → Bool)) (w : Width) (m : Mem) (d : Word32) (k : Nat) : M Unit := do
  let s ← get
  let a := m.as.trunc (s.gpr.ea m + d)
  let n ← match f with
    | none => memRead m.as (s.segOf m) a w.bytes 4
    | some _ => memReadWrite m.as (s.segOf m) a w.bytes 4
  let v := BitVec.ofNat w.bits n
  match f with
  | none => pure ()
  | some g => memWrite m.as (s.segOf m) a w.bytes 4 (putBit v k (g (v.getLsbD k))).toNat
  setStatus (bitFlags (v.getLsbD k))

/-- BT, BTS, BTR, BTC (40 R422). -/
def bitForm (f : Option (Bool → Bool)) : BitForm → M Unit
  | .reg os x r => do
    let o ← getReg os.width r
    match x with
    | .reg b => bitReg f os.width b (o.toNat % os.bits)
    | .mem m => bitMem f os.width m (bitPlace os o).1 (bitPlace os o).2
  | .imm os x v =>
    match x with
    | .reg b => bitReg f os.width b (v.toNat % os.bits)
    | .mem m => bitMem f os.width m 0#32 (v.toNat % os.bits)

/-- BT (40 R423). -/
def execBt (f : BitForm) (s : State) : Result := run (bitForm none f) s
/-- BTC (40 R424). -/
def execBtc (f : BitForm) (s : State) : Result := run (bitForm (some (!·)) f) s
/-- BTR (40 R425). -/
def execBtr (f : BitForm) (s : State) : Result := run (bitForm (some fun _ => false) f) s
/-- BTS (40 R426). -/
def execBts (f : BitForm) (s : State) : Result := run (bitForm (some fun _ => true) f) s

/-- The place of the lowest bit set, searched over bit numbers `i` up, `k` of them. -/
def lowestFrom {n : Nat} (v : BitVec n) (i : Nat) : Nat → Nat
  | 0 => i
  | k + 1 => if v.getLsbD i then i else lowestFrom v (i + 1) k

/-- The place of the highest bit set below `i`. -/
def highestBelow {n : Nat} (v : BitVec n) : Nat → Nat
  | 0 => 0
  | i + 1 => if v.getLsbD i then i else highestBelow v i

/-- The flags of the bit scans (40 R419): ZF is set for a source of 0, the rest is undefined. -/
def scanFlags (z : Bool) : StatusUpd := { StatusUpd.undefined with zf := .set z }

/-- BSF and BSR (40 R419, R420): a source of 0 leaves the destination undefined. -/
def scanOp (find : (n : Nat) → BitVec n → Nat) (os : Size) (r : Reg) (x : RM) : M Unit := do
  let v ← readRM os.width x
  let t ← if v = 0#os.width.bits then draw os.width.bits else pure (BitVec.ofNat os.width.bits (find os.width.bits v))
  setReg os.width r t
  setStatus (scanFlags (v == 0#os.width.bits))

/-- BSF (40 R419). -/
def execBsf (os : Size) (r : Reg) (rm : RM) (s : State) : Result := run (scanOp (fun n v => lowestFrom v 0 n) os r rm) s
/-- BSR (40 R420). -/
def execBsr (os : Size) (r : Reg) (rm : RM) (s : State) : Result := run (scanOp (fun n v => highestBelow v n) os r rm) s

/-- The bytes of a doubleword in reverse order. -/
def swapBytes (v : Word32) : Word32 :=
  v.extractLsb' 0 8 ++ v.extractLsb' 8 8 ++ v.extractLsb' 16 8 ++ v.extractLsb' 24 8

/-- BSWAP (40 R421): with an operand size of 16 the low half of the register is undefined
(93_implementation_defined.md U45). -/
def bswapOp (os : Size) (r : Reg) : M Unit := do
  match os with
  | .s32 => do
    let v ← getReg .dword r
    setReg .dword r (swapBytes v)
  | .s16 => do
    let v ← draw 16
    setReg .word r v

/-- BSWAP (40 R421). -/
def execBswap (os : Size) (r : Reg) (s : State) : Result := run (bswapOp os r) s

/-- Sign-extend one part of EAX into a wider one. -/
def extendAcc (src dst : Width) : M Unit := do
  let v ← getReg src .eax
  setReg dst .eax (v.signExtend dst.bits)

/-- Fill DX or EDX with the sign of the accumulator. -/
def signToDx (w : Width) : M Unit := do
  let v ← getReg w .eax
  setReg w .edx (if v.msb then BitVec.allOnes w.bits else 0#w.bits)

/-- CBW (40 R428). -/
def execCbw (s : State) : Result := run (extendAcc .byte .word) s
/-- CWDE (40 R439). -/
def execCwde (s : State) : Result := run (extendAcc .word .dword) s
/-- CWD (40 R438). -/
def execCwd (s : State) : Result := run (signToDx .word) s
/-- CDQ (40 R429). -/
def execCdq (s : State) : Result := run (signToDx .dword) s

/-- SETcc (44 R606). -/
def setccOp (c : Cond) (x : RM) : M Unit := do
  let s ← get
  writeRM .byte (if s.cond c then 1#8 else 0#8) x

/-- SETO (44 R606). -/
def execSeto (rm : RM) (s : State) : Result := run (setccOp .o rm) s
/-- SETNO (44 R606). -/
def execSetno (rm : RM) (s : State) : Result := run (setccOp .no rm) s
/-- SETB (44 R606). -/
def execSetb (rm : RM) (s : State) : Result := run (setccOp .b rm) s
/-- SETAE (44 R606). -/
def execSetae (rm : RM) (s : State) : Result := run (setccOp .nb rm) s
/-- SETE (44 R606). -/
def execSete (rm : RM) (s : State) : Result := run (setccOp .e rm) s
/-- SETNE (44 R606). -/
def execSetne (rm : RM) (s : State) : Result := run (setccOp .ne rm) s
/-- SETBE (44 R606). -/
def execSetbe (rm : RM) (s : State) : Result := run (setccOp .be rm) s
/-- SETA (44 R606). -/
def execSeta (rm : RM) (s : State) : Result := run (setccOp .nbe rm) s
/-- SETS (44 R606). -/
def execSets (rm : RM) (s : State) : Result := run (setccOp .s rm) s
/-- SETNS (44 R606). -/
def execSetns (rm : RM) (s : State) : Result := run (setccOp .ns rm) s
/-- SETP (44 R606). -/
def execSetp (rm : RM) (s : State) : Result := run (setccOp .p rm) s
/-- SETNP (44 R606). -/
def execSetnp (rm : RM) (s : State) : Result := run (setccOp .np rm) s
/-- SETL (44 R606). -/
def execSetl (rm : RM) (s : State) : Result := run (setccOp .l rm) s
/-- SETGE (44 R606). -/
def execSetge (rm : RM) (s : State) : Result := run (setccOp .nl rm) s
/-- SETLE (44 R606). -/
def execSetle (rm : RM) (s : State) : Result := run (setccOp .le rm) s
/-- SETG (44 R606). -/
def execSetg (rm : RM) (s : State) : Result := run (setccOp .nle rm) s

end Sys2Proof.Machine
end

