-- ==== Sys2Proof/Machine/Jumps.lean ====
section
/-!
DEFINITION. Near transfers: conditional jumps, JCXZ, LOOP, near JMP, CALL and RET (spec/40_int_a_to_c.md R427;
spec/42_int_j_to_l.md R500 to R548; spec/43_int_m_to_r.md R585).
-/
namespace Sys2Proof.Machine
open Sys2Proof

/-- The target of a relative transfer (42 R500): masked to 16 bits for an operand size of 16. -/
def State.relTarget (s : State) (os : Size) (disp : Word32) : Word32 := os.trunc (s.eip + disp)

/-- Check a near target against the code segment limit (21 R201). -/
def checkTarget (t : Word32) : M Unit := do
  let s ← get
  check (eipOk s.seg.cs.limit t) (excGP 0#16)

/-- Go to a near target. -/
def jumpNear (t : Word32) : M Unit := do
  checkTarget t
  modify fun s => s.setEip t

/-- Jcc (42 R500). -/
def jccOp (c : Cond) (d : Rel) : M Unit := do
  let s ← get
  if s.cond c then jumpNear (s.relTarget d.os d.disp) else pure ()

/-- JO (42 R528). -/
def execJo (d : Rel) (s : State) : Result := run (jccOp .o d) s
/-- JNO (42 R524). -/
def execJno (d : Rel) (s : State) : Result := run (jccOp .no d) s
/-- JB (42 R503). -/
def execJb (d : Rel) (s : State) : Result := run (jccOp .b d) s
/-- JC (42 R505). -/
def execJc (d : Rel) (s : State) : Result := run (jccOp .b d) s
/-- JNAE (42 R515). -/
def execJnae (d : Rel) (s : State) : Result := run (jccOp .b d) s
/-- JAE (42 R502). -/
def execJae (d : Rel) (s : State) : Result := run (jccOp .nb d) s
/-- JNB (42 R516). -/
def execJnb (d : Rel) (s : State) : Result := run (jccOp .nb d) s
/-- JNC (42 R518). -/
def execJnc (d : Rel) (s : State) : Result := run (jccOp .nb d) s
/-- JE (42 R507). -/
def execJe (d : Rel) (s : State) : Result := run (jccOp .e d) s
/-- JZ (42 R533). -/
def execJz (d : Rel) (s : State) : Result := run (jccOp .e d) s
/-- JNE (42 R519). -/
def execJne (d : Rel) (s : State) : Result := run (jccOp .ne d) s
/-- JNZ (42 R527). -/
def execJnz (d : Rel) (s : State) : Result := run (jccOp .ne d) s
/-- JBE (42 R504). -/
def execJbe (d : Rel) (s : State) : Result := run (jccOp .be d) s
/-- JNA (42 R514). -/
def execJna (d : Rel) (s : State) : Result := run (jccOp .be d) s
/-- JA (42 R501). -/
def execJa (d : Rel) (s : State) : Result := run (jccOp .nbe d) s
/-- JNBE (42 R517). -/
def execJnbe (d : Rel) (s : State) : Result := run (jccOp .nbe d) s
/-- JS (42 R532). -/
def execJs (d : Rel) (s : State) : Result := run (jccOp .s d) s
/-- JNS (42 R526). -/
def execJns (d : Rel) (s : State) : Result := run (jccOp .ns d) s
/-- JP (42 R529). -/
def execJp (d : Rel) (s : State) : Result := run (jccOp .p d) s
/-- JPE (42 R530). -/
def execJpe (d : Rel) (s : State) : Result := run (jccOp .p d) s
/-- JNP (42 R525). -/
def execJnp (d : Rel) (s : State) : Result := run (jccOp .np d) s
/-- JPO (42 R531). -/
def execJpo (d : Rel) (s : State) : Result := run (jccOp .np d) s
/-- JL (42 R511). -/
def execJl (d : Rel) (s : State) : Result := run (jccOp .l d) s
/-- JNGE (42 R521). -/
def execJnge (d : Rel) (s : State) : Result := run (jccOp .l d) s
/-- JGE (42 R510). -/
def execJge (d : Rel) (s : State) : Result := run (jccOp .nl d) s
/-- JNL (42 R522). -/
def execJnl (d : Rel) (s : State) : Result := run (jccOp .nl d) s
/-- JLE (42 R512). -/
def execJle (d : Rel) (s : State) : Result := run (jccOp .le d) s
/-- JNG (42 R520). -/
def execJng (d : Rel) (s : State) : Result := run (jccOp .le d) s
/-- JG (42 R509). -/
def execJg (d : Rel) (s : State) : Result := run (jccOp .nle d) s
/-- JNLE (42 R523). -/
def execJnle (d : Rel) (s : State) : Result := run (jccOp .nle d) s

/-- JCXZ and JECXZ (42 R506, R508): the count register of the address size is tested. -/
def jcxzOp (as os : Size) (d : Byte) : M Unit := do
  let s ← get
  if as.trunc s.gpr.ecx = 0#32 then jumpNear (s.relTarget os (d.signExtend 32)) else pure ()

/-- JCXZ (42 R506). -/
def execJcxz (os : Size) (d : Byte) (s : State) : Result := run (jcxzOp .s16 os d) s
/-- JECXZ (42 R508). -/
def execJecxz (os : Size) (d : Byte) (s : State) : Result := run (jcxzOp .s32 os d) s

/-- LOOP and its conditional forms (42 R548): the target is checked before the count is written. -/
def loopOp (os as : Size) (d : Byte) (also : State → Bool) : M Unit := do
  let s ← get
  let c := s.gpr.ecx - 1#32
  let taken := as.trunc c != 0#32 && also s
  let t := s.relTarget os (d.signExtend 32)
  if taken then checkTarget t else pure ()
  modify fun u => u.setGpr { u.gpr with ecx := as.merge u.gpr.ecx c }
  if taken then modify fun u => u.setEip t else pure ()

/-- LOOP (42 R548). -/
def execLoop (os as : Size) (d : Byte) (s : State) : Result := run (loopOp os as d fun _ => true) s
/-- LOOPE (42 R548). -/
def execLoope (os as : Size) (d : Byte) (s : State) : Result := run (loopOp os as d fun t => t.zf) s
/-- LOOPNE (42 R548). -/
def execLoopne (os as : Size) (d : Byte) (s : State) : Result := run (loopOp os as d fun t => !t.zf) s

/-- The target and operand size of a near CALL or JMP (40 R427, 42 R513). -/
def nearTarget : NearForm → M (Word32 × Size)
  | .rel d => do
    let s ← get
    pure (s.relTarget d.os d.disp, d.os)
  | .ind os x => do
    let v ← readRM os.width x
    pure (v.setWidth 32, os)

/-- Near JMP (42 R513). -/
def jmpNearOp (f : NearForm) : M Unit := do
  let t ← nearTarget f
  jumpNear t.1

/-- Near JMP (42 R513). -/
def execJmpNear (f : NearForm) (s : State) : Result := run (jmpNearOp f) s

/-- Near CALL (40 R427). -/
def callNearOp (f : NearForm) : M Unit := do
  let t ← nearTarget f
  checkTarget t.1
  let s ← get
  push t.2.bytes (t.2.trunc s.eip).toNat
  modify fun s => s.setEip t.1

/-- Near CALL (40 R427). -/
def execCallNear (f : NearForm) (s : State) : Result := run (callNearOp f) s

/-- The operand size of a RET and the bytes of parameters it releases (43 R585). -/
def retParts : RetForm → Size × Nat
  | .plain os => (os, 0)
  | .imm os n => (os, n.toNat)

/-- Near RET (43 R585). -/
def retNearOp (f : RetForm) : M Unit := do
  let p := retParts f
  let v ← pop p.1.bytes
  checkTarget (BitVec.ofNat 32 v)
  modify fun s => s.setEip (BitVec.ofNat 32 v)
  stackFree p.2

/-- Near RET (43 R585). -/
def execRetNear (f : RetForm) (s : State) : Result := run (retNearOp f) s

end Sys2Proof.Machine
end

