-- ==== Sys2Proof/Machine/Move.lean ====
section
/-!
DEFINITION. Data movement: MOV, segment registers, far pointers, LEA, MOVSX, MOVZX, XCHG, XLAT, IN and OUT, the flag
instructions (spec/40_int_a_to_c.md to spec/44_int_s_to_x.md).
-/
namespace Sys2Proof.Machine
open Sys2Proof

/-- The offset, in the current instruction, of a `moffs` operand: segment and offset (43 R560). -/
def moffsRead (w : Width) (o : Offset) : M (BitVec w.bits) := do
  let s ← get
  pure (BitVec.ofNat w.bits (← memRead o.size (s.segOr .ds) o.val w.bytes w.bytes))

/-- MOV of data (43 R560). -/
def movOp : MovForm → M Unit
  | .rmReg w x r => do
    let v ← getReg w r
    writeRM w v x
  | .regRm w r x => do
    let v ← readRM w x
    setReg w r v
  | .accMoffs w o => do
    let v ← moffsRead w o
    setReg w .eax v
  | .moffsAcc w o => do
    let v ← getReg w .eax
    let s ← get
    memWrite o.size (s.segOr .ds) o.val w.bytes w.bytes v.toNat
  | .regImm r v => setReg v.width r v.val
  | .rmImm x v => writeRM v.width v.val x

/-- MOV of data (43 R560). -/
def execMov (f : MovForm) (s : State) : Result := run (movOp f) s

/-- MOV from a segment register (43 R561): 16 bits, whatever the operand size (92_eei_decisions.md D28). -/
def movFromSegOp (x : RM) (r : SReg) : M Unit := do
  let s ← get
  writeRM .word (s.seg.get r).sel x

/-- MOV from a segment register (43 R561). -/
def execMovFromSeg (_os : Size) (rm : RM) (sr : SReg) (s : State) : Result := run (movFromSegOp rm sr) s

/-- The interrupt shadow of an instruction that loads SS (10_state.md R63). -/
def shadowIfSs (r : SReg) : M Unit :=
  if r = .ss then modify fun s => { s with insn := { s.insn with inhibit := true } } else pure ()

/-- MOV to a segment register (43 R561); CS is undefined (92_eei_decisions.md D26). -/
def movToSegOp (r : SReg) (x : RM) : M Unit := do
  check (r ≠ .cs) excUD
  let v ← readRM .word x
  loadSeg r v
  shadowIfSs r

/-- MOV to a segment register (43 R561). -/
def execMovToSeg (sr : SReg) (rm : RM) (s : State) : Result := run (movToSegOp sr rm) s

/-- LoadFarPointer (42 R536). -/
def loadFar (r : SReg) (os : Size) (d : Reg) (m : Mem) : M Unit := do
  let p ← readFar os m
  loadSeg r p.2
  setReg os.width d (p.1.setWidth os.width.bits)

/-- LDS (42 R536). -/
def execLds (os : Size) (r : Reg) (m : Mem) (s : State) : Result := run (loadFar .ds os r m) s
/-- LES (42 R539). -/
def execLes (os : Size) (r : Reg) (m : Mem) (s : State) : Result := run (loadFar .es os r m) s
/-- LFS (42 R540). -/
def execLfs (os : Size) (r : Reg) (m : Mem) (s : State) : Result := run (loadFar .fs os r m) s
/-- LGS (42 R542). -/
def execLgs (os : Size) (r : Reg) (m : Mem) (s : State) : Result := run (loadFar .gs os r m) s
/-- LSS (42 R550): no interrupt shadow. -/
def execLss (os : Size) (r : Reg) (m : Mem) (s : State) : Result := run (loadFar .ss os r m) s

/-- LEA (42 R537): no memory is accessed. -/
def leaOp (os : Size) (r : Reg) (m : Mem) : M Unit := do
  let s ← get
  setReg os.width r ((s.gpr.ea m).setWidth os.width.bits)

/-- LEA (42 R537). -/
def execLea (os : Size) (r : Reg) (m : Mem) (s : State) : Result := run (leaOp os r m) s

/-- MOVSX and MOVZX: `f` extends. -/
def extendOp (f : {n : Nat} → BitVec n → (k : Nat) → BitVec k) : ExtForm → M Unit
  | .byte os r x => do
    let v ← readRM .byte x
    setReg os.width r (f v os.width.bits)
  | .word os r x => do
    let v ← readRM .word x
    setReg os.width r (f v os.width.bits)

/-- MOVSX (43 R564). -/
def execMovsx (f : ExtForm) (s : State) : Result := run (extendOp (fun v k => v.signExtend k) f) s
/-- MOVZX (43 R565). -/
def execMovzx (f : ExtForm) (s : State) : Result := run (extendOp (fun v k => v.setWidth k) f) s

/-- Mark the accesses of the instruction as locked (20_memory.md R131). -/
def lockBus : M Unit := modify fun s => { s with insn := { s.insn with lock := true } }

/-- Exchange two registers. -/
def swapRegs (w : Width) (a b : Reg) : M Unit := do
  let x ← getReg w a
  let y ← getReg w b
  setReg w a y
  setReg w b x

/-- XCHG (44 R627): with a memory operand it is locked with or without the prefix. -/
def xchgOp : XchgForm → M Unit
  | .acc os r => swapRegs os.width .eax r
  | .rm w x r =>
    match x with
    | .reg a => swapRegs w a r
    | .mem m => do
      lockBus
      let t ← updateMem w m
      let v ← getReg w r
      writeMem w m v
      setReg w r t

/-- XCHG (44 R627). -/
def execXchg (f : XchgForm) (s : State) : Result := run (xchgOp f) s

/-- XLAT (44 R628). -/
def xlatOp (as : Size) : M Unit := do
  let s ← get
  let al := s.gpr.read .byte .eax
  let v ← memRead as (s.segOr .ds) (as.trunc (s.gpr.ebx + al.setWidth 32)) 1 1
  setReg .byte .eax (BitVec.ofNat 8 v)

/-- XLAT (44 R628). -/
def execXlat (as : Size) (s : State) : Result := run (xlatOp as) s

/-- NOP (43 R568). -/
def execNop (s : State) : Result := run (pure ()) s

/-- IN (41 R458). DESIGN CHOICE (log entry 38). -/
def inOp (f : IoForm) : M Unit := do
  let p ← ioPort f
  ioPermit p.1 p.2.bytes
  let v ← ioIn p.1 p.2.bytes
  setReg p.2 .eax (BitVec.ofNat p.2.bits v)

/-- IN (41 R458). -/
def execInp (f : IoForm) (s : State) : Result := run (inOp f) s

/-- OUT (43 R571). -/
def outOp (f : IoForm) : M Unit := do
  let p ← ioPort f
  ioPermit p.1 p.2.bytes
  let v ← getReg p.2 .eax
  ioOut p.1 p.2.bytes v.toNat

/-- OUT (43 R571). -/
def execOutp (f : IoForm) (s : State) : Result := run (outOp f) s

/-- LAHF (42 R534). -/
def lahfOp : M Unit := do
  let s ← get
  setReg .byte .esp (s.eflags.extractLsb' 0 8)

/-- LAHF (42 R534). -/
def execLahf (s : State) : Result := run lahfOp s

/-- SAHF (44 R600): SF, ZF, AF, PF and CF. -/
def sahfOp : M Unit := do
  let s ← get
  let ah := s.gpr.read .byte .esp
  modify fun t => t.setEflags (mix 0xD5#32 (ah.setWidth 32) t.eflags)

/-- SAHF (44 R600). -/
def execSahf (s : State) : Result := run sahfOp s

/-- Set or clear one bit of EFLAGS. -/
def putFlag (i : Nat) (b : Bool) : M Unit := modify fun s => s.setEflags (setBit s.eflags i b)

/-- CLC (40 R430). -/
def execClc (s : State) : Result := run (putFlag 0 false) s
/-- STC (44 R615). -/
def execStc (s : State) : Result := run (putFlag 0 true) s
/-- CMC (40 R434). -/
def execCmc (s : State) : Result := run (putFlag 0 (!s.cf)) s
/-- CLD (40 R431). -/
def execCld (s : State) : Result := run (putFlag 10 false) s
/-- STD (44 R616). -/
def execStd (s : State) : Result := run (putFlag 10 true) s

/-- CLI (40 R432). -/
def cliOp : M Unit := do
  needIopl
  putFlag 9 false

/-- CLI (40 R432). -/
def execCli (s : State) : Result := run cliOp s

/-- STI (44 R617): the shadow begins only if IF was 0 (92_eei_decisions.md D32). -/
def stiOp : M Unit := do
  needIopl
  let s ← get
  putFlag 9 true
  if s.ifl then pure () else modify fun t => { t with insn := { t.insn with stiShadow := true } }

/-- STI (44 R617). -/
def execSti (s : State) : Result := run stiOp s

end Sys2Proof.Machine
end

