-- ==== Sys2Proof/Machine/Stack.lean ====
section
/-!
DEFINITION. The stack instructions (spec/41_int_d_to_i.md R454; spec/42_int_j_to_l.md R538; spec/43_int_m_to_r.md R573
to R580).
-/
namespace Sys2Proof.Machine
open Sys2Proof

/-- The push of PUSH (43 R577): in V86 Mode a stack pointer of 1 shuts the processor down, as its exception list says. -/
def pushValue (n v : Nat) : M Unit := do
  let s ← get
  if s.v86 && s.sp == 1#32 then throw .shutdown else push n v

/-- PUSH of data (43 R577): the source is read before the stack pointer changes. -/
def pushOp : PushForm → M Unit
  | .rm os x => do
    let v ← readRM os.width x
    pushValue os.bytes v.toNat
  | .reg os r => do
    let v ← getReg os.width r
    pushValue os.bytes v.toNat
  | .imm8 os v => pushValue os.bytes (v.signExtend os.width.bits).toNat
  | .imm v => pushValue v.width.bytes v.val.toNat

/-- PUSH of data (43 R577). -/
def execPush (f : PushForm) (s : State) : Result := run (pushOp f) s

/-- PUSH of a segment register (43 R577): the upper half of a doubleword slot is 0. DESIGN CHOICE (log entry 47). -/
def pushSegOp (os : Size) (r : SReg) : M Unit := do
  let s ← get
  pushValue os.bytes (s.seg.get r).sel.toNat

/-- PUSH of a segment register (43 R577). -/
def execPushSeg (os : Size) (sr : SReg) (s : State) : Result := run (pushSegOp os sr) s

/-- POP of data (43 R573): a memory destination is addressed with the stack pointer already raised. -/
def popOp : PopForm → M Unit
  | .rm os x => do
    let v ← pop os.bytes
    writeRM os.width (BitVec.ofNat os.width.bits v) x
  | .reg os r => do
    let v ← pop os.bytes
    setReg os.width r (BitVec.ofNat os.width.bits v)

/-- POP of data (43 R573). -/
def execPop (f : PopForm) (s : State) : Result := run (popOp f) s

/-- POP of a segment register (43 R573); the stack pointer moves under the old SS. -/
def popSegOp (os : Size) (r : SReg) : M Unit := do
  check (r ≠ .cs) excUD
  let v ← pop os.bytes
  loadSeg r (BitVec.ofNat 16 v)
  shadowIfSs r

/-- POP of a segment register (43 R573). -/
def execPopSeg (os : Size) (sr : SReg) (s : State) : Result := run (popSegOp os sr) s

/-- Read items of the stack without moving the pointer: `k` of them, `n` bytes each, from `off` bytes above the top. -/
def stackItems (n off : Nat) : Nat → M (List Nat)
  | 0 => pure []
  | k + 1 => do
    let v ← stackRead off n
    let t ← stackItems n (off + n) k
    pure (v :: t)

/-- POPA and POPAD (43 R574, R575): DI, SI, BP, a slot not used, BX, DX, CX, AX. -/
def popAll (os : Size) : M Unit := do
  let s ← get
  let n := os.bytes
  check (s.topOk (8 * n)) (excSS 0#16)
  let l ← stackItems n 0 8
  let v := l.map (BitVec.ofNat os.width.bits)
  stackFree (8 * n)
  setReg os.width .edi (v.getD 0 0)
  setReg os.width .esi (v.getD 1 0)
  setReg os.width .ebp (v.getD 2 0)
  setReg os.width .ebx (v.getD 4 0)
  setReg os.width .edx (v.getD 5 0)
  setReg os.width .ecx (v.getD 6 0)
  setReg os.width .eax (v.getD 7 0)

/-- POPA (43 R574). -/
def execPopa (s : State) : Result := run (popAll .s16) s
/-- POPAD (43 R575). -/
def execPopad (s : State) : Result := run (popAll .s32) s

/-- Push items of one size, in order. -/
def pushAll (n : Nat) : List Nat → M Unit
  | [] => pure ()
  | v :: t => do
    push n v
    pushAll n t

/-- The check PUSHA and PUSHAD make before they write (43 R578, R579). Outside Protected Mode a stack pointer of 1, 3 or 5
shuts the processor down, and one at which an item would straddle offset 0 is a stack overrun. DEDUCED (log entry 37). In
Protected Mode the items are one block below the stack pointer, which does not wrap at 64 Kbytes. DESIGN CHOICE (log entry
37). -/
def pushAllCheck (n : Nat) : M Unit := do
  let s ← get
  let sp := s.sp.toNat
  if s.prot then check (s.room (8 * n)) (excSS 0#16)
  else if sp = 1 ∨ sp = 3 ∨ sp = 5 then throw .shutdown
  else check (decide (8 * n ≤ sp) || decide (sp % n = 0)) (excSS 0#16)

/-- PUSHA and PUSHAD (43 R578, R579). -/
def pushAllRegs (os : Size) : M Unit := do
  let s ← get
  pushAllCheck os.bytes
  pushAll os.bytes
    ([Reg.eax, .ecx, .edx, .ebx, .esp, .ebp, .esi, .edi].map fun r => (s.gpr.read os.width r).toNat)

/-- PUSHA (43 R578). -/
def execPusha (s : State) : Result := run (pushAllRegs .s16) s
/-- PUSHAD (43 R579). -/
def execPushad (s : State) : Result := run (pushAllRegs .s32) s

/-- POPF and POPFD (43 R576): RF and VM are neither loaded nor cleared. -/
def popFlags (os : Size) : M Unit := do
  needV86Iopl
  let v ← pop os.bytes
  let s ← get
  keepRf
  modify fun t => t.setEflags (loadFlags (BitVec.ofNat 32 v) os s.cpl false t.eflags)

/-- POPF (43 R576). -/
def execPopf (s : State) : Result := run (popFlags .s16) s
/-- POPFD (43 R576). -/
def execPopfd (s : State) : Result := run (popFlags .s32) s

/-- PUSHF and PUSHFD (43 R580): VM is pushed as 0. -/
def pushFlags (os : Size) : M Unit := do
  needV86Iopl
  let s ← get
  push os.bytes ((s.eflags &&& 0xFFFDFFFF#32).setWidth os.width.bits).toNat

/-- PUSHF (43 R580). -/
def execPushf (s : State) : Result := run (pushFlags .s16) s
/-- PUSHFD (43 R580). -/
def execPushfd (s : State) : Result := run (pushFlags .s32) s

/-- Commit the stores made so far: a later fault of the instruction leaves them in memory. -/
def commitNow : M Unit := modify State.commitStores

/-- The frame pointers ENTER copies (41 R454): `k` of them, read below (E)BP through SS. -/
def enterCopies (os : Size) : Nat → M Unit
  | 0 => pure ()
  | k + 1 => do
    let s ← get
    let a := os.trunc (s.gpr.ebp - BitVec.ofNat 32 os.bytes)
    setReg os.width .ebp (a.setWidth os.width.bits)
    let v ← memRead os .ss a os.bytes os.bytes
    push os.bytes v
    commitNow
    enterCopies os k

/-- ENTER (41 R454); words pushed before a fault stay in memory (92_eei_decisions.md D24). They stay, too, where a second or later push
shuts the processor down in Real Mode, of which D24 does not speak. DESIGN CHOICE (log entry 64). -/
def enterOp (os : Size) (alloc : Word16) (lev : Byte) : M Unit := do
  let b ← getReg os.width .ebp
  push os.bytes b.toNat
  commitNow
  let s ← get
  let frame := s.sp
  let level := lev.toNat % 32
  if level = 0 then pure ()
  else do
    enterCopies os (level - 1)
    push os.bytes (frame.setWidth os.width.bits).toNat
    commitNow
  setReg os.width .ebp (frame.setWidth os.width.bits)
  let t ← get
  setSp (t.sp - alloc.setWidth 32)

/-- ENTER (41 R454). -/
def execEnter (os : Size) (bytes : Word16) (level : Byte) (s : State) : Result := run (enterOp os bytes level) s

/-- LEAVE (42 R538): the copied register by the stack size, the pop by the operand size (92_eei_decisions.md D25). -/
def leaveOp (os : Size) : M Unit := do
  let s ← get
  setSp s.gpr.ebp
  let v ← pop os.bytes
  setReg os.width .ebp (BitVec.ofNat os.width.bits v)

/-- LEAVE (42 R538). -/
def execLeave (os : Size) (s : State) : Result := run (leaveOp os) s

end Sys2Proof.Machine
end

