-- ==== Sys2Proof/Machine/Far.lean ====
section
/-!
DEFINITION. Far transfers and software interrupts: far CALL, JMP and RET, gates and task switches, INT, INTO, IRET
(spec/40_int_a_to_c.md R427; spec/41_int_d_to_i.md R461 to R467; spec/42_int_j_to_l.md R513; spec/43_int_m_to_r.md R585;
spec/21_segmentation_paging_protection.md R231 to R235).
-/
namespace Sys2Proof.Machine
open Sys2Proof

/-- The pointer of a far CALL or JMP: offset, selector, operand size. -/
def farPointer : FarForm → M (Word32 × Word16 × Size)
  | .ptr o x => pure (o.val, x, o.size)
  | .mem os m => do
    let p ← readFarOperand os m
    pure (p.1, p.2, os)

/-- What the descriptor of a far CALL or JMP is (40 R427). -/
inductive FarTarget where
  | code
  | callGate
  | taskGate
  | tss
  | bad
deriving DecidableEq, Repr

/-- Sort the descriptor of a far CALL or JMP. -/
def farTarget (d : Desc) : FarTarget :=
  if d.isCode then .code
  else if d.s then .bad
  else if d.typ == 4#4 || d.typ == 0xC#4 then .callGate
  else if d.typ == 5#4 then .taskGate
  else if d.isFreeTss || d.isBusyTss then .tss
  else .bad

/-- The descriptor of the selector of a far CALL or JMP (40 R427). DEDUCED (log entry 21). -/
def farDesc (x : Word16) : M Desc := do
  let s ← get
  check (!selNull x) (excGP 0#16)
  check (selInTable s x) (excGP (selCode x false))
  readDesc x

/-- The privilege and presence checks of a code segment reached directly (40 R427, 42 R513). -/
def checkDirect (x : Word16) (d : Desc) : M Unit := do
  let s ← get
  if d.conforming then check (decide (d.dpl.toNat ≤ s.cpl.toNat)) (excGP (selCode x false))
  else do
    check (decide ((selRpl x).toNat ≤ s.cpl.toNat)) (excGP (selCode x false))
    check (d.dpl == s.cpl) (excGP (selCode x false))
  check d.present (excNP (selCode x false))

/-- The privilege checks of a gate or TSS named by a selector; `e` makes the exception. -/
def checkDpl (x : Word16) (g : Desc) (e : Word16 → Exc) : M Unit := do
  let s ← get
  check (decide (s.cpl.toNat ≤ g.dpl.toNat)) (e (selCode x false))
  check (decide ((selRpl x).toNat ≤ g.dpl.toNat)) (e (selCode x false))

/-- The privilege and presence checks of a gate; `e` makes the privilege exception. -/
def checkGate (x : Word16) (g : Desc) (e : Word16 → Exc) : M Unit := do
  checkDpl x g e
  check g.present (excNP (selCode x false))

/-- The checks of a TSS named directly (40 R427, 42 R513): privilege, available and in the GDT, present. A busy TSS, or one in
the LDT (DEDUCED, log entry 21), raises the exception `e` makes: #TS for CALL, #GP for JMP (90_conflicts.md C24). -/
def checkTask (x : Word16) (d : Desc) (e : Word16 → Exc) : M Unit := do
  checkDpl x d e
  check (!selTi x && d.isFreeTss) (e (selCode x false))
  check d.present (excNP (selCode x false))

/-- The code segment a call gate leads to; `jmp` forbids more privilege (21 R231). -/
def gateTarget (g : Desc) (jmp : Bool) : M Desc := do
  let s ← get
  let cs := g.gateSel
  check (!selNull cs) (excGP 0#16)
  check (selInTable s cs) (excGP (selCode cs false))
  let c ← readDesc cs
  check c.isCode (excGP (selCode cs false))
  check (if jmp && !c.conforming then c.dpl == s.cpl else decide (c.dpl.toNat ≤ s.cpl.toNat)) (excGP (selCode cs false))
  check c.present (excNP (selCode cs false))
  pure c

/-- Load CS, its RPL set to CPL, and EIP. -/
def enterCode (x : Word16) (c : Desc) (eip : Word32) : M Unit := do
  markAccessed x c
  modify fun s => (s.putSeg .cs (c.toSeg (withRpl x s.cpl))).setEip eip

/-- Push a far return address: CS, then EIP, `n` bytes each; the upper half of a doubleword CS slot is 0. DESIGN CHOICE (log
entry 47). -/
def pushReturn (n : Nat) : M Unit := do
  let s ← get
  push n s.seg.cs.sel.toNat
  push n s.eip.toNat

/-- Copy `k` parameters of `n` bytes from the stack of segment `x` and pointer `esp` to the current one, keeping their order (21
R232). The last is read and pushed first, each read just before its push; the level is still the caller's. DESIGN CHOICE (log entry
55): the spec gives no order for the reads, and it decides which of two faults is raised and, where the stacks overlap, what is
read. -/
def copyParams (n : Nat) (x : SegReg) (esp : Word32) : Nat → M Unit
  | 0 => pure ()
  | k + 1 => do
    let s ← get
    modify fun t => t.withStack x esp
    let v ← stackRead (k * n) n
    modify fun t => t.withStack s.seg.ss s.gpr.esp
    pushSys n v
    copyParams n x esp k

/-- MORE-PRIVILEGE (40 R427, 21 R232): a call through a gate to an inner level, in the order of R232: SS and CS, the old SS and ESP,
the parameters, the return address, CPL. -/
def callInner (g c : Desc) : M Unit := do
  let s ← get
  let n := g.gateBytes
  let (ns, nsp, d) ← innerStack c.dpl false
  check (roomBelow (d.toSeg ns) d.stackSize nsp (4 * n + n * g.gateCount)) (excSS (selCode ns false))
  check (eipOk c.limit g.gateOffset) (excGP 0#16)
  markAccessed ns d
  markAccessed g.gateSel c
  modify fun t => t.onStack ns nsp d
  pushAllSys n [s.seg.ss.sel.toNat, s.gpr.esp.toNat]
  copyParams n s.seg.ss s.gpr.esp g.gateCount
  pushAllSys n [s.seg.cs.sel.toNat, s.eip.toNat]
  modify fun t => ((t.putSeg .cs (c.toSeg (withRpl g.gateSel c.dpl))).setEip g.gateOffset).setCpl c.dpl

/-- SAME-PRIVILEGE (40 R427): a call through a gate at the current level. -/
def callSame (g c : Desc) : M Unit := do
  let s ← get
  let n := g.gateBytes
  check (s.room (2 * n)) (excSS 0#16)
  check (eipOk c.limit g.gateOffset) (excGP 0#16)
  pushReturn n
  enterCode g.gateSel c g.gateOffset

/-- Far CALL in Protected Mode (40 R427). -/
def callProtected (off : Word32) (x : Word16) (os : Size) : M Unit := do
  let d ← farDesc x
  match farTarget d with
  | .code => do
    checkDirect x d
    let s ← get
    check (s.room (2 * os.bytes)) (excSS 0#16)
    check (eipOk d.limit off) (excGP 0#16)
    pushReturn os.bytes
    enterCode x d off
  | .callGate => do
    checkGate x d excGP
    let c ← gateTarget d false
    let s ← get
    if !c.conforming && decide (c.dpl.toNat < s.cpl.toNat) then callInner d c else callSame d c
  | .taskGate => do
    checkGate x d excTS
    checkTss d.gateSel false excTS
    let s ← get
    let t ← switchTasks .call d.gateSel s.eip false
    finishSwitch t (excTS 0#16)
  | .tss => do
    checkTask x d excTS
    let s ← get
    let t ← switchTasks .call x s.eip false
    finishSwitch t (excTS 0#16)
  | .bad => throw (excGP (selCode x false))

/-- Far CALL (40 R427). In Real and V86 Mode the next fetch checks the new offset. DEDUCED (log entry 19). The upper half of a
doubleword CS slot is 0. DESIGN CHOICE (log entry 47). -/
def callFarOp (f : FarForm) : M Unit := do
  let (off, x, os) ← farPointer f
  let s ← get
  if s.prot then callProtected off x os
  else do
    push os.bytes s.seg.cs.sel.toNat
    push os.bytes (os.trunc s.eip).toNat
    loadCs8086 x
    modify fun t => t.setEip off

/-- Far CALL (40 R427). -/
def execCallFar (f : FarForm) (s : State) : Result := run (callFarOp f) s

/-- Far JMP in Protected Mode (42 R513). -/
def jmpProtected (off : Word32) (x : Word16) : M Unit := do
  let d ← farDesc x
  match farTarget d with
  | .code => do
    checkDirect x d
    check (eipOk d.limit off) (excGP 0#16)
    enterCode x d off
  | .callGate => do
    checkGate x d excGP
    let c ← gateTarget d true
    check (eipOk c.limit d.gateOffset) (excGP 0#16)
    enterCode d.gateSel c d.gateOffset
  | .taskGate => do
    checkGate x d excGP
    checkTss d.gateSel false excGP
    let s ← get
    let t ← switchTasks .jmp d.gateSel s.eip false
    finishSwitch t (excGP 0#16)
  | .tss => do
    checkTask x d excGP
    let s ← get
    let t ← switchTasks .jmp x s.eip false
    finishSwitch t (excGP 0#16)
  | .bad => throw (excGP (selCode x false))

/-- Far JMP (42 R513). DEDUCED (log entry 19). -/
def jmpFarOp (f : FarForm) : M Unit := do
  let (off, x, _) ← farPointer f
  let s ← get
  if s.prot then jmpProtected off x
  else do
    checkTarget off
    loadCs8086 x
    modify fun t => t.setEip off

/-- Far JMP (42 R513). -/
def execJmpFar (f : FarForm) (s : State) : Result := run (jmpFarOp f) s

/-- Far RET in Real and V86 Mode (43 R585). -/
def retReal (os : Size) (imm : Nat) : M Unit := do
  let w := os.bytes
  let ip := BitVec.ofNat 32 (← stackRead 0 w)
  let cs := BitVec.ofNat 16 (← stackRead w w)
  checkTarget ip
  stackFree (2 * w + imm)
  loadCs8086 cs
  modify fun t => t.setEip ip

/-- SAME-LEVEL of R585. -/
def retSame (os : Size) (imm : Nat) (rcs : Word16) : M Unit := do
  let w := os.bytes
  let s ← get
  let c ← checkReturnCs rcs s.cpl
  check (s.topOk (2 * w)) (excSS 0#16)
  let ip := BitVec.ofNat 32 (← stackRead 0 w)
  check (eipOk c.limit ip) (excGP 0#16)
  markAccessed rcs c
  stackFree (2 * w + imm)
  modify fun t => (t.putSeg .cs (c.toSeg rcs)).setEip ip

/-- OUTER-PRIVILEGE-LEVEL of R585; the parameters are released on both stacks. -/
def retOuter (os : Size) (imm : Nat) (rcs : Word16) : M Unit := do
  let w := os.bytes
  let s ← get
  check (s.topOk (4 * w + imm)) (excSS 0#16)
  let c ← checkReturnCs rcs (selRpl rcs)
  let nsp := BitVec.ofNat 32 (← stackRead (2 * w + imm) w)
  let rss := BitVec.ofNat 16 (← stackRead (3 * w + imm) 2)
  let d ← checkReturnSs rss (selRpl rcs)
  let ip := BitVec.ofNat 32 (← stackRead 0 w)
  check (eipOk c.limit ip) (excGP 0#16)
  markAccessed rcs c
  markAccessed rss d
  modify fun t => t.returnOuter os rcs rss c d ip nsp
  stackFree imm

/-- Far RET (43 R585). The slot of CS at (E)SP + W, which is read before the block of the frame is tested, wraps at 64 Kbytes on a
16-bit stack: R585 does not say. DESIGN CHOICE (log entry 37). -/
def retFarOp (f : RetForm) : M Unit := do
  let (os, imm) := retParts f
  let s ← get
  if s.prot then do
    let rcs := BitVec.ofNat 16 (← stackRead os.bytes 2)
    check (decide (s.cpl.toNat ≤ (selRpl rcs).toNat)) (excGP (selCode rcs false))
    if selRpl rcs = s.cpl then retSame os imm rcs else retOuter os imm rcs
  else retReal os imm

/-- Far RET (43 R585). -/
def execRetFar (f : RetForm) (s : State) : Result := run (retFarOp f) s

/-- INT n (41 R461). -/
def intOp (v : Byte) : M Unit := do
  needV86Iopl
  throw (.soft v)

/-- INT n (41 R461). -/
def execIntN (vector : Byte) (s : State) : Result := run (intOp vector) s

/-- INT 3 (41 R462). -/
def execInt3 (s : State) : Result := run (throw (.soft 3#8)) s

/-- INTO (41 R463). -/
def intoOp : M Unit := do
  let s ← get
  if s.of then throw (.soft 4#8) else pure ()

/-- INTO (41 R463). -/
def execInto (s : State) : Result := run intoOp s

/-- IRET (41 R467). -/
def execIret (s : State) : Result := run (iretOp .s16) s
/-- IRETD (41 R467). -/
def execIretd (s : State) : Result := run (iretOp .s32) s

end Sys2Proof.Machine
end

