-- ==== Sys2Proof/Decode.lean ====
section
/-!
DEFINITION. The decoder and the encoder (spec/30_encoding.md; spec/45_fpu_common.md R690 to R693). The decoder takes
the bytes from `CS:EIP` up and the default operand and address sizes; it answers an instruction or a named error.
-/
namespace Sys2Proof

/-- Why bytes are not an instruction. -/
inductive DecodeError where
  /-- More bytes are needed. -/
  | truncated
  /-- An opcode no table defines: the machine raises #UD (R340, 92_eei_decisions.md D18). -/
  | undefined
  /-- An undefined opcode that begins D8h to DFh: #NM is looked at first (D37). -/
  | undefinedEsc
deriving DecidableEq, Repr

/-- A decoder: it takes bytes off the front of a list. -/
abbrev Dec (α : Type) := EStateM DecodeError (List Byte) α

/-- Take one byte. -/
def nextByte : Dec Byte := fun l =>
  match l with
  | [] => .error .truncated []
  | b :: t => .ok b t

/-- Take a 16-bit field, low-order byte first (R301). -/
def next16 : Dec Word16 := do
  let a ← nextByte
  let b ← nextByte
  pure (b ++ a)

/-- Take a 32-bit field, low-order byte first (R301). -/
def next32 : Dec Word32 := do
  let a ← next16
  let b ← next16
  pure (b ++ a)

/-- The two bytes of a 16-bit field. -/
def le16 (v : Word16) : List Byte := [v.extractLsb' 0 8, v.extractLsb' 8 8]
/-- The four bytes of a 32-bit field. -/
def le32 (v : Word32) : List Byte := le16 (v.extractLsb' 0 16) ++ le16 (v.extractLsb' 16 16)

/-- The code of a register (R312). -/
def Reg.code : Reg → BitVec 3
  | .eax => 0#3
  | .ecx => 1#3
  | .edx => 2#3
  | .ebx => 3#3
  | .esp => 4#3
  | .ebp => 5#3
  | .esi => 6#3
  | .edi => 7#3

/-- The register of a code (R312). -/
def Reg.ofCode (c : BitVec 3) : Reg :=
  match c.toNat with
  | 0 => .eax
  | 1 => .ecx
  | 2 => .edx
  | 3 => .ebx
  | 4 => .esp
  | 5 => .ebp
  | 6 => .esi
  | _ => .edi

/-- `sreg3` (R312). -/
def SReg.code : SReg → BitVec 3
  | .es => 0#3
  | .cs => 1#3
  | .ss => 2#3
  | .ds => 3#3
  | .fs => 4#3
  | .gs => 5#3

/-- The segment register of `sreg3`; codes 6 and 7 are undefined (R340). -/
def SReg.ofCode (c : BitVec 3) : Option SReg :=
  match c.toNat with
  | 0 => some .es
  | 1 => some .cs
  | 2 => some .ss
  | 3 => some .ds
  | 4 => some .fs
  | 5 => some .gs
  | _ => none

/-- `eee` of a control register (R312). -/
def CReg.code : CReg → BitVec 3
  | .cr0 => 0#3
  | .cr2 => 2#3
  | .cr3 => 3#3

/-- The control register of `eee`; the others are undefined (92_eei_decisions.md D10). -/
def CReg.ofCode (c : BitVec 3) : Option CReg :=
  match c.toNat with
  | 0 => some .cr0
  | 2 => some .cr2
  | 3 => some .cr3
  | _ => none

/-- `eee` of a debug register (R312). -/
def DReg.code : DReg → BitVec 3
  | .dr0 => 0#3
  | .dr1 => 1#3
  | .dr2 => 2#3
  | .dr3 => 3#3
  | .dr6 => 6#3
  | .dr7 => 7#3

/-- The debug register of `eee`; the others are undefined (92_eei_decisions.md D11). -/
def DReg.ofCode (c : BitVec 3) : Option DReg :=
  match c.toNat with
  | 0 => some .dr0
  | 1 => some .dr1
  | 2 => some .dr2
  | 3 => some .dr3
  | 6 => some .dr6
  | 7 => some .dr7
  | _ => none

/-- `eee` of a test register (R312). -/
def TReg.code : TReg → BitVec 3
  | .tr3 => 3#3
  | .tr4 => 4#3
  | .tr5 => 5#3
  | .tr6 => 6#3
  | .tr7 => 7#3

/-- The test register of `eee`; the others are undefined (92_eei_decisions.md D10). -/
def TReg.ofCode (c : BitVec 3) : Option TReg :=
  match c.toNat with
  | 3 => some .tr3
  | 4 => some .tr4
  | 5 => some .tr5
  | 6 => some .tr6
  | 7 => some .tr7
  | _ => none

/-- The r/m code of a 16-bit base (R311). -/
def Base16.code : Base16 → BitVec 3
  | .bxsi => 0#3
  | .bxdi => 1#3
  | .bpsi => 2#3
  | .bpdi => 3#3
  | .si => 4#3
  | .di => 5#3
  | .bp => 6#3
  | .bx => 7#3

/-- The 16-bit base of an r/m code (R311). -/
def Base16.ofCode (c : BitVec 3) : Base16 :=
  match c.toNat with
  | 0 => .bxsi
  | 1 => .bxdi
  | 2 => .bpsi
  | 3 => .bpdi
  | 4 => .si
  | 5 => .di
  | 6 => .bp
  | _ => .bx

/-- The `ss` field of a scale (R314). -/
def Scale.code : Scale → BitVec 2
  | .x1 => 0#2
  | .x2 => 1#2
  | .x4 => 2#2
  | .x8 => 3#2

/-- The scale of an `ss` field (R314). -/
def Scale.ofCode (c : BitVec 2) : Scale :=
  match c.toNat with
  | 0 => .x1
  | 1 => .x2
  | 2 => .x4
  | _ => .x8

/-- The code of ST(i). -/
def stCode (i : StIdx) : BitVec 3 := BitVec.ofNat 3 i.val
/-- The ST(i) of a code. -/
def stOf (c : BitVec 3) : StIdx := Fin.ofNat 8 c.toNat

/-- The mod field of a mod r/m byte, the ss field of an s-i-b byte (R310). -/
def modField (b : Byte) : BitVec 2 := b.extractLsb' 6 2
/-- The reg field, the index field (R310). -/
def regField (b : Byte) : BitVec 3 := b.extractLsb' 3 3
/-- The r/m field, the base field (R310). -/
def rmField (b : Byte) : BitVec 3 := b.extractLsb' 0 3

/-- A memory operand in 16-bit addressing (R311). -/
def decodeMem16 (md : BitVec 2) (rm : BitVec 3) : Dec Mem :=
  match md.toNat with
  | 0 => if rm = 6#3 then (do pure (.abs16 (← next16))) else pure (.ind16 (.ofCode rm) .none)
  | 1 => do pure (.ind16 (.ofCode rm) (.d8 (← nextByte)))
  | _ => do pure (.ind16 (.ofCode rm) (.full (← next16)))

/-- What an s-i-b byte begins (R314). -/
def decodeSib (md : BitVec 2) (x : Byte) : Dec Mem :=
  match md.toNat with
  | 0 =>
    if rmField x = 5#3 then (do pure (.sibAbs (.ofCode (modField x)) (.ofCode (regField x)) (← next32)))
    else pure (.sib (.ofCode (modField x)) (.ofCode (regField x)) (.ofCode (rmField x)) .none)
  | 1 => do pure (.sib (.ofCode (modField x)) (.ofCode (regField x)) (.ofCode (rmField x)) (.d8 (← nextByte)))
  | _ => do pure (.sib (.ofCode (modField x)) (.ofCode (regField x)) (.ofCode (rmField x)) (.full (← next32)))

/-- A memory operand in 32-bit addressing (R313, R314). -/
def decodeMem32 (md : BitVec 2) (rm : BitVec 3) : Dec Mem :=
  if rm = 4#3 then (do decodeSib md (← nextByte))
  else
    match md.toNat with
    | 0 => if rm = 5#3 then (do pure (.abs32 (← next32))) else pure (.ind32 (.ofCode rm) .none)
    | 1 => do pure (.ind32 (.ofCode rm) (.d8 (← nextByte)))
    | _ => do pure (.ind32 (.ofCode rm) (.full (← next32)))

/-- The memory operand of a mod r/m byte whose mod is not 11. -/
def decodeMem (as : Size) (b : Byte) : Dec Mem :=
  match as with
  | .s16 => decodeMem16 (modField b) (rmField b)
  | .s32 => decodeMem32 (modField b) (rmField b)

/-- The r/m operand of a mod r/m byte (R310). -/
def decodeRM (as : Size) (b : Byte) : Dec RM :=
  if modField b = 3#2 then pure (.reg (.ofCode (rmField b))) else (do pure (.mem (← decodeMem as b)))

/-- A memory-only operand: a register is an undefined encoding (R340 item 4). -/
def decodeMemOnly (as : Size) (b : Byte) : Dec Mem :=
  if modField b = 3#2 then throw .undefined else decodeMem as b

/-- A register-only operand: `mod` other than 11 is an undefined encoding (92_eei_decisions.md D18). -/
def decodeRegOnly (b : Byte) : Dec Reg :=
  if modField b = 3#2 then pure (.ofCode (rmField b)) else throw .undefined

/-- An immediate of a width (R317). -/
def decodeImm (w : Width) : Dec Imm :=
  match w with
  | .byte => do pure (.i8 (← nextByte))
  | .word => do pure (.i16 (← next16))
  | .dword => do pure (.i32 (← next32))

/-- An offset of a size. -/
def decodeOffset (s : Size) : Dec Offset :=
  match s with
  | .s16 => do pure (.o16 (← next16))
  | .s32 => do pure (.o32 (← next32))

/-- A full relative target (R317). -/
def decodeRel (os : Size) : Dec Rel :=
  match os with
  | .s16 => do pure (.r16 (← next16))
  | .s32 => do pure (.r32 (← next32))

/-- A one-byte relative target (R317). -/
def decodeRel8 (os : Size) : Dec Rel := do pure (.r8 os (← nextByte))

/-- A far pointer: offset, then selector (R301). -/
def decodePtr (os : Size) : Dec FarForm := do
  let o ← decodeOffset os
  let x ← next16
  pure (.ptr o x)

/-- The width a `w` bit and the operand size name (R308). -/
def widthOf (os : Size) (op : Byte) : Width := if op.getLsbD 0 then os.width else .byte

/-- The ALU instruction of a TTT code (R332). -/
def aluInstr (k : BitVec 3) (f : AluForm) : Instr :=
  match k.toNat with
  | 0 => .add f
  | 1 => .or f
  | 2 => .adc f
  | 3 => .sbb f
  | 4 => .and f
  | 5 => .sub f
  | 6 => .xor f
  | _ => .cmp f

/-- The shift of a group-2 code; /6 is undefined (R332, D18). -/
def shiftInstr (k : BitVec 3) (w : Width) (rm : RM) (c : Count) : Dec Instr :=
  match k.toNat with
  | 0 => pure (.rol w rm c)
  | 1 => pure (.ror w rm c)
  | 2 => pure (.rcl w rm c)
  | 3 => pure (.rcr w rm c)
  | 4 => pure (.shl w rm c)
  | 5 => pure (.shr w rm c)
  | 6 => throw .undefined
  | _ => pure (.sar w rm c)

/-- The conditional jump of a `tttn` code (R318). -/
def jccInstr (c : BitVec 4) (d : Rel) : Instr :=
  match c.toNat with
  | 0 => .jo d
  | 1 => .jno d
  | 2 => .jb d
  | 3 => .jae d
  | 4 => .je d
  | 5 => .jne d
  | 6 => .jbe d
  | 7 => .ja d
  | 8 => .js d
  | 9 => .jns d
  | 10 => .jp d
  | 11 => .jnp d
  | 12 => .jl d
  | 13 => .jge d
  | 14 => .jle d
  | _ => .jg d

/-- The SETcc of a `tttn` code (R318). -/
def setccInstr (c : BitVec 4) (rm : RM) : Instr :=
  match c.toNat with
  | 0 => .seto rm
  | 1 => .setno rm
  | 2 => .setb rm
  | 3 => .setae rm
  | 4 => .sete rm
  | 5 => .setne rm
  | 6 => .setbe rm
  | 7 => .seta rm
  | 8 => .sets rm
  | 9 => .setns rm
  | 10 => .setp rm
  | 11 => .setnp rm
  | 12 => .setl rm
  | 13 => .setge rm
  | 14 => .setle rm
  | _ => .setg rm

/-- The segment-override, operand-size and other prefixes (R304). -/
def prefixOf (b : Byte) : Option Instr :=
  match b.toNat with
  | 0xF0 => some .lockPrefix
  | 0xF2 => some .repnePrefix
  | 0xF3 => some .repPrefix
  | 0x26 => some .segEs
  | 0x2E => some .segCs
  | 0x36 => some .segSs
  | 0x3E => some .segDs
  | 0x64 => some .segFs
  | 0x65 => some .segGs
  | 0x66 => some .opSizePrefix
  | 0x67 => some .addrSizePrefix
  | _ => none

/-- Group 3: F6 and F7 (R332). -/
def decodeGrp3 (as : Size) (w : Width) : Dec Instr := do
  let b ← nextByte
  match (regField b).toNat with
  | 0 => do
    let rm ← decodeRM as b
    pure (.test (.rmImm rm (← decodeImm w)))
  | 1 => throw .undefined
  | 2 => do pure (.not w (← decodeRM as b))
  | 3 => do pure (.neg w (← decodeRM as b))
  | 4 => do pure (.mul w (← decodeRM as b))
  | 5 => do pure (.imul (.one w (← decodeRM as b)))
  | 6 => do pure (.div w (← decodeRM as b))
  | _ => do pure (.idiv w (← decodeRM as b))

/-- Group 4: FE (R332). -/
def decodeGrp4 (as : Size) : Dec Instr := do
  let b ← nextByte
  match (regField b).toNat with
  | 0 => do pure (.inc (.rm .byte (← decodeRM as b)))
  | 1 => do pure (.dec (.rm .byte (← decodeRM as b)))
  | _ => throw .undefined

/-- Group 5: FF (R332). -/
def decodeGrp5 (os as : Size) : Dec Instr := do
  let b ← nextByte
  match (regField b).toNat with
  | 0 => do pure (.inc (.rm os.width (← decodeRM as b)))
  | 1 => do pure (.dec (.rm os.width (← decodeRM as b)))
  | 2 => do pure (.callNear (.ind os (← decodeRM as b)))
  | 3 => do pure (.callFar (.mem os (← decodeMemOnly as b)))
  | 4 => do pure (.jmpNear (.ind os (← decodeRM as b)))
  | 5 => do pure (.jmpFar (.mem os (← decodeMemOnly as b)))
  | 6 => do pure (.push (.rm os (← decodeRM as b)))
  | _ => throw .undefined

/-- Group 6: 0F 00 (R332). -/
def decodeGrp6 (os as : Size) : Dec Instr := do
  let b ← nextByte
  match (regField b).toNat with
  | 0 => do pure (.sldt os (← decodeRM as b))
  | 1 => do pure (.str os (← decodeRM as b))
  | 2 => do pure (.lldt (← decodeRM as b))
  | 3 => do pure (.ltr (← decodeRM as b))
  | 4 => do pure (.verr (← decodeRM as b))
  | 5 => do pure (.verw (← decodeRM as b))
  | _ => throw .undefined

/-- Group 7: 0F 01 (R332). -/
def decodeGrp7 (os as : Size) : Dec Instr := do
  let b ← nextByte
  match (regField b).toNat with
  | 0 => do pure (.sgdt os (← decodeMemOnly as b))
  | 1 => do pure (.sidt os (← decodeMemOnly as b))
  | 2 => do pure (.lgdt os (← decodeMemOnly as b))
  | 3 => do pure (.lidt os (← decodeMemOnly as b))
  | 4 => do pure (.smsw os (← decodeRM as b))
  | 6 => do pure (.lmsw (← decodeRM as b))
  | 7 => do pure (.invlpg (← decodeMemOnly as b))
  | _ => throw .undefined

/-- Group 8: 0F BA (R332). -/
def decodeGrp8 (os as : Size) : Dec Instr := do
  let b ← nextByte
  match (regField b).toNat with
  | 4 => do
    let rm ← decodeRM as b
    pure (.bt (.imm os rm (← nextByte)))
  | 5 => do
    let rm ← decodeRM as b
    pure (.bts (.imm os rm (← nextByte)))
  | 6 => do
    let rm ← decodeRM as b
    pure (.btr (.imm os rm (← nextByte)))
  | 7 => do
    let rm ← decodeRM as b
    pure (.btc (.imm os rm (← nextByte)))
  | _ => throw .undefined

/-- The segment register of a reg field, or an undefined encoding. -/
def decodeSeg (c : BitVec 3) : Dec SReg :=
  match SReg.ofCode c with
  | some s => pure s
  | none => throw .undefined

/-- The two-byte opcodes 0F 0x, 0F 2x (R331). -/
def decode0F_02 (os as : Size) (op : Byte) : Dec Instr :=
  match op.toNat with
  | 0x00 => decodeGrp6 os as
  | 0x01 => decodeGrp7 os as
  | 0x02 => do
    let b ← nextByte
    pure (.lar os (.ofCode (regField b)) (← decodeRM as b))
  | 0x03 => do
    let b ← nextByte
    pure (.lsl os (.ofCode (regField b)) (← decodeRM as b))
  | 0x06 => pure .clts
  | 0x08 => pure .invd
  | 0x09 => pure .wbinvd
  | 0x20 => do
    let b ← nextByte
    let r ← decodeRegOnly b
    match CReg.ofCode (regField b) with
    | some c => pure (.movFromCr r c)
    | none => throw .undefined
  | 0x21 => do
    let b ← nextByte
    let r ← decodeRegOnly b
    match DReg.ofCode (regField b) with
    | some c => pure (.movFromDr r c)
    | none => throw .undefined
  | 0x22 => do
    let b ← nextByte
    let r ← decodeRegOnly b
    match CReg.ofCode (regField b) with
    | some c => pure (.movToCr c r)
    | none => throw .undefined
  | 0x23 => do
    let b ← nextByte
    let r ← decodeRegOnly b
    match DReg.ofCode (regField b) with
    | some c => pure (.movToDr c r)
    | none => throw .undefined
  | 0x24 => do
    let b ← nextByte
    let r ← decodeRegOnly b
    match TReg.ofCode (regField b) with
    | some c => pure (.movFromTr r c)
    | none => throw .undefined
  | 0x26 => do
    let b ← nextByte
    let r ← decodeRegOnly b
    match TReg.ofCode (regField b) with
    | some c => pure (.movToTr c r)
    | none => throw .undefined
  | _ => throw .undefined

/-- The two-byte opcodes 0F Ax (R331). -/
def decode0F_A (os as : Size) (op : Byte) : Dec Instr :=
  match op.toNat % 16 with
  | 0x0 => pure (.pushSeg os .fs)
  | 0x1 => pure (.popSeg os .fs)
  | 0x3 => do
    let b ← nextByte
    pure (.bt (.reg os (← decodeRM as b) (.ofCode (regField b))))
  | 0x4 => do
    let b ← nextByte
    let rm ← decodeRM as b
    pure (.shld os rm (.ofCode (regField b)) (.imm (← nextByte)))
  | 0x5 => do
    let b ← nextByte
    pure (.shld os (← decodeRM as b) (.ofCode (regField b)) .cl)
  | 0x8 => pure (.pushSeg os .gs)
  | 0x9 => pure (.popSeg os .gs)
  | 0xB => do
    let b ← nextByte
    pure (.bts (.reg os (← decodeRM as b) (.ofCode (regField b))))
  | 0xC => do
    let b ← nextByte
    let rm ← decodeRM as b
    pure (.shrd os rm (.ofCode (regField b)) (.imm (← nextByte)))
  | 0xD => do
    let b ← nextByte
    pure (.shrd os (← decodeRM as b) (.ofCode (regField b)) .cl)
  | 0xF => do
    let b ← nextByte
    pure (.imul (.two os (.ofCode (regField b)) (← decodeRM as b)))
  | _ => throw .undefined

/-- The two-byte opcodes 0F Bx (R331). -/
def decode0F_B (os as : Size) (op : Byte) : Dec Instr :=
  match op.toNat % 16 with
  | 0x0 | 0x1 => do
    let b ← nextByte
    pure (.cmpxchg (widthOf os op) (← decodeRM as b) (.ofCode (regField b)))
  | 0x2 => do
    let b ← nextByte
    pure (.lss os (.ofCode (regField b)) (← decodeMemOnly as b))
  | 0x3 => do
    let b ← nextByte
    pure (.btr (.reg os (← decodeRM as b) (.ofCode (regField b))))
  | 0x4 => do
    let b ← nextByte
    pure (.lfs os (.ofCode (regField b)) (← decodeMemOnly as b))
  | 0x5 => do
    let b ← nextByte
    pure (.lgs os (.ofCode (regField b)) (← decodeMemOnly as b))
  | 0x6 => do
    let b ← nextByte
    pure (.movzx (.byte os (.ofCode (regField b)) (← decodeRM as b)))
  | 0x7 => do
    let b ← nextByte
    pure (.movzx (.word os (.ofCode (regField b)) (← decodeRM as b)))
  | 0xA => decodeGrp8 os as
  | 0xB => do
    let b ← nextByte
    pure (.btc (.reg os (← decodeRM as b) (.ofCode (regField b))))
  | 0xC => do
    let b ← nextByte
    pure (.bsf os (.ofCode (regField b)) (← decodeRM as b))
  | 0xD => do
    let b ← nextByte
    pure (.bsr os (.ofCode (regField b)) (← decodeRM as b))
  | 0xE => do
    let b ← nextByte
    pure (.movsx (.byte os (.ofCode (regField b)) (← decodeRM as b)))
  | 0xF => do
    let b ← nextByte
    pure (.movsx (.word os (.ofCode (regField b)) (← decodeRM as b)))
  | _ => throw .undefined

/-- The two-byte opcodes (R331). -/
def decode0F (os as : Size) : Dec Instr := do
  let op ← nextByte
  match op.toNat / 16 with
  | 0x0 | 0x2 => decode0F_02 os as op
  | 0x8 => do pure (jccInstr (op.extractLsb' 0 4) (← decodeRel os))
  | 0x9 => do
    let b ← nextByte
    pure (setccInstr (op.extractLsb' 0 4) (← decodeRM as b))
  | 0xA => decode0F_A os as op
  | 0xB => decode0F_B os as op
  | 0xC =>
    if op.toNat % 16 < 2 then (do
      let b ← nextByte
      pure (.xadd (widthOf os op) (← decodeRM as b) (.ofCode (regField b))))
    else if op.toNat % 16 < 8 then throw .undefined
    else pure (.bswap os (.ofCode (rmField op)))
  | _ => throw .undefined

/-- The ALU forms of 00TTT000 to 00TTT101 (R330). -/
def decodeAlu (os as : Size) (op : Byte) : Dec Instr :=
  match (rmField op).toNat with
  | 0 | 1 => do
    let b ← nextByte
    pure (aluInstr (regField op) (.rmReg (widthOf os op) (← decodeRM as b) (.ofCode (regField b))))
  | 2 | 3 => do
    let b ← nextByte
    pure (aluInstr (regField op) (.regRm (widthOf os op) (.ofCode (regField b)) (← decodeRM as b)))
  | _ => do pure (aluInstr (regField op) (.acc (← decodeImm (widthOf os op))))

/-- The opcodes xx6, xx7, xxE, xxF of 00h to 3Fh (R330). -/
def decodeLowMisc (os as : Size) (op : Byte) : Dec Instr :=
  match op.toNat with
  | 0x06 => pure (.pushSeg os .es)
  | 0x07 => pure (.popSeg os .es)
  | 0x0E => pure (.pushSeg os .cs)
  | 0x0F => decode0F os as
  | 0x16 => pure (.pushSeg os .ss)
  | 0x17 => pure (.popSeg os .ss)
  | 0x1E => pure (.pushSeg os .ds)
  | 0x1F => pure (.popSeg os .ds)
  | 0x27 => pure .daa
  | 0x2F => pure .das
  | 0x37 => pure .aaa
  | 0x3F => pure .aas
  | _ => throw .undefined

/-- The opcodes 6x (R330). -/
def decode6 (os as : Size) (op : Byte) : Dec Instr :=
  match op.toNat % 16 with
  | 0x0 => pure (match os with | .s16 => .pusha | .s32 => .pushad)
  | 0x1 => pure (match os with | .s16 => .popa | .s32 => .popad)
  | 0x2 => do
    let b ← nextByte
    pure (.bound os (.ofCode (regField b)) (← decodeMemOnly as b))
  | 0x3 => do
    let b ← nextByte
    pure (.arpl (← decodeRM as b) (.ofCode (regField b)))
  | 0x8 => do pure (.push (.imm (← decodeImm os.width)))
  | 0x9 => do
    let b ← nextByte
    let rm ← decodeRM as b
    pure (.imul (.three (.ofCode (regField b)) rm (← decodeImm os.width)))
  | 0xA => do pure (.push (.imm8 os (← nextByte)))
  | 0xB => do
    let b ← nextByte
    let rm ← decodeRM as b
    pure (.imul (.three8 os (.ofCode (regField b)) rm (← nextByte)))
  | 0xC => pure (.insb as)
  | 0xD => pure (.insw os as)
  | 0xE => pure (.outsb as)
  | 0xF => pure (.outsw os as)
  | _ => throw .undefined

/-- The opcodes 8x (R330). -/
def decode8 (os as : Size) (op : Byte) : Dec Instr :=
  match op.toNat % 16 with
  | 0x0 | 0x1 => do
    let b ← nextByte
    let rm ← decodeRM as b
    pure (aluInstr (regField b) (.rmImm rm (← decodeImm (widthOf os op))))
  | 0x3 => do
    let b ← nextByte
    let rm ← decodeRM as b
    pure (aluInstr (regField b) (.rmImm8 os rm (← nextByte)))
  | 0x4 | 0x5 => do
    let b ← nextByte
    pure (.test (.rmReg (widthOf os op) (← decodeRM as b) (.ofCode (regField b))))
  | 0x6 | 0x7 => do
    let b ← nextByte
    pure (.xchg (.rm (widthOf os op) (← decodeRM as b) (.ofCode (regField b))))
  | 0x8 | 0x9 => do
    let b ← nextByte
    pure (.mov (.rmReg (widthOf os op) (← decodeRM as b) (.ofCode (regField b))))
  | 0xA | 0xB => do
    let b ← nextByte
    pure (.mov (.regRm (widthOf os op) (.ofCode (regField b)) (← decodeRM as b)))
  | 0xC => do
    let b ← nextByte
    let s ← decodeSeg (regField b)
    pure (.movFromSeg os (← decodeRM as b) s)
  | 0xD => do
    let b ← nextByte
    pure (.lea os (.ofCode (regField b)) (← decodeMemOnly as b))
  | 0xE => do
    let b ← nextByte
    let s ← decodeSeg (regField b)
    if s = .cs then throw .undefined else do pure (.movToSeg s (← decodeRM as b))
  | 0xF => do
    let b ← nextByte
    if regField b = 0#3 then (do pure (.pop (.rm os (← decodeRM as b)))) else throw .undefined
  | _ => throw .undefined

/-- The opcodes 9x (R330). -/
def decode9 (os : Size) (op : Byte) : Dec Instr :=
  match op.toNat % 16 with
  | 0x0 => pure .nop
  | 0x8 => pure (match os with | .s16 => .cbw | .s32 => .cwde)
  | 0x9 => pure (match os with | .s16 => .cwd | .s32 => .cdq)
  | 0xA => do pure (.callFar (← decodePtr os))
  | 0xB => pure .wait
  | 0xC => pure (match os with | .s16 => .pushf | .s32 => .pushfd)
  | 0xD => pure (match os with | .s16 => .popf | .s32 => .popfd)
  | 0xE => pure .sahf
  | 0xF => pure .lahf
  | _ => pure (.xchg (.acc os (.ofCode (rmField op))))

/-- The opcodes Ax (R330). -/
def decodeA (os as : Size) (op : Byte) : Dec Instr :=
  match op.toNat % 16 with
  | 0x0 | 0x1 => do pure (.mov (.accMoffs (widthOf os op) (← decodeOffset as)))
  | 0x2 | 0x3 => do pure (.mov (.moffsAcc (widthOf os op) (← decodeOffset as)))
  | 0x4 => pure (.movsb as)
  | 0x5 => pure (.movsw os as)
  | 0x6 => pure (.cmpsb as)
  | 0x7 => pure (.cmpsw os as)
  | 0x8 | 0x9 => do pure (.test (.acc (← decodeImm (widthOf os op))))
  | 0xA => pure (.stosb as)
  | 0xB => pure (.stosw os as)
  | 0xC => pure (.lodsb as)
  | 0xD => pure (.lodsw os as)
  | 0xE => pure (.scasb as)
  | _ => pure (.scasw os as)

/-- The opcodes Cx (R330). -/
def decodeC (os as : Size) (op : Byte) : Dec Instr :=
  match op.toNat % 16 with
  | 0x0 | 0x1 => do
    let b ← nextByte
    if regField b = 6#3 then throw .undefined
    else do
      let rm ← decodeRM as b
      shiftInstr (regField b) (widthOf os op) rm (.imm (← nextByte))
  | 0x2 => do pure (.retNear (.imm os (← next16)))
  | 0x3 => pure (.retNear (.plain os))
  | 0x4 => do
    let b ← nextByte
    pure (.les os (.ofCode (regField b)) (← decodeMemOnly as b))
  | 0x5 => do
    let b ← nextByte
    pure (.lds os (.ofCode (regField b)) (← decodeMemOnly as b))
  | 0x6 | 0x7 => do
    let b ← nextByte
    if regField b = 0#3 then (do
      let rm ← decodeRM as b
      pure (.mov (.rmImm rm (← decodeImm (widthOf os op)))))
    else throw .undefined
  | 0x8 => do
    let n ← next16
    pure (.enter os n (← nextByte))
  | 0x9 => pure (.leave os)
  | 0xA => do pure (.retFar (.imm os (← next16)))
  | 0xB => pure (.retFar (.plain os))
  | 0xC => pure .int3
  | 0xD => do pure (.intN (← nextByte))
  | 0xE => pure .into
  | _ => pure (match os with | .s16 => .iret | .s32 => .iretd)

/-- The arithmetic of the FPU by its code (45_fpu_common.md R690): FADD, FMUL, FCOM, FCOMP, FSUB, FSUBR, FDIV, FDIVR
of a 32-bit (`wide = false`) or 64-bit real. -/
def farithMem (k : BitVec 3) (wide : Bool) (m : Mem) : Instr :=
  let a : FArith := if wide then .m64 m else .m32 m
  let c : FCmp := if wide then .m64 m else .m32 m
  match k.toNat with
  | 0 => .fadd a
  | 1 => .fmul a
  | 2 => .fcom c
  | 3 => .fcomp c
  | 4 => .fsub a
  | 5 => .fsubr a
  | 6 => .fdiv a
  | _ => .fdivr a

/-- The arithmetic of the FPU on a 16-bit or 32-bit integer (R690, DE and DA). -/
def fiarith (k : BitVec 3) (f : FInt) : Instr :=
  match k.toNat with
  | 0 => .fiadd f
  | 1 => .fimul f
  | 2 => .ficom f
  | 3 => .ficomp f
  | 4 => .fisub f
  | 5 => .fisubr f
  | 6 => .fidiv f
  | _ => .fidivr f

/-- The memory forms of D9 (R690). -/
def escD9Mem (os as : Size) (b : Byte) : Dec Instr :=
  match (regField b).toNat with
  | 0 => do pure (.fld (.m32 (← decodeMem as b)))
  | 2 => do pure (.fst (.m32 (← decodeMem as b)))
  | 3 => do pure (.fstp (.m32 (← decodeMem as b)))
  | 4 => do pure (.fldenv os (← decodeMem as b))
  | 5 => do pure (.fldcw (← decodeMem as b))
  | 6 => do pure (.fnstenv os (← decodeMem as b))
  | 7 => do pure (.fnstcw (← decodeMem as b))
  | _ => throw .undefinedEsc

/-- The memory forms of DB (R690). -/
def escDBMem (as : Size) (b : Byte) : Dec Instr :=
  match (regField b).toNat with
  | 0 => do pure (.fild (.m32 (← decodeMem as b)))
  | 2 => do pure (.fist (.m32 (← decodeMem as b)))
  | 3 => do pure (.fistp (.m32 (← decodeMem as b)))
  | 5 => do pure (.fld (.m80 (← decodeMem as b)))
  | 7 => do pure (.fstp (.m80 (← decodeMem as b)))
  | _ => throw .undefinedEsc

/-- The memory forms of DD (R690). -/
def escDDMem (os as : Size) (b : Byte) : Dec Instr :=
  match (regField b).toNat with
  | 0 => do pure (.fld (.m64 (← decodeMem as b)))
  | 2 => do pure (.fst (.m64 (← decodeMem as b)))
  | 3 => do pure (.fstp (.m64 (← decodeMem as b)))
  | 4 => do pure (.frstor os (← decodeMem as b))
  | 6 => do pure (.fnsave os (← decodeMem as b))
  | 7 => do pure (.fnstsw (.mem (← decodeMem as b)))
  | _ => throw .undefinedEsc

/-- The memory forms of DF (R690). -/
def escDFMem (as : Size) (b : Byte) : Dec Instr :=
  match (regField b).toNat with
  | 0 => do pure (.fild (.m16 (← decodeMem as b)))
  | 2 => do pure (.fist (.m16 (← decodeMem as b)))
  | 3 => do pure (.fistp (.m16 (← decodeMem as b)))
  | 4 => do pure (.fbld (← decodeMem as b))
  | 5 => do pure (.fild (.m64 (← decodeMem as b)))
  | 6 => do pure (.fbstp (← decodeMem as b))
  | 7 => do pure (.fistp (.m64 (← decodeMem as b)))
  | _ => throw .undefinedEsc

/-- The register forms of D8 (R690). -/
def escD8Reg (b : Byte) : Instr :=
  match (regField b).toNat with
  | 0 => .fadd (.toSt (stOf (rmField b)))
  | 1 => .fmul (.toSt (stOf (rmField b)))
  | 2 => .fcom (.st (stOf (rmField b)))
  | 3 => .fcomp (.st (stOf (rmField b)))
  | 4 => .fsub (.toSt (stOf (rmField b)))
  | 5 => .fsubr (.toSt (stOf (rmField b)))
  | 6 => .fdiv (.toSt (stOf (rmField b)))
  | _ => .fdivr (.toSt (stOf (rmField b)))

/-- D9 E0 to D9 FF (R690). -/
def escD9Op (b : Byte) : Dec Instr :=
  match b.toNat with
  | 0xE0 => pure .fchs
  | 0xE1 => pure .fabs
  | 0xE4 => pure .ftst
  | 0xE5 => pure .fxam
  | 0xE8 => pure .fld1
  | 0xE9 => pure .fldl2t
  | 0xEA => pure .fldl2e
  | 0xEB => pure .fldpi
  | 0xEC => pure .fldlg2
  | 0xED => pure .fldln2
  | 0xEE => pure .fldz
  | 0xF0 => pure .f2xm1
  | 0xF1 => pure .fyl2x
  | 0xF2 => pure .fptan
  | 0xF3 => pure .fpatan
  | 0xF4 => pure .fxtract
  | 0xF5 => pure .fprem1
  | 0xF6 => pure .fdecstp
  | 0xF7 => pure .fincstp
  | 0xF8 => pure .fprem
  | 0xF9 => pure .fyl2xp1
  | 0xFA => pure .fsqrt
  | 0xFB => pure .fsincos
  | 0xFC => pure .frndint
  | 0xFD => pure .fscale
  | 0xFE => pure .fsin
  | 0xFF => pure .fcos
  | _ => throw .undefinedEsc

/-- The register forms of D9 (R690). -/
def escD9Reg (b : Byte) : Dec Instr :=
  match (regField b).toNat with
  | 0 => pure (.fld (.st (stOf (rmField b))))
  | 1 => pure (.fxch (stOf (rmField b)))
  | 2 => if rmField b = 0#3 then pure .fnop else throw .undefinedEsc
  | 3 => throw .undefinedEsc
  | _ => escD9Op b

/-- The register forms of DB (R690, R692). -/
def escDBReg (b : Byte) : Dec Instr :=
  match b.toNat with
  | 0xE0 => pure (.fpuNop .feni)
  | 0xE1 => pure (.fpuNop .fdisi)
  | 0xE2 => pure .fnclex
  | 0xE3 => pure .fninit
  | 0xE4 => pure (.fpuNop .fsetpm)
  | _ => throw .undefinedEsc

/-- The register forms of DC (R690). -/
def escDCReg (b : Byte) : Dec Instr :=
  match (regField b).toNat with
  | 0 => pure (.fadd (.toSti (stOf (rmField b))))
  | 1 => pure (.fmul (.toSti (stOf (rmField b))))
  | 4 => pure (.fsubr (.toSti (stOf (rmField b))))
  | 5 => pure (.fsub (.toSti (stOf (rmField b))))
  | 6 => pure (.fdivr (.toSti (stOf (rmField b))))
  | 7 => pure (.fdiv (.toSti (stOf (rmField b))))
  | _ => throw .undefinedEsc

/-- The register forms of DD (R690). -/
def escDDReg (b : Byte) : Dec Instr :=
  match (regField b).toNat with
  | 0 => pure (.ffree (stOf (rmField b)))
  | 2 => pure (.fst (.st (stOf (rmField b))))
  | 3 => pure (.fstp (.st (stOf (rmField b))))
  | 4 => pure (.fucom (stOf (rmField b)))
  | 5 => pure (.fucomp (stOf (rmField b)))
  | _ => throw .undefinedEsc

/-- The register forms of DE (R690). -/
def escDEReg (b : Byte) : Dec Instr :=
  match (regField b).toNat with
  | 0 => pure (.faddp (stOf (rmField b)))
  | 1 => pure (.fmulp (stOf (rmField b)))
  | 3 => if rmField b = 1#3 then pure .fcompp else throw .undefinedEsc
  | 4 => pure (.fsubrp (stOf (rmField b)))
  | 5 => pure (.fsubp (stOf (rmField b)))
  | 6 => pure (.fdivrp (stOf (rmField b)))
  | 7 => pure (.fdivp (stOf (rmField b)))
  | _ => throw .undefinedEsc

/-- The floating-point instructions (R350, 45_fpu_common.md R690). -/
def decodeEsc (os as : Size) (op : Byte) : Dec Instr := do
  let b ← nextByte
  if modField b = 3#2 then
    match (rmField op).toNat with
    | 0 => pure (escD8Reg b)
    | 1 => escD9Reg b
    | 2 => if b = 0xE9#8 then pure .fucompp else throw .undefinedEsc
    | 3 => escDBReg b
    | 4 => escDCReg b
    | 5 => escDDReg b
    | 6 => escDEReg b
    | _ => if b = 0xE0#8 then pure (.fnstsw .ax) else throw .undefinedEsc
  else
    match (rmField op).toNat with
    | 0 => do pure (farithMem (regField b) false (← decodeMem as b))
    | 1 => escD9Mem os as b
    | 2 => do pure (fiarith (regField b) (.m32 (← decodeMem as b)))
    | 3 => escDBMem as b
    | 4 => do pure (farithMem (regField b) true (← decodeMem as b))
    | 5 => escDDMem os as b
    | 6 => do pure (fiarith (regField b) (.m16 (← decodeMem as b)))
    | _ => escDFMem as b

/-- The opcodes Dx (R330). -/
def decodeD (os as : Size) (op : Byte) : Dec Instr :=
  match op.toNat % 16 with
  | 0x0 | 0x1 => do
    let b ← nextByte
    if regField b = 6#3 then throw .undefined
    else do shiftInstr (regField b) (widthOf os op) (← decodeRM as b) .one
  | 0x2 | 0x3 => do
    let b ← nextByte
    if regField b = 6#3 then throw .undefined
    else do shiftInstr (regField b) (widthOf os op) (← decodeRM as b) .cl
  | 0x4 => do pure (.aam (← nextByte))
  | 0x5 => do pure (.aad (← nextByte))
  | 0x6 => throw .undefined
  | 0x7 => pure (.xlat as)
  | _ => decodeEsc os as op

/-- The opcodes Ex (R330). -/
def decodeE (os as : Size) (op : Byte) : Dec Instr :=
  match op.toNat % 16 with
  | 0x0 => do pure (.loopne os as (← nextByte))
  | 0x1 => do pure (.loope os as (← nextByte))
  | 0x2 => do pure (.loop os as (← nextByte))
  | 0x3 => do
    let d ← nextByte
    pure (match as with | .s16 => .jcxz os d | .s32 => .jecxz os d)
  | 0x4 | 0x5 => do pure (.inp (.imm (widthOf os op) (← nextByte)))
  | 0x6 | 0x7 => do pure (.outp (.imm (widthOf os op) (← nextByte)))
  | 0x8 => do pure (.callNear (.rel (← decodeRel os)))
  | 0x9 => do pure (.jmpNear (.rel (← decodeRel os)))
  | 0xA => do pure (.jmpFar (← decodePtr os))
  | 0xB => do pure (.jmpNear (.rel (← decodeRel8 os)))
  | 0xC | 0xD => pure (.inp (.dx (widthOf os op)))
  | _ => pure (.outp (.dx (widthOf os op)))

/-- The opcodes Fx (R330). -/
def decodeF (os as : Size) (op : Byte) : Dec Instr :=
  match op.toNat % 16 with
  | 0x4 => pure .hlt
  | 0x5 => pure .cmc
  | 0x6 | 0x7 => decodeGrp3 as (widthOf os op)
  | 0x8 => pure .clc
  | 0x9 => pure .stc
  | 0xA => pure .cli
  | 0xB => pure .sti
  | 0xC => pure .cld
  | 0xD => pure .std
  | 0xE => decodeGrp4 as
  | 0xF => decodeGrp5 os as
  | _ => throw .undefined

/-- One instruction without its prefixes (R300, R330). -/
def decodeBody (os as : Size) : Dec Instr := do
  let op ← nextByte
  match op.toNat / 16 with
  | 0x0 | 0x1 | 0x2 | 0x3 =>
    if (rmField op).toNat < 6 then decodeAlu os as op else decodeLowMisc os as op
  | 0x4 =>
    if op.getLsbD 3 then pure (.dec (.reg os (.ofCode (rmField op))))
    else pure (.inc (.reg os (.ofCode (rmField op))))
  | 0x5 =>
    if op.getLsbD 3 then pure (.pop (.reg os (.ofCode (rmField op))))
    else pure (.push (.reg os (.ofCode (rmField op))))
  | 0x6 => decode6 os as op
  | 0x7 => do pure (jccInstr (op.extractLsb' 0 4) (← decodeRel8 os))
  | 0x8 => decode8 os as op
  | 0x9 => decode9 os op
  | 0xA => decodeA os as op
  | 0xB => do
    pure (.mov (.regImm (.ofCode (rmField op)) (← decodeImm (if op.getLsbD 3 then os.width else .byte))))
  | 0xC => decodeC os as op
  | 0xD => decodeD os as op
  | 0xE => decodeE os as op
  | _ => decodeF os as op

/-- One item of a byte stream: a prefix, or an instruction without its prefixes. -/
def decodeItem (os as : Size) : Dec Instr := fun l =>
  match l with
  | [] => .error .truncated []
  | b :: t =>
    match prefixOf b with
    | some p => .ok p t
    | none => decodeBody os as (b :: t)

/-- The prefixes at the front of a byte stream, and the bytes after them (R303). -/
def splitPrefixes : List Byte → List Instr × List Byte
  | [] => ([], [])
  | b :: t =>
    match prefixOf b with
    | some p => (p :: (splitPrefixes t).1, (splitPrefixes t).2)
    | none => ([], b :: t)

/-- The other size. -/
def Size.other : Size → Size
  | .s16 => .s32
  | .s32 => .s16

/-- The size in effect when a prefix is present or not (R305; presence, not parity: 92_eei_decisions.md D19). -/
def Size.toggle (d : Size) (present : Bool) : Size := if present then d.other else d

/-- A whole instruction: its prefixes and its body, under the default size `d` of the code segment (R303, R305). -/
def decodeInstr (d : Size) : Dec (List Instr × Instr) := fun l =>
  let p := splitPrefixes l
  match decodeBody (d.toggle (p.1.contains .opSizePrefix)) (d.toggle (p.1.contains .addrSizePrefix)) p.2 with
  | .ok i t => .ok (p.1, i) t
  | .error e t => .error e t

/-- The low `n` bytes of a number, least significant first. -/
def numBytes : Nat → Nat → List Byte
  | 0, _ => []
  | n + 1, v => BitVec.ofNat 8 v :: numBytes n (v / 256)

/-- The bytes of an instruction of the opcode table whose low `nbits` bits are `w`, zeros after them: 15 bytes, the
longest instruction (R302). -/
def tableBytes (nbits w : Nat) : List Byte := numBytes 15 (w % 2 ^ nbits)

/-- The instruction the decoder reads from a word of the opcode table, with 16-bit defaults as after reset. DESIGN
CHOICE (log entry 14). -/
def decodeTableWord (nbits w : Nat) : Option Instr :=
  match decodeItem .s16 .s16 (tableBytes nbits w) with
  | .ok i _ => some i
  | .error _ _ => none

/-! The encoder, written from the same tables. -/

/-- A mod r/m byte or an s-i-b byte (R310). -/
def fieldByte (md : BitVec 2) (reg rm : BitVec 3) : Byte := md ++ reg ++ rm

/-- The mod field of a displacement. -/
def Disp.md {n : Nat} : Disp n → BitVec 2
  | .none => 0#2
  | .d8 _ => 1#2
  | .full _ => 2#2

/-- The bytes of a displacement of 16 bits. -/
def Disp.bytes16 : Disp 16 → List Byte
  | .none => []
  | .d8 d => [d]
  | .full d => le16 d

/-- The bytes of a displacement of 32 bits. -/
def Disp.bytes32 : Disp 32 → List Byte
  | .none => []
  | .d8 d => [d]
  | .full d => le32 d

/-- The mod r/m byte and what follows it for a memory operand (R311, R313, R314). -/
def encodeMem (reg : BitVec 3) : Mem → List Byte
  | .abs16 d => fieldByte 0#2 reg 6#3 :: le16 d
  | .ind16 b d => fieldByte d.md reg b.code :: d.bytes16
  | .abs32 d => fieldByte 0#2 reg 5#3 :: le32 d
  | .ind32 b d => fieldByte d.md reg b.code :: d.bytes32
  | .sib s i b d => fieldByte d.md reg 4#3 :: fieldByte s.code i.code b.code :: d.bytes32
  | .sibAbs s i d => fieldByte 0#2 reg 4#3 :: fieldByte s.code i.code 5#3 :: le32 d

/-- The mod r/m byte and what follows it for an r/m operand. -/
def encodeRM (reg : BitVec 3) : RM → List Byte
  | .reg r => [fieldByte 3#2 reg r.code]
  | .mem m => encodeMem reg m

/-- The bytes of an immediate. -/
def Imm.bytes : Imm → List Byte
  | .i8 v => [v]
  | .i16 v => le16 v
  | .i32 v => le32 v

/-- The `w` bit of an immediate. -/
def Imm.w : Imm → BitVec 1
  | .i8 _ => 0#1
  | .i16 _ => 1#1
  | .i32 _ => 1#1

/-- The `w` bit of a width (R308). -/
def Width.w : Width → BitVec 1
  | .byte => 0#1
  | .word => 1#1
  | .dword => 1#1

/-- The bytes of an offset. -/
def Offset.bytes : Offset → List Byte
  | .o16 v => le16 v
  | .o32 v => le32 v

/-- An ALU instruction with code `k` (R330, R332). -/
def encodeAlu (k : BitVec 3) : AluForm → List Byte
  | .acc v => (0#2 ++ k ++ 2#2 ++ v.w : Byte) :: v.bytes
  | .rmImm rm v => (0x40#7 ++ v.w : Byte) :: (encodeRM k rm ++ v.bytes)
  | .rmImm8 _ rm v => 0x83#8 :: (encodeRM k rm ++ [v])
  | .rmReg w rm r => (0#2 ++ k ++ 0#2 ++ w.w : Byte) :: encodeRM r.code rm
  | .regRm w r rm => (0#2 ++ k ++ 1#2 ++ w.w : Byte) :: encodeRM r.code rm

/-- A bit test with second opcode byte `op` or group-8 code `k`. -/
def encodeBit (op : Byte) (k : BitVec 3) : BitForm → List Byte
  | .reg _ rm r => 0x0F#8 :: op :: encodeRM r.code rm
  | .imm _ rm v => 0x0F#8 :: 0xBA#8 :: (encodeRM k rm ++ [v])

/-- INC (`k` = 0) and DEC (`k` = 1). -/
def encodeInc (k : BitVec 3) : IncForm → List Byte
  | .rm w rm => (0x7F#7 ++ w.w : Byte) :: encodeRM k rm
  | .reg _ r => [(4#4 ++ k.extractLsb' 0 1 ++ r.code : Byte)]

/-- A shift or rotate with group-2 code `k`. -/
def encodeShift (k : BitVec 3) (w : Width) (rm : RM) : Count → List Byte
  | .one => (0x68#7 ++ w.w : Byte) :: encodeRM k rm
  | .cl => (0x69#7 ++ w.w : Byte) :: encodeRM k rm
  | .imm v => (0x60#7 ++ w.w : Byte) :: (encodeRM k rm ++ [v])

/-- SHLD (`op` = A4h) and SHRD (`op` = ACh): the CL form is one higher. -/
def encodeDShift (op : Byte) (rm : RM) (r : Reg) : DCount → List Byte
  | .imm v => 0x0F#8 :: op :: (encodeRM r.code rm ++ [v])
  | .cl => 0x0F#8 :: (op + 1#8) :: encodeRM r.code rm

/-- A conditional jump with code `c`. -/
def encodeJcc (c : BitVec 4) : Rel → List Byte
  | .r8 _ d => [(7#4 ++ c : Byte), d]
  | .r16 d => 0x0F#8 :: (8#4 ++ c : Byte) :: le16 d
  | .r32 d => 0x0F#8 :: (8#4 ++ c : Byte) :: le32 d

/-- SETcc with code `c`; the reg field is written 000. -/
def encodeSet (c : BitVec 4) (rm : RM) : List Byte := 0x0F#8 :: (9#4 ++ c : Byte) :: encodeRM 0#3 rm

/-- The bytes of a full relative target. -/
def Rel.bytes : Rel → List Byte
  | .r8 _ d => [d]
  | .r16 d => le16 d
  | .r32 d => le32 d

/-- FADD and its like with code `k`; `kr` is the code the ST(i) destination form uses (R693). -/
def encodeFArith (k kr : BitVec 3) : FArith → List Byte
  | .m32 m => 0xD8#8 :: encodeMem k m
  | .m64 m => 0xDC#8 :: encodeMem k m
  | .toSt i => [0xD8#8, fieldByte 3#2 k (stCode i)]
  | .toSti i => [0xDC#8, fieldByte 3#2 kr (stCode i)]

/-- FCOM and FCOMP with code `k`. -/
def encodeFCmp (k : BitVec 3) : FCmp → List Byte
  | .m32 m => 0xD8#8 :: encodeMem k m
  | .m64 m => 0xDC#8 :: encodeMem k m
  | .st i => [0xD8#8, fieldByte 3#2 k (stCode i)]

/-- FIADD and its like with code `k`. -/
def encodeFInt (k : BitVec 3) : FInt → List Byte
  | .m16 m => 0xDE#8 :: encodeMem k m
  | .m32 m => 0xDA#8 :: encodeMem k m

/-- MOV's data forms. -/
def encodeMov : MovForm → List Byte
  | .rmReg w rm r => (0x44#7 ++ w.w : Byte) :: encodeRM r.code rm
  | .regRm w r rm => (0x45#7 ++ w.w : Byte) :: encodeRM r.code rm
  | .accMoffs w o => (0x50#7 ++ w.w : Byte) :: o.bytes
  | .moffsAcc w o => (0x51#7 ++ w.w : Byte) :: o.bytes
  | .regImm r v => (0xB#4 ++ v.w ++ r.code : Byte) :: v.bytes
  | .rmImm rm v => (0x63#7 ++ v.w : Byte) :: (encodeRM 0#3 rm ++ v.bytes)

/-- PUSH of a segment register (R330, R331). -/
def encodePushSeg : SReg → List Byte
  | .es => [0x06#8]
  | .cs => [0x0E#8]
  | .ss => [0x16#8]
  | .ds => [0x1E#8]
  | .fs => [0x0F#8, 0xA0#8]
  | .gs => [0x0F#8, 0xA8#8]

/-- POP of a segment register; CS has none (R340 item 5). -/
def encodePopSeg : SReg → List Byte
  | .es => [0x07#8]
  | .cs => []
  | .ss => [0x17#8]
  | .ds => [0x1F#8]
  | .fs => [0x0F#8, 0xA1#8]
  | .gs => [0x0F#8, 0xA9#8]

/-- The bytes of a well-formed instruction, without prefixes (R300, R330 to R332, R350, R690). The size prefixes that
make the decoder read it are those that give the sizes of `Instr.needs`. -/
def encode : Instr → List Byte
  | .lockPrefix => [0xF0#8]
  | .repnePrefix => [0xF2#8]
  | .repPrefix => [0xF3#8]
  | .segEs => [0x26#8]
  | .segCs => [0x2E#8]
  | .segSs => [0x36#8]
  | .segDs => [0x3E#8]
  | .segFs => [0x64#8]
  | .segGs => [0x65#8]
  | .opSizePrefix => [0x66#8]
  | .addrSizePrefix => [0x67#8]
  | .aaa => [0x37#8]
  | .aad b => [0xD5#8, b]
  | .aam b => [0xD4#8, b]
  | .aas => [0x3F#8]
  | .adc f => encodeAlu 2#3 f
  | .add f => encodeAlu 0#3 f
  | .and f => encodeAlu 4#3 f
  | .arpl rm r => 0x63#8 :: encodeRM r.code rm
  | .bound _ r m => 0x62#8 :: encodeMem r.code m
  | .bsf _ r rm => 0x0F#8 :: 0xBC#8 :: encodeRM r.code rm
  | .bsr _ r rm => 0x0F#8 :: 0xBD#8 :: encodeRM r.code rm
  | .bswap _ r => [0x0F#8, (0x19#5 ++ r.code : Byte)]
  | .bt f => encodeBit 0xA3#8 4#3 f
  | .btc f => encodeBit 0xBB#8 7#3 f
  | .btr f => encodeBit 0xB3#8 6#3 f
  | .bts f => encodeBit 0xAB#8 5#3 f
  | .callNear (.rel d) => 0xE8#8 :: d.bytes
  | .callNear (.ind _ rm) => 0xFF#8 :: encodeRM 2#3 rm
  | .callFar (.ptr o x) => 0x9A#8 :: (o.bytes ++ le16 x)
  | .callFar (.mem _ m) => 0xFF#8 :: encodeMem 3#3 m
  | .cbw => [0x98#8]
  | .cwde => [0x98#8]
  | .cwd => [0x99#8]
  | .cdq => [0x99#8]
  | .clc => [0xF8#8]
  | .cld => [0xFC#8]
  | .cli => [0xFA#8]
  | .clts => [0x0F#8, 0x06#8]
  | .cmc => [0xF5#8]
  | .cmp f => encodeAlu 7#3 f
  | .cmpsb _ => [0xA6#8]
  | .cmpsw _ _ => [0xA7#8]
  | .cmpxchg w rm r => 0x0F#8 :: (0x58#7 ++ w.w : Byte) :: encodeRM r.code rm
  | .daa => [0x27#8]
  | .das => [0x2F#8]
  | .dec f => encodeInc 1#3 f
  | .div w rm => (0x7B#7 ++ w.w : Byte) :: encodeRM 6#3 rm
  | .enter _ n l => 0xC8#8 :: (le16 n ++ [l])
  | .hlt => [0xF4#8]
  | .idiv w rm => (0x7B#7 ++ w.w : Byte) :: encodeRM 7#3 rm
  | .imul (.one w rm) => (0x7B#7 ++ w.w : Byte) :: encodeRM 5#3 rm
  | .imul (.two _ r rm) => 0x0F#8 :: 0xAF#8 :: encodeRM r.code rm
  | .imul (.three8 _ r rm v) => 0x6B#8 :: (encodeRM r.code rm ++ [v])
  | .imul (.three r rm v) => 0x69#8 :: (encodeRM r.code rm ++ v.bytes)
  | .inp (.imm w p) => [(0x72#7 ++ w.w : Byte), p]
  | .inp (.dx w) => [(0x76#7 ++ w.w : Byte)]
  | .inc f => encodeInc 0#3 f
  | .insb _ => [0x6C#8]
  | .insw _ _ => [0x6D#8]
  | .intN v => [0xCD#8, v]
  | .int3 => [0xCC#8]
  | .into => [0xCE#8]
  | .invd => [0x0F#8, 0x08#8]
  | .invlpg m => 0x0F#8 :: 0x01#8 :: encodeMem 7#3 m
  | .iret => [0xCF#8]
  | .iretd => [0xCF#8]
  | .jo d => encodeJcc 0#4 d
  | .jno d => encodeJcc 1#4 d
  | .jb d => encodeJcc 2#4 d
  | .jc d => encodeJcc 2#4 d
  | .jnae d => encodeJcc 2#4 d
  | .jae d => encodeJcc 3#4 d
  | .jnb d => encodeJcc 3#4 d
  | .jnc d => encodeJcc 3#4 d
  | .je d => encodeJcc 4#4 d
  | .jz d => encodeJcc 4#4 d
  | .jne d => encodeJcc 5#4 d
  | .jnz d => encodeJcc 5#4 d
  | .jbe d => encodeJcc 6#4 d
  | .jna d => encodeJcc 6#4 d
  | .ja d => encodeJcc 7#4 d
  | .jnbe d => encodeJcc 7#4 d
  | .js d => encodeJcc 8#4 d
  | .jns d => encodeJcc 9#4 d
  | .jp d => encodeJcc 10#4 d
  | .jpe d => encodeJcc 10#4 d
  | .jnp d => encodeJcc 11#4 d
  | .jpo d => encodeJcc 11#4 d
  | .jl d => encodeJcc 12#4 d
  | .jnge d => encodeJcc 12#4 d
  | .jge d => encodeJcc 13#4 d
  | .jnl d => encodeJcc 13#4 d
  | .jle d => encodeJcc 14#4 d
  | .jng d => encodeJcc 14#4 d
  | .jg d => encodeJcc 15#4 d
  | .jnle d => encodeJcc 15#4 d
  | .jcxz _ d => [0xE3#8, d]
  | .jecxz _ d => [0xE3#8, d]
  | .jmpNear (.rel (.r8 _ d)) => [0xEB#8, d]
  | .jmpNear (.rel (.r16 d)) => 0xE9#8 :: le16 d
  | .jmpNear (.rel (.r32 d)) => 0xE9#8 :: le32 d
  | .jmpNear (.ind _ rm) => 0xFF#8 :: encodeRM 4#3 rm
  | .jmpFar (.ptr o x) => 0xEA#8 :: (o.bytes ++ le16 x)
  | .jmpFar (.mem _ m) => 0xFF#8 :: encodeMem 5#3 m
  | .lahf => [0x9F#8]
  | .lar _ r rm => 0x0F#8 :: 0x02#8 :: encodeRM r.code rm
  | .lds _ r m => 0xC5#8 :: encodeMem r.code m
  | .les _ r m => 0xC4#8 :: encodeMem r.code m
  | .lfs _ r m => 0x0F#8 :: 0xB4#8 :: encodeMem r.code m
  | .lgs _ r m => 0x0F#8 :: 0xB5#8 :: encodeMem r.code m
  | .lss _ r m => 0x0F#8 :: 0xB2#8 :: encodeMem r.code m
  | .lea _ r m => 0x8D#8 :: encodeMem r.code m
  | .leave _ => [0xC9#8]
  | .lgdt _ m => 0x0F#8 :: 0x01#8 :: encodeMem 2#3 m
  | .lidt _ m => 0x0F#8 :: 0x01#8 :: encodeMem 3#3 m
  | .lldt rm => 0x0F#8 :: 0x00#8 :: encodeRM 2#3 rm
  | .lmsw rm => 0x0F#8 :: 0x01#8 :: encodeRM 6#3 rm
  | .lodsb _ => [0xAC#8]
  | .lodsw _ _ => [0xAD#8]
  | .loop _ _ d => [0xE2#8, d]
  | .loope _ _ d => [0xE1#8, d]
  | .loopne _ _ d => [0xE0#8, d]
  | .lsl _ r rm => 0x0F#8 :: 0x03#8 :: encodeRM r.code rm
  | .ltr rm => 0x0F#8 :: 0x00#8 :: encodeRM 3#3 rm
  | .mov f => encodeMov f
  | .movFromSeg _ rm s => 0x8C#8 :: encodeRM s.code rm
  | .movToSeg s rm => 0x8E#8 :: encodeRM s.code rm
  | .movFromCr r c => [0x0F#8, 0x20#8, fieldByte 3#2 c.code r.code]
  | .movToCr c r => [0x0F#8, 0x22#8, fieldByte 3#2 c.code r.code]
  | .movFromDr r x => [0x0F#8, 0x21#8, fieldByte 3#2 x.code r.code]
  | .movToDr x r => [0x0F#8, 0x23#8, fieldByte 3#2 x.code r.code]
  | .movFromTr r t => [0x0F#8, 0x24#8, fieldByte 3#2 t.code r.code]
  | .movToTr t r => [0x0F#8, 0x26#8, fieldByte 3#2 t.code r.code]
  | .movsb _ => [0xA4#8]
  | .movsw _ _ => [0xA5#8]
  | .movsx (.byte _ r rm) => 0x0F#8 :: 0xBE#8 :: encodeRM r.code rm
  | .movsx (.word _ r rm) => 0x0F#8 :: 0xBF#8 :: encodeRM r.code rm
  | .movzx (.byte _ r rm) => 0x0F#8 :: 0xB6#8 :: encodeRM r.code rm
  | .movzx (.word _ r rm) => 0x0F#8 :: 0xB7#8 :: encodeRM r.code rm
  | .mul w rm => (0x7B#7 ++ w.w : Byte) :: encodeRM 4#3 rm
  | .neg w rm => (0x7B#7 ++ w.w : Byte) :: encodeRM 3#3 rm
  | .nop => [0x90#8]
  | .not w rm => (0x7B#7 ++ w.w : Byte) :: encodeRM 2#3 rm
  | .or f => encodeAlu 1#3 f
  | .outp (.imm w p) => [(0x73#7 ++ w.w : Byte), p]
  | .outp (.dx w) => [(0x77#7 ++ w.w : Byte)]
  | .outsb _ => [0x6E#8]
  | .outsw _ _ => [0x6F#8]
  | .pop (.rm _ rm) => 0x8F#8 :: encodeRM 0#3 rm
  | .pop (.reg _ r) => [(0x0B#5 ++ r.code : Byte)]
  | .popSeg _ s => encodePopSeg s
  | .popa => [0x61#8]
  | .popad => [0x61#8]
  | .popf => [0x9D#8]
  | .popfd => [0x9D#8]
  | .push (.rm _ rm) => 0xFF#8 :: encodeRM 6#3 rm
  | .push (.reg _ r) => [(0x0A#5 ++ r.code : Byte)]
  | .push (.imm8 _ v) => [0x6A#8, v]
  | .push (.imm v) => 0x68#8 :: v.bytes
  | .pushSeg _ s => encodePushSeg s
  | .pusha => [0x60#8]
  | .pushad => [0x60#8]
  | .pushf => [0x9C#8]
  | .pushfd => [0x9C#8]
  | .rcl w rm c => encodeShift 2#3 w rm c
  | .rcr w rm c => encodeShift 3#3 w rm c
  | .retNear (.plain _) => [0xC3#8]
  | .retNear (.imm _ n) => 0xC2#8 :: le16 n
  | .retFar (.plain _) => [0xCB#8]
  | .retFar (.imm _ n) => 0xCA#8 :: le16 n
  | .rol w rm c => encodeShift 0#3 w rm c
  | .ror w rm c => encodeShift 1#3 w rm c
  | .sahf => [0x9E#8]
  | .sal w rm c => encodeShift 4#3 w rm c
  | .sar w rm c => encodeShift 7#3 w rm c
  | .sbb f => encodeAlu 3#3 f
  | .scasb _ => [0xAE#8]
  | .scasw _ _ => [0xAF#8]
  | .seto rm => encodeSet 0#4 rm
  | .setno rm => encodeSet 1#4 rm
  | .setb rm => encodeSet 2#4 rm
  | .setae rm => encodeSet 3#4 rm
  | .sete rm => encodeSet 4#4 rm
  | .setne rm => encodeSet 5#4 rm
  | .setbe rm => encodeSet 6#4 rm
  | .seta rm => encodeSet 7#4 rm
  | .sets rm => encodeSet 8#4 rm
  | .setns rm => encodeSet 9#4 rm
  | .setp rm => encodeSet 10#4 rm
  | .setnp rm => encodeSet 11#4 rm
  | .setl rm => encodeSet 12#4 rm
  | .setge rm => encodeSet 13#4 rm
  | .setle rm => encodeSet 14#4 rm
  | .setg rm => encodeSet 15#4 rm
  | .sgdt _ m => 0x0F#8 :: 0x01#8 :: encodeMem 0#3 m
  | .shl w rm c => encodeShift 4#3 w rm c
  | .shld _ rm r c => encodeDShift 0xA4#8 rm r c
  | .shr w rm c => encodeShift 5#3 w rm c
  | .shrd _ rm r c => encodeDShift 0xAC#8 rm r c
  | .sidt _ m => 0x0F#8 :: 0x01#8 :: encodeMem 1#3 m
  | .sldt _ rm => 0x0F#8 :: 0x00#8 :: encodeRM 0#3 rm
  | .smsw _ rm => 0x0F#8 :: 0x01#8 :: encodeRM 4#3 rm
  | .stc => [0xF9#8]
  | .std => [0xFD#8]
  | .sti => [0xFB#8]
  | .stosb _ => [0xAA#8]
  | .stosw _ _ => [0xAB#8]
  | .str _ rm => 0x0F#8 :: 0x00#8 :: encodeRM 1#3 rm
  | .sub f => encodeAlu 5#3 f
  | .test (.acc v) => (0x54#7 ++ v.w : Byte) :: v.bytes
  | .test (.rmImm rm v) => (0x7B#7 ++ v.w : Byte) :: (encodeRM 0#3 rm ++ v.bytes)
  | .test (.rmReg w rm r) => (0x42#7 ++ w.w : Byte) :: encodeRM r.code rm
  | .verr rm => 0x0F#8 :: 0x00#8 :: encodeRM 4#3 rm
  | .verw rm => 0x0F#8 :: 0x00#8 :: encodeRM 5#3 rm
  | .wait => [0x9B#8]
  | .wbinvd => [0x0F#8, 0x09#8]
  | .xadd w rm r => 0x0F#8 :: (0x60#7 ++ w.w : Byte) :: encodeRM r.code rm
  | .xchg (.acc _ r) => [(0x12#5 ++ r.code : Byte)]
  | .xchg (.rm w rm r) => (0x43#7 ++ w.w : Byte) :: encodeRM r.code rm
  | .xlat _ => [0xD7#8]
  | .xor f => encodeAlu 6#3 f
  | .f2xm1 => [0xD9#8, 0xF0#8]
  | .fabs => [0xD9#8, 0xE1#8]
  | .fadd f => encodeFArith 0#3 0#3 f
  | .faddp i => [0xDE#8, fieldByte 3#2 0#3 (stCode i)]
  | .fbld m => 0xDF#8 :: encodeMem 4#3 m
  | .fbstp m => 0xDF#8 :: encodeMem 6#3 m
  | .fchs => [0xD9#8, 0xE0#8]
  | .fclex => [0x9B#8, 0xDB#8, 0xE2#8]
  | .fcom f => encodeFCmp 2#3 f
  | .fcomp f => encodeFCmp 3#3 f
  | .fcompp => [0xDE#8, 0xD9#8]
  | .fcos => [0xD9#8, 0xFF#8]
  | .fdecstp => [0xD9#8, 0xF6#8]
  | .fdiv f => encodeFArith 6#3 7#3 f
  | .fdivp i => [0xDE#8, fieldByte 3#2 7#3 (stCode i)]
  | .fdivr f => encodeFArith 7#3 6#3 f
  | .fdivrp i => [0xDE#8, fieldByte 3#2 6#3 (stCode i)]
  | .ffree i => [0xDD#8, fieldByte 3#2 0#3 (stCode i)]
  | .fiadd f => encodeFInt 0#3 f
  | .fimul f => encodeFInt 1#3 f
  | .ficom f => encodeFInt 2#3 f
  | .ficomp f => encodeFInt 3#3 f
  | .fisub f => encodeFInt 4#3 f
  | .fisubr f => encodeFInt 5#3 f
  | .fidiv f => encodeFInt 6#3 f
  | .fidivr f => encodeFInt 7#3 f
  | .fild (.m16 m) => 0xDF#8 :: encodeMem 0#3 m
  | .fild (.m32 m) => 0xDB#8 :: encodeMem 0#3 m
  | .fild (.m64 m) => 0xDF#8 :: encodeMem 5#3 m
  | .fincstp => [0xD9#8, 0xF7#8]
  | .finit => [0x9B#8, 0xDB#8, 0xE3#8]
  | .fist (.m16 m) => 0xDF#8 :: encodeMem 2#3 m
  | .fist (.m32 m) => 0xDB#8 :: encodeMem 2#3 m
  | .fistp (.m16 m) => 0xDF#8 :: encodeMem 3#3 m
  | .fistp (.m32 m) => 0xDB#8 :: encodeMem 3#3 m
  | .fistp (.m64 m) => 0xDF#8 :: encodeMem 7#3 m
  | .fld (.m32 m) => 0xD9#8 :: encodeMem 0#3 m
  | .fld (.m64 m) => 0xDD#8 :: encodeMem 0#3 m
  | .fld (.m80 m) => 0xDB#8 :: encodeMem 5#3 m
  | .fld (.st i) => [0xD9#8, fieldByte 3#2 0#3 (stCode i)]
  | .fld1 => [0xD9#8, 0xE8#8]
  | .fldcw m => 0xD9#8 :: encodeMem 5#3 m
  | .fldenv _ m => 0xD9#8 :: encodeMem 4#3 m
  | .fldl2e => [0xD9#8, 0xEA#8]
  | .fldl2t => [0xD9#8, 0xE9#8]
  | .fldlg2 => [0xD9#8, 0xEC#8]
  | .fldln2 => [0xD9#8, 0xED#8]
  | .fldpi => [0xD9#8, 0xEB#8]
  | .fldz => [0xD9#8, 0xEE#8]
  | .fmul f => encodeFArith 1#3 1#3 f
  | .fmulp i => [0xDE#8, fieldByte 3#2 1#3 (stCode i)]
  | .fnclex => [0xDB#8, 0xE2#8]
  | .fninit => [0xDB#8, 0xE3#8]
  | .fnop => [0xD9#8, 0xD0#8]
  | .fnsave _ m => 0xDD#8 :: encodeMem 6#3 m
  | .fnstcw m => 0xD9#8 :: encodeMem 7#3 m
  | .fnstenv _ m => 0xD9#8 :: encodeMem 6#3 m
  | .fnstsw (.mem m) => 0xDD#8 :: encodeMem 7#3 m
  | .fnstsw .ax => [0xDF#8, 0xE0#8]
  | .fpatan => [0xD9#8, 0xF3#8]
  | .fprem => [0xD9#8, 0xF8#8]
  | .fprem1 => [0xD9#8, 0xF5#8]
  | .fptan => [0xD9#8, 0xF2#8]
  | .frndint => [0xD9#8, 0xFC#8]
  | .frstor _ m => 0xDD#8 :: encodeMem 4#3 m
  | .fsave _ m => 0x9B#8 :: 0xDD#8 :: encodeMem 6#3 m
  | .fscale => [0xD9#8, 0xFD#8]
  | .fsin => [0xD9#8, 0xFE#8]
  | .fsincos => [0xD9#8, 0xFB#8]
  | .fsqrt => [0xD9#8, 0xFA#8]
  | .fst (.m32 m) => 0xD9#8 :: encodeMem 2#3 m
  | .fst (.m64 m) => 0xDD#8 :: encodeMem 2#3 m
  | .fst (.st i) => [0xDD#8, fieldByte 3#2 2#3 (stCode i)]
  | .fstcw m => 0x9B#8 :: 0xD9#8 :: encodeMem 7#3 m
  | .fstenv _ m => 0x9B#8 :: 0xD9#8 :: encodeMem 6#3 m
  | .fstp (.m32 m) => 0xD9#8 :: encodeMem 3#3 m
  | .fstp (.m64 m) => 0xDD#8 :: encodeMem 3#3 m
  | .fstp (.m80 m) => 0xDB#8 :: encodeMem 7#3 m
  | .fstp (.st i) => [0xDD#8, fieldByte 3#2 3#3 (stCode i)]
  | .fstsw (.mem m) => 0x9B#8 :: 0xDD#8 :: encodeMem 7#3 m
  | .fstsw .ax => [0x9B#8, 0xDF#8, 0xE0#8]
  | .fsub f => encodeFArith 4#3 5#3 f
  | .fsubp i => [0xDE#8, fieldByte 3#2 5#3 (stCode i)]
  | .fsubr f => encodeFArith 5#3 4#3 f
  | .fsubrp i => [0xDE#8, fieldByte 3#2 4#3 (stCode i)]
  | .ftst => [0xD9#8, 0xE4#8]
  | .fucom i => [0xDD#8, fieldByte 3#2 4#3 (stCode i)]
  | .fucomp i => [0xDD#8, fieldByte 3#2 5#3 (stCode i)]
  | .fucompp => [0xDA#8, 0xE9#8]
  | .fwait => [0x9B#8]
  | .fxam => [0xD9#8, 0xE5#8]
  | .fxch i => [0xD9#8, fieldByte 3#2 1#3 (stCode i)]
  | .fxtract => [0xD9#8, 0xF4#8]
  | .fyl2x => [0xD9#8, 0xF1#8]
  | .fyl2xp1 => [0xD9#8, 0xF9#8]
  | .fpuNop .feni => [0xDB#8, 0xE0#8]
  | .fpuNop .fdisi => [0xDB#8, 0xE1#8]
  | .fpuNop .fsetpm => [0xDB#8, 0xE4#8]

end Sys2Proof
end

