-- ==== Sys2Proof/Machine/Fetch.lean ====
section
/-!
DEFINITION. What happens at an instruction boundary before an instruction runs: debug exceptions, interrupts, the fetch
and the decoding of the next instruction (spec/60_exceptions.md R903, R906, R907, R935; spec/30_encoding.md R300 to
R306; spec/21_segmentation_paging_protection.md R201; spec/71_debug_and_test_registers.md R1082, R1087).
-/
namespace Sys2Proof

/-- Is an r/m operand in memory? -/
def RM.isMem : RM → Bool
  | .reg _ => false
  | .mem _ => true

/-- The destination of an ALU form is in memory. -/
def AluForm.dstMem : AluForm → Bool
  | .acc _ => false
  | .rmImm x _ => x.isMem
  | .rmImm8 _ x _ => x.isMem
  | .rmReg _ x _ => x.isMem
  | .regRm _ _ _ => false

/-- The bit string of a bit form is in memory. -/
def BitForm.dstMem : BitForm → Bool
  | .reg _ x _ => x.isMem
  | .imm _ x _ => x.isMem

/-- The operand of INC or DEC is in memory. -/
def IncForm.dstMem : IncForm → Bool
  | .rm _ x => x.isMem
  | .reg _ _ => false

/-- An operand of XCHG is in memory. -/
def XchgForm.dstMem : XchgForm → Bool
  | .acc _ _ => false
  | .rm _ x _ => x.isMem

end Sys2Proof

namespace Sys2Proof.Machine
open Sys2Proof

/-- The pending debug traps as one debug exception (71 R1087). A MOV or POP to SS holds them off for one instruction. -/
def State.pendingTrap (s : State) : Option Event :=
  if s.traps.any && !s.latch.inhibitNext then
    some { vector := 1#8, software := false, code := none, isFault := false
           debug := some ((if s.traps.bt then 0x8000#32 else 0#32) ||| (if s.traps.bs then 0x4000#32 else 0#32)
             ||| s.traps.hits.setWidth 32) }
  else none

/-- The instruction breakpoints that match the next instruction (71 R1082). -/
def State.instrHits (s : State) : BitVec 4 := s.dr.instrMatch (s.seg.cs.base + s.eip)

/-- The instruction breakpoint fault before the next instruction (71 R1082); RF suppresses it. -/
def State.instrBreak (s : State) : Option Event :=
  if !s.rf && s.anyEnabled s.instrHits then
    some { vector := 1#8, software := false, code := none, isFault := true, debug := some (s.instrHits.setWidth 32) }
  else none

/-- Is an NMI taken now (60 R907)? -/
def State.nmiReady (s : State) : Bool :=
  s.latch.nmiPending && !s.latch.nmiMasked && !s.latch.inhibitNext

/-- Is a maskable interrupt taken now (60 R906)? -/
def State.intrReady (s : State) : Bool :=
  s.pins.intr && s.ifl && !s.latch.inhibitNext && !s.latch.stiShadow

/-- An NMI has been accepted (60 R907). -/
def State.takeNmi (s : State) : State :=
  { s with latch := { s.latch with nmiPending := false, nmiMasked := true } }

/-- An interrupt acknowledge cycle has been run (60 R906). DESIGN CHOICE (log entry 33). -/
def State.takeIntr (s : State) : State := { s with events := s.events ++ [.intAck s.pins.intVector] }

/-- An external interrupt, or an interrupt's event of a vector. -/
def interruptEvent (v : Byte) : Event :=
  { vector := v, software := false, code := none, isFault := false, debug := none }

/-- Take the external interrupt that is due, NMI first (60 R905, R906, R907). -/
def State.external (s : State) : Option Result :=
  if s.nmiReady then some (s.takeNmi.deliverAt (interruptEvent 2#8))
  else if s.intrReady then some (s.takeIntr.deliverAt (interruptEvent s.pins.intVector))
  else none

/-- Take the instruction breakpoint: a fault of the next instruction, so it ends the interrupt shadows (10_state.md R63). -/
def State.takeBreak (s : State) (ev : Event) : Result := (s.abandon s).deliverAt ev

/-- Take the pending debug traps. -/
def State.trapNow (s : State) : Option Result :=
  s.pendingTrap.map fun e => ({ s with traps := .none } : State).deliverAt e

/-- A step in shutdown (60 R935): only an NMI does anything. A fault of steps 13 to 17 of a task switch is no failure of the
delivery (61 R990). -/
def State.stepShutdown (s : State) : Result :=
  if s.latch.nmiPending && !s.latch.nmiMasked then
    let t := s.takeNmi
    if s.real then
      if decide (0x17 ≤ s.idtr.limit.toNat) && decide (5 < (s.gpr.esp.setWidth 16).toNat) then
        t.deliverAt (interruptEvent 2#8)
      else .next (t.shut t.eip)
    else
      match deliver (interruptEvent 2#8) t.eip (t.restAt t.eip) with
      | .ok _ u => .next (u.settle false)
      | .error (.stop f) _ => .fault f
      | .error (.exn v c d) u =>
        if u.insn.arrived then
          deliverLoop deliverFuel (faultEvent v c d) u.eip u.eip false (u.commitStores.restAt u.eip)
        else .next (t.shutBy u t.eip)
      | .error _ u => .next (t.shutBy u t.eip)
  else .next s

/-- A step while halted or frozen (10_state.md R64; 60 R944): a debug trap, an NMI or an interrupt ends the wait. A
trap that a load of SS held off before a frozen instruction is one of them. DESIGN CHOICE (log entry 30). -/
def State.stepWaiting (s : State) : Result :=
  match s.trapNow with
  | some r => r
  | none => s.external.getD (.next s)

/-- Do the first `n` bytes of an instruction at EIP lie within CS.limit (21 R201)? The offset does not wrap: a byte past
offset FFFFFFFFh lies outside (R200). DEDUCED (log entry 41). -/
def State.codeLimitOk (s : State) (n : Nat) : Bool := decide (s.eip.toNat + n ≤ s.seg.cs.limit.toNat + 1)

/-- Fetch one code byte, `k` bytes after EIP (21 R201). -/
def fetchByte (k : Nat) : M Byte := do
  let s ← get
  check (s.codeLimitOk (k + 1)) (excGP 0#16)
  let p ← translate (s.seg.cs.base + (s.eip + BitVec.ofNat 32 k)) false s.user
  let a ← maskA20 p.1
  let t ← get
  let (v, u) := t.readPhys a p.2 false
  set u
  pure v

/-- Fetch code bytes, in order, for what the fetch itself changes. -/
def fetchBytes (k : Nat) : Nat → M Unit
  | 0 => pure ()
  | n + 1 => do
    let _ ← fetchByte k
    fetchBytes (k + 1) n

/-- The code bytes from EIP up that can be fetched, at most `n`; looking changes nothing. -/
def peekBytes (k : Nat) : Nat → State → List Byte
  | 0, _ => []
  | n + 1, s =>
    match fetchByte k s with
    | .ok v t => v :: peekBytes (k + 1) n t
    | .error _ _ => []

/-- The longest instruction, in bytes (30 R302). -/
def maxLength : Nat := 15

/-- The default operand and address size (30 R305). -/
def State.defaultSize (s : State) : Size := if s.prot && s.seg.cs.db then .s32 else .s16

/-- The raise for an undefined opcode that begins D8h to DFh: #NM is looked at first (60 R903, 92 D37), and before a LOCK prefix
too. DESIGN CHOICE (log entry 54). -/
def State.escUndefined (s : State) : Exc := if s.cr0Bit 2 || s.cr0Bit 3 then excNM else excUD

/-- The bytes an instruction needs, decoded from the front of a list that is long enough. -/
def neededBytes (z : Size) (l : List Byte) : Nat :=
  match decodeInstr z l with
  | .ok _ rest => l.length - rest.length
  | .error _ rest => l.length - rest.length

/-- The fewest bytes an instruction can have that begins with `l` and goes on. -/
def leastLength (z : Size) (l : List Byte) : Nat :=
  ((List.range 256).map fun b => neededBytes z (l ++ BitVec.ofNat 8 b :: List.replicate maxLength 0#8)).foldl min maxLength

/-- Fetch and decode the next instruction: its prefixes, its body and its length (60 R903 items 4 to 6). Where a byte it needs
cannot be fetched, CS.limit is tested for all the bytes it is sure to need before a page fault is raised (21 R269). DEDUCED
(log entry 41). An undefined ESC opcode raises #NM under EM or TS with or without a LOCK prefix; an instruction longer than 15
bytes raises #GP(0) whatever its decoding would raise: 60 R903 and 45 R667 do not order these. DESIGN CHOICE (log entry 54). -/
def fetchInstr : M (List Instr × Instr × Nat) := do
  let s ← get
  let l := peekBytes 0 maxLength s
  match decodeInstr s.defaultSize l with
  | .ok x rest => do
    fetchBytes 0 (l.length - rest.length)
    pure (x.1, x.2, l.length - rest.length)
  | .error .truncated _ => do
    check (s.codeLimitOk (leastLength s.defaultSize l)) (excGP 0#16)
    fetchBytes 0 (min (l.length + 1) maxLength)
    throw (excGP 0#16)
  | .error .undefined rest => do
    fetchBytes 0 (l.length - rest.length)
    throw excUD
  | .error .undefinedEsc rest => do
    fetchBytes 0 (l.length - rest.length)
    throw s.escUndefined

/-- May a LOCK prefix stand before this instruction (30 R306)? -/
def lockable : Instr → Bool
  | .bts f | .btr f | .btc f => f.dstMem
  | .xchg f => f.dstMem
  | .add f | .or f | .adc f | .sbb f | .and f | .sub f | .xor f => f.dstMem
  | .not _ x | .neg _ x => x.isMem
  | .inc f | .dec f => f.dstMem
  | .cmpxchg _ x _ | .xadd _ x _ => x.isMem
  | _ => false

/-- A LOCK prefix stands where none may (30 R306). -/
def lockBad (ps : List Instr) (i : Instr) : Bool := ps.contains .lockPrefix && !lockable i

end Sys2Proof.Machine
end

