-- ==== Sys2Proof/Machine/FpuNum.lean ====
section
/-!
DEFINITION. The numbers of the FPU: formats, classes, exact values, rounding and delivery
(spec/45_fpu_common.md R650 to R660, R666, R674, R676, R677). Nothing here reads the state.
-/
namespace Sys2Proof.Machine
open Sys2Proof

/-- The classes of a real value (R653); a pseudo-denormal counts as a denormal. -/
inductive FpClass where
  | zero
  | denormal
  | normal
  | infinity
  | snan
  | qnan
  | unsupported
deriving DecidableEq, Repr

/-- The sign bit of an extended value. -/
def fpSign (x : Ext80) : Bool := x.getLsbD 79
/-- The exponent field. -/
def fpExp (x : Ext80) : BitVec 15 := x.extractLsb' 64 15
/-- The significand, with its explicit integer bit. -/
def fpSig (x : Ext80) : BitVec 64 := x.extractLsb' 0 64

/-- The class of an extended value (R653). -/
def fpClass (x : Ext80) : FpClass :=
  if fpExp x = 0#15 then (if fpSig x = 0#64 then .zero else .denormal)
  else if !x.getLsbD 63 then .unsupported
  else if fpExp x = 0x7FFF#15 then
    (if x.extractLsb' 0 63 = 0#63 then .infinity else if x.getLsbD 62 then .qnan else .snan)
  else .normal

/-- An extended value of its three fields. -/
def fpMake (neg : Bool) (e : BitVec 15) (sig : BitVec 64) : Ext80 := BitVec.ofBool neg ++ e ++ sig

/-- The real indefinite (R653). -/
def fpIndefinite : Ext80 := fpMake true 0x7FFF#15 0xC000000000000000#64
/-- An infinity. -/
def fpInf (neg : Bool) : Ext80 := fpMake neg 0x7FFF#15 0x8000000000000000#64
/-- A zero. -/
def fpZero (neg : Bool) : Ext80 := fpMake neg 0#15 0#64
/-- One. -/
def fpOne : Ext80 := fpMake false 0x3FFF#15 0x8000000000000000#64

/-- A NaN of either kind. -/
def fpIsNan (x : Ext80) : Bool := fpClass x == .snan || fpClass x == .qnan
/-- Does an operand make an operation invalid by itself: a signaling NaN or an unsupported format? -/
def fpIsBad (x : Ext80) : Bool := fpClass x == .snan || fpClass x == .unsupported
/-- An infinity of either sign. -/
def fpIsInf (x : Ext80) : Bool := fpClass x == .infinity
/-- A zero of either sign. -/
def fpIsZero (x : Ext80) : Bool := fpClass x == .zero

/-- Less than zero: negative, neither zero nor a NaN. -/
def fpIsNegative (x : Ext80) : Bool := fpSign x && !fpIsZero x && !fpIsNan x

/-- A NaN made quiet (R666). -/
def fpQuiet (x : Ext80) : Ext80 := x ||| 0x4000000000000000#80

/-- The NaN an operation on `a` and `b` delivers (R666). DEDUCED (log entry 25). -/
def nanResult (a b : Ext80) : Ext80 :=
  if fpClass a = .unsupported ∨ fpClass b = .unsupported then fpIndefinite
  else if fpIsNan a then
    if fpIsNan b then
      if fpClass a = .snan ∧ fpClass b = .qnan then b
      else if fpClass a = .qnan ∧ fpClass b = .snan then a
      else if (fpSig b).toNat < (fpSig a).toNat then fpQuiet a
      else if (fpSig a).toNat < (fpSig b).toNat then fpQuiet b
      else if fpClass a = .snan then fpQuiet (if Config.snanTie a b then a else b)
      else (if fpSign a then b else a)
    else fpQuiet a
  else if fpIsNan b then fpQuiet b
  else fpIndefinite

/-- An exact real number: `m * 2^e` with a sign, or, if `sticky`, a number strictly between that and
`(m + 1) * 2^e`. -/
structure Exact where
  neg : Bool
  m : Nat
  e : Int
  sticky : Bool
deriving DecidableEq, Repr

/-- The value of a zero, denormal or normal extended number (R653, R656). -/
def fpVal (x : Ext80) : Exact :=
  { neg := fpSign x, m := (fpSig x).toNat,
    e := (if fpExp x = 0#15 then 1 else (fpExp x).toNat : Int) - 16446, sticky := false }

/-- floor(log2 |x|) of a non-zero value. -/
def Exact.log2 (x : Exact) : Int := x.e + x.m.log2

/-- `m * 2^s` for a shift that is never negative. -/
def shiftUp (m : Nat) (s : Int) : Nat := m * 2 ^ s.toNat

/-- The exact sum. A zero sum has `m = 0`. -/
def Exact.add (a b : Exact) : Exact :=
  let e := min a.e b.e
  let x := shiftUp a.m (a.e - e)
  let y := shiftUp b.m (b.e - e)
  if a.neg = b.neg then { neg := a.neg, m := x + y, e := e, sticky := false }
  else if y ≤ x then { neg := a.neg, m := x - y, e := e, sticky := false }
  else { neg := b.neg, m := y - x, e := e, sticky := false }

/-- The negated value. -/
def Exact.negate (a : Exact) : Exact := { a with neg := !a.neg }

/-- The exact product. -/
def Exact.mul (a b : Exact) : Exact := { neg := a.neg != b.neg, m := a.m * b.m, e := a.e + b.e, sticky := false }

/-- The exact quotient by a non-zero value, to 67 bits and more, with the rest in `sticky`. -/
def Exact.div (a b : Exact) : Exact :=
  let n := a.m * 2 ^ 131
  { neg := a.neg != b.neg, m := n / b.m, e := a.e - b.e - 131, sticky := decide (n % b.m ≠ 0) }

/-- The integer square root of `n`, bit by bit: `r` is what the higher bits have given. -/
def sqrtBits : Nat → Nat → Nat → Nat
  | 0, _, r => r
  | k + 1, n, r => if (r + 2 ^ k) * (r + 2 ^ k) ≤ n then sqrtBits k n (r + 2 ^ k) else sqrtBits k n r

/-- The exact square root of a positive value of at most 64 bits, to 67 bits and more, with the rest in `sticky`. -/
def Exact.sqrt (a : Exact) : Exact :=
  let s : Nat := if a.e % 2 = 0 then 134 else 135
  let n := a.m * 2 ^ s
  let r := sqrtBits 100 n 0
  { neg := false, m := r, e := (a.e - s) / 2, sticky := decide (r * r ≠ n) }

/-- A value rounded to a multiple of `2^k`: it is `q * 2^k`. -/
structure Rounding where
  q : Nat
  k : Int
  inexact : Bool
  up : Bool
deriving DecidableEq, Repr

/-- Does rounding take the larger magnitude (R657)? `above` and `tie` compare the dropped part with half a unit. -/
def roundsUp (rc : BitVec 2) (neg odd above tie : Bool) : Bool :=
  if rc = 0#2 then above || (tie && odd) else if rc = 1#2 then neg else if rc = 2#2 then !neg else false

/-- Round to a multiple of `2^k` (R657 with u = 2^k). -/
def roundAt (rc : BitVec 2) (x : Exact) (k : Int) : Rounding :=
  if k ≤ x.e then { q := shiftUp x.m (x.e - k), k := k, inexact := x.sticky, up := false }
  else
    let d := 2 ^ (k - x.e).toNat
    let lo := x.m / d
    let r := x.m % d
    let inexact := decide (r ≠ 0) || x.sticky
    let above := decide (d < 2 * r) || (decide (2 * r = d) && x.sticky)
    let tie := decide (2 * r = d) && !x.sticky
    let up := inexact && roundsUp rc x.neg (decide (lo % 2 = 1)) above tie
    { q := if up then lo + 1 else lo, k := k, inexact := inexact, up := up }

/-- Round a non-zero value to `p` bits (R657). PRESUMED (log entry 24). -/
def roundTo (rc : BitVec 2) (p : Nat) (x : Exact) : Rounding := roundAt rc x (x.log2 - p + 1)

/-- floor(log2) of a rounded non-zero value. -/
def Rounding.log2 (r : Rounding) : Int := r.k + r.q.log2

/-- A destination format (R651): its precision, and the bias of its exponent; Emin is 1 - bias and Emax is bias. -/
structure FpFormat where
  p : Nat
  bias : Nat
deriving DecidableEq, Repr

/-- Single precision. -/
def FpFormat.single : FpFormat := { p := 24, bias := 127 }
/-- Double precision. -/
def FpFormat.double : FpFormat := { p := 53, bias := 1023 }
/-- The range of extended precision with `p` bits of significand (R658). -/
def FpFormat.ext (p : Nat) : FpFormat := { p := p, bias := 16383 }

/-- Emin. -/
def FpFormat.emin (f : FpFormat) : Int := 1 - f.bias
/-- Emax. -/
def FpFormat.emax (f : FpFormat) : Int := f.bias
/-- The exponent of the unit of the denormals. -/
def FpFormat.tinyUnit (f : FpFormat) : Int := f.emin - f.p + 1

/-- What is delivered: `q * 2^k` with a sign, an infinity, or nothing the spec states. -/
inductive FpOut where
  | fin (neg : Bool) (q : Nat) (k : Int)
  | inf (neg : Bool)
  | unstated
deriving DecidableEq, Repr

/-- A result with the flags it sets. -/
structure Delivery where
  out : FpOut
  oe : Bool
  ue : Bool
  pe : Bool
  c1 : Bool
deriving DecidableEq, Repr

/-- The largest finite value of a format, as `q * 2^k` (R659). -/
def FpFormat.maxFinite (f : FpFormat) (neg : Bool) : FpOut := .fin neg (2 ^ f.p - 1) (f.emax - f.p + 1)

/-- The masked response to overflow (R659). -/
def overflowOut (f : FpFormat) (rc : BitVec 2) (neg : Bool) : FpOut :=
  if rc = 0#2 then .inf neg
  else if rc = 1#2 then (if neg then .inf true else f.maxFinite false)
  else if rc = 2#2 then (if neg then f.maxFinite true else .inf false)
  else f.maxFinite neg

/-- Is an outcome an infinity? -/
def FpOut.isInf : FpOut → Bool
  | .inf _ => true
  | _ => false

/-- Unmasked overflow or underflow to a register (R660): the exact value times 2^`n`, rounded. Where that leaves the
range too the spec states no value. -/
def scaledDelivery (f : FpFormat) (rc : BitVec 2) (x : Exact) (n : Int) (ovf : Bool) : Delivery :=
  let r := roundTo rc f.p { x with e := x.e + n }
  { out := if f.emin ≤ r.log2 ∧ r.log2 ≤ f.emax then .fin x.neg r.q r.k else .unstated
    oe := ovf, ue := !ovf, pe := r.inexact, c1 := r.up }

/-- Unmasked overflow or underflow to memory (R660): nothing is stored. That C1 is 0 is a DESIGN CHOICE (log entry 49). -/
def noDelivery (ovf : Bool) : Delivery := { out := .unstated, oe := ovf, ue := !ovf, pe := false, c1 := false }

/-- Deliver a finite non-zero exact value (R659). `om` and `um` are the masks; `mem` says the destination is memory.
DEDUCED (log entry 26). -/
def deliverValue (f : FpFormat) (rc : BitVec 2) (om um mem : Bool) (x : Exact) : Delivery :=
  let r := roundTo rc f.p x
  if f.emax < r.log2 then
    if om then
      let o := overflowOut f rc x.neg
      { out := o, oe := true, ue := false, pe := true, c1 := o.isInf }
    else if mem then noDelivery true
    else scaledDelivery f rc x (-24576) true
  else if r.log2 < f.emin then
    if um then
      let d := roundAt rc x f.tinyUnit
      { out := .fin x.neg d.q d.k, oe := false, ue := d.inexact, pe := d.inexact, c1 := d.up }
    else if mem then noDelivery false
    else scaledDelivery f rc x 24576 false
  else { out := .fin x.neg r.q r.k, oe := false, ue := false, pe := r.inexact, c1 := r.up }

/-- The exponent field and the `p`-bit significand of `q * 2^k` (R651, R653). -/
def FpFormat.pack (f : FpFormat) (q : Nat) (k : Int) : Nat × Nat :=
  if q = 0 then (0, 0)
  else
    let e := k + q.log2
    if f.emin ≤ e then ((e + f.bias).toNat, q * 2 ^ (f.p - 1) / 2 ^ q.log2) else (0, shiftUp q (k - f.tinyUnit))

/-- The extended image of a finite value. -/
def fpOfFinite (neg : Bool) (q : Nat) (k : Int) : Ext80 :=
  let (e, sig) := (FpFormat.ext 64).pack q k
  fpMake neg (BitVec.ofNat 15 e) (BitVec.ofNat 64 sig)

/-- The exact extended image of an integer, +0 for 0 (R650, R656). -/
def fpOfInt (v : Int) : Ext80 := fpOfFinite (decide (v < 0)) v.natAbs 0

/-- The image of an exact value representable in extended precision. -/
def fpOfExact (x : Exact) : Ext80 := fpOfFinite x.neg x.m x.e

/-- The number of bits of a memory format's exponent field: 8 or 11. -/
def FpFormat.expBits (f : FpFormat) : Nat := if f.p = 24 then 8 else 11

/-- The image of sign, exponent field and stored fraction in single or double precision (R651). -/
def FpFormat.image (f : FpFormat) (neg : Bool) (e frac : Nat) : Nat :=
  (if neg then 2 ^ (f.p - 1 + f.expBits) else 0) + e * 2 ^ (f.p - 1) + frac

/-- The all-ones exponent field of a memory format. -/
def FpFormat.expOnes (f : FpFormat) : Nat := 2 ^ f.expBits - 1

/-- The image of a delivered value in single or double precision. -/
def FpFormat.imageOf (f : FpFormat) : FpOut → Option Nat
  | .fin neg q k =>
    let (e, sig) := f.pack q k
    some (f.image neg e (sig % 2 ^ (f.p - 1)))
  | .inf neg => some (f.image neg f.expOnes 0)
  | .unstated => none

/-- The image of a zero, infinity or NaN: chopped on the right (R677). -/
def FpFormat.chop (f : FpFormat) (x : Ext80) : Nat :=
  f.image (fpSign x) (if fpIsZero x then 0 else f.expOnes) ((fpSig x).toNat % 2 ^ 63 / 2 ^ (64 - f.p))

/-- The real indefinite of a memory format (R653). -/
def FpFormat.indefinite (f : FpFormat) : Nat := f.chop fpIndefinite

/-- An operand: its extended value, and whether it is a denormal of the format it came from (R700). -/
structure FpOperand where
  val : Ext80
  denormal : Bool
deriving DecidableEq, Repr

/-- A register as an operand. -/
def FpOperand.ofExt (x : Ext80) : FpOperand := { val := x, denormal := fpClass x == .denormal }

/-- A single or double image widened to extended precision (R677). -/
def FpFormat.widen (f : FpFormat) (v : Nat) : FpOperand :=
  let frac := v % 2 ^ (f.p - 1)
  let e := v / 2 ^ (f.p - 1) % 2 ^ f.expBits
  let neg := v.testBit (f.p - 1 + f.expBits)
  if e = f.expOnes then
    { val := fpMake neg 0x7FFF#15 (BitVec.ofNat 64 (2 ^ 63 + frac * 2 ^ (64 - f.p))), denormal := false }
  else if e = 0 then { val := fpOfFinite neg frac f.tinyUnit, denormal := decide (frac ≠ 0) }
  else { val := fpOfFinite neg (2 ^ (f.p - 1) + frac) (e - f.bias - f.p + 1 : Int), denormal := false }

/-- The four basic operations (R674). -/
inductive FpOp where
  | add
  | sub
  | mul
  | div
deriving DecidableEq, Repr

/-- The invalid forms of R674: an infinity less itself, 0 times an infinity, 0 / 0, infinity / infinity. -/
def FpOp.invalid (o : FpOp) (a b : Ext80) : Bool :=
  match o with
  | .add => fpIsInf a && fpIsInf b && fpSign a != fpSign b
  | .sub => fpIsInf a && fpIsInf b && fpSign a == fpSign b
  | .mul => (fpIsInf a && fpIsZero b) || (fpIsZero a && fpIsInf b)
  | .div => (fpIsInf a && fpIsInf b) || (fpIsZero a && fpIsZero b)

/-- A finite non-zero dividend over zero. -/
def FpOp.zeroDivide (o : FpOp) (a b : Ext80) : Bool := o == .div && fpIsZero b && !fpIsInf a

/-- The exact value of an operation on two finite values. -/
def FpOp.exact (o : FpOp) (a b : Ext80) : Exact :=
  match o with
  | .add => (fpVal a).add (fpVal b)
  | .sub => (fpVal a).add (fpVal b).negate
  | .mul => (fpVal a).mul (fpVal b)
  | .div => (fpVal a).div (fpVal b)

/-- A sum with an infinity or of value zero (R674); `nb` is the sign of the second term. -/
def addSpecial (rc : BitVec 2) (a b : Ext80) (nb : Bool) (x : Exact) : Option Ext80 :=
  if fpIsInf a then some a
  else if fpIsInf b then some (fpInf nb)
  else if x.m = 0 then
    some (fpZero (if fpIsZero a ∧ fpIsZero b ∧ fpSign a = nb then nb else decide (rc = 1#2)))
  else none

/-- A result that needs no rounding: an infinity or a zero (R674, R700 step 6). -/
def FpOp.special (o : FpOp) (rc : BitVec 2) (a b : Ext80) : Option Ext80 :=
  let neg := fpSign a != fpSign b
  match o with
  | .add => addSpecial rc a b (fpSign b) (o.exact a b)
  | .sub => addSpecial rc a b (!fpSign b) (o.exact a b)
  | .mul => if fpIsInf a || fpIsInf b then some (fpInf neg) else if fpIsZero a || fpIsZero b then some (fpZero neg) else none
  | .div => if fpIsInf a then some (fpInf neg) else if fpIsInf b || fpIsZero a then some (fpZero neg) else none

/-- Is one value below, equal to, or above another (R672)? -/
inductive FpOrder where
  | lt
  | eq
  | gt
deriving DecidableEq, Repr

/-- The order of two values that are not NaNs (R672): the sign of their difference; an infinity stands for a number
beyond every finite one. -/
def fpCompare (a b : Ext80) : FpOrder :=
  let v (x : Ext80) : Exact := if fpIsInf x then { neg := fpSign x, m := 1, e := 20000, sticky := false } else fpVal x
  let d := (v a).add (v b).negate
  if d.m = 0 then .eq else if d.neg then .lt else .gt

/-- A value rounded to an integer (R676). PRESUMED (log entry 24). -/
def fpToInt (rc : BitVec 2) (x : Ext80) : Rounding := roundAt rc (fpVal x) 0

/-- A rounded integer with the sign of its source. -/
def Rounding.int (r : Rounding) (neg : Bool) : Int := if neg then -(r.q : Int) else r.q

/-- Is |x| below 2^63, for a finite value (R670)? -/
def fpInTrigRange (x : Ext80) : Bool := decide ((fpVal x).log2 < 63) || fpIsZero x

/-- A zero, denormal or normal: a real number. -/
def fpIsReal (x : Ext80) : Bool := fpClass x == .zero || fpClass x == .denormal || fpClass x == .normal

/-- A real number of magnitude at most 1. -/
def fpUpToOne (x : Ext80) : Bool :=
  fpIsReal x && (decide (fpExp x < 0x3FFF#15) || (fpExp x == 0x3FFF#15 && fpSig x == 0x8000000000000000#64))

/-- Is `v` a real number with the sign of the real number `x`, and no further from it than a unit in the last place of `x`? -/
def fpWithinUnit (x v : Ext80) : Bool :=
  let d := (fpVal x).add (fpVal v).negate
  fpIsReal v && fpSign v == fpSign x && decide (d.m ≤ shiftUp 1 ((fpVal x).e - d.e))

/-- Is a finite non-zero value, a denormal or not, below 2^-32 in magnitude? -/
def fpVerySmall (x : Ext80) : Bool := decide ((fpVal x).log2 < -32)

/-- A real number of magnitude less than pi: at most 4000 C90FDAA22168C234h. -/
def fpBelowPi (x : Ext80) : Bool :=
  fpIsReal x && (decide (fpExp x < 0x4000#15) || (fpExp x == 0x4000#15 && decide (fpSig x ≤ 0xC90FDAA22168C234#64)))

/-- Is |x| below 1, for a finite non-zero value? -/
def fpBelowOne (x : Ext80) : Bool := !fpIsInf x && decide ((fpVal x).log2 < 0)

/-- The eighteen digits and the sign of a packed decimal (R655), from bits; digit `k` is bits 4k+3 to 4k. -/
def bcdDigit (v k : Nat) : Nat := v / 16 ^ k % 16

/-- Are the lowest `n` digits valid? -/
def bcdValid (v : Nat) : Nat → Bool
  | 0 => true
  | n + 1 => decide (bcdDigit v n < 10) && bcdValid v n

/-- The value of the lowest `n` digits. -/
def bcdValue (v : Nat) : Nat → Nat
  | 0 => 0
  | n + 1 => bcdDigit v n * 10 ^ n + bcdValue v n

/-- The lowest `n` decimal digits of a number, packed. -/
def bcdPack (v : Nat) : Nat → Nat
  | 0 => 0
  | n + 1 => v / 10 ^ n % 10 * 16 ^ n + bcdPack v n

/-- The BCD indefinite (R655). -/
def bcdIndefinite : Nat := 0xFFFFC000000000000000

end Sys2Proof.Machine
end

