-- ==== Sys2Proof/Machine/Fpu.lean ====
section
/-!
DEFINITION. The FPU's registers, flags and checks, and the steps every FPU instruction shares
(spec/10_state.md R50 to R54; spec/45_fpu_common.md R658 to R673, R700).
-/
namespace Sys2Proof.Machine
open Sys2Proof

/-! The register stack (R661). -/

/-- TOP. -/
def Fpu.top (f : Fpu) : Fin 8 := f.status.top
/-- The physical number of ST(i) (10_state.md R50). -/
def Fpu.phys (f : Fpu) (i : StIdx) : Fin 8 := f.top + i
/-- The 80 bits of ST(i). -/
def Fpu.st (f : Fpu) (i : StIdx) : Ext80 := f.regs.get (f.phys i)
/-- Is ST(i) empty? -/
def Fpu.isEmpty (f : Fpu) (i : StIdx) : Bool := f.empty.get (f.phys i)
/-- Another TOP. -/
def Fpu.setTop (f : Fpu) (t : Fin 8) : Fpu := { f with status := { f.status with top := t } }
/-- Write a physical register and mark it not empty. -/
def Fpu.putPhys (f : Fpu) (n : Fin 8) (v : Ext80) : Fpu :=
  { f with regs := f.regs.set n v n.isLt, empty := f.empty.set n false n.isLt }
/-- Write ST(i). -/
def Fpu.putSt (f : Fpu) (i : StIdx) (v : Ext80) : Fpu := f.putPhys (f.phys i) v
/-- fpush. -/
def Fpu.push (f : Fpu) (v : Ext80) : Fpu := (f.setTop (f.top - 1)).putSt 0 v
/-- Mark ST(i) empty. -/
def Fpu.free (f : Fpu) (i : StIdx) : Fpu := { f with empty := f.empty.set (f.phys i) true (f.phys i).isLt }
/-- fpop. -/
def Fpu.pop (f : Fpu) : Fpu := (f.free 0).setTop (f.top + 1)

/-! The control and status words (10_state.md R51, R52). -/

/-- RC. -/
def Fpu.rc (f : Fpu) : BitVec 2 := f.cw.extractLsb' 10 2
/-- PC. -/
def Fpu.pc (f : Fpu) : BitVec 2 := f.cw.extractLsb' 8 2

/-- The six exception flags (R663). -/
inductive FpFlag where
  | ie
  | de
  | ze
  | oe
  | ue
  | pe
deriving DecidableEq, Repr

/-- The place of a flag in the status word, and of its mask in the control word. -/
def FpFlag.bit : FpFlag → Nat
  | .ie => 0
  | .de => 1
  | .ze => 2
  | .oe => 3
  | .ue => 4
  | .pe => 5

/-- Set an exception flag. -/
def Fpu.flag (f : Fpu) (x : FpFlag) : Fpu :=
  match x with
  | .ie => { f with status := { f.status with ie := true } }
  | .de => { f with status := { f.status with de := true } }
  | .ze => { f with status := { f.status with ze := true } }
  | .oe => { f with status := { f.status with oe := true } }
  | .ue => { f with status := { f.status with ue := true } }
  | .pe => { f with status := { f.status with pe := true } }

/-- Set an exception flag if a condition holds. -/
def Fpu.flagIf (f : Fpu) (x : FpFlag) (b : Bool) : Fpu := if b then f.flag x else f

/-- Is an exception masked? -/
def Fpu.masked (f : Fpu) (x : FpFlag) : Bool := f.cw.getLsbD x.bit

/-- Set C1. -/
def Fpu.setC1 (f : Fpu) (b : Bool) : Fpu := { f with status := { f.status with c1 := b } }
/-- Set C2. -/
def Fpu.setC2 (f : Fpu) (b : Bool) : Fpu := { f with status := { f.status with c2 := b } }
/-- Set C3, C2, C0. -/
def Fpu.setC320 (f : Fpu) (c3 c2 c0 : Bool) : Fpu :=
  { f with status := { f.status with c3 := c3, c2 := c2, c0 := c0 } }

/-- ES: an unmasked flag is set (R664). -/
def Fpu.error (f : Fpu) : Bool :=
  (f.status.ie && !f.masked .ie) || (f.status.de && !f.masked .de) || (f.status.ze && !f.masked .ze) ||
    (f.status.oe && !f.masked .oe) || (f.status.ue && !f.masked .ue) || (f.status.pe && !f.masked .pe)

/-- The status word (10_state.md R52): bits 15 to 0 are B, C3, TOP, C2, C1, C0, ES, SF, PE, UE, OE, ZE, DE, IE. -/
def Fpu.sw (f : Fpu) : Word16 :=
  let b (x : Bool) : BitVec 1 := BitVec.ofBool x
  let s := f.status
  b f.error ++ b s.c3 ++ (BitVec.ofFin s.top : BitVec 3) ++ b s.c2 ++ b s.c1 ++ b s.c0 ++ b f.error ++ b s.sf ++
    b s.pe ++ b s.ue ++ b s.oe ++ b s.ze ++ b s.de ++ b s.ie

/-- The status bits of a status word; ES and B are not taken from it (R664). -/
def FpuStatus.ofWord (w : Word16) : FpuStatus :=
  { ie := w.getLsbD 0, de := w.getLsbD 1, ze := w.getLsbD 2, oe := w.getLsbD 3, ue := w.getLsbD 4, pe := w.getLsbD 5,
    sf := w.getLsbD 6, c0 := w.getLsbD 8, c1 := w.getLsbD 9, c2 := w.getLsbD 10, c3 := w.getLsbD 14,
    top := (w.extractLsb' 11 3).toFin }

/-- Replace the FPU. -/
def State.setFpu (s : State) (f : Fpu) : State := { s with fpu := f }
/-- Change the FPU. -/
def State.onFpu (s : State) (g : Fpu → Fpu) : State := { s with fpu := g s.fpu }
/-- The FPU. -/
def getFpu : M Fpu := do pure (← get).fpu
/-- Change the FPU. -/
def onFpu (g : Fpu → Fpu) : M Unit := modify fun s => s.onFpu g

/-- Set an exception flag and say whether it is masked (R663). -/
def raiseFp (x : FpFlag) : M Bool := do
  let f ← getFpu
  onFpu fun f => f.flag x
  pure (f.masked x)

/-- Stack fault (R662); says whether the masked response follows. -/
def stackFault (ovf : Bool) : M Bool := do
  onFpu fun f => { f with status := { f.status with sf := true, c1 := ovf } }
  raiseFp .ie

/-- Free values for the condition codes left undefined (R669, U52; log entry 12): C0, C3 and, if `c2`, C2; C1 is
cleared, also where an invalid operand that is no stack fault, a quiet NaN, an unmasked denormal or a zero divide then ends an
operation whose listing does not give C1. DESIGN CHOICE (log entry 49). -/
def startCodes (c2 : Bool) : M Unit := do
  let d ← draw 3
  onFpu fun f =>
    (f.setC320 (d.getLsbD 1) (if c2 then d.getLsbD 2 else f.status.c2) (d.getLsbD 0)).setC1 false

/-- The condition codes of "Flags A" and "Flags B" instructions (R669), before the operation. -/
def startFlags : M Unit := startCodes true

/-! The checks every FPU instruction makes (R667). -/

/-- #NM of an ESC instruction (R667 step 2). -/
def needFpu : M Unit := do
  let s ← get
  check (!(s.cr0Bit 2 || s.cr0Bit 3)) excNM

/-- fpu_pending (R664). -/
def fpuPending : M Unit := do
  let s ← get
  if !s.fpu.error then pure ()
  else if s.cr0Bit 5 then throw excMF
  else if s.pins.ignne then pure ()
  else throw .freeze

/-- WAIT (R667, 48 R818). -/
def waitOp : M Unit := do
  let s ← get
  check (!(s.cr0Bit 1 && s.cr0Bit 3)) excNM
  fpuPending

/-- The opcode field of an instruction: bits 2-0 of the first ESC byte and the second byte (R668). -/
def fopOf (i : Instr) : BitVec 11 :=
  match encode i with
  | a :: b :: _ => a.extractLsb' 0 3 ++ b
  | _ => 0#11

/-- Record the instruction and, if it has one, its memory operand (R668). Without one the data pointer is undefined:
a free value (log entry 12). -/
def notePointers (i : Instr) (m : Option Mem) : M Unit := do
  let s ← get
  let (sel, off) ← match m with
    | some x => pure ((s.seg.get (s.segOf x)).sel, s.gpr.ea x)
    | none => do
      let d ← draw 48
      pure (d.extractLsb' 32 16, d.extractLsb' 0 32)
  onFpu fun f =>
    { f with fcs := s.seg.cs.sel, fip := s.insn.start, fop := fopOf i, fds := sel, fdp := off }

/-- The order of every numeric instruction (R667): #NM, the pending error, the memory operand, the error pointers, the
operation. -/
def fpuOp {α : Type} (i : Instr) (m : Option Mem) (access : M α) (body : α → M Unit) : M Unit := do
  needFpu
  fpuPending
  let a ← access
  notePointers i m
  body a

/-- A numeric instruction without a memory operand. -/
def fpuReg (i : Instr) (body : M Unit) : M Unit := fpuOp i none (pure ()) fun _ => body

/-! Memory operands (R650, R667 step 4). -/

/-- The address check of a store of `n` bytes. Its pages are translated as for a write, so a page becomes dirty even where an
unmasked exception then stops the instruction before it stores (46 R706, R728 and R729 say only that the access is checked). DESIGN CHOICE
(log entry 57). -/
def fpProbe (m : Mem) (n align : Nat) : M Unit := do
  let s ← get
  memProbe m.as (s.segOf m) (s.gpr.ea m) n align

/-- Store `n` bytes at a memory operand. -/
def fpStore (m : Mem) (n align v : Nat) : M Unit := do
  let s ← get
  memWrite m.as (s.segOf m) (s.gpr.ea m) n align v

/-- The number of bytes of a real format. -/
def FpFormat.bytes (f : FpFormat) : Nat := if f.p = 24 then 4 else 8

/-- Read a real operand (R677). -/
def readRealOp (f : FpFormat) (m : Mem) : M FpOperand := do
  pure (f.widen (← readMemN m f.bytes f.bytes))

/-- A signed integer of `8 n` bits. -/
def signedOf (n v : Nat) : Int := (BitVec.ofNat (8 * n) v).toInt

/-- Read an integer operand of `n` bytes (R654). -/
def readIntOp (n : Nat) (m : Mem) : M Int := do
  pure (signedOf n (← readMemN m n n))

/-- ST(i) as an operand; none if it is empty. -/
def stOperand (i : StIdx) : M (Option FpOperand) := do
  let f ← getFpu
  pure (if f.isEmpty i then none else some (FpOperand.ofExt (f.st i)))

/-! Operations (R663, R666, R700). -/

/-- Set the flags and C1 of a delivery (R659, R660). -/
def applyFlags (d : Delivery) : M Unit :=
  onFpu fun f => (((f.flagIf .oe d.oe).flagIf .ue d.ue).flagIf .pe d.pe).setC1 d.c1

/-- Write an outcome to a register through `put`. A value the spec does not state is free. -/
def putOut (o : FpOut) (put : Ext80 → M Unit) : M Unit :=
  match o with
  | .fin neg q k => put (fpOfFinite neg q k)
  | .inf neg => put (fpInf neg)
  | .unstated => do put (← draw 80)

/-- Deliver a value to a register through `put` (R659, R660). -/
def deliverTo (p : Nat) (x : Exact) (put : Ext80 → M Unit) : M Unit := do
  let f ← getFpu
  let d := deliverValue (FpFormat.ext p) f.rc (f.masked .oe) (f.masked .ue) false x
  applyFlags d
  putOut d.out put

/-- The precision PC selects (R658); PC = 01 draws among the three (92_eei_decisions.md D35). DESIGN CHOICE (log
entry 23). -/
def precision : M Nat := do
  let f ← getFpu
  if f.pc = 0#2 then pure 24
  else if f.pc = 2#2 then pure 53
  else if f.pc = 3#2 then pure 64
  else do
    let d ← draw 2
    pure (if d = 0#2 then 24 else if d = 1#2 then 53 else 64)

/-- Does a pair of operands that are not empty raise #IA (R666)? A signaling NaN or an unsupported format does, and so does what the
listing of the instruction names beside them, `invalid`: an indeterminate form or an out-of-range input. -/
def raisesInvalid (x y : Ext80) (invalid : Ext80 → Ext80 → Bool) : Bool :=
  fpIsBad x || fpIsBad y || invalid x y

/-- The checks on two operands (R666, R700 steps 1 to 4): an empty one, an invalid operation, a quiet NaN, a denormal. `put`
writes the result and pops what the instruction pops; nothing is written when an exception is unmasked. The line of a listing that
names an out-of-range input stands before its line on quiet NaNs, so such an input raises #IA beside a quiet NaN too; the summary table
of R666 says no there. The listing goes first (90_conflicts.md, the order of authority). DEDUCED (log entry 25). -/
def binaryFp (a b : Option FpOperand) (invalid : Ext80 → Ext80 → Bool) (put : Ext80 → M Unit)
    (go : Ext80 → Ext80 → M Unit) : M Unit :=
  match a, b with
  | some x, some y => do
    if raisesInvalid x.val y.val invalid then do
      if ← raiseFp .ie then put (nanResult x.val y.val) else pure ()
    else if fpIsNan x.val || fpIsNan y.val then put (nanResult x.val y.val)
    else if x.denormal || y.denormal then do
      if ← raiseFp .de then go x.val y.val else pure ()
    else go x.val y.val
  | _, _ => do
    if ← stackFault false then put fpIndefinite else pure ()

/-- The checks on one operand, ST. -/
def unaryFp (invalid : Ext80 → Bool) (put : Ext80 → M Unit) (go : Ext80 → M Unit) : M Unit := do
  let a ← stOperand 0
  binaryFp a a (fun x _ => invalid x) put (fun x _ => go x)

/-- arith (R700): one of the four basic operations. -/
def arithOp (o : FpOp) (a b : Option FpOperand) (put : Ext80 → M Unit) : M Unit :=
  binaryFp a b o.invalid put fun x y => do
    let f ← getFpu
    if o.zeroDivide x y then do
      if ← raiseFp .ze then put (fpInf (fpSign x != fpSign y)) else pure ()
    else
      match o.special f.rc x y with
      | some v => put v
      | none => do
        let p ← precision
        deliverTo p (o.exact x y) put

/-- A result the listings call undefined (92_eei_decisions.md D41): any value, any of P and U. DESIGN CHOICE (log
entry 23). -/
def undefinedResult (put : Ext80 → M Unit) : M Unit := do
  let v ← draw 80
  let d ← draw 3
  onFpu fun f =>
    { f with status :=
        { f.status with pe := f.status.pe || d.getLsbD 0, ue := f.status.ue || d.getLsbD 1, c1 := d.getLsbD 2 } }
  put v

/-- Write ST(i). -/
def putSt (i : StIdx) (v : Ext80) : M Unit := onFpu fun f => f.putSt i v
/-- Write ST(i), then pop. -/
def putPop (i : StIdx) (v : Ext80) : M Unit := onFpu fun f => (f.putSt i v).pop
/-- Pop `n` times. -/
def popTimes : Nat → Fpu → Fpu
  | 0, f => f
  | n + 1, f => popTimes n f.pop

/-- The condition codes of a comparison (R672). -/
def Fpu.setOrder (f : Fpu) : FpOrder → Fpu
  | .gt => (f.setC320 false false false).setC1 false
  | .lt => (f.setC320 false false true).setC1 false
  | .eq => (f.setC320 true false false).setC1 false

/-- The condition codes of an unordered comparison. -/
def Fpu.setUnordered (f : Fpu) : Fpu := (f.setC320 true true true).setC1 false

/-- The compare instructions (46 R709, R710; 48 R815): `quiet` says that quiet NaNs raise nothing, `pops` how often
the stack is popped when no unmasked exception stops the instruction. An unmasked denormal leaves the codes. DEDUCED (log entry 12). -/
def compareOp (a b : Option FpOperand) (quiet : Bool) (pops : Nat) : M Unit :=
  match a, b with
  | some x, some y => do
    if fpIsBad x.val || fpIsBad y.val || (!quiet && (fpIsNan x.val || fpIsNan y.val)) then do
      let masked ← raiseFp .ie
      onFpu fun f => popTimes (if masked then pops else 0) f.setUnordered
    else if fpIsNan x.val || fpIsNan y.val then onFpu fun f => popTimes pops f.setUnordered
    else do
      let going ← if x.denormal || y.denormal then raiseFp .de else pure true
      if going then onFpu fun f => popTimes pops (f.setOrder (fpCompare x.val y.val)) else pure ()
  | _, _ => do
    let masked ← stackFault false
    onFpu fun f => popTimes (if masked then pops else 0) f.setUnordered

/-- Push a value (R661, R662): ST(7) must be empty. -/
def pushFp (v : Ext80) : M Unit := do
  let f ← getFpu
  if f.isEmpty 7 then onFpu fun f => f.push v
  else do
    if ← stackFault true then onFpu fun f => f.push fpIndefinite else pure ()

/-- The checks of an instruction that rewrites ST and pushes (R662, 47 R773): ST not empty, ST(7) empty. -/
def pushPairFp (body : M Unit) : M Unit := do
  let f ← getFpu
  if f.isEmpty 0 || !f.isEmpty 7 then do
    if ← stackFault (!f.isEmpty 0) then onFpu fun f => (f.putSt 0 fpIndefinite).push fpIndefinite else pure ()
  else body

end Sys2Proof.Machine
end

