-- ==== Sys2Proof/Machine/FpuArith.lean ====
section
/-!
DEFINITION. FPU arithmetic and comparison (spec/46_fpu_f2xm1_to_fisubr.md R700 to R731; spec/47_fpu_fld_to_frstor.md
R761, R762, R771, R772, R774; spec/48_fpu_fsave_to_fyl2xp1.md R801, R804, R810 to R817, R821).
-/
namespace Sys2Proof

/-- The memory operand of an arithmetic form. -/
def FArith.mem? : FArith → Option Mem
  | .m32 m => some m
  | .m64 m => some m
  | .toSt _ => none
  | .toSti _ => none

/-- The destination of an arithmetic form. -/
def FArith.dest : FArith → StIdx
  | .m32 _ => 0
  | .m64 _ => 0
  | .toSt _ => 0
  | .toSti i => i

/-- The memory operand of a compare form. -/
def FCmp.mem? : FCmp → Option Mem
  | .m32 m => some m
  | .m64 m => some m
  | .st _ => none

/-- The memory operand of an integer form. -/
def FInt.mem : FInt → Mem
  | .m16 m => m
  | .m32 m => m

/-- The bytes of an integer form. -/
def FInt.bytes : FInt → Nat
  | .m16 _ => 2
  | .m32 _ => 4

end Sys2Proof

namespace Sys2Proof.Machine
open Sys2Proof

/-- The source of an arithmetic form; none if it is an empty register. -/
def arithSource : FArith → M (Option FpOperand)
  | .m32 m => do pure (some (← readRealOp .single m))
  | .m64 m => do pure (some (← readRealOp .double m))
  | .toSt i => stOperand i
  | .toSti _ => stOperand 0

/-- Destination and source in the order of the operation (R693): reversed, the source stands first. -/
def arithOrdered (o : FpOp) (rev : Bool) (d s : Option FpOperand) (put : Ext80 → M Unit) : M Unit :=
  if rev then arithOp o s d put else arithOp o d s put

/-- FADD and its like. -/
def farithOp (i : Instr) (o : FpOp) (rev : Bool) (f : FArith) : M Unit :=
  fpuOp i f.mem? (arithSource f) fun src => do
    startFlags
    let d ← stOperand f.dest
    arithOrdered o rev d src (putSt f.dest)

/-- FADDP and its like: the destination is ST(k), the source ST, and ST is popped. -/
def farithPopOp (i : Instr) (o : FpOp) (rev : Bool) (k : StIdx) : M Unit :=
  fpuReg i do
    startFlags
    let d ← stOperand k
    let s ← stOperand 0
    arithOrdered o rev d s (putPop k)

/-- An integer as an operand: never a denormal (R674). -/
def FpOperand.ofInt (v : Int) : FpOperand := { val := fpOfInt v, denormal := false }

/-- FIADD and its like. -/
def fiarithOp (i : Instr) (o : FpOp) (rev : Bool) (f : FInt) : M Unit :=
  fpuOp i (some f.mem) (readIntOp f.bytes f.mem) fun v => do
    startFlags
    let d ← stOperand 0
    arithOrdered o rev d (some (.ofInt v)) (putSt 0)

/-- FADD (46 R703). -/
def execFadd (f : FArith) (s : State) : Result := run (farithOp (.fadd f) .add false f) s
/-- FADDP (46 R704). -/
def execFaddp (k : StIdx) (s : State) : Result := run (farithPopOp (.faddp k) .add false k) s
/-- FSUB (48 R810). -/
def execFsub (f : FArith) (s : State) : Result := run (farithOp (.fsub f) .sub false f) s
/-- FSUBP (48 R811). -/
def execFsubp (k : StIdx) (s : State) : Result := run (farithPopOp (.fsubp k) .sub false k) s
/-- FSUBR (48 R812). -/
def execFsubr (f : FArith) (s : State) : Result := run (farithOp (.fsubr f) .sub true f) s
/-- FSUBRP (48 R813). -/
def execFsubrp (k : StIdx) (s : State) : Result := run (farithPopOp (.fsubrp k) .sub true k) s
/-- FMUL (47 R761). -/
def execFmul (f : FArith) (s : State) : Result := run (farithOp (.fmul f) .mul false f) s
/-- FMULP (47 R762). -/
def execFmulp (k : StIdx) (s : State) : Result := run (farithPopOp (.fmulp k) .mul false k) s
/-- FDIV (46 R714). -/
def execFdiv (f : FArith) (s : State) : Result := run (farithOp (.fdiv f) .div false f) s
/-- FDIVP (46 R715). -/
def execFdivp (k : StIdx) (s : State) : Result := run (farithPopOp (.fdivp k) .div false k) s
/-- FDIVR (46 R716). -/
def execFdivr (f : FArith) (s : State) : Result := run (farithOp (.fdivr f) .div true f) s
/-- FDIVRP (46 R717). -/
def execFdivrp (k : StIdx) (s : State) : Result := run (farithPopOp (.fdivrp k) .div true k) s
/-- FIADD (46 R719). -/
def execFiadd (f : FInt) (s : State) : Result := run (fiarithOp (.fiadd f) .add false f) s
/-- FISUB (46 R730). -/
def execFisub (f : FInt) (s : State) : Result := run (fiarithOp (.fisub f) .sub false f) s
/-- FISUBR (46 R731). -/
def execFisubr (f : FInt) (s : State) : Result := run (fiarithOp (.fisubr f) .sub true f) s
/-- FIMUL (46 R725). -/
def execFimul (f : FInt) (s : State) : Result := run (fiarithOp (.fimul f) .mul false f) s
/-- FIDIV (46 R722). -/
def execFidiv (f : FInt) (s : State) : Result := run (fiarithOp (.fidiv f) .div false f) s
/-- FIDIVR (46 R723). -/
def execFidivr (f : FInt) (s : State) : Result := run (fiarithOp (.fidivr f) .div true f) s

/-! Comparison. -/

/-- The source of FCOM and FCOMP. -/
def compareSource : FCmp → M (Option FpOperand)
  | .m32 m => do pure (some (← readRealOp .single m))
  | .m64 m => do pure (some (← readRealOp .double m))
  | .st i => stOperand i

/-- FCOM and FCOMP. -/
def fcomOp (i : Instr) (f : FCmp) (pops : Nat) : M Unit :=
  fpuOp i f.mem? (compareSource f) fun src => do
    let a ← stOperand 0
    compareOp a src false pops

/-- A comparison of ST with ST(k). -/
def fcomRegOp (i : Instr) (k : StIdx) (quiet : Bool) (pops : Nat) : M Unit :=
  fpuReg i do
    let a ← stOperand 0
    let b ← stOperand k
    compareOp a b quiet pops

/-- FICOM and FICOMP. -/
def ficomOp (i : Instr) (f : FInt) (pops : Nat) : M Unit :=
  fpuOp i (some f.mem) (readIntOp f.bytes f.mem) fun v => do
    let a ← stOperand 0
    compareOp a (some (.ofInt v)) false pops

/-- FCOM (46 R709). -/
def execFcom (f : FCmp) (s : State) : Result := run (fcomOp (.fcom f) f 0) s
/-- FCOMP (46 R710). -/
def execFcomp (f : FCmp) (s : State) : Result := run (fcomOp (.fcomp f) f 1) s
/-- FCOMPP (46 R711). -/
def execFcompp (s : State) : Result := run (fcomRegOp .fcompp 1 false 2) s
/-- FUCOM (48 R815). -/
def execFucom (k : StIdx) (s : State) : Result := run (fcomRegOp (.fucom k) k true 0) s
/-- FUCOMP (48 R816). -/
def execFucomp (k : StIdx) (s : State) : Result := run (fcomRegOp (.fucomp k) k true 1) s
/-- FUCOMPP (48 R817). -/
def execFucompp (s : State) : Result := run (fcomRegOp .fucompp 1 true 2) s
/-- FICOM (46 R720). -/
def execFicom (f : FInt) (s : State) : Result := run (ficomOp (.ficom f) f 0) s
/-- FICOMP (46 R721). -/
def execFicomp (f : FInt) (s : State) : Result := run (ficomOp (.ficomp f) f 1) s

/-- FTST (48 R814): ST against +0. -/
def ftstOp : M Unit :=
  fpuReg .ftst do
    let a ← stOperand 0
    compareOp a (some (.ofExt (fpZero false))) false 0

/-- FTST (48 R814). -/
def execFtst (s : State) : Result := run ftstOp s

/-- C3, C2, C0 of FXAM by class (48 R819). -/
def Fpu.setExam (f : Fpu) : FpClass → Fpu
  | .unsupported => f.setC320 false false false
  | .snan => f.setC320 false false true
  | .qnan => f.setC320 false false true
  | .normal => f.setC320 false true false
  | .infinity => f.setC320 false true true
  | .zero => f.setC320 true false false
  | .denormal => f.setC320 true true false

/-- FXAM (48 R819). -/
def Fpu.exam (f : Fpu) : Fpu :=
  let g := f.setC1 (fpSign (f.st 0))
  if f.isEmpty 0 then g.setC320 true false true else g.setExam (fpClass (f.st 0))

/-- FXAM (48 R819). -/
def execFxam (s : State) : Result := run (fpuReg .fxam (onFpu Fpu.exam)) s

/-! Sign, root, rounding, scaling, parts. -/

/-- FABS and FCHS: only an empty ST is an error. -/
def signOp (g : Ext80 → Ext80) : M Unit := do
  startFlags
  let f ← getFpu
  if f.isEmpty 0 then do
    if ← stackFault false then putSt 0 fpIndefinite else pure ()
  else putSt 0 (g (f.st 0))

/-- The sign bit as a mask. -/
def fpSignMask : Ext80 := 0x80000000000000000000#80

/-- FABS (46 R702). -/
def execFabs (s : State) : Result := run (fpuReg .fabs (signOp fun x => x &&& ~~~fpSignMask)) s
/-- FCHS (46 R707). -/
def execFchs (s : State) : Result := run (fpuReg .fchs (signOp fun x => x ^^^ fpSignMask)) s

/-- FSQRT (48 R804). -/
def fsqrtOp : M Unit := do
  startFlags
  unaryFp fpIsNegative (putSt 0) fun x =>
    if fpIsZero x || fpIsInf x then pure ()
    else do
      let p ← precision
      deliverTo p (fpVal x).sqrt (putSt 0)

/-- FSQRT (48 R804). -/
def execFsqrt (s : State) : Result := run (fpuReg .fsqrt fsqrtOp) s

/-- The flag and C1 of a rounding to an integer (R676). -/
def noteRounding (r : Rounding) : M Unit :=
  onFpu fun f => (f.flagIf .pe r.inexact).setC1 r.up

/-- FRNDINT (47 R774). -/
def frndintOp : M Unit := do
  startFlags
  unaryFp (fun _ => false) (putSt 0) fun x =>
    if fpIsZero x || fpIsInf x then pure ()
    else do
      let f ← getFpu
      let r := fpToInt f.rc x
      noteRounding r
      putSt 0 (fpOfFinite (fpSign x) r.q 0)

/-- FRNDINT (47 R774). -/
def execFrndint (s : State) : Result := run (fpuReg .frndint frndintOp) s

/-- ST(1) chopped to an integer (48 R801). A scale of 2^17 or more is cut to 2^17: either leaves every range.
DEDUCED (log entry 26). -/
def scaleOf (x : Ext80) : Int :=
  let v := fpVal x
  let n : Nat := if 17 ≤ v.log2 then 131072 else if 0 ≤ v.e then shiftUp v.m v.e else v.m / 2 ^ (-v.e).toNat
  if v.neg then -(n : Int) else n

/-- FSCALE (48 R801). -/
def fscaleOp : M Unit := do
  startFlags
  let a ← stOperand 0
  let b ← stOperand 1
  binaryFp a b (fun x n => fpIsInf n && (if fpSign n then fpIsInf x else fpIsZero x)) (putSt 0) fun x n =>
    if fpIsInf n then putSt 0 (if fpSign n then fpZero (fpSign x) else fpInf (fpSign x))
    else if fpIsZero x || fpIsInf x || decide (scaleOf n = 0) then pure ()
    else deliverTo 64 { fpVal x with e := (fpVal x).e + scaleOf n } (putSt 0)

/-- FSCALE (48 R801). -/
def execFscale (s : State) : Result := run (fpuReg .fscale fscaleOp) s

/-- ST replaced by `v`, then `w` pushed. -/
def putPair (v w : Ext80) : M Unit := onFpu fun f => (f.putSt 0 v).push w

/-- FXTRACT (48 R821). -/
def fxtractOp : M Unit := do
  startFlags
  pushPairFp <|
    unaryFp (fun _ => false) (fun v => putPair v v) fun x =>
      if fpIsZero x then do
        if ← raiseFp .ze then putPair (fpInf true) (fpZero (fpSign x)) else pure ()
      else if fpIsInf x then putPair (fpInf false) (fpInf (fpSign x))
      else
        let v := fpVal x
        putPair (fpOfInt v.log2) (fpOfFinite v.neg v.m (-(v.m.log2 : Int)))

/-- FXTRACT (48 R821). -/
def execFxtract (s : State) : Result := run (fpuReg .fxtract fxtractOp) s

/-! Partial remainders (47 R771, R772; 45 R673). -/

/-- The condition codes of a complete reduction with quotient magnitude `q`. -/
def Fpu.setQuotient (f : Fpu) (q : Nat) : Fpu :=
  (f.setC320 (q.testBit 1) false (q.testBit 2)).setC1 (q.testBit 0)

/-- The quotient of a complete reduction, chopped or, for FPREM1, the nearest integer, even on a tie; with the remainder
and whether it changes sign. -/
def remainderOf (nearest : Bool) (a b : Nat) : Nat × Nat × Bool :=
  let q := a / b
  let r := a % b
  if nearest && (decide (b < 2 * r) || (decide (2 * r = b) && decide (q % 2 = 1))) then (q + 1, b - r, true)
  else (q, r, false)

/-- Deliver a remainder `m * 2^e` to ST; a zero takes the sign of the dividend. -/
def putRemainder (x : Ext80) (flip : Bool) (m : Nat) (e : Int) : M Unit :=
  if m = 0 then putSt 0 (fpZero (fpSign x))
  else deliverTo 64 { neg := fpSign x != flip, m := m, e := e, sticky := false } (putSt 0)

/-- FPREM and FPREM1 of two finite non-zero values. The exponent an incomplete pass takes off is drawn from 32 to 63
(92_eei_decisions.md D44). DESIGN CHOICE (log entry 23). -/
def premGo (nearest : Bool) (x y : Ext80) : M Unit := do
  let a := fpVal x
  let b := fpVal y
  let e := min a.e b.e
  let ma := shiftUp a.m (a.e - e)
  let mb := shiftUp b.m (b.e - e)
  let diff := a.log2 - b.log2
  if diff < 64 then do
    let (q, r, flip) := remainderOf nearest ma mb
    putRemainder x flip r e
    onFpu fun f => f.setQuotient q
  else do
    let n := 32 + (← draw 5).toNat
    putRemainder x false (ma % (mb * 2 ^ (diff - n).toNat)) e
    let d ← draw 3
    onFpu fun f => (f.setC320 (d.getLsbD 0) true (d.getLsbD 1)).setC1 (d.getLsbD 2)

/-- FPREM and FPREM1. An infinite ST or a zero ST(1) raises #IA beside a quiet NaN too, by the order of the listing (47 R771, R772). Where
the checks end it the codes stay. DEDUCED (log entries 12 and 25). -/
def premOp (nearest : Bool) : M Unit := do
  let a ← stOperand 0
  let b ← stOperand 1
  binaryFp a b (fun x y => fpIsInf x || fpIsZero y) (putSt 0) fun x y =>
    if fpIsInf y || fpIsZero x then onFpu fun f => f.setQuotient 0 else premGo nearest x y

/-- FPREM (47 R771). -/
def execFprem (s : State) : Result := run (fpuReg .fprem (premOp false)) s
/-- FPREM1 (47 R772). -/
def execFprem1 (s : State) : Result := run (fpuReg .fprem1 (premOp true)) s

end Sys2Proof.Machine
end

