-- ==== Sys2Proof/Machine/FpuMove.lean ====
section
/-!
DEFINITION. FPU loads, stores, constants and exchanges (spec/46_fpu_f2xm1_to_fisubr.md R705, R706, R713, R718, R724,
R726, R728, R729; spec/47_fpu_fld_to_frstor.md R750, R751, R755 to R760; spec/48_fpu_fsave_to_fyl2xp1.md R805, R808, R820).
-/
namespace Sys2Proof

/-- The memory operand of FILD and FISTP. -/
def FIntL.mem : FIntL → Mem
  | .m16 m => m
  | .m32 m => m
  | .m64 m => m

/-- The bytes of FILD's and FISTP's operand. -/
def FIntL.bytes : FIntL → Nat
  | .m16 _ => 2
  | .m32 _ => 4
  | .m64 _ => 8

end Sys2Proof

namespace Sys2Proof.Machine
open Sys2Proof

/-! Loads. -/

/-- Push a value widened from single or double precision (47 R750). -/
def loadReal (x : FpOperand) : M Unit := do
  let f ← getFpu
  if !f.isEmpty 7 then pushFp x.val
  else if fpClass x.val = .snan then do
    if ← raiseFp .ie then pushFp (fpQuiet x.val) else pure ()
  else if x.denormal then do
    if ← raiseFp .de then pushFp x.val else pure ()
  else pushFp x.val

/-- FLD from memory in single or double precision. -/
def fldRealOp (i : Instr) (f : FpFormat) (m : Mem) : M Unit :=
  fpuOp i (some m) (readRealOp f m) fun x => do
    startFlags
    loadReal x

/-- FLD ST(k): read before TOP changes. -/
def fldStOp (k : StIdx) : M Unit := do
  startFlags
  let f ← getFpu
  if !f.isEmpty 7 then pushFp fpIndefinite
  else if f.isEmpty k then do
    if ← stackFault false then pushFp fpIndefinite else pure ()
  else pushFp (f.st k)

/-- FLD (47 R750). -/
def fldOp (f : FLdSt) : M Unit :=
  match f with
  | .m32 m => fldRealOp (.fld f) .single m
  | .m64 m => fldRealOp (.fld f) .double m
  | .m80 m => fpuOp (.fld f) (some m) (readMemN m 10 8) fun v => do
    startFlags
    pushFp (BitVec.ofNat 80 v)
  | .st k => fpuReg (.fld f) (fldStOp k)

/-- FLD (47 R750). -/
def execFld (f : FLdSt) (s : State) : Result := run (fldOp f) s

/-- FILD (46 R724). -/
def fildOp (f : FIntL) : M Unit :=
  fpuOp (.fild f) (some f.mem) (readIntOp f.bytes f.mem) fun v => do
    startFlags
    pushFp (fpOfInt v)

/-- FILD (46 R724). -/
def execFild (f : FIntL) (s : State) : Result := run (fildOp f) s

/-- Push a value the listings call undefined, with any of P and U (92_eei_decisions.md D41, 93_implementation_defined.md U53); C1
is 0 as after any push (46 R705). DESIGN CHOICE (log entry 23). -/
def pushUndefined : M Unit := do
  let f ← getFpu
  if f.isEmpty 7 then undefinedResult fun v => onFpu fun f => (f.push v).setC1 false
  else pushFp fpIndefinite

/-- FBLD (46 R705): invalid digits load a free value. -/
def fbldOp (m : Mem) : M Unit :=
  fpuOp (.fbld m) (some m) (readMemN m 10 8) fun v => do
    startFlags
    if bcdValid v 18 then pushFp (fpOfFinite (v.testBit 79) (bcdValue v 18) 0)
    else pushUndefined

/-- FBLD (46 R705). -/
def execFbld (m : Mem) (s : State) : Result := run (fbldOp m) s

/-! Constants: the rounding of the 66-bit value by RC, without the precision exception. -/

/-- Push a constant. `near`, `down`, `up` and `chop` are its significands under the four rounding modes. -/
def constOp (e : BitVec 15) (near down up chop : BitVec 64) : M Unit := do
  startFlags
  let f ← getFpu
  pushFp (fpMake false e (if f.rc = 0#2 then near else if f.rc = 1#2 then down else if f.rc = 2#2 then up else chop))

/-- FLD1 (47 R751). -/
def fld1Op : M Unit := do
  startFlags
  pushFp fpOne

/-- FLDZ (47 R760). -/
def fldzOp : M Unit := do
  startFlags
  pushFp (fpZero false)

/-- FLD1 (47 R751). -/
def execFld1 (s : State) : Result := run (fpuReg .fld1 fld1Op) s
/-- FLDZ (47 R760). -/
def execFldz (s : State) : Result := run (fpuReg .fldz fldzOp) s
/-- FLDL2E (47 R755). -/
def execFldl2e (s : State) : Result :=
  run (fpuReg .fldl2e (constOp 0x3FFF#15 0xB8AA3B295C17F0BC#64 0xB8AA3B295C17F0BB#64 0xB8AA3B295C17F0BC#64
    0xB8AA3B295C17F0BB#64)) s
/-- FLDL2T (47 R756). -/
def execFldl2t (s : State) : Result :=
  run (fpuReg .fldl2t (constOp 0x4000#15 0xD49A784BCD1B8AFE#64 0xD49A784BCD1B8AFE#64 0xD49A784BCD1B8AFF#64
    0xD49A784BCD1B8AFE#64)) s
/-- FLDLG2 (47 R757). -/
def execFldlg2 (s : State) : Result :=
  run (fpuReg .fldlg2 (constOp 0x3FFD#15 0x9A209A84FBCFF799#64 0x9A209A84FBCFF798#64 0x9A209A84FBCFF799#64
    0x9A209A84FBCFF798#64)) s
/-- FLDLN2 (47 R758). -/
def execFldln2 (s : State) : Result :=
  run (fpuReg .fldln2 (constOp 0x3FFE#15 0xB17217F7D1CF79AC#64 0xB17217F7D1CF79AB#64 0xB17217F7D1CF79AC#64
    0xB17217F7D1CF79AB#64)) s
/-- FLDPI (47 R759). -/
def execFldpi (s : State) : Result :=
  run (fpuReg .fldpi (constOp 0x4000#15 0xC90FDAA22168C235#64 0xC90FDAA22168C234#64 0xC90FDAA22168C235#64
    0xC90FDAA22168C234#64)) s

/-! Stores. -/

/-- Store an image of `n` bytes, then pop `pops` times. -/
def storePop (m : Mem) (n align v pops : Nat) : M Unit := do
  fpStore m n align v
  onFpu fun f => popTimes pops f

/-- Store ST in single or double precision (48 R805). Nothing is stored or popped when an unmasked exception stops it. C1 is 0
after an SNaN or an unsupported ST, which raises an invalid operation that is no stack fault, masked or not: R805 does not give it.
DESIGN CHOICE (log entry 49). -/
def storeReal (f : FpFormat) (m : Mem) (pops : Nat) : M Unit := do
  startFlags
  let p ← getFpu
  let put (v : Nat) : M Unit := storePop m f.bytes f.bytes v pops
  let x := p.st 0
  let go : M Unit := do
    let d := deliverValue f p.rc (p.masked .oe) (p.masked .ue) true (fpVal x)
    applyFlags d
    match f.imageOf d.out with
    | some v => put v
    | none => pure ()
  if p.isEmpty 0 then do
    if ← stackFault false then put f.indefinite else pure ()
  else if fpIsBad x then do
    if ← raiseFp .ie then put (f.chop (nanResult x x)) else pure ()
  else if fpIsNan x || fpIsInf x || fpIsZero x then put (f.chop x)
  else if fpClass x = .denormal then do
    if ← raiseFp .de then go else pure ()
  else go

/-- FST and FSTP to memory in single or double precision. -/
def fstRealOp (i : Instr) (f : FpFormat) (m : Mem) (pops : Nat) : M Unit :=
  fpuOp i (some m) (fpProbe m f.bytes f.bytes) fun _ => storeReal f m pops

/-- FST ST(k) and FSTP ST(k). -/
def fstStOp (k : StIdx) (pops : Nat) : M Unit := do
  startFlags
  let f ← getFpu
  if f.isEmpty 0 then do
    if ← stackFault false then onFpu fun f => popTimes pops (f.putSt k fpIndefinite) else pure ()
  else onFpu fun f => popTimes pops (f.putSt k (f.st 0))

/-- FSTP m80real (48 R808): the 80 bits unchanged. -/
def storeExt (m : Mem) : M Unit := do
  startFlags
  let f ← getFpu
  if f.isEmpty 0 then do
    if ← stackFault false then storePop m 10 8 fpIndefinite.toNat 1 else pure ()
  else storePop m 10 8 (f.st 0).toNat 1

/-- FST (48 R805). -/
def fstOp (f : FStForm) : M Unit :=
  match f with
  | .m32 m => fstRealOp (.fst f) .single m 0
  | .m64 m => fstRealOp (.fst f) .double m 0
  | .st k => fpuReg (.fst f) (fstStOp k 0)

/-- FST (48 R805). -/
def execFst (f : FStForm) (s : State) : Result := run (fstOp f) s

/-- FSTP (48 R808). -/
def fstpOp (f : FLdSt) : M Unit :=
  match f with
  | .m32 m => fstRealOp (.fstp f) .single m 1
  | .m64 m => fstRealOp (.fstp f) .double m 1
  | .m80 m => fpuOp (.fstp f) (some m) (fpProbe m 10 8) fun _ => storeExt m
  | .st k => fpuReg (.fstp f) (fstStOp k 1)

/-- FSTP (48 R808). -/
def execFstp (f : FLdSt) (s : State) : Result := run (fstpOp f) s

/-- Store ST converted to an integer (46 R706, R728, R729): `fits` is the range of the rounded value, `image` its image,
`bad` the indefinite. C1 is 0 after any invalid operation, a stack fault or not. DESIGN CHOICE (log entry 49). -/
def storeInteger (fits : Int → Bool) (image : Bool → Int → Nat) (bad : Nat) (put : Nat → M Unit) : M Unit := do
  startFlags
  let f ← getFpu
  let x := f.st 0
  let r := fpToInt f.rc x
  if f.isEmpty 0 then do
    if ← stackFault false then put bad else pure ()
  else if fpIsBad x || fpIsNan x || fpIsInf x || !fits (r.int (fpSign x)) then do
    if ← raiseFp .ie then put bad else pure ()
  else do
    noteRounding r
    put (image (fpSign x) (r.int (fpSign x)))

/-- Is an integer representable in `n` bytes? -/
def intFits (n : Nat) (v : Int) : Bool := decide (-(2 ^ (8 * n - 1) : Int) ≤ v) && decide (v < 2 ^ (8 * n - 1))

/-- FIST and FISTP. -/
def fistOp (i : Instr) (n : Nat) (m : Mem) (pops : Nat) : M Unit :=
  fpuOp i (some m) (fpProbe m n n) fun _ =>
    storeInteger (intFits n) (fun _ v => (BitVec.ofInt (8 * n) v).toNat) (2 ^ (8 * n - 1))
      fun v => storePop m n n v pops

/-- FIST (46 R728). -/
def execFist (f : FInt) (s : State) : Result := run (fistOp (.fist f) f.bytes f.mem 0) s
/-- FISTP (46 R729). -/
def execFistp (f : FIntL) (s : State) : Result := run (fistOp (.fistp f) f.bytes f.mem 1) s

/-- FBSTP (46 R706). -/
def fbstpOp (m : Mem) : M Unit :=
  fpuOp (.fbstp m) (some m) (fpProbe m 10 8) fun _ =>
    storeInteger (fun v => decide (v.natAbs < 10 ^ 18))
      (fun neg v => (if neg then 2 ^ 79 else 0) + bcdPack v.natAbs 18) bcdIndefinite fun v => storePop m 10 8 v 1

/-- FBSTP (46 R706). -/
def execFbstp (m : Mem) (s : State) : Result := run (fbstpOp m) s

/-! The stack. -/

/-- FXCH (48 R820). -/
def fxchOp (k : StIdx) : M Unit := do
  startFlags
  let f ← getFpu
  let a := if f.isEmpty 0 then fpIndefinite else f.st 0
  let b := if f.isEmpty k then fpIndefinite else f.st k
  if f.isEmpty 0 || f.isEmpty k then do
    if ← stackFault false then onFpu fun g => (g.putSt k a).putSt 0 b else pure ()
  else onFpu fun g => (g.putSt k a).putSt 0 b

/-- FXCH (48 R820). -/
def execFxch (k : StIdx) (s : State) : Result := run (fpuReg (.fxch k) (fxchOp k)) s

/-- FDECSTP (46 R713). -/
def fdecstpOp : M Unit := do
  startFlags
  onFpu fun f => f.setTop (f.top - 1)

/-- FINCSTP (46 R726). -/
def fincstpOp : M Unit := do
  startFlags
  onFpu fun f => f.setTop (f.top + 1)

/-- FDECSTP (46 R713). -/
def execFdecstp (s : State) : Result := run (fpuReg .fdecstp fdecstpOp) s
/-- FINCSTP (46 R726). -/
def execFincstp (s : State) : Result := run (fpuReg .fincstp fincstpOp) s

/-- FFREE (46 R718): the condition codes stay (45 R669, D40). -/
def execFfree (k : StIdx) (s : State) : Result := run (fpuReg (.ffree k) (onFpu fun f => f.free k)) s

end Sys2Proof.Machine
end

