-- ==== Sys2Proof/Machine/FpuControl.lean ====
section
/-!
DEFINITION. The FPU control instructions and WAIT (spec/10_state.md R55; spec/46_fpu_f2xm1_to_fisubr.md R708, R727;
spec/47_fpu_fld_to_frstor.md R752 to R754, R763 to R769, R775; spec/48_fpu_fsave_to_fyl2xp1.md R800, R806, R807, R809, R818;
spec/45_fpu_common.md R692). They leave the error pointers and, where the listing says undefined, the condition codes
(D40).
-/
namespace Sys2Proof.Machine
open Sys2Proof

/-- WAIT (44 R623). -/
def execWait (s : State) : Result := run waitOp s
/-- FWAIT (48 R818). -/
def execFwait (s : State) : Result := run waitOp s

/-- A wait form: WAIT, then the no-wait instruction, which starts one byte later (46 R708). DEDUCED (log entry 36). -/
def waitThen (m : M Unit) (s : State) : Result :=
  match waitOp s with
  | .error e t => failure s e t
  | .ok _ t => run m { t with insn := { t.insn with start := t.insn.start + 1#32 } }

/-- A no-wait control instruction: #NM only (R667). -/
def noWait (m : M Unit) : M Unit := do
  needFpu
  m

/-- A waiting control instruction. -/
def waiting (m : M Unit) : M Unit := do
  needFpu
  fpuPending
  m

/-- FNCLEX (47 R763). -/
def Fpu.clearExceptions (f : Fpu) : Fpu :=
  { f with status :=
      { f.status with ie := false, de := false, ze := false, oe := false, ue := false, pe := false, sf := false } }

/-- FNCLEX (47 R763). -/
def fnclexOp : M Unit := noWait (onFpu Fpu.clearExceptions)

/-- FNCLEX (47 R763). -/
def execFnclex (s : State) : Result := run fnclexOp s
/-- FCLEX (46 R708). -/
def execFclex (s : State) : Result := waitThen fnclexOp s

/-- The state FNINIT leaves (47 R764): the data registers keep their contents. -/
def Fpu.initialise (f : Fpu) : Fpu := { Fpu.init with regs := f.regs }

/-- FNINIT (47 R764). -/
def fninitOp : M Unit := noWait (onFpu Fpu.initialise)

/-- FNINIT (47 R764). -/
def execFninit (s : State) : Result := run fninitOp s
/-- FINIT (46 R727). -/
def execFinit (s : State) : Result := waitThen fninitOp s

/-- FNOP (47 R765): the instruction pointers and the opcode are recorded, the data pointer stays. -/
def fnopOp : M Unit :=
  waiting (modify fun s => s.onFpu fun f => { f with fcs := s.seg.cs.sel, fip := s.insn.start, fop := fopOf .fnop })

/-- FNOP (47 R765). -/
def execFnop (s : State) : Result := run fnopOp s

/-- FNENI, FNDISI, FNSETPM (45 R692): the #NM check and nothing else. -/
def execFpuNop (_ : FLegacy) (s : State) : Result := run (noWait (pure ())) s

/-- FLDCW (47 R752). -/
def fldcwOp (m : Mem) : M Unit :=
  waiting do
    let v ← readMemN m 2 2
    onFpu fun f => { f with cw := BitVec.ofNat 16 v }

/-- FLDCW (47 R752). -/
def execFldcw (m : Mem) (s : State) : Result := run (fldcwOp m) s

/-- FNSTCW (47 R767). -/
def fnstcwOp (m : Mem) : M Unit :=
  noWait do
    let f ← getFpu
    fpStore m 2 2 f.cw.toNat

/-- FNSTCW (47 R767). -/
def execFnstcw (m : Mem) (s : State) : Result := run (fnstcwOp m) s
/-- FSTCW (48 R806). -/
def execFstcw (m : Mem) (s : State) : Result := waitThen (fnstcwOp m) s

/-- FNSTSW (47 R769). -/
def fnstswOp (f : FSwForm) : M Unit :=
  noWait do
    let p ← getFpu
    match f with
    | .mem m => fpStore m 2 2 p.sw.toNat
    | .ax => setReg .word .eax p.sw

/-- FNSTSW (47 R769). -/
def execFnstsw (f : FSwForm) (s : State) : Result := run (fnstswOp f) s
/-- FSTSW (48 R809). -/
def execFstsw (f : FSwForm) (s : State) : Result := waitThen (fnstswOp f) s

/-! Environment and state images (10_state.md R53, R55; 47 R753, R754, R768). -/

/-- The stored tag of a physical register (10_state.md R53). -/
def Fpu.tag (f : Fpu) (n : Fin 8) : BitVec 2 :=
  if f.empty.get n then 3#2
  else
    match fpClass (f.regs.get n) with
    | .zero => 1#2
    | .normal => 0#2
    | _ => 2#2

/-- The stored tag word. -/
def Fpu.tagWord (f : Fpu) : Word16 :=
  f.tag 7 ++ f.tag 6 ++ f.tag 5 ++ f.tag 4 ++ f.tag 3 ++ f.tag 2 ++ f.tag 1 ++ f.tag 0

/-- A selector and offset as a linear address of the Real formats. -/
def realLinear (sel : Word16) (off : Word32) : Word32 := sel.setWidth 32 * 16#32 + off

/-- The seven items of an environment image (10_state.md R55); reserved bits are 0 (47 R768). -/
def Fpu.envItems (f : Fpu) (os : Size) (prot : Bool) : List Nat :=
  let i := realLinear f.fcs f.fip
  let d := realLinear f.fds f.fdp
  [f.cw.toNat, f.sw.toNat, f.tagWord.toNat] ++
    match os, prot with
    | .s32, true => [f.fip.toNat, f.fcs.toNat + f.fop.toNat * 2 ^ 16, f.fdp.toNat, f.fds.toNat]
    | .s32, false =>
      [(i.extractLsb' 0 16).toNat, f.fop.toNat + (i.extractLsb' 16 16).toNat * 2 ^ 12,
       (d.extractLsb' 0 16).toNat, (d.extractLsb' 16 16).toNat * 2 ^ 12]
    | .s16, true => [(f.fip.extractLsb' 0 16).toNat, f.fcs.toNat, (f.fdp.extractLsb' 0 16).toNat, f.fds.toNat]
    | .s16, false =>
      [(i.extractLsb' 0 16).toNat, f.fop.toNat + (i.extractLsb' 16 4).toNat * 2 ^ 12,
       (d.extractLsb' 0 16).toNat, (d.extractLsb' 16 4).toNat * 2 ^ 12]

/-- Items of `w` bits side by side, the first lowest. -/
def joinItems (w : Nat) : List Nat → Nat
  | [] => 0
  | v :: t => v + 2 ^ w * joinItems w t

/-- The bytes of an environment image: 14 or 28. -/
def envBytes (os : Size) : Nat := 7 * os.bytes

/-- The eight registers in stack order. -/
def Fpu.stackImage (f : Fpu) : Nat :=
  joinItems 80 [(f.st 0).toNat, (f.st 1).toNat, (f.st 2).toNat, (f.st 3).toNat, (f.st 4).toNat, (f.st 5).toNat,
    (f.st 6).toNat, (f.st 7).toNat]

/-- The environment image. -/
def Fpu.envImage (f : Fpu) (os : Size) (prot : Bool) : Nat := joinItems os.bits (f.envItems os prot)

/-- The state image (48 R800). -/
def Fpu.stateImage (f : Fpu) (os : Size) (prot : Bool) : Nat :=
  f.envImage os prot + 2 ^ (8 * envBytes os) * f.stackImage

/-- All six exceptions masked (47 R768). -/
def Fpu.maskAll (f : Fpu) : Fpu := { f with cw := f.cw ||| 0x3F#16 }

/-- FNSTENV (47 R768). -/
def fnstenvOp (os : Size) (m : Mem) : M Unit :=
  noWait do
    let s ← get
    fpStore m (envBytes os) os.bytes (s.fpu.envImage os s.prot)
    onFpu Fpu.maskAll

/-- FNSTENV (47 R768). -/
def execFnstenv (os : Size) (m : Mem) (s : State) : Result := run (fnstenvOp os m) s
/-- FSTENV (48 R807). -/
def execFstenv (os : Size) (m : Mem) (s : State) : Result := waitThen (fnstenvOp os m) s

/-- FNSAVE (47 R766): the image, then FNINIT. -/
def fnsaveOp (os : Size) (m : Mem) : M Unit :=
  noWait do
    let s ← get
    fpStore m (envBytes os + 80) os.bytes (s.fpu.stateImage os s.prot)
    onFpu Fpu.initialise

/-- FNSAVE (47 R766). -/
def execFnsave (os : Size) (m : Mem) (s : State) : Result := run (fnsaveOp os m) s
/-- FSAVE (48 R800). -/
def execFsave (os : Size) (m : Mem) (s : State) : Result := waitThen (fnsaveOp os m) s

/-- Item `k` of an image whose items have `w` bits. -/
def imageItem (w v k : Nat) : Word32 := BitVec.ofNat 32 (v / 2 ^ (w * k) % 2 ^ w)

/-- The error pointers of an image (47 R754). -/
def Fpu.loadPointers (f : Fpu) (os : Size) (prot : Bool) (v : Nat) : Fpu :=
  let i (k : Nat) : Word32 := imageItem os.bits v k
  match os, prot with
  | .s32, true =>
    { f with fip := i 3, fcs := (i 4).extractLsb' 0 16, fop := (i 4).extractLsb' 16 11,
             fdp := i 5, fds := (i 6).extractLsb' 0 16 }
  | .s32, false =>
    { f with fip := (i 4).extractLsb' 12 16 ++ (i 3).extractLsb' 0 16, fcs := 0#16, fop := (i 4).extractLsb' 0 11,
             fdp := (i 6).extractLsb' 12 16 ++ (i 5).extractLsb' 0 16, fds := 0#16 }
  | .s16, true =>
    { f with fip := i 3, fcs := (i 4).extractLsb' 0 16, fdp := i 5, fds := (i 6).extractLsb' 0 16 }
  | .s16, false =>
    { f with fip := ((i 4).extractLsb' 12 4 ++ (i 3).extractLsb' 0 16 : BitVec 20).setWidth 32, fcs := 0#16,
             fop := (i 4).extractLsb' 0 11,
             fdp := ((i 6).extractLsb' 12 4 ++ (i 5).extractLsb' 0 16 : BitVec 20).setWidth 32, fds := 0#16 }

/-- The tags of an image: a register is empty iff its tag is 11 (10_state.md R53). -/
def tagsEmpty (t : Word32) : Vector Bool 8 := Vector.ofFn fun n : Fin 8 => t.extractLsb' (2 * n.val) 2 == 3#2

/-- The environment of an image (47 R753). -/
def Fpu.loadEnv (f : Fpu) (os : Size) (prot : Bool) (v : Nat) : Fpu :=
  let i (k : Nat) : Word32 := imageItem os.bits v k
  let g : Fpu :=
    { f with cw := (i 0).extractLsb' 0 16, status := .ofWord ((i 1).extractLsb' 0 16), empty := tagsEmpty (i 2) }
  g.loadPointers os prot v

/-- FLDENV (47 R753). -/
def fldenvOp (os : Size) (m : Mem) : M Unit :=
  waiting do
    let s ← get
    let v ← readMemN m (envBytes os) os.bytes
    onFpu fun f => f.loadEnv os s.prot v

/-- FLDENV (47 R753). -/
def execFldenv (os : Size) (m : Mem) (s : State) : Result := run (fldenvOp os m) s

/-- The registers of a state image, in stack order from the TOP just loaded (47 R775). -/
def Fpu.loadStack (f : Fpu) (v : Nat) : Fpu :=
  { f with regs := Vector.ofFn fun n : Fin 8 => BitVec.ofNat 80 (v / 2 ^ (80 * (n - f.top).val)) }

/-- FRSTOR (47 R775). -/
def frstorOp (os : Size) (m : Mem) : M Unit :=
  waiting do
    let s ← get
    let v ← readMemN m (envBytes os + 80) os.bytes
    onFpu fun f => (f.loadEnv os s.prot v).loadStack (v / 2 ^ (8 * envBytes os))

/-- FRSTOR (47 R775). -/
def execFrstor (os : Size) (m : Mem) (s : State) : Result := run (frstorOp os m) s

end Sys2Proof.Machine
end

