-- ==== Sys2Proof/Machine/FpuTrans.lean ====
section
/-!
DEFINITION. The transcendental instructions (spec/45_fpu_common.md R670, R675; spec/46_fpu_f2xm1_to_fisubr.md R701, R712;
spec/47_fpu_fld_to_frstor.md R770, R773; spec/48_fpu_fsave_to_fyl2xp1.md R802, R803, R822, R823).
-/
namespace Sys2Proof.Machine
open Sys2Proof

/-- Set the precision flag and C1 of an inexact result. -/
def noteInexact (inexact up : Bool) : M Unit :=
  onFpu fun f => (f.flagIf .pe inexact).setC1 (inexact && up)

/-- Underflow of a function's result `v` (R659, R660): a tiny value, or a zero that is inexact. Unmasked, the tiny value
is scaled; that of an inexact zero is free. -/
def deliverTiny (r : FpuResult) (put : Ext80 → M Unit) : M Unit := do
  let f ← getFpu
  if f.masked .ue then do
    onFpu fun f => f.flagIf .ue r.inexact
    noteInexact r.inexact r.roundUp
    put r.value
  else do
    onFpu fun f => f.flag .ue
    noteInexact r.inexact r.roundUp
    if fpIsZero r.value then put (← draw 80)
    else put (fpOfExact { fpVal r.value with e := (fpVal r.value).e + 24576 })

/-- Overflow of a function's result (R659, R660): masked, the value RC selects; unmasked, a free one. -/
def deliverHuge (r : FpuResult) (put : Ext80 → M Unit) : M Unit := do
  let f ← getFpu
  onFpu fun f => f.flag .oe
  if f.masked .oe then do
    let o := overflowOut (FpFormat.ext 64) f.rc (fpSign r.value)
    noteInexact true o.isInf
    putOut o put
  else do
    noteInexact r.inexact r.roundUp
    put (← draw 80)

/-- An answer held to what the spec states of it (R675, 93_implementation_defined.md U54): a value with the property `p` is taken
as it is, another one is replaced by `d`, which has it. DESIGN CHOICE (log entry 22). -/
def held (r : FpuResult) (p : Ext80 → Bool) (d : Ext80) : FpuResult :=
  if p r.value then r else { r with value := d }

/-- 2^x - 1, a real number. -/
def f2xm1 (x : Ext80) (rc : BitVec 2) : FpuResult := held (Config.f2xm1 x rc) fpIsReal x
/-- The sine, at most 1 in magnitude. That of a denormal or very small operand is the operand to within rounding (48 R802): it has
its sign and is within a unit in its last place. DESIGN CHOICE (log entry 22): very small is below 2^-32. -/
def fsin (x : Ext80) (rc : BitVec 2) : FpuResult :=
  if fpVerySmall x then held (Config.fsin x rc) (fpWithinUnit x) x else held (Config.fsin x rc) fpUpToOne fpOne
/-- The cosine, at most 1 in magnitude. -/
def fcos (x : Ext80) (rc : BitVec 2) : FpuResult := held (Config.fcos x rc) fpUpToOne fpOne
/-- The tangent, a real number. -/
def ftan (x : Ext80) (rc : BitVec 2) : FpuResult := held (Config.ftan x rc) fpIsReal x
/-- The arctangent of y / x: it has the sign of y and is below pi (47 R770). -/
def fpatan (x y : Ext80) (rc : BitVec 2) : FpuResult :=
  held (Config.fpatan x y rc) (fun v => fpBelowPi v && fpSign v == fpSign y) (fpZero (fpSign y))
/-- y * log2 x: a real number, or an infinity for one beyond the range. -/
def fyl2x (x y : Ext80) (rc : BitVec 2) : FpuResult :=
  held (Config.fyl2x x y rc) (fun v => fpIsReal v || fpIsInf v) (fpZero false)
/-- y * log2 (x + 1), a real number. -/
def fyl2xp1 (x y : Ext80) (rc : BitVec 2) : FpuResult := held (Config.fyl2xp1 x y rc) fpIsReal (fpZero false)

/-- Deliver what a function of Config answers (R675): its value by R659 with p = 64. DESIGN CHOICE (log entry 22). -/
def deliverFunction (r : FpuResult) (put : Ext80 → M Unit) : M Unit :=
  if fpClass r.value = .denormal ∨ (fpIsZero r.value ∧ r.inexact) then deliverTiny r put
  else if fpIsInf r.value then deliverHuge r put
  else do
    noteInexact r.inexact r.roundUp
    put r.value

/-- F2XM1 (46 R701). -/
def f2xm1Op : M Unit := do
  startFlags
  unaryFp (fun _ => false) (putSt 0) fun x => do
    let f ← getFpu
    if fpIsZero x then pure ()
    else if fpBelowOne x then deliverFunction (f2xm1 x f.rc) (putSt 0)
    else undefinedResult (putSt 0)

/-- F2XM1 (46 R701). -/
def execF2xm1 (s : State) : Result := run (fpuReg .f2xm1 f2xm1Op) s

/-- C2 of a trigonometric instruction whose operand is in range. -/
def trigDone : M Unit := onFpu fun f => f.setC2 false

/-- An operand out of range (R670): C2 is set, C1 is undefined. -/
def trigOut : M Unit := do
  let d ← draw 1
  onFpu fun f => (f.setC2 true).setC1 (d.getLsbD 0)

/-- FSIN and FCOS: `zero` is the exact result for a zero, `g` the function. -/
def trigOp (zero : Ext80 → Ext80) (g : Ext80 → BitVec 2 → FpuResult) : M Unit := do
  startCodes false
  unaryFp fpIsInf (putSt 0) fun x =>
    if fpInTrigRange x then do
      trigDone
      let f ← getFpu
      if fpIsZero x then putSt 0 (zero x) else deliverFunction (g x f.rc) (putSt 0)
    else trigOut

/-- FCOS (46 R712). -/
def execFcos (s : State) : Result := run (fpuReg .fcos (trigOp (fun _ => fpOne) fcos)) s
/-- FSIN (48 R802). -/
def execFsin (s : State) : Result := run (fpuReg .fsin (trigOp (fun x => x) fsin)) s

/-- FPTAN and FSINCOS: `g` delivers and pushes for a value in range that is not zero. -/
def trigPairOp (g : Ext80 → M Unit) : M Unit := do
  startCodes false
  pushPairFp <|
    unaryFp fpIsInf (fun v => putPair v v) fun x =>
      if fpInTrigRange x then do
        trigDone
        if fpIsZero x then putPair x fpOne else g x
      else trigOut

/-- The tangent, then 1.0 (47 R773). -/
def fptanGo (x : Ext80) : M Unit := do
  let f ← getFpu
  deliverFunction (ftan x f.rc) fun v => putPair v fpOne

/-- The sine, then the cosine (48 R803): C1 is the cosine's. -/
def fsincosGo (x : Ext80) : M Unit := do
  let f ← getFpu
  deliverFunction (fsin x f.rc) (putSt 0)
  deliverFunction (fcos x f.rc) fun v => onFpu fun f => f.push v

/-- FPTAN (47 R773). -/
def execFptan (s : State) : Result := run (fpuReg .fptan (trigPairOp fptanGo)) s
/-- FSINCOS (48 R803). -/
def execFsincos (s : State) : Result := run (fpuReg .fsincos (trigPairOp fsincosGo)) s

/-- The arctangent of the zero and infinity cases, in quarters of pi (47 R770). -/
def patanQuarters (x y : Ext80) : Option Nat :=
  if fpIsZero y || (fpIsInf x && !fpIsInf y) then some (if fpSign x then 4 else 0)
  else if fpIsInf y then some (if fpIsInf x then (if fpSign x then 3 else 1) else 2)
  else if fpIsZero x then some 2
  else none

/-- `k` quarters of pi, for k from 1 to 4: the first 98 bits of pi, with more behind them. -/
def piQuarters (neg : Bool) (k : Nat) : Exact :=
  { neg := neg, m := k * 0x3243F6A8885A308D313198A2E, e := -98, sticky := true }

/-- FPATAN (47 R770): x = ST, y = ST(1). DESIGN CHOICE (log entry 22). -/
def fpatanOp : M Unit := do
  startFlags
  let a ← stOperand 0
  let b ← stOperand 1
  binaryFp a b (fun _ _ => false) (putPop 1) fun x y => do
    let f ← getFpu
    match patanQuarters x y with
    | some 0 => putPop 1 (fpZero (fpSign y))
    | some k => deliverTo 64 (piQuarters (fpSign y) k) (putPop 1)
    | none => deliverFunction (fpatan x y f.rc) (putPop 1)

/-- FPATAN (47 R770). -/
def execFpatan (s : State) : Result := run (fpuReg .fpatan fpatanOp) s

/-- The invalid forms of FYL2X (48 R822): a negative ST, beside a quiet NaN too, by the order of the listing, and the forms of two
zeros, of zero and infinity, and of 1 and infinity. DEDUCED (log entry 25). -/
def yl2xInvalid (x y : Ext80) : Bool :=
  fpIsNegative x || (fpIsZero x && fpIsZero y) || (fpIsInf x && fpIsZero y) || (x == fpOne && fpIsInf y)

/-- FYL2X on operands that are no NaNs and not invalid (48 R822). -/
def yl2xGo (x y : Ext80) : M Unit := do
  let f ← getFpu
  if fpIsZero x then do
    if ← raiseFp .ze then putPop 1 (fpInf (!fpSign y)) else pure ()
  else if fpIsInf x then putPop 1 (fpInf (fpSign y))
  else if fpIsInf y then putPop 1 (fpInf (if fpBelowOne x then !fpSign y else fpSign y))
  else if x = fpOne then putPop 1 (fpZero (fpSign y))
  else deliverFunction (fyl2x x y f.rc) (putPop 1)

/-- FYL2X (48 R822): x = ST, y = ST(1). -/
def fyl2xOp : M Unit := do
  startFlags
  let a ← stOperand 0
  let b ← stOperand 1
  binaryFp a b yl2xInvalid (putPop 1) yl2xGo

/-- FYL2X (48 R822). -/
def execFyl2x (s : State) : Result := run (fpuReg .fyl2x fyl2xOp) s

/-- Is a finite value between -(1 - sqrt 2 / 2) and sqrt 2 - 1 (48 R823)? With |x| = m / d: for x >= 0, (m + d)^2 is at
most 2 d^2; for x < 0, 2 (d - m)^2 is at least d^2. -/
def yl2xp1InRange (x : Ext80) : Bool :=
  let v := fpVal x
  let d := 2 ^ (-v.e).toNat
  fpIsZero x ||
    (decide (v.e < 0) && decide (v.m < d) &&
      (if v.neg then decide (d * d ≤ 2 * ((d - v.m) * (d - v.m))) else decide ((v.m + d) * (v.m + d) ≤ 2 * (d * d))))

/-- FYL2XP1 on operands that are no NaNs (48 R823). The sign of the zero that ST = 0 gives is free. -/
def yl2xp1Go (x y : Ext80) : M Unit := do
  let f ← getFpu
  if fpIsInf x || fpIsInf y || !yl2xp1InRange x then undefinedResult (putPop 1)
  else if fpIsZero x then do
    let d ← draw 1
    putPop 1 (fpZero (d.getLsbD 0))
  else deliverFunction (fyl2xp1 x y f.rc) (putPop 1)

/-- FYL2XP1 (48 R823): x = ST, y = ST(1). -/
def fyl2xp1Op : M Unit := do
  startFlags
  let a ← stOperand 0
  let b ← stOperand 1
  binaryFp a b (fun _ _ => false) (putPop 1) yl2xp1Go

/-- FYL2XP1 (48 R823). -/
def execFyl2xp1 (s : State) : Result := run (fpuReg .fyl2xp1 fyl2xp1Op) s

end Sys2Proof.Machine
end

