-- ==== Sys2Proof/Machine/Prefixes.lean ====
section
/-!
DEFINITION. The prefixes (spec/30_encoding.md R304 to R307; spec/42_int_j_to_l.md R546; spec/43_int_m_to_r.md R584).
A prefix changes the latch of the instruction in flight; the last segment override and the last of F2 and F3 win
(spec/92_eei_decisions.md D19).
-/
namespace Sys2Proof.Machine
open Sys2Proof

/-- LOCK (42 R546): the accesses of the instruction are locked. -/
def execLockPrefix (s : State) : Result := runPrefix (fun i => { i with lock := true }) s
/-- REPNE (43 R584). -/
def execRepnePrefix (s : State) : Result := runPrefix (fun i => { i with rep := some .repne }) s
/-- REP and REPE (43 R584). -/
def execRepPrefix (s : State) : Result := runPrefix (fun i => { i with rep := some .repe }) s
/-- Segment override ES (30 R304). -/
def execSegEs (s : State) : Result := runPrefix (fun i => { i with seg := some .es }) s
/-- Segment override CS (30 R304). -/
def execSegCs (s : State) : Result := runPrefix (fun i => { i with seg := some .cs }) s
/-- Segment override SS (30 R304). -/
def execSegSs (s : State) : Result := runPrefix (fun i => { i with seg := some .ss }) s
/-- Segment override DS (30 R304). -/
def execSegDs (s : State) : Result := runPrefix (fun i => { i with seg := some .ds }) s
/-- Segment override FS (30 R304). -/
def execSegFs (s : State) : Result := runPrefix (fun i => { i with seg := some .fs }) s
/-- Segment override GS (30 R304). -/
def execSegGs (s : State) : Result := runPrefix (fun i => { i with seg := some .gs }) s
/-- Operand size (30 R305): the decoder has read the sizes it gives into the instruction. -/
def execOpSizePrefix (s : State) : Result := runPrefix (fun i => { i with opSize := true }) s
/-- Address size (30 R305). -/
def execAddrSizePrefix (s : State) : Result := runPrefix (fun i => { i with addrSize := true }) s

end Sys2Proof.Machine
end

