-- ==== Sys2Proof/Machine/Special.lean ====
section
/-!
DEFINITION. MOV to and from the control, debug and test registers (spec/43_int_m_to_r.md R562; spec/10_state.md R31 to
R48, R71; spec/71_debug_and_test_registers.md R1085, R1100 to R1104).
-/
namespace Sys2Proof.Machine
open Sys2Proof

/-- A control register. -/
def State.readCr (s : State) : CReg → Word32
  | .cr0 => s.cr0
  | .cr2 => s.cr2
  | .cr3 => s.cr3

/-- CR0 as it is stored: reserved bits 0, ET 1 (10_state.md R31, R71; 92_eei_decisions.md D9). -/
def cr0Value (v : Word32) : Word32 := (v &&& 0xE005003F#32) ||| 0x10#32

/-- Is a CR0 value legal (10_state.md R32)? -/
def cr0Legal (v : Word32) : Bool := (!v.getLsbD 31 || v.getLsbD 0) && (v.getLsbD 30 || !v.getLsbD 29)

/-- Write a control register. -/
def writeCr (c : CReg) (v : Word32) : M Unit :=
  match c with
  | .cr0 => do
    check (cr0Legal v) (excGP 0#16)
    modify fun s => s.setCr0 (cr0Value v)
  | .cr2 => modify fun s => { s with cr2 := v }
  | .cr3 => loadCr3 v

/-- MOV from a control register (43 R562). -/
def movFromCrOp (r : Reg) (c : CReg) : M Unit := do
  needCpl0
  let s ← get
  setReg .dword r (s.readCr c)
  setStatus .undefined

/-- MOV from a control register (43 R562). -/
def execMovFromCr (r : Reg) (c : CReg) (s : State) : Result := run (movFromCrOp r c) s

/-- MOV to a control register (43 R562). -/
def movToCrOp (c : CReg) (r : Reg) : M Unit := do
  needCpl0
  let v ← getReg .dword r
  writeCr c v
  setStatus .undefined

/-- MOV to a control register (43 R562). -/
def execMovToCr (c : CReg) (r : Reg) (s : State) : Result := run (movToCrOp c r) s

/-- A debug register. -/
def DebugRegs.get (d : DebugRegs) : DReg → Word32
  | .dr0 => d.dr0
  | .dr1 => d.dr1
  | .dr2 => d.dr2
  | .dr3 => d.dr3
  | .dr6 => d.dr6
  | .dr7 => d.dr7

/-- Write a debug register; the reserved bits of DR6 and DR7 stay 0 (10_state.md R71). -/
def DebugRegs.put (d : DebugRegs) (r : DReg) (v : Word32) : DebugRegs :=
  match r with
  | .dr0 => { d with dr0 := v }
  | .dr1 => { d with dr1 := v }
  | .dr2 => { d with dr2 := v }
  | .dr3 => { d with dr3 := v }
  | .dr6 => { d with dr6 := v &&& 0x0000E00F#32 }
  | .dr7 => { d with dr7 := v &&& 0xFFFF23FF#32 }

/-- The general-detect fault (71 R1085): DR7.GD traps any access to a debug register; DR6 gets BD and the breakpoints whose
condition holds at this instruction (R1087). -/
def needNoGd : M Unit := do
  let s ← get
  check (!s.dr.dr7.getLsbD 13)
    (.exn 1#8 none (0x2000#32 ||| (s.dr.instrMatch (s.seg.cs.base + s.insn.start)).setWidth 32))

/-- MOV from a debug register (43 R562). -/
def movFromDrOp (r : Reg) (x : DReg) : M Unit := do
  needCpl0
  needNoGd
  let s ← get
  setReg .dword r (s.dr.get x)
  setStatus .undefined

/-- MOV from a debug register (43 R562). -/
def execMovFromDr (r : Reg) (x : DReg) (s : State) : Result := run (movFromDrOp r x) s

/-- MOV to a debug register (43 R562). -/
def movToDrOp (x : DReg) (r : Reg) : M Unit := do
  needCpl0
  needNoGd
  let v ← getReg .dword r
  modify fun s => { s with dr := s.dr.put x v }
  setStatus .undefined

/-- MOV to a debug register (43 R562). -/
def execMovToDr (x : DReg) (r : Reg) (s : State) : Result := run (movToDrOp x r) s

/-- A doubleword of a cache buffer. -/
def LineBuf.get (b : LineBuf) (i : BitVec 2) : Word32 :=
  if i = 0#2 then b.d0 else if i = 1#2 then b.d1 else if i = 2#2 then b.d2 else b.d3

/-- Replace a doubleword of a cache buffer. -/
def LineBuf.put (b : LineBuf) (i : BitVec 2) (v : Word32) : LineBuf :=
  if i = 0#2 then { b with d0 := v } else if i = 1#2 then { b with d1 := v }
  else if i = 2#2 then { b with d2 := v } else { b with d3 := v }

/-- The sixteen bytes of a cache buffer. -/
def LineBuf.line (b : LineBuf) : BitVec 128 := b.d3 ++ b.d2 ++ b.d1 ++ b.d0

/-- A line as a cache buffer. -/
def LineBuf.ofLine (l : BitVec 128) : LineBuf :=
  { d0 := l.extractLsb' 0 32, d1 := l.extractLsb' 32 32, d2 := l.extractLsb' 64 32, d3 := l.extractLsb' 96 32 }

/-- The three LRU bits as TR4 and TR7 show them: B2, B1, B0 (92_eei_decisions.md D55). -/
def Lru.bits (l : Lru) : BitVec 3 := BitVec.ofBool l.b2 ++ BitVec.ofBool l.b1 ++ BitVec.ofBool l.b0

/-- The way TR5's ENTRY SELECT names. -/
def entrySelect (tr5 : Word32) : BitVec 2 := tr5.extractLsb' 2 2
/-- The set TR5's SET SELECT names. -/
def setSelect (tr5 : Word32) : Nat := (tr5.extractLsb' 4 7).toNat

/-- Replace the test registers. -/
def State.setTest (s : State) (t : TestRegs) : State := { s with test := t }

/-- CONTROL = 01: write a line of the cache (71 R1102). DESIGN CHOICE (log entry 17). -/
def State.cacheTestWrite (s : State) (tr5 : Word32) : State :=
  let i := setSelect tr5
  let w := Way.ofBits (entrySelect tr5)
  let c := sparseGet .blank s.cache i
  let l : CacheLine := { valid := s.test.tr4.getLsbD 10, tag := s.test.tr4.extractLsb' 11 21, data := s.test.fill.line }
  s.putCacheSet i { c.put w l with lru := c.lru.touch w }

/-- TR4 after a cache test read (71 R1102). -/
def CacheSet.status (c : CacheSet) (w : Way) : Word32 :=
  (c.get w).tag ++ BitVec.ofBool (c.get w).valid ++ c.lru.bits ++ BitVec.ofBool c.i3.valid ++ BitVec.ofBool c.i2.valid
    ++ BitVec.ofBool c.i1.valid ++ BitVec.ofBool c.i0.valid ++ 0#3

/-- CONTROL = 10: read a line of the cache (71 R1102). DESIGN CHOICE (log entry 17). -/
def State.cacheTestRead (s : State) (tr5 : Word32) : State :=
  let c := sparseGet CacheSet.blank s.cache (setSelect tr5)
  let w := Way.ofBits (entrySelect tr5)
  { s.setTest { s.test with read := LineBuf.ofLine (c.get w).data, tr4 := c.status w } with bufferSpoiled := false }

/-- Writing TR5 performs an operation (71 R1102). -/
def State.writeTr5 (s : State) (v : Word32) : State :=
  let t := s.setTest { s.test with tr5 := v }
  match (v.extractLsb' 0 2).toNat with
  | 0 => t
  | 1 => t.cacheTestWrite v
  | 2 => t.cacheTestRead v
  | _ => t.flushCache

/-- What a pair of TR6 protection bits writes into a TLB entry; 00 and 11 are undefined (71 R1104). -/
def pairValue (b nb free : Bool) : Bool := if b == nb then free else b

/-- Does a TLB bit match a pair of TR6 protection bits (71 R1104)? -/
def pairMatch (b nb bit : Bool) : Bool := if b == nb then b else bit == b

/-- The command C = 0 of TR6: write a TLB entry (71 R1104). -/
def tlbTestWrite (v : Word32) : M Unit := do
  let u ← draw 3
  let s ← get
  let tr7 := s.test.tr7
  let c := s.tlbSetAt (tlbIndex v)
  let w := if tr7.getLsbD 4 then Way.ofBits (tr7.extractLsb' 2 2) else c.victim
  let e : TlbEntry :=
    { valid := v.getLsbD 11, tag := tlbTag v
      dirty := pairValue (v.getLsbD 10) (v.getLsbD 9) (u.getLsbD 2)
      user := pairValue (v.getLsbD 8) (v.getLsbD 7) (u.getLsbD 1)
      writable := pairValue (v.getLsbD 6) (v.getLsbD 5) (u.getLsbD 0)
      page := tr7.extractLsb' 12 20, pcd := tr7.getLsbD 11, pwt := tr7.getLsbD 10 }
  modify fun s => s.putTlbSet (tlbIndex v) { c.put w e with lru := c.lru.touch w }

/-- TR7 after a TLB lookup that hits (71 R1104). -/
def TlbSet.status (c : TlbSet) (w : Way) : Word32 :=
  let e := c.get w
  e.page ++ BitVec.ofBool e.pcd ++ BitVec.ofBool e.pwt ++ c.lru.bits ++ 1#3 ++ w.toBits ++ 0#2

/-- The command C = 1 of TR6: look a linear address up (71 R1104). After a miss TR7 is free but for PL and its reserved
bits. -/
def tlbTestLookup (v : Word32) : M Unit := do
  let s ← get
  let c := s.tlbSetAt (tlbIndex v)
  match c.matching (fun e => e.valid && e.tag == tlbTag v && pairMatch (v.getLsbD 10) (v.getLsbD 9) e.dirty
      && pairMatch (v.getLsbD 8) (v.getLsbD 7) e.user && pairMatch (v.getLsbD 6) (v.getLsbD 5) e.writable) with
  | [w] =>
    modify fun s =>
      (s.putTlbSet (tlbIndex v) { c with lru := c.lru.touch w }).setTest { s.test with tr7 := c.status w }
  | _ => do
    let u ← draw 32
    modify fun s => s.setTest { s.test with tr7 := u &&& 0xFFFFFF8C#32 }

/-- Writing TR6 performs an operation (71 R1104). -/
def writeTr6 (v : Word32) : M Unit := do
  modify fun s => s.setTest { s.test with tr6 := v &&& 0xFFFFFFE1#32 }
  if v.getLsbD 0 then tlbTestLookup v else tlbTestWrite v

/-- Read a test register (71 R1102): TR3 shows the read buffer, and is free unless TR5's CONTROL is 00 and no data reference has
been made since the buffer was loaded. -/
def readTr : TReg → M Word32
  | .tr3 => do
    let s ← get
    if s.test.tr5.extractLsb' 0 2 = 0#2 ∧ s.bufferSpoiled = false then pure (s.test.read.get (entrySelect s.test.tr5)) else draw 32
  | .tr4 => do pure (← get).test.tr4
  | .tr5 => do pure (← get).test.tr5
  | .tr6 => do pure (← get).test.tr6
  | .tr7 => do pure (← get).test.tr7

/-- Write a test register (71 R1102, R1104). -/
def writeTr (t : TReg) (v : Word32) : M Unit :=
  match t with
  | .tr3 => modify fun s => s.setTest { s.test with tr3 := v, fill := s.test.fill.put (entrySelect s.test.tr5) v }
  | .tr4 => modify fun s => s.setTest { s.test with tr4 := v &&& 0xFFFFFFF8#32 }
  | .tr5 => modify fun s => s.writeTr5 v
  | .tr6 => writeTr6 v
  | .tr7 => modify fun s => s.setTest { s.test with tr7 := v &&& 0xFFFFFF9C#32 }

/-- MOV from a test register (43 R562). -/
def movFromTrOp (r : Reg) (t : TReg) : M Unit := do
  needCpl0
  let v ← readTr t
  setReg .dword r v
  setStatus .undefined

/-- MOV from a test register (43 R562). -/
def execMovFromTr (r : Reg) (t : TReg) (s : State) : Result := run (movFromTrOp r t) s

/-- MOV to a test register (43 R562). -/
def movToTrOp (t : TReg) (r : Reg) : M Unit := do
  needCpl0
  let v ← getReg .dword r
  writeTr t v
  setStatus .undefined

/-- MOV to a test register (43 R562). -/
def execMovToTr (t : TReg) (r : Reg) (s : State) : Result := run (movToTrOp t r) s

end Sys2Proof.Machine
end

