-- ==== Sys2Proof/Machine/Strings.lean ====
section
/-!
DEFINITION. The string instructions and their repetition (spec/40_int_a_to_c.md R436; spec/41_int_d_to_i.md R460;
spec/42_int_j_to_l.md R547; spec/43_int_m_to_r.md R563, R572, R584; spec/44_int_s_to_x.md R605, R618).
One step of the machine runs one iteration; while iterations remain the instruction is run again from its first byte.
-/
namespace Sys2Proof.Machine
open Sys2Proof

/-- Lower the count register by one. -/
def countDown (as : Size) : M Unit :=
  modify fun s => s.setGpr { s.gpr with ecx := as.merge s.gpr.ecx (s.gpr.ecx - 1#32) }

/-- Run one iteration under the repeat prefix (43 R584). `cmp` says that ZF ends the loop (CMPS, SCAS). -/
def repeated (as : Size) (cmp : Bool) (body : M Unit) : M Unit := do
  let s ← get
  match s.insn.rep with
  | none => body
  | some p =>
    if as.trunc s.gpr.ecx = 0#32 then pure ()
    else do
      body
      countDown as
      let t ← get
      let stop := as.trunc t.gpr.ecx == 0#32 || (cmp && (match p with
        | .repe => !t.zf
        | .repne => t.zf))
      if stop then pure () else modify fun t => { t with insn := { t.insn with again := true } }

/-- CMPS (40 R436): the operand at (E)SI is checked and read first. DESIGN CHOICE (log entry 18). -/
def cmpsOp (w : Width) (as : Size) : M Unit := do
  let s ← get
  let a ← memRead as (s.segOr .ds) (s.srcIndex as) w.bytes w.bytes
  let b ← memRead as .es (s.dstIndex as) w.bytes w.bytes
  stepSrc as w.bytes
  stepDst as w.bytes
  setStatus (subFlags (BitVec.ofNat w.bits a) (BitVec.ofNat w.bits b) false).2

/-- INS (41 R460): every fault of the destination comes before the port is read. DEDUCED (log entry 18). -/
def insOp (w : Width) (as : Size) : M Unit := do
  let s ← get
  let port := s.gpr.edx.setWidth 16
  ioPermit port w.bytes
  memProbe as .es (s.dstIndex as) w.bytes w.bytes
  let v ← ioIn port w.bytes
  memWrite as .es (s.dstIndex as) w.bytes w.bytes v
  stepDst as w.bytes

/-- LODS (42 R547). -/
def lodsOp (w : Width) (as : Size) : M Unit := do
  let s ← get
  let v ← memRead as (s.segOr .ds) (s.srcIndex as) w.bytes w.bytes
  setReg w .eax (BitVec.ofNat w.bits v)
  stepSrc as w.bytes

/-- MOVS (43 R563): both segment checks come before the read. DEDUCED (log entry 18). -/
def movsOp (w : Width) (as : Size) : M Unit := do
  let s ← get
  let _ ← segCheck as (s.segOr .ds) (s.srcIndex as) w.bytes .read
  let _ ← segCheck as .es (s.dstIndex as) w.bytes .write
  let v ← memRead as (s.segOr .ds) (s.srcIndex as) w.bytes w.bytes
  memWrite as .es (s.dstIndex as) w.bytes w.bytes v
  stepSrc as w.bytes
  stepDst as w.bytes

/-- OUTS (43 R572). -/
def outsOp (w : Width) (as : Size) : M Unit := do
  let s ← get
  let port := s.gpr.edx.setWidth 16
  ioPermit port w.bytes
  let v ← memRead as (s.segOr .ds) (s.srcIndex as) w.bytes w.bytes
  ioOut port w.bytes v
  stepSrc as w.bytes

/-- SCAS (44 R605). -/
def scasOp (w : Width) (as : Size) : M Unit := do
  let s ← get
  let b ← memRead as .es (s.dstIndex as) w.bytes w.bytes
  stepDst as w.bytes
  setStatus (subFlags (s.gpr.read w .eax) (BitVec.ofNat w.bits b) false).2

/-- STOS (44 R618). -/
def stosOp (w : Width) (as : Size) : M Unit := do
  let s ← get
  memWrite as .es (s.dstIndex as) w.bytes w.bytes (s.gpr.read w .eax).toNat
  stepDst as w.bytes

/-- CMPSB (40 R436). -/
def execCmpsb (as : Size) (s : State) : Result := run (repeated as true (cmpsOp .byte as)) s
/-- CMPSW, CMPSD (40 R436). -/
def execCmpsw (os as : Size) (s : State) : Result := run (repeated as true (cmpsOp os.width as)) s
/-- INSB (41 R460). -/
def execInsb (as : Size) (s : State) : Result := run (repeated as false (insOp .byte as)) s
/-- INSW, INSD (41 R460). -/
def execInsw (os as : Size) (s : State) : Result := run (repeated as false (insOp os.width as)) s
/-- LODSB (42 R547). -/
def execLodsb (as : Size) (s : State) : Result := run (repeated as false (lodsOp .byte as)) s
/-- LODSW, LODSD (42 R547). -/
def execLodsw (os as : Size) (s : State) : Result := run (repeated as false (lodsOp os.width as)) s
/-- MOVSB (43 R563). -/
def execMovsb (as : Size) (s : State) : Result := run (repeated as false (movsOp .byte as)) s
/-- MOVSW, MOVSD (43 R563). -/
def execMovsw (os as : Size) (s : State) : Result := run (repeated as false (movsOp os.width as)) s
/-- OUTSB (43 R572). -/
def execOutsb (as : Size) (s : State) : Result := run (repeated as false (outsOp .byte as)) s
/-- OUTSW, OUTSD (43 R572). -/
def execOutsw (os as : Size) (s : State) : Result := run (repeated as false (outsOp os.width as)) s
/-- SCASB (44 R605). -/
def execScasb (as : Size) (s : State) : Result := run (repeated as true (scasOp .byte as)) s
/-- SCASW, SCASD (44 R605). -/
def execScasw (os as : Size) (s : State) : Result := run (repeated as true (scasOp os.width as)) s
/-- STOSB (44 R618). -/
def execStosb (as : Size) (s : State) : Result := run (repeated as false (stosOp .byte as)) s
/-- STOSW, STOSD (44 R618). -/
def execStosw (os as : Size) (s : State) : Result := run (repeated as false (stosOp os.width as)) s

end Sys2Proof.Machine
end

