-- ==== Sys2Proof/Machine/System.lean ====
section
/-!
DEFINITION. The system instructions: descriptor tables, task and machine status registers, access checks, the cache and
the TLB, HLT (spec/40_int_a_to_c.md R417, R418, R433; spec/41_int_d_to_i.md R455, R465, R466; spec/42_int_j_to_l.md R535
to R551; spec/44_int_s_to_x.md R607 to R625; spec/21_segmentation_paging_protection.md R240).
-/
namespace Sys2Proof.Machine
open Sys2Proof

/-- ARPL (40 R417). A memory operand is translated as a write even where the test fails and nothing is written. DESIGN CHOICE (log
entry 46). -/
def arplOp (x : RM) (r : Reg) : M Unit := do
  needProt
  let d ← updateRM .word x
  let v ← getReg .word r
  if (selRpl d).toNat < (selRpl v).toNat then do
    writeRM .word (withRpl d (selRpl v)) x
    setStatus { zf := .set true }
  else setStatus { zf := .set false }

/-- ARPL (40 R417). -/
def execArpl (rm : RM) (r : Reg) (s : State) : Result := run (arplOp rm r) s

/-- The two bounds of BOUND, the upper one above the lower: one operand, which faults as a whole (40 R418, R404 a). -/
def readBounds (os : Size) (m : Mem) : M (BitVec os.width.bits × BitVec os.width.bits) := do
  let v ← readMemN m (2 * os.bytes) os.bytes
  pure (BitVec.ofNat os.width.bits v, BitVec.ofNat os.width.bits (v / 2 ^ os.width.bits))

/-- BOUND (40 R418). -/
def boundOp (os : Size) (r : Reg) (m : Mem) : M Unit := do
  let i ← getReg os.width r
  let b ← readBounds os m
  check (decide (b.1.toInt ≤ i.toInt) && decide (i.toInt ≤ b.2.toInt)) excBR

/-- BOUND (40 R418). -/
def execBound (os : Size) (r : Reg) (m : Mem) (s : State) : Result := run (boundOp os r m) s

/-- A pseudo-descriptor is stored as a word, aligned as the whole, and a doubleword (44 R607; 20_memory.md R126).
DEDUCED (log entry 20). -/
def storeTable (os : Size) (m : Mem) (t : TableReg) : M Unit := do
  let s ← get
  let a := s.gpr.ea m
  memWrite m.as (s.segOf m) a 2 4 t.limit.toNat
  memWrite m.as (s.segOf m) (eaPlus m a 2) 4 1 (match os with
    | .s16 => t.base &&& 0x00FFFFFF#32
    | .s32 => t.base).toNat

/-- SGDT (44 R607). -/
def execSgdt (os : Size) (m : Mem) (s : State) : Result := run (storeTable os m s.gdtr) s
/-- SIDT (44 R612). -/
def execSidt (os : Size) (m : Mem) (s : State) : Result := run (storeTable os m s.idtr) s

/-- Read a pseudo-descriptor, one operand of six bytes (42 R541, 40 R404): with an operand size of 16 the base has 24 bits.
DEDUCED (log entry 20). -/
def loadTable (os : Size) (m : Mem) : M TableReg := do
  needCpl0
  let v ← readMemN m 6 4
  let base := BitVec.ofNat 32 (v / 2 ^ 16)
  pure { limit := BitVec.ofNat 16 v
         base := match os with
           | .s16 => base &&& 0x00FFFFFF#32
           | .s32 => base }

/-- LGDT (42 R541). -/
def lgdtOp (os : Size) (m : Mem) : M Unit := do
  let t ← loadTable os m
  modify fun s => { s with gdtr := t }

/-- LGDT (42 R541). -/
def execLgdt (os : Size) (m : Mem) (s : State) : Result := run (lgdtOp os m) s

/-- LIDT (42 R543). -/
def lidtOp (os : Size) (m : Mem) : M Unit := do
  let t ← loadTable os m
  modify fun s => { s with idtr := t }

/-- LIDT (42 R543). -/
def execLidt (os : Size) (m : Mem) (s : State) : Result := run (lidtOp os m) s

/-- LLDT (42 R544). -/
def lldtOp (x : RM) : M Unit := do
  needProt
  needCpl0
  let v ← readRM .word x
  let s ← get
  if selNull v then modify fun t => t.setLdtr { t.ldtr with sel := v, valid := false }
  else do
    check (!selTi v && selInTable s v) (excGP (selCode v false))
    let d ← readDesc v
    check (!d.s && d.typ == 2#4) (excGP (selCode v false))
    check d.present (excNP (selCode v false))
    modify fun t => t.setLdtr (d.toLdt v)

/-- LLDT (42 R544). -/
def execLldt (rm : RM) (s : State) : Result := run (lldtOp rm) s

/-- LTR (42 R551). -/
def ltrOp (x : RM) : M Unit := do
  needProt
  needCpl0
  let v ← readRM .word x
  let s ← get
  check (!selNull v) (excGP 0#16)
  check (!selTi v && selInTable s v) (excGP (selCode v false))
  let d ← readDesc v
  check d.isFreeTss (excGP (selCode v false))
  check d.present (excNP (selCode v false))
  setBusy v true
  modify fun t => { t with tr := { sel := v, base := d.base, limit := d.limit, format := d.tssFormat } }

/-- LTR (42 R551). -/
def execLtr (rm : RM) (s : State) : Result := run (ltrOp rm) s

/-- SLDT (44 R613). -/
def sldtOp (x : RM) : M Unit := do
  needProt
  let s ← get
  writeRM .word s.ldtr.sel x

/-- SLDT (44 R613): 16 bits, whatever the operand size (92_eei_decisions.md D28). -/
def execSldt (_os : Size) (rm : RM) (s : State) : Result := run (sldtOp rm) s

/-- STR (44 R619). -/
def strOp (x : RM) : M Unit := do
  needProt
  let s ← get
  writeRM .word s.tr.sel x

/-- STR (44 R619): 16 bits, whatever the operand size (92_eei_decisions.md D28). -/
def execStr (_os : Size) (rm : RM) (s : State) : Result := run (strOp rm) s

/-- SMSW (44 R614). -/
def smswOp (x : RM) : M Unit := do
  let s ← get
  writeRM .word (s.cr0.setWidth 16) x

/-- SMSW (44 R614): 16 bits, whatever the operand size (92_eei_decisions.md D28). -/
def execSmsw (_os : Size) (rm : RM) (s : State) : Result := run (smswOp rm) s

/-- LMSW (42 R545): MP, EM and TS are loaded; PE can be set, not cleared. -/
def lmswOp (x : RM) : M Unit := do
  needCpl0
  let v ← readRM .word x
  modify fun s => s.setCr0 (mix 0xE#32 (v.setWidth 32) s.cr0 ||| (v.setWidth 32 &&& 1#32))

/-- LMSW (42 R545). -/
def execLmsw (rm : RM) (s : State) : Result := run (lmswOp rm) s

/-- CLTS (40 R433). -/
def cltsOp : M Unit := do
  needCpl0
  modify fun s => s.setCr0 (s.cr0 &&& 0xFFFFFFF7#32)

/-- CLTS (40 R433). -/
def execClts (s : State) : Result := run cltsOp s

/-- Is the descriptor of a selector visible from a level (21 R240)? -/
def Desc.visible (d : Desc) (cpl : BitVec 2) (x : Word16) : Bool :=
  d.conforming || (decide (cpl.toNat ≤ d.dpl.toNat) && decide ((selRpl x).toNat ≤ d.dpl.toNat))

/-- The descriptor of a visible selector that passes a type test (21 R240). Every code or data descriptor examined gets its
Accessed bit (R199), whether it passes or not, which R240 leaves open. DESIGN CHOICE (log entry 48). -/
def examine (p : Desc → Bool) (x : Word16) : M (Option Desc) := do
  let s ← get
  if selNull x || !selInTable s x then pure none
  else do
    let d ← readDesc x
    if d.s then markAccessed x d else pure ()
    pure (if d.visible s.cpl x && p d then some d else none)

/-- The types LAR accepts (42 R535). -/
def Desc.larOk (d : Desc) : Bool := d.s || !(d.typ == 0#4 || d.typ == 8#4 || d.typ == 0xA#4 || d.typ == 0xD#4)

/-- The types LSL accepts (42 R549). -/
def Desc.lslOk (d : Desc) : Bool :=
  d.s || d.typ == 1#4 || d.typ == 2#4 || d.typ == 3#4 || d.typ == 9#4 || d.typ == 0xB#4

/-- LAR (42 R535); bits 19 to 16 of the value are free. -/
def larOp (os : Size) (r : Reg) (x : RM) : M Unit := do
  needProt
  let v ← readSel os x
  match ← examine Desc.larOk v with
  | none => setStatus { zf := .set false }
  | some d => do
    let u ← draw 4
    let a := (d.hi &&& 0x00F0FF00#32) ||| (u.setWidth 32 <<< 16)
    setReg os.width r (a.setWidth os.width.bits)
    setStatus { zf := .set true }

/-- LAR (42 R535). -/
def execLar (os : Size) (r : Reg) (rm : RM) (s : State) : Result := run (larOp os r rm) s

/-- LSL (42 R549). -/
def lslOp (os : Size) (r : Reg) (x : RM) : M Unit := do
  needProt
  let v ← readSel os x
  match ← examine Desc.lslOk v with
  | none => setStatus { zf := .set false }
  | some d => do
    setReg os.width r (d.limit.setWidth os.width.bits)
    setStatus { zf := .set true }

/-- LSL (42 R549). -/
def execLsl (os : Size) (r : Reg) (rm : RM) (s : State) : Result := run (lslOp os r rm) s

/-- VERR and VERW (44 R622, R623). -/
def verifyOp (p : Desc → Bool) (x : RM) : M Unit := do
  needProt
  let v ← readRM .word x
  let d ← examine p v
  setStatus { zf := .set d.isSome }

/-- VERR (44 R622). -/
def execVerr (rm : RM) (s : State) : Result := run (verifyOp Desc.readable rm) s
/-- VERW (44 R623). -/
def execVerw (rm : RM) (s : State) : Result := run (verifyOp Desc.writable rm) s

/-- HLT (41 R455). -/
def hltOp : M Unit := do
  needCpl0
  emit .halt
  modify fun s => { s with run := .halted }

/-- HLT (41 R455). -/
def execHlt (s : State) : Result := run hltOp s

/-- INVD (41 R465). -/
def invdOp : M Unit := do
  needCpl0
  modify State.flushCache
  emit .flush

/-- INVD (41 R465). -/
def execInvd (s : State) : Result := run invdOp s

/-- WBINVD (44 R625): two special cycles. -/
def wbinvdOp : M Unit := do
  needCpl0
  modify State.flushCache
  emit .writeBack
  emit .flush

/-- WBINVD (44 R625). -/
def execWbinvd (s : State) : Result := run wbinvdOp s

/-- INVLPG (41 R466): the operand is not accessed. An entry is invalidated with paging off too, as the Operation has it; nothing
translates through it then. DESIGN CHOICE (log entry 51). -/
def invlpgOp (m : Mem) : M Unit := do
  needCpl0
  modify fun s => s.invalidatePage ((s.seg.get (s.segOf m)).base + s.gpr.ea m)

/-- INVLPG (41 R466). -/
def execInvlpg (m : Mem) (s : State) : Result := run (invlpgOp m) s

end Sys2Proof.Machine
end

