-- ==== Sys2Proof/Machine/Dispatch.lean ====
section
/-! DEFINITION. One arm per instruction: the call of its meaning. -/
namespace Sys2Proof.Machine
open Sys2Proof Host

def exec (i : Instr) (s : State) : Host.Outcome State Fault Refusal :=
  match i with
  | .lockPrefix => Sys2Proof.Machine.execLockPrefix s
  | .repnePrefix => Sys2Proof.Machine.execRepnePrefix s
  | .repPrefix => Sys2Proof.Machine.execRepPrefix s
  | .segEs => Sys2Proof.Machine.execSegEs s
  | .segCs => Sys2Proof.Machine.execSegCs s
  | .segSs => Sys2Proof.Machine.execSegSs s
  | .segDs => Sys2Proof.Machine.execSegDs s
  | .segFs => Sys2Proof.Machine.execSegFs s
  | .segGs => Sys2Proof.Machine.execSegGs s
  | .opSizePrefix => Sys2Proof.Machine.execOpSizePrefix s
  | .addrSizePrefix => Sys2Proof.Machine.execAddrSizePrefix s
  | .aaa => Sys2Proof.Machine.execAaa s
  | .aad base => Sys2Proof.Machine.execAad base s
  | .aam base => Sys2Proof.Machine.execAam base s
  | .aas => Sys2Proof.Machine.execAas s
  | .adc f => Sys2Proof.Machine.execAdc f s
  | .add f => Sys2Proof.Machine.execAdd f s
  | .and f => Sys2Proof.Machine.execAnd f s
  | .arpl rm r => Sys2Proof.Machine.execArpl rm r s
  | .bound os r m => Sys2Proof.Machine.execBound os r m s
  | .bsf os r rm => Sys2Proof.Machine.execBsf os r rm s
  | .bsr os r rm => Sys2Proof.Machine.execBsr os r rm s
  | .bswap os r => Sys2Proof.Machine.execBswap os r s
  | .bt f => Sys2Proof.Machine.execBt f s
  | .btc f => Sys2Proof.Machine.execBtc f s
  | .btr f => Sys2Proof.Machine.execBtr f s
  | .bts f => Sys2Proof.Machine.execBts f s
  | .callNear f => Sys2Proof.Machine.execCallNear f s
  | .callFar f => Sys2Proof.Machine.execCallFar f s
  | .cbw => Sys2Proof.Machine.execCbw s
  | .cwde => Sys2Proof.Machine.execCwde s
  | .cwd => Sys2Proof.Machine.execCwd s
  | .cdq => Sys2Proof.Machine.execCdq s
  | .clc => Sys2Proof.Machine.execClc s
  | .cld => Sys2Proof.Machine.execCld s
  | .cli => Sys2Proof.Machine.execCli s
  | .clts => Sys2Proof.Machine.execClts s
  | .cmc => Sys2Proof.Machine.execCmc s
  | .cmp f => Sys2Proof.Machine.execCmp f s
  | .cmpsb as => Sys2Proof.Machine.execCmpsb as s
  | .cmpsw os as => Sys2Proof.Machine.execCmpsw os as s
  | .cmpxchg w rm r => Sys2Proof.Machine.execCmpxchg w rm r s
  | .daa => Sys2Proof.Machine.execDaa s
  | .das => Sys2Proof.Machine.execDas s
  | .dec f => Sys2Proof.Machine.execDec f s
  | .div w rm => Sys2Proof.Machine.execDiv w rm s
  | .enter os bytes level => Sys2Proof.Machine.execEnter os bytes level s
  | .hlt => Sys2Proof.Machine.execHlt s
  | .idiv w rm => Sys2Proof.Machine.execIdiv w rm s
  | .imul f => Sys2Proof.Machine.execImul f s
  | .inp f => Sys2Proof.Machine.execInp f s
  | .inc f => Sys2Proof.Machine.execInc f s
  | .insb as => Sys2Proof.Machine.execInsb as s
  | .insw os as => Sys2Proof.Machine.execInsw os as s
  | .intN vector => Sys2Proof.Machine.execIntN vector s
  | .int3 => Sys2Proof.Machine.execInt3 s
  | .into => Sys2Proof.Machine.execInto s
  | .invd => Sys2Proof.Machine.execInvd s
  | .invlpg m => Sys2Proof.Machine.execInvlpg m s
  | .iret => Sys2Proof.Machine.execIret s
  | .iretd => Sys2Proof.Machine.execIretd s
  | .jo d => Sys2Proof.Machine.execJo d s
  | .jno d => Sys2Proof.Machine.execJno d s
  | .jb d => Sys2Proof.Machine.execJb d s
  | .jc d => Sys2Proof.Machine.execJc d s
  | .jnae d => Sys2Proof.Machine.execJnae d s
  | .jae d => Sys2Proof.Machine.execJae d s
  | .jnb d => Sys2Proof.Machine.execJnb d s
  | .jnc d => Sys2Proof.Machine.execJnc d s
  | .je d => Sys2Proof.Machine.execJe d s
  | .jz d => Sys2Proof.Machine.execJz d s
  | .jne d => Sys2Proof.Machine.execJne d s
  | .jnz d => Sys2Proof.Machine.execJnz d s
  | .jbe d => Sys2Proof.Machine.execJbe d s
  | .jna d => Sys2Proof.Machine.execJna d s
  | .ja d => Sys2Proof.Machine.execJa d s
  | .jnbe d => Sys2Proof.Machine.execJnbe d s
  | .js d => Sys2Proof.Machine.execJs d s
  | .jns d => Sys2Proof.Machine.execJns d s
  | .jp d => Sys2Proof.Machine.execJp d s
  | .jpe d => Sys2Proof.Machine.execJpe d s
  | .jnp d => Sys2Proof.Machine.execJnp d s
  | .jpo d => Sys2Proof.Machine.execJpo d s
  | .jl d => Sys2Proof.Machine.execJl d s
  | .jnge d => Sys2Proof.Machine.execJnge d s
  | .jge d => Sys2Proof.Machine.execJge d s
  | .jnl d => Sys2Proof.Machine.execJnl d s
  | .jle d => Sys2Proof.Machine.execJle d s
  | .jng d => Sys2Proof.Machine.execJng d s
  | .jg d => Sys2Proof.Machine.execJg d s
  | .jnle d => Sys2Proof.Machine.execJnle d s
  | .jcxz os d => Sys2Proof.Machine.execJcxz os d s
  | .jecxz os d => Sys2Proof.Machine.execJecxz os d s
  | .jmpNear f => Sys2Proof.Machine.execJmpNear f s
  | .jmpFar f => Sys2Proof.Machine.execJmpFar f s
  | .lahf => Sys2Proof.Machine.execLahf s
  | .lar os r rm => Sys2Proof.Machine.execLar os r rm s
  | .lds os r m => Sys2Proof.Machine.execLds os r m s
  | .les os r m => Sys2Proof.Machine.execLes os r m s
  | .lfs os r m => Sys2Proof.Machine.execLfs os r m s
  | .lgs os r m => Sys2Proof.Machine.execLgs os r m s
  | .lss os r m => Sys2Proof.Machine.execLss os r m s
  | .lea os r m => Sys2Proof.Machine.execLea os r m s
  | .leave os => Sys2Proof.Machine.execLeave os s
  | .lgdt os m => Sys2Proof.Machine.execLgdt os m s
  | .lidt os m => Sys2Proof.Machine.execLidt os m s
  | .lldt rm => Sys2Proof.Machine.execLldt rm s
  | .lmsw rm => Sys2Proof.Machine.execLmsw rm s
  | .lodsb as => Sys2Proof.Machine.execLodsb as s
  | .lodsw os as => Sys2Proof.Machine.execLodsw os as s
  | .loop os as d => Sys2Proof.Machine.execLoop os as d s
  | .loope os as d => Sys2Proof.Machine.execLoope os as d s
  | .loopne os as d => Sys2Proof.Machine.execLoopne os as d s
  | .lsl os r rm => Sys2Proof.Machine.execLsl os r rm s
  | .ltr rm => Sys2Proof.Machine.execLtr rm s
  | .mov f => Sys2Proof.Machine.execMov f s
  | .movFromSeg os rm sr => Sys2Proof.Machine.execMovFromSeg os rm sr s
  | .movToSeg sr rm => Sys2Proof.Machine.execMovToSeg sr rm s
  | .movFromCr r c => Sys2Proof.Machine.execMovFromCr r c s
  | .movToCr c r => Sys2Proof.Machine.execMovToCr c r s
  | .movFromDr r x => Sys2Proof.Machine.execMovFromDr r x s
  | .movToDr x r => Sys2Proof.Machine.execMovToDr x r s
  | .movFromTr r t => Sys2Proof.Machine.execMovFromTr r t s
  | .movToTr t r => Sys2Proof.Machine.execMovToTr t r s
  | .movsb as => Sys2Proof.Machine.execMovsb as s
  | .movsw os as => Sys2Proof.Machine.execMovsw os as s
  | .movsx f => Sys2Proof.Machine.execMovsx f s
  | .movzx f => Sys2Proof.Machine.execMovzx f s
  | .mul w rm => Sys2Proof.Machine.execMul w rm s
  | .neg w rm => Sys2Proof.Machine.execNeg w rm s
  | .nop => Sys2Proof.Machine.execNop s
  | .not w rm => Sys2Proof.Machine.execNot w rm s
  | .or f => Sys2Proof.Machine.execOr f s
  | .outp f => Sys2Proof.Machine.execOutp f s
  | .outsb as => Sys2Proof.Machine.execOutsb as s
  | .outsw os as => Sys2Proof.Machine.execOutsw os as s
  | .pop f => Sys2Proof.Machine.execPop f s
  | .popSeg os sr => Sys2Proof.Machine.execPopSeg os sr s
  | .popa => Sys2Proof.Machine.execPopa s
  | .popad => Sys2Proof.Machine.execPopad s
  | .popf => Sys2Proof.Machine.execPopf s
  | .popfd => Sys2Proof.Machine.execPopfd s
  | .push f => Sys2Proof.Machine.execPush f s
  | .pushSeg os sr => Sys2Proof.Machine.execPushSeg os sr s
  | .pusha => Sys2Proof.Machine.execPusha s
  | .pushad => Sys2Proof.Machine.execPushad s
  | .pushf => Sys2Proof.Machine.execPushf s
  | .pushfd => Sys2Proof.Machine.execPushfd s
  | .rcl w rm c => Sys2Proof.Machine.execRcl w rm c s
  | .rcr w rm c => Sys2Proof.Machine.execRcr w rm c s
  | .retNear f => Sys2Proof.Machine.execRetNear f s
  | .retFar f => Sys2Proof.Machine.execRetFar f s
  | .rol w rm c => Sys2Proof.Machine.execRol w rm c s
  | .ror w rm c => Sys2Proof.Machine.execRor w rm c s
  | .sahf => Sys2Proof.Machine.execSahf s
  | .sal w rm c => Sys2Proof.Machine.execSal w rm c s
  | .sar w rm c => Sys2Proof.Machine.execSar w rm c s
  | .sbb f => Sys2Proof.Machine.execSbb f s
  | .scasb as => Sys2Proof.Machine.execScasb as s
  | .scasw os as => Sys2Proof.Machine.execScasw os as s
  | .seto rm => Sys2Proof.Machine.execSeto rm s
  | .setno rm => Sys2Proof.Machine.execSetno rm s
  | .setb rm => Sys2Proof.Machine.execSetb rm s
  | .setae rm => Sys2Proof.Machine.execSetae rm s
  | .sete rm => Sys2Proof.Machine.execSete rm s
  | .setne rm => Sys2Proof.Machine.execSetne rm s
  | .setbe rm => Sys2Proof.Machine.execSetbe rm s
  | .seta rm => Sys2Proof.Machine.execSeta rm s
  | .sets rm => Sys2Proof.Machine.execSets rm s
  | .setns rm => Sys2Proof.Machine.execSetns rm s
  | .setp rm => Sys2Proof.Machine.execSetp rm s
  | .setnp rm => Sys2Proof.Machine.execSetnp rm s
  | .setl rm => Sys2Proof.Machine.execSetl rm s
  | .setge rm => Sys2Proof.Machine.execSetge rm s
  | .setle rm => Sys2Proof.Machine.execSetle rm s
  | .setg rm => Sys2Proof.Machine.execSetg rm s
  | .sgdt os m => Sys2Proof.Machine.execSgdt os m s
  | .shl w rm c => Sys2Proof.Machine.execShl w rm c s
  | .shld os rm r c => Sys2Proof.Machine.execShld os rm r c s
  | .shr w rm c => Sys2Proof.Machine.execShr w rm c s
  | .shrd os rm r c => Sys2Proof.Machine.execShrd os rm r c s
  | .sidt os m => Sys2Proof.Machine.execSidt os m s
  | .sldt os rm => Sys2Proof.Machine.execSldt os rm s
  | .smsw os rm => Sys2Proof.Machine.execSmsw os rm s
  | .stc => Sys2Proof.Machine.execStc s
  | .std => Sys2Proof.Machine.execStd s
  | .sti => Sys2Proof.Machine.execSti s
  | .stosb as => Sys2Proof.Machine.execStosb as s
  | .stosw os as => Sys2Proof.Machine.execStosw os as s
  | .str os rm => Sys2Proof.Machine.execStr os rm s
  | .sub f => Sys2Proof.Machine.execSub f s
  | .test f => Sys2Proof.Machine.execTest f s
  | .verr rm => Sys2Proof.Machine.execVerr rm s
  | .verw rm => Sys2Proof.Machine.execVerw rm s
  | .wait => Sys2Proof.Machine.execWait s
  | .wbinvd => Sys2Proof.Machine.execWbinvd s
  | .xadd w rm r => Sys2Proof.Machine.execXadd w rm r s
  | .xchg f => Sys2Proof.Machine.execXchg f s
  | .xlat as => Sys2Proof.Machine.execXlat as s
  | .xor f => Sys2Proof.Machine.execXor f s
  | .f2xm1 => Sys2Proof.Machine.execF2xm1 s
  | .fabs => Sys2Proof.Machine.execFabs s
  | .fadd f => Sys2Proof.Machine.execFadd f s
  | .faddp k => Sys2Proof.Machine.execFaddp k s
  | .fbld m => Sys2Proof.Machine.execFbld m s
  | .fbstp m => Sys2Proof.Machine.execFbstp m s
  | .fchs => Sys2Proof.Machine.execFchs s
  | .fclex => Sys2Proof.Machine.execFclex s
  | .fcom f => Sys2Proof.Machine.execFcom f s
  | .fcomp f => Sys2Proof.Machine.execFcomp f s
  | .fcompp => Sys2Proof.Machine.execFcompp s
  | .fcos => Sys2Proof.Machine.execFcos s
  | .fdecstp => Sys2Proof.Machine.execFdecstp s
  | .fdiv f => Sys2Proof.Machine.execFdiv f s
  | .fdivp k => Sys2Proof.Machine.execFdivp k s
  | .fdivr f => Sys2Proof.Machine.execFdivr f s
  | .fdivrp k => Sys2Proof.Machine.execFdivrp k s
  | .ffree k => Sys2Proof.Machine.execFfree k s
  | .fiadd f => Sys2Proof.Machine.execFiadd f s
  | .fimul f => Sys2Proof.Machine.execFimul f s
  | .ficom f => Sys2Proof.Machine.execFicom f s
  | .ficomp f => Sys2Proof.Machine.execFicomp f s
  | .fisub f => Sys2Proof.Machine.execFisub f s
  | .fisubr f => Sys2Proof.Machine.execFisubr f s
  | .fidiv f => Sys2Proof.Machine.execFidiv f s
  | .fidivr f => Sys2Proof.Machine.execFidivr f s
  | .fild f => Sys2Proof.Machine.execFild f s
  | .fincstp => Sys2Proof.Machine.execFincstp s
  | .finit => Sys2Proof.Machine.execFinit s
  | .fist f => Sys2Proof.Machine.execFist f s
  | .fistp f => Sys2Proof.Machine.execFistp f s
  | .fld f => Sys2Proof.Machine.execFld f s
  | .fld1 => Sys2Proof.Machine.execFld1 s
  | .fldcw m => Sys2Proof.Machine.execFldcw m s
  | .fldenv os m => Sys2Proof.Machine.execFldenv os m s
  | .fldl2e => Sys2Proof.Machine.execFldl2e s
  | .fldl2t => Sys2Proof.Machine.execFldl2t s
  | .fldlg2 => Sys2Proof.Machine.execFldlg2 s
  | .fldln2 => Sys2Proof.Machine.execFldln2 s
  | .fldpi => Sys2Proof.Machine.execFldpi s
  | .fldz => Sys2Proof.Machine.execFldz s
  | .fmul f => Sys2Proof.Machine.execFmul f s
  | .fmulp k => Sys2Proof.Machine.execFmulp k s
  | .fnclex => Sys2Proof.Machine.execFnclex s
  | .fninit => Sys2Proof.Machine.execFninit s
  | .fnop => Sys2Proof.Machine.execFnop s
  | .fnsave os m => Sys2Proof.Machine.execFnsave os m s
  | .fnstcw m => Sys2Proof.Machine.execFnstcw m s
  | .fnstenv os m => Sys2Proof.Machine.execFnstenv os m s
  | .fnstsw f => Sys2Proof.Machine.execFnstsw f s
  | .fpatan => Sys2Proof.Machine.execFpatan s
  | .fprem => Sys2Proof.Machine.execFprem s
  | .fprem1 => Sys2Proof.Machine.execFprem1 s
  | .fptan => Sys2Proof.Machine.execFptan s
  | .frndint => Sys2Proof.Machine.execFrndint s
  | .frstor os m => Sys2Proof.Machine.execFrstor os m s
  | .fsave os m => Sys2Proof.Machine.execFsave os m s
  | .fscale => Sys2Proof.Machine.execFscale s
  | .fsin => Sys2Proof.Machine.execFsin s
  | .fsincos => Sys2Proof.Machine.execFsincos s
  | .fsqrt => Sys2Proof.Machine.execFsqrt s
  | .fst f => Sys2Proof.Machine.execFst f s
  | .fstcw m => Sys2Proof.Machine.execFstcw m s
  | .fstenv os m => Sys2Proof.Machine.execFstenv os m s
  | .fstp f => Sys2Proof.Machine.execFstp f s
  | .fstsw f => Sys2Proof.Machine.execFstsw f s
  | .fsub f => Sys2Proof.Machine.execFsub f s
  | .fsubp k => Sys2Proof.Machine.execFsubp k s
  | .fsubr f => Sys2Proof.Machine.execFsubr f s
  | .fsubrp k => Sys2Proof.Machine.execFsubrp k s
  | .ftst => Sys2Proof.Machine.execFtst s
  | .fucom k => Sys2Proof.Machine.execFucom k s
  | .fucomp k => Sys2Proof.Machine.execFucomp k s
  | .fucompp => Sys2Proof.Machine.execFucompp s
  | .fwait => Sys2Proof.Machine.execFwait s
  | .fxam => Sys2Proof.Machine.execFxam s
  | .fxch k => Sys2Proof.Machine.execFxch k s
  | .fxtract => Sys2Proof.Machine.execFxtract s
  | .fyl2x => Sys2Proof.Machine.execFyl2x s
  | .fyl2xp1 => Sys2Proof.Machine.execFyl2xp1 s
  | .fpuNop k => Sys2Proof.Machine.execFpuNop k s

end Sys2Proof.Machine
end

