-- ==== Sys2Proof/Machine/Step.lean ====
section
/-! DEFINITION. The step of the machine (spec/60_exceptions.md R903), and where it fetches. -/
namespace Sys2Proof.Machine
open Sys2Proof

/-- Run the prefixes of an instruction, then the instruction. -/
def execAll : List Instr → Instr → State → Result
  | [], i, s => exec i s
  | p :: ps, i, s =>
    match exec p s with
    | .next t => execAll ps i t
    | .fault f => .fault f
    | .refused r => .refused r

/-- Fetch the next instruction and run it (60 R903 items 4 to 10). -/
def State.runNext (s : State) : Result :=
  match fetchInstr s with
  | .error e t => failure s e t
  | .ok (ps, i, n) t =>
    if lockBad ps i then failure s excUD t else execAll ps i (t.setEip (t.eip + BitVec.ofNat 32 n))

/-- A step while running (60 R903): debug traps, the instruction breakpoint, interrupts, then the next instruction. -/
def State.stepRunning (s : State) : Result :=
  match s.trapNow with
  | some r => r
  | none =>
    match s.instrBreak with
    | some e => s.takeBreak e
    | none =>
      match s.external with
      | some r => r
      | none => s.runNext

/-- One step of the machine. -/
def step (s : State) : Host.Outcome State Fault Refusal :=
  let t := s.restAt s.eip
  match s.run with
  | .running => t.stepRunning
  | .halted => t.stepWaiting
  | .frozen => t.stepWaiting
  | .shutdown => t.stepShutdown
  | .redeliver e => ({ t with run := .running } : State).deliverAt e

/-- Store bytes at consecutive linear addresses, wrapping at 2^32. -/
def placeBytes (m : List Host.Cell) (a : Word32) : List Byte → List Host.Cell
  | [] => m
  | b :: t => placeBytes (Memory.write m a.toNat b) (a + 1#32) t

/-- The state with an instruction of the opcode table where the next fetch looks: at CS.base + EIP, which is the
physical address while paging is off and no cache line holds it, as after reset. DESIGN CHOICE (log entry 13). -/
def State.withFetchWord (s : State) (nbits w : Nat) : State :=
  { s with mem := placeBytes s.mem (s.seg.cs.base + s.eip) (tableBytes nbits w) }

end Sys2Proof.Machine
end

