-- ==== Sys2Proof/Safety.lean ====
section
/-!
DEFINITION. The terms statements about the machine use: a state in which an instruction may begin, two states that agree,
the bytes an instruction stores, and the invariant every step keeps (spec/10_state.md R25, R31, R32, R43;
spec/20_memory.md R120 to R123).
-/
namespace Sys2Proof

/-- The no-wait form that follows WAIT in the words of a wait form (46 R708). -/
def Instr.noWait : Instr → Option Instr
  | .fclex => some .fnclex
  | .finit => some .fninit
  | .fsave os m => some (.fnsave os m)
  | .fstcw m => some (.fnstcw m)
  | .fstenv os m => some (.fnstenv os m)
  | .fstsw f => some (.fnstsw f)
  | _ => none

end Sys2Proof

namespace Sys2Proof.Machine
open Sys2Proof

/-- Nothing of an earlier instruction is left in the latch: what holds before the first prefix of every instruction. -/
structure State.Fresh (s : State) : Prop where
  stores : s.insn.stores = []
  committed : s.insn.committed = false
  again : s.insn.again = false
  keepRf : s.insn.keepRf = false
  inhibit : s.insn.inhibit = false
  stiShadow : s.insn.stiShadow = false

/-- A state whose instruction has completed, as far as the instruction itself does nothing: RF is cleared and the
interrupt shadows end (71 R1089, 10_state.md R63). -/
def State.retired (s : State) : State :=
  { s with eflags := clearRf s.eflags, latch := { s.latch with inhibitNext := false, stiShadow := false } }

/-- Two states have every register alike: general, segment, flags, EIP, control, debug, test and system registers, the
FPU, the run state, the interrupt latches, the pins and what the platform has seen. Not in it: memory, cache and TLB
contents, whether the cache read buffer is corrupted, pending debug traps and the draw counter. -/
structure Agree (s t : State) : Prop where
  gpr : t.gpr = s.gpr
  eip : t.eip = s.eip
  eflags : t.eflags = s.eflags
  seg : t.seg = s.seg
  cpl : t.cpl = s.cpl
  cr0 : t.cr0 = s.cr0
  cr2 : t.cr2 = s.cr2
  cr3 : t.cr3 = s.cr3
  gdtr : t.gdtr = s.gdtr
  idtr : t.idtr = s.idtr
  ldtr : t.ldtr = s.ldtr
  tr : t.tr = s.tr
  dr : t.dr = s.dr
  test : t.test = s.test
  fpu : t.fpu = s.fpu
  run : t.run = s.run
  latch : t.latch = s.latch
  pins : t.pins = s.pins
  events : t.events = s.events

/-! Memory. -/

/-- Memory is in canonical form. -/
def State.memOk (s : State) : Bool := Memory.wf s.mem

/-- What holds between any two steps: memory in canonical form; the fixed bits of EFLAGS (10_state.md R25), CR0 (R31,
R32) and DR7 (R43); in Real Mode level 0 and no VM; in V86 Mode level 3 (21 R280). -/
structure State.Inv (s : State) : Prop where
  mem : s.memOk = true
  eflags : fixFlags s.eflags = s.eflags
  cr0 : cr0Value s.cr0 = s.cr0
  legal : cr0Legal s.cr0 = true
  dr7 : s.dr.dr7 &&& 0xFFFF23FF#32 = s.dr.dr7
  real : s.real = true → s.cpl = 0#2 ∧ s.vm = false
  v86 : s.v86 = true → s.cpl = 3#2

/-- Every valid line of the internal cache holds the bytes of memory. -/
def State.Coherent (s : State) : Prop :=
  ∀ (a : Word32) (w : Way), ((s.cacheSetAt a).get w).valid = true → ((s.cacheSetAt a).get w).tag = cacheTag a →
    lineByte ((s.cacheSetAt a).get w).data (a.extractLsb' 0 4).toNat = Memory.read s.mem a.toNat

/-- The linear address of a memory operand. -/
def State.lin (s : State) (m : Mem) : Word32 := (s.seg.get (s.segOf m)).base + s.gpr.ea m

/-- The physical address of a linear one while paging is off (20_memory.md R122). -/
def State.phys (s : State) (lin : Word32) : Word32 := if s.pins.a20m then lin &&& 0xFFEFFFFF#32 else lin

/-- A store: linear address, number of bytes, value. -/
abbrev Store := Word32 × Nat × Nat

/-- Memory after bytes are stored from a linear address on, while paging is off. -/
def State.memBytes (s : State) (lin : Word32) : List Byte → List Host.Cell → List Host.Cell
  | [], m => m
  | b :: t, m => s.memBytes (lin + 1#32) t (Memory.write m (s.phys lin).toNat b)

/-- Memory after stores, the first made first, while paging is off. -/
def State.memAfter (s : State) : List Store → List Host.Cell → List Host.Cell
  | [], m => m
  | p :: t, m => s.memAfter t (s.memBytes p.1 (toBytes p.2.1 p.2.2) m)

/-- Does a store touch a physical address, while paging is off? -/
def State.touches (s : State) (p : Store) (a : Nat) : Prop :=
  ∃ i, i < p.2.1 ∧ (s.phys (p.1 + BitVec.ofNat 32 i)).toNat = a

/-- CD = NW = 1: a store that hits the cache does not reach memory (20_memory.md R171). -/
def State.cacheOnly (s : State) : Bool := s.cr0Bit 30 && s.cr0Bit 29

/-- Two states alike in all that an access to memory depends on. -/
structure SameMemory (s t : State) : Prop where
  mem : t.mem = s.mem
  cache : t.cache = s.cache
  tlb : t.tlb = s.tlb
  cr0 : t.cr0 = s.cr0
  cr3 : t.cr3 = s.cr3
  pins : t.pins = s.pins
  stores : t.insn.stores = s.insn.stores

/-- A locked read-modify-write: the linear address of a byte, and what it makes of the byte. -/
abbrev Change := Word32 × (Byte → Byte)

/-- From `s` to a state, as far as memory is concerned, with paging on or off: nothing but changes elsewhere, translations of linear
addresses (21 R260, R264), reads of bytes, the stores `l` in their order, held back or made at once, the commitment of those held
back, and the locked read-modify-writes `k` in their order; `ps` are the physical addresses that the translations gave for the bytes of
the stores and of the read-modify-writes. -/
inductive Via (s : State) : List Store → List Change → List (Word32 × Bool) → State → Prop
  | start : Via s [] [] [] s
  | elsewhere {l k ps u v} : Via s l k ps u → SameMemory u v → Via s l k ps v
  | walk {l k ps u v lin write user p} : Via s l k ps u → translate lin write user u = .ok p v → Via s l k ps v
  | read {l k ps u a c lock} : Via s l k ps u → Via s l k ps (u.readPhys a c lock).2
  | store {l k ps u v w lin n x user qs} : Via s l k ps u → translateBytes lin true user n u = .ok qs v →
      storeBytes qs (toBytes n x) v = .ok () w → Via s (l ++ [(lin, n, x)]) k (ps ++ qs) w
  | write {l k ps u v w lin n x user qs} : Via s l k ps u → translateBytes lin true user n u = .ok qs v →
      writeBytes qs (toBytes n x) v = .ok () w → Via s (l ++ [(lin, n, x)]) k (ps ++ qs) w
  | update {l k ps u v w lin f user qs} : Via s l k ps u → translateBytes lin true user 1 u = .ok qs v →
      updateBytes f qs v = .ok () w → Via s l (k ++ [(lin, f)]) (ps ++ qs) w
  | commit {l k ps u} : Via s l k ps u → Via s l k ps u.commitStores

/-- Memory `n` reads as `m` but at the physical addresses `ps`, and but for the accessed and dirty bits, 5 and 6, of the first bytes of
doublewords, which the paging unit sets in its tables (21 R262). -/
def AlikeBut (m n : List Host.Cell) (ps : List (Word32 × Bool)) : Prop :=
  ∀ a, (∀ p ∈ ps, p.1.toNat ≠ a) →
    Memory.read n a &&& 0x9F#8 = Memory.read m a &&& 0x9F#8 ∧ (a % 4 ≠ 0 → Memory.read n a = Memory.read m a)

/-- With paging on, memory is what a way with the stores `l` and the read-modify-writes `k` leaves when no store is held back any
longer, and every byte outside the physical addresses that these translate to reads as before, but for the bits the paging unit
sets. -/
def Reaches (s t : State) (l : List Store) (k : List Change) : Prop :=
  s.paging = true → ∃ ps u, Via s l k ps u ∧ u.insn.stores = [] ∧ t.mem = u.mem ∧ (s.memOk = true → AlikeBut s.mem t.mem ps)

/-- The cache is off and empty: every read is one of memory. -/
structure State.Uncached (s : State) : Prop where
  off : s.cr0Bit 30 = true
  empty : s.cache = []
  stores : s.insn.stores = []

/-- Every store reaches memory (20_memory.md R171): CD or NW is 0, or CD is 1 and the cache holds nothing that a store could hit, as
after reset. -/
def State.WritesThrough (s : State) : Prop := s.cacheOnly = false ∨ s.Uncached

/-- What an instruction does to memory when it makes the stores `l` and no other. With paging off every byte outside them reads as
before, and where every store reaches memory the stored bytes are there. With paging on it is as `Reaches` says. -/
structure Stored (s t : State) (l : List Store) : Prop where
  frame : s.memOk = true → s.paging = false →
    ∀ a, (∀ p ∈ l, ¬ s.touches p a) → Memory.read t.mem a = Memory.read s.mem a
  value : s.paging = false → s.WritesThrough → t.mem = s.memAfter l s.mem
  paged : Reaches s t l []

/-! Operands. -/

/-- The general registers after a write to an r/m operand: a memory operand changes none. -/
def Gprs.writeRM (g : Gprs) (w : Width) (x : RM) (v : BitVec w.bits) : Gprs :=
  match x with
  | .reg r => g.write w r v
  | .mem _ => g

/-- The store a write to an r/m operand makes: a register operand makes none. -/
def State.storeRM (s : State) (w : Width) (x : RM) (v : BitVec w.bits) : List Store :=
  match x with
  | .reg _ => []
  | .mem m => [(s.lin m, w.bytes, v.toNat)]

/-! Instructions of one shape. -/

/-- The two-operand instructions that write their destination, with what they compute. -/
def aluWriters : List ((AluForm → Instr) × AluOp) :=
  [(.adc, fun _ a b c => addFlags a b c), (.add, fun _ a b _ => addFlags a b false),
   (.and, fun _ a b _ => logicFlags (a &&& b)), (.or, fun _ a b _ => logicFlags (a ||| b)),
   (.sbb, fun _ a b c => subFlags a b c), (.sub, fun _ a b _ => subFlags a b false),
   (.xor, fun _ a b _ => logicFlags (a ^^^ b))]

/-- SF, ZF and PF of EFLAGS `f` are those of a result, and every bit outside the six status flags is that of `v` (40 R402). -/
def SignZeroParity {n : Nat} (r : BitVec n) (f v : Word32) : Prop :=
  f.getLsbD 7 = r.getLsbD (n - 1) ∧ f.getLsbD 6 = decide (r.toNat = 0) ∧
  f.getLsbD 2 = decide (((List.range 8).filter fun i => r.getLsbD i).length % 2 = 0) ∧
  ∀ i, i ∉ [0, 2, 4, 6, 7, 11] → f.getLsbD i = v.getLsbD i

/-- OF after a shift or rotate by `k`: `o` for a count of 1, else the free value (44 R601). -/
def overflowAfter (k : Nat) (d : BitVec 6) (o : Bool) (f : Word32) : Prop := f.getLsbD 11 = if k = 1 then o else d.getLsbD 5

/-- The flags of a shift by `k` (44 R601): CF as given, free where none is, AF free. -/
def ShiftFlags {n : Nat} (x : BitVec n × StatusUpd) (k : Nat) (d : BitVec 6) (v : Word32) (cf : Option Bool) (o : Bool) : Prop :=
  let f := x.2.apply d v
  SignZeroParity x.1 f v ∧ f.getLsbD 0 = cf.getD (d.getLsbD 0) ∧ f.getLsbD 4 = d.getLsbD 2 ∧ overflowAfter k d o f

/-- What a rotate by `k` does to the flags but CF (43 R581): OF, and nothing else. -/
def RotateFlags {n : Nat} (x : BitVec n × StatusUpd) (k : Nat) (d : BitVec 6) (v : Word32) (o : Bool) : Prop :=
  let f := x.2.apply d v
  overflowAfter k d o f ∧ ∀ i, i ∉ [0, 11] → f.getLsbD i = v.getLsbD i

/-- The shifts and rotates, with what they compute from the operand, CF and the masked count. -/
def shifters : List ((Width → RM → Count → Instr) × ShiftOp) :=
  [(.rcl, fun _ x f k => rclOp x f k), (.rcr, fun _ x f k => rcrOp x f k), (.rol, fun _ x _ k => rolOp x k),
   (.ror, fun _ x _ k => rorOp x k), (.sal, fun _ x _ k => shlOp x k), (.shl, fun _ x _ k => shlOp x k),
   (.sar, fun _ x _ k => sarOp x k), (.shr, fun _ x _ k => shrOp x k)]

/-- The double-precision shifts. -/
def doubleShifters : List ((Size → RM → Reg → DCount → Instr) × ((n : Nat) → BitVec n → BitVec n → Nat → BitVec n × StatusUpd)) :=
  [(.shld, fun _ d i k => shldOp d i k), (.shrd, fun _ d i k => shrdOp d i k)]

/-- SETcc, each with its condition (30_encoding.md R318). -/
def setters : List ((RM → Instr) × Cond) :=
  [(.seto, .o), (.setno, .no), (.setb, .b), (.setae, .nb), (.sete, .e), (.setne, .ne), (.setbe, .be), (.seta, .nbe),
   (.sets, .s), (.setns, .ns), (.setp, .p), (.setnp, .np), (.setl, .l), (.setge, .nl), (.setle, .le), (.setg, .nle)]

/-- The masked count of a shift (43_int_m_to_r.md R581). -/
def State.count (s : State) : Count → Nat
  | .one => 1
  | .cl => s.gpr.ecx.toNat % 32
  | .imm v => v.toNat % 32

/-- The masked count of a double-precision shift (44_int_s_to_x.md R609). -/
def State.dcount (s : State) : DCount → Nat
  | .cl => s.gpr.ecx.toNat % 32
  | .imm v => v.toNat % 32

/-- An instruction that completes by changing one r/m operand and the status flags: for every state in which the
operand can be read (it reads `a`) and written. -/
def Modifies (i : Instr) (w : Width) (x : RM) (op : BitVec w.bits → BitVec w.bits × StatusUpd) (s : State) : Prop :=
  ∀ a s1 s2, s.Fresh → updateRM w x s = .ok a s1 → writeRM w (op a).1 x s1 = .ok () s2 →
    ∃ t d, exec i s = .next t ∧
      Agree { s.retired with gpr := s.gpr.writeRM w x (op a).1, eflags := clearRf ((op a).2.apply d s.eflags) } t ∧
      Stored s t (s.storeRM w x (op a).1)

/-! Bit tests. -/

/-- The four bit tests, with what becomes of the bit. -/
def bitTests : List ((BitForm → Instr) × Option (Bool → Bool)) :=
  [(.bt, none), (.btc, some (!·)), (.btr, some fun _ => false), (.bts, some fun _ => true)]

/-- A value with one bit changed as a bit test changes it. -/
def bitAfter {n : Nat} (g : Option (Bool → Bool)) (v : BitVec n) (k : Nat) : BitVec n :=
  match g with
  | none => v
  | some f => putBit v k (f (v.getLsbD k))

/-- Where a bit test looks (40_int_a_to_c.md R422): the offset of the memory operand the bit lies in, which a register
offset moves, and the bit's number; for a register operand the number alone. -/
def bitSpot (f : BitForm) (g : Gprs) : Word32 × Nat :=
  match f with
  | .reg os (.reg _) r => (0#32, (g.read os.width r).toNat % os.bits)
  | .reg os (.mem m) r => (m.as.trunc (g.ea m + (bitPlace os (g.read os.width r)).1), (bitPlace os (g.read os.width r)).2)
  | .imm os (.reg _) v => (0#32, v.toNat % os.bits)
  | .imm os (.mem m) v => (m.as.trunc (g.ea m), v.toNat % os.bits)

/-- The width of a bit test. -/
def bitWidth : BitForm → Width
  | .reg os _ _ => os.width
  | .imm os _ _ => os.width

/-- The r/m operand of a bit test. -/
def bitDst : BitForm → RM
  | .reg _ x _ => x
  | .imm _ x _ => x

/-- The general registers after the two halves of the double-width accumulator are written: AL and AH, AX and DX, EAX
and EDX (41_int_d_to_i.md R453). -/
def Gprs.halves (g : Gprs) (w : Width) (low high : BitVec w.bits) : Gprs :=
  (g.write w .eax low).write w (match w with
    | .byte => .esp
    | .word => .edx
    | .dword => .edx) high

/-- The flags of a multiplication: CF and OF say whether the upper half is significant, the others are undefined. -/
def productFlags (big : Bool) : StatusUpd :=
  { cf := .set big, of := .set big, sf := .undef, zf := .undef, af := .undef, pf := .undef }

/-- The state in which XCHG with a memory operand makes its accesses: locked. -/
def State.locked (s : State) : State := { s with insn := { s.insn with lock := true } }

/-! The stack. -/

/-- The general registers with the stack pointer moved by `k` bytes (20_memory.md R140). -/
def State.espPlus (s : State) (k : Word32) : Gprs := { s.gpr with esp := s.stackSize.merge s.gpr.esp (s.sp + k) }

/-- The state with the stack pointer moved by `k` bytes. -/
def State.moveSp (s : State) (k : Word32) : State := { s with gpr := s.espPlus k }

/-- The offset a push of `n` bytes stores at (20_memory.md R141). -/
def State.pushOff (s : State) (n : Nat) : Word32 := s.stackSize.trunc (s.sp - BitVec.ofNat 32 n)

/-- A push of `n` bytes does not straddle offset 0 in Real Mode (60_exceptions.md R935). -/
def State.pushFits (s : State) (n : Nat) : Bool := !(s.real && decide (0 < s.sp.toNat) && decide (s.sp.toNat < n))

/-- The stores that pushes of `n` bytes make. -/
def State.pushStores (s : State) (n : Nat) : List Nat → List Store
  | [] => []
  | v :: l => (s.seg.ss.base + s.pushOff n, n, v) :: (s.moveSp (-BitVec.ofNat 32 n)).pushStores n l

/-- Every one of the pushes can be made, and the state they leave. -/
def pushesTo (n : Nat) : List Nat → State → State → Prop
  | [], s, t => t = s
  | v :: l, s, t => s.pushFits n = true ∧ ∃ u, memWrite s.stackSize .ss (s.pushOff n) n n v s = .ok () u ∧
      pushesTo n l (u.moveSp (-BitVec.ofNat 32 n)) t

/-- The copies of frame pointers ENTER makes (41_int_d_to_i.md R454): each is read below (E)BP, which moves down to it, and
pushed. -/
def copiesTo (os : Size) : List Nat → State → State → Prop
  | [], s, t => t = s
  | v :: l, s, t =>
    let a := os.trunc (s.gpr.ebp - BitVec.ofNat 32 os.bytes)
    ∃ u w, memRead os .ss a os.bytes os.bytes (s.setGpr (s.gpr.write os.width .ebp (a.setWidth _))) = .ok v u ∧
      pushesTo os.bytes [v] u w ∧ copiesTo os l w.commitStores t

/-- The parameters a call gate copies (21 R232), the last first: each is read from the stack of segment `x` and pointer `esp`, then
pushed on the current one. -/
def paramsTo (n : Nat) (x : SegReg) (esp : Word32) : List Nat → State → State → Prop
  | [], s, t => t = s
  | v :: l, s, t => ∃ u w, stackRead (l.length * n) n (s.withStack x esp) = .ok v u ∧
      pushSys n v (u.withStack s.seg.ss s.gpr.esp) = .ok () w ∧ paramsTo n x esp l w t

/-! Flags. -/

/-- What LoadFlags (41_int_d_to_i.md R467) makes of EFLAGS `old` from an image: POPF and IRET load the status flags, TF, DF and NT;
IF where the level is at most IOPL; IOPL at level 0; RF and AC from a 32-bit image alone, RF only where the instruction loads it; VM
never. The reserved bits are fixed (10_state.md R25). -/
structure FlagsLoaded (image : Word32) (size : Size) (cpl : BitVec 2) (rf : Bool) (old new : Word32) : Prop where
  always : ∀ i ∈ [0, 2, 4, 6, 7, 8, 10, 11, 14], new.getLsbD i = image.getLsbD i
  interrupt : new.getLsbD 9 = if cpl.toNat ≤ (old.extractLsb' 12 2).toNat then image.getLsbD 9 else old.getLsbD 9
  iopl : new.extractLsb' 12 2 = if cpl = 0#2 then image.extractLsb' 12 2 else old.extractLsb' 12 2
  resume : new.getLsbD 16 = if size = .s32 ∧ rf = true then image.getLsbD 16 else old.getLsbD 16
  virtual : new.getLsbD 17 = old.getLsbD 17
  align : new.getLsbD 18 = if size = .s32 then image.getLsbD 18 else old.getLsbD 18
  one : new.getLsbD 1 = true
  zero : ∀ i, i ∈ [3, 5, 15] ∨ 19 ≤ i → new.getLsbD i = false

/-! Descriptors and tasks. -/

/-- Tests in their order: the computation raises the exception of the first that fails, in the state `t`, and answers `a` where all
hold. -/
def Ladder {α : Type} (m : M α) (s : State) (a : α) (t : State) : List (Prop × Exc) → Prop
  | [] => m s = .ok a t
  | (c, e) :: l => (¬ c → m s = .error e t) ∧ (c → Ladder m s a t l)

/-- The selector of a descriptor is not null and lies within its table; `null` and `outside` are raised where it is not. -/
def Named {α : Type} (m : M α) (x : Word16) (s : State) (null outside : Exc) : Prop :=
  (selNull x = true → m s = .error null s) ∧ (selNull x = false → selInTable s x = false → m s = .error outside s)

/-- The locked read-modify-write that sets the accessed bit of a descriptor, bit 0 of its byte 5 (21 R199). -/
def State.accessMark (s : State) (x : Word16) : Change := (descAddr s x + 5#32, (· ||| 1#8))

/-- The accessed bit of a descriptor is set, where it is 0 (21 R199). -/
def State.marking (s : State) (x : Word16) (d : Desc) : List Change := if d.hi.getLsbD 8 then [] else [s.accessMark x]

/-- Memory after the byte at a linear address is changed, while paging is off. -/
def State.memUpdate (s : State) (lin : Word32) (f : Byte → Byte) (m : List Host.Cell) : List Host.Cell :=
  Memory.write m (s.phys lin).toNat (f (Memory.read m (s.phys lin).toNat))

/-- Memory after the accessed bit of a descriptor is set, while paging is off (21 R199). -/
def State.memMark (s : State) (x : Word16) (d : Desc) (m : List Host.Cell) : List Host.Cell :=
  if d.hi.getLsbD 8 then m else s.memUpdate (descAddr s x + 5#32) (· ||| 1#8) m

/-- No store touches the accessed byte of a descriptor. -/
def State.clearOf (s : State) (x : Word16) (l : List Store) : Prop :=
  ∀ p ∈ l, ¬ s.touches p (s.phys (descAddr s x + 5#32)).toNat

/-- The number in the `n` bytes of memory from a linear address up, while paging is off. -/
def State.memNat (s : State) (lin : Word32) : Nat → Nat
  | 0 => 0
  | n + 1 => (Memory.read s.mem (s.phys lin).toNat).toNat + 256 * s.memNat (lin + 1#32) n

/-- Stores of `n` bytes each, `step` bytes apart. -/
def storesFrom (step n : Nat) (a : Word32) : List Nat → List Store
  | [] => []
  | v :: t => (a, n, v) :: storesFrom step n (a + BitVec.ofNat 32 step) t

/-- The stores that save a task in its TSS (61_tasking.md R981, R982): EIP, EFLAGS, the general registers, the segment
registers. -/
def State.taskStores (s : State) (eip fl : Word32) : List Store :=
  let regs := [eip, fl, s.gpr.eax, s.gpr.ecx, s.gpr.edx, s.gpr.ebx, s.gpr.esp, s.gpr.ebp, s.gpr.esi, s.gpr.edi].map
    BitVec.toNat
  match s.tr.format with
  | .tss486 => storesFrom 4 4 (s.tr.base + 0x20#32) regs ++ storesFrom 4 2 (s.tr.base + 0x48#32)
      ([s.seg.es.sel, s.seg.cs.sel, s.seg.ss.sel, s.seg.ds.sel, s.seg.fs.sel, s.seg.gs.sel].map BitVec.toNat)
  | .tss286 => storesFrom 2 2 (s.tr.base + 0x0E#32) regs ++ storesFrom 2 2 (s.tr.base + 0x22#32)
      ([s.seg.es.sel, s.seg.cs.sel, s.seg.ss.sel, s.seg.ds.sel].map BitVec.toNat)

/-- Memory when a task switch has done its writes (61_tasking.md R990 steps 4 to 8), while paging is off: the old task made
available, its registers saved, the back link written, the new task made busy. -/
def State.switchMem (s : State) (k : SwitchKind) (ts : Word16) (base eip : Word32) : List Host.Cell :=
  let busy (x : Word16) : Word32 := s.gdtr.base + selOffset x + 5#32
  let fl := if k = .iret then setBit s.eflags 14 false else s.eflags
  let m1 := if (k = .jmp ∨ k = .iret) ∧ selNull s.tr.sel = false then s.memUpdate (busy s.tr.sel) (· &&& 0xFD#8) s.mem
            else s.mem
  let m2 := s.memAfter (s.taskStores eip fl) m1
  let m3 := if k = .call ∨ k = .int then s.memAfter [(base, 2, s.tr.sel.toNat)] m2 else m2
  if k = .iret then m3 else s.memUpdate (busy ts) (· ||| 2#8) m3

/-- The byte that holds the busy bit of a TSS descriptor, bit 1. -/
def State.busyByte (s : State) (x : Word16) : Word32 := s.gdtr.base + selOffset x + 5#32

/-- A task image is what the TSS at a linear address holds in memory, while paging is off: its layout (61_tasking.md R981, R982). -/
def TaskImage.Lies (i : TaskImage) (s : State) (base : Word32) (f : TssFormat) : Prop :=
  let w (off : Nat) : Word16 := BitVec.ofNat 16 (s.memNat (base + BitVec.ofNat 32 off) 2)
  let l (off : Nat) : Word32 := BitVec.ofNat 32 (s.memNat (base + BitVec.ofNat 32 off) 4)
  (f = .tss486 → i = { cr3 := none, eip := l 0x20, flags := l 0x24
                       regs := [l 0x28, l 0x2C, l 0x30, l 0x34, l 0x38, l 0x3C, l 0x40, l 0x44]
                       es := w 0x48, cs := w 0x4C, ss := w 0x50, ds := w 0x54, fs := w 0x58, gs := w 0x5C
                       ldt := w 0x60, trap := (w 0x64).getLsbD 0 }) ∧
  (f = .tss286 → i.cr3 = none ∧ i.eip = (w 0x0E).setWidth 32 ∧ i.flags = (w 0x10).setWidth 32 ∧
    i.regs.map (·.setWidth 16) = [w 0x12, w 0x14, w 0x16, w 0x18, w 0x1A, w 0x1C, w 0x1E, w 0x20] ∧
    i.es = w 0x22 ∧ i.cs = w 0x24 ∧ i.ss = w 0x26 ∧ i.ds = w 0x28 ∧ i.fs = 0#16 ∧ i.gs = 0#16 ∧ i.ldt = w 0x2A ∧
    i.trap = false)

/-- The selectors of the segment descriptors that a new task loads: none into V86 Mode, else those that are not null. -/
def TaskImage.loads (i : TaskImage) (vm : Bool) : List Word16 :=
  if vm then [] else [i.cs, i.ss, i.ds, i.es, i.fs, i.gs].filter fun x => !selNull x

/-- The saved EFLAGS of the outgoing task: IRET clears NT in them (61_tasking.md R990 step 5). -/
def State.leavingFlags (s : State) (k : SwitchKind) : Word32 := if k = .iret then setBit s.eflags 14 false else s.eflags

/-- The stores of a task switch: the outgoing task, and the back link of a nested one. -/
def State.switchStores (s : State) (k : SwitchKind) (base eip : Word32) : List Store :=
  s.taskStores eip (s.leavingFlags k) ++ if k = .call ∨ k = .int then [(base, 2, s.tr.sel.toNat)] else []

/-- The busy bit of a TSS descriptor is set, or cleared (61_tasking.md R984). -/
def State.busyMark (s : State) (x : Word16) (b : Bool) : Change :=
  (s.busyByte x, fun v => if b then v ||| 2#8 else v &&& 0xFD#8)

/-- The busy bits a task switch changes: the old task's is cleared for JMP and IRET, the new one's set for all but IRET. -/
def State.switchBusy (s : State) (k : SwitchKind) (ts : Word16) : List Change :=
  (if (k = .jmp ∨ k = .iret) ∧ selNull s.tr.sel = false then [s.busyMark s.tr.sel false] else []) ++
    if k = .iret then [] else [s.busyMark ts true]

/-! Paging. -/

/-- The address of the page directory entry of a linear address (21 R260). -/
def State.pdeAddr (s : State) (lin : Word32) : Word32 :=
  (s.cr3 &&& 0xFFFFF000#32) + (lin.extractLsb' 22 10).setWidth 32 * 4#32

/-- The address of the page table entry of a linear address in the table a directory entry names. -/
def pteAddr (pde lin : Word32) : Word32 := (pde &&& 0xFFFFF000#32) + (lin.extractLsb' 12 10).setWidth 32 * 4#32

/-- The doubleword in memory at a physical address. -/
def dwordAt (m : List Host.Cell) (a : Word32) : Word32 :=
  Memory.read m (a + 3#32).toNat ++ Memory.read m (a + 2#32).toNat ++ Memory.read m (a + 1#32).toNat ++
    Memory.read m a.toNat

/-- Memory after bits are set in the low byte of the doubleword at a physical address. -/
def entryMem (m : List Host.Cell) (a : Word32) (bits : Byte) : List Host.Cell :=
  Memory.write m a.toNat (Memory.read m a.toNat ||| bits)

/-- May an access be made through a page of these combined attributes (21 R263)? -/
def State.pageAllows (s : State) (us rw write user : Bool) : Prop :=
  if user = true then us = true ∧ (write = true → rw = true) else write = true → rw = true ∨ s.cr0Bit 16 = false

/-! Segment registers, strings, transfers. -/

/-- The far pointer loads, with the segment register of each. -/
def farLoaders : List ((Size → Reg → Mem → Instr) × SReg) :=
  [(.lds, .ds), (.les, .es), (.lfs, .fs), (.lgs, .gs), (.lss, .ss)]

/-- A byte form, or a word or doubleword form by its operand size, and the width it has. -/
def Sized (b : Instr) (f : Size → Instr) (i : Instr) (w : Width) : Prop :=
  (i = b ∧ w = .byte) ∨ ∃ os : Size, i = f os ∧ w = os.width

/-- One iteration of a string instruction, its address size, and whether ZF can end its repetition. -/
def stringBody : Instr → Option (Size × Bool × M Unit)
  | .cmpsb as => some (as, true, cmpsOp .byte as)
  | .cmpsw os as => some (as, true, cmpsOp os.width as)
  | .insb as => some (as, false, insOp .byte as)
  | .insw os as => some (as, false, insOp os.width as)
  | .lodsb as => some (as, false, lodsOp .byte as)
  | .lodsw os as => some (as, false, lodsOp os.width as)
  | .movsb as => some (as, false, movsOp .byte as)
  | .movsw os as => some (as, false, movsOp os.width as)
  | .outsb as => some (as, false, outsOp .byte as)
  | .outsw os as => some (as, false, outsOp os.width as)
  | .scasb as => some (as, true, scasOp .byte as)
  | .scasw os as => some (as, true, scasOp os.width as)
  | .stosb as => some (as, false, stosOp .byte as)
  | .stosw os as => some (as, false, stosOp os.width as)
  | _ => none

/-- The conditional jumps, each with its condition (42_int_j_to_l.md R500). -/
def condJumps : List ((Rel → Instr) × Cond) :=
  [(.jo, .o), (.jno, .no), (.jb, .b), (.jc, .b), (.jnae, .b), (.jae, .nb), (.jnb, .nb), (.jnc, .nb), (.je, .e), (.jz, .e),
   (.jne, .ne), (.jnz, .ne), (.jbe, .be), (.jna, .be), (.ja, .nbe), (.jnbe, .nbe), (.js, .s), (.jns, .ns), (.jp, .p),
   (.jpe, .p), (.jnp, .np), (.jpo, .np), (.jl, .l), (.jnge, .l), (.jge, .nl), (.jnl, .nl), (.jle, .le), (.jng, .le),
   (.jg, .nle), (.jnle, .nle)]

/-- The loops, each with what else must hold of ZF. -/
def loopers : List ((Size → Size → Byte → Instr) × (Bool → Bool)) :=
  [(.loop, fun _ => true), (.loope, fun z => z), (.loopne, fun z => !z)]

/-- A segment register after a return to an outer level (21 R235). -/
def SegReg.afterReturn (x : SegReg) (level : BitVec 2) : SegReg :=
  if x.usable = true ∧ (x.typ.getLsbD 3 = false ∨ x.typ.getLsbD 2 = false) ∧ x.dpl.toNat < level.toNat then x.null 0#16 else x

/-- A state that has returned to an outer level, with the stack pointer the return found (21 R235). -/
def State.atOuter (s : State) (os : Size) (rcs rss : Word16) (c d : Desc) (nsp : Word32) : State :=
  { s with
    gpr := { s.gpr with esp := os.merge s.gpr.esp nsp }, cpl := selRpl rcs
    seg := { cs := c.toSeg rcs, ss := d.toSeg rss, ds := s.seg.ds.afterReturn (selRpl rcs)
             es := s.seg.es.afterReturn (selRpl rcs), fs := s.seg.fs.afterReturn (selRpl rcs)
             gs := s.seg.gs.afterReturn (selRpl rcs) } }

/-- A state in V86 Mode after the delivery of an event has switched to the stack of level 0 (41_int_d_to_i.md R464 FROM-V86). -/
def State.leaveV86 (s : State) (ns : Word16) (nsp : Word32) (d : Desc) : State :=
  { s with gpr := { s.gpr with esp := nsp }, eflags := setBit s.eflags 17 false, cpl := 0#2
           seg := { s.seg with ss := d.toSeg ns } }

/-- DS, ES, FS and GS null. -/
def State.nullData (s : State) : State :=
  { s with seg := { s.seg with ds := s.seg.ds.null 0#16, es := s.seg.es.null 0#16, fs := s.seg.fs.null 0#16
                               gs := s.seg.gs.null 0#16 } }

/-- CS as a far transfer outside Protected Mode loads it (10_state.md R28). -/
def State.cs8086 (s : State) (x : Word16) : SegReg := if s.v86 then SegReg.v86 x else s.seg.cs.loadReal x

/-- The state in which the delivery of a software interrupt begins: its instruction has completed, RF is 0 (71 R1089). -/
def State.atBoundary (s : State) : State :=
  { s with insn := .idle s.eip, run := .running, eflags := clearRf s.eflags, latch := s.retired.latch }

/-- The privileged instructions run: Real Mode, or CPL 0 in Protected Mode (21 R220). -/
def State.privileged (s : State) : Bool := s.real || (s.prot && s.cpl == 0#2)

/-! The FPU. -/

/-- A numeric instruction is let through (45_fpu_common.md R664, R667): EM and TS are 0, and no unmasked error is pending
or NE is 0 and IGNNE# is asserted. -/
def State.fpuReady (s : State) : Bool :=
  !(s.cr0Bit 2 || s.cr0Bit 3) && (!s.fpu.error || (!s.cr0Bit 5 && s.pins.ignne))

/-- A no-wait instruction is let through: EM and TS are 0. -/
def State.escReady (s : State) : Bool := !(s.cr0Bit 2 || s.cr0Bit 3)

/-- A no-wait control instruction, or the wait form of it where no error is pending (46 R708). -/
def State.either (s : State) (noWait waits i : Instr) : Prop := i = noWait ∨ (i = waits ∧ s.fpuReady = true)

/-- The FPU with the error pointers of an instruction (45_fpu_common.md R668); `d` is the data pointer. -/
def State.noted (s : State) (i : Instr) (d : Word16 × Word32) : Fpu :=
  { s.fpu with fcs := s.seg.cs.sel, fip := s.insn.start, fop := fopOf i, fds := d.1, fdp := d.2 }

/-- The data pointer of a memory operand; without one it is undefined. -/
def State.dataAt (s : State) (m : Option Mem) (d : Word16 × Word32) : Prop :=
  ∀ x, m = some x → d = ((s.seg.get (s.segOf x)).sel, s.gpr.ea x)

/-- Other condition codes. -/
def Fpu.codes (f : Fpu) (c3 c2 c1 c0 : Bool) : Fpu :=
  { f with status := { f.status with c3 := c3, c2 := c2, c1 := c1, c0 := c0 } }

/-- A status that keeps TOP and every flag that is set. -/
def FpuStatus.extends (a b : FpuStatus) : Prop :=
  b.top = a.top ∧ (a.ie = true → b.ie = true) ∧ (a.de = true → b.de = true) ∧ (a.ze = true → b.ze = true) ∧
    (a.oe = true → b.oe = true) ∧ (a.ue = true → b.ue = true) ∧ (a.pe = true → b.pe = true) ∧ (a.sf = true → b.sf = true)

/-- The register value of an outcome, where the spec states one. -/
def FpOut.ext : FpOut → Option Ext80
  | .fin neg q k => some (fpOfFinite neg q k)
  | .inf neg => some (fpInf neg)
  | .unstated => none

/-- The precision PC selects (45_fpu_common.md R658); 01 is reserved. -/
def Fpu.precisionIs (f : Fpu) (p : Nat) : Prop :=
  (f.pc = 0#2 ∧ p = 24) ∨ (f.pc = 2#2 ∧ p = 53) ∨ (f.pc = 3#2 ∧ p = 64)

/-- A value that is no NaN and of a supported format. -/
def fpOrdinary (x : Ext80) : Bool := !fpIsBad x && !fpIsNan x

/-- The numeric instructions without a memory operand. -/
def fpuRegisterForm : Instr → Bool
  | .fadd (.toSt _) | .fadd (.toSti _) | .fsub (.toSt _) | .fsub (.toSti _) | .fsubr (.toSt _) | .fsubr (.toSti _)
  | .fmul (.toSt _) | .fmul (.toSti _) | .fdiv (.toSt _) | .fdiv (.toSti _) | .fdivr (.toSt _) | .fdivr (.toSti _)
  | .faddp _ | .fsubp _ | .fsubrp _ | .fmulp _ | .fdivp _ | .fdivrp _
  | .fcom (.st _) | .fcomp (.st _) | .fcompp | .fucom _ | .fucomp _ | .fucompp | .ftst | .fxam
  | .fabs | .fchs | .fsqrt | .frndint | .fscale | .fxtract | .fprem | .fprem1
  | .f2xm1 | .fcos | .fsin | .fptan | .fsincos | .fpatan | .fyl2x | .fyl2xp1
  | .fld (.st _) | .fld1 | .fldz | .fldl2e | .fldl2t | .fldlg2 | .fldln2 | .fldpi
  | .fst (.st _) | .fstp (.st _) | .fxch _ | .fdecstp | .fincstp | .ffree _ => true
  | _ => false

/-- The numeric instructions that read memory: the operand, its bytes and its alignment. -/
def fpuMemoryForm : Instr → Option (Mem × Nat × Nat)
  | .fadd (.m32 m) | .fsub (.m32 m) | .fsubr (.m32 m) | .fmul (.m32 m) | .fdiv (.m32 m) | .fdivr (.m32 m)
  | .fcom (.m32 m) | .fcomp (.m32 m) | .fld (.m32 m)
  | .fiadd (.m32 m) | .fisub (.m32 m) | .fisubr (.m32 m) | .fimul (.m32 m) | .fidiv (.m32 m) | .fidivr (.m32 m)
  | .ficom (.m32 m) | .ficomp (.m32 m) | .fild (.m32 m) => some (m, 4, 4)
  | .fadd (.m64 m) | .fsub (.m64 m) | .fsubr (.m64 m) | .fmul (.m64 m) | .fdiv (.m64 m) | .fdivr (.m64 m)
  | .fcom (.m64 m) | .fcomp (.m64 m) | .fld (.m64 m) | .fild (.m64 m) => some (m, 8, 8)
  | .fiadd (.m16 m) | .fisub (.m16 m) | .fisubr (.m16 m) | .fimul (.m16 m) | .fidiv (.m16 m) | .fidivr (.m16 m)
  | .ficom (.m16 m) | .ficomp (.m16 m) | .fild (.m16 m) => some (m, 2, 2)
  | .fld (.m80 m) | .fbld m => some (m, 10, 8)
  | _ => none

/-- The other numeric and control instructions that wait for a pending error: the stores to memory, FNOP and the loads of
control information (45_fpu_common.md R667). -/
def fpuWaitingForm : Instr → Bool
  | .fst (.m32 _) | .fst (.m64 _) | .fstp (.m32 _) | .fstp (.m64 _) | .fstp (.m80 _) | .fist _ | .fistp _ | .fbstp _
  | .fnop | .fldcw _ | .fldenv _ _ | .frstor _ _ => true
  | _ => false

/-- The control instructions that look at no pending error, WAIT forms aside (45_fpu_common.md R667). -/
def fpuNoWaitForm : Instr → Bool
  | .fnclex | .fninit | .fnsave _ _ | .fnstcw _ | .fnstenv _ _ | .fnstsw _ | .fpuNop _ => true
  | _ => false

/-- The FPU after a stack fault (45_fpu_common.md R662). -/
def Fpu.faulted (f : Fpu) : Fpu := { f with status := { f.status with sf := true, ie := true } }

/-- The shape of an arithmetic instruction: the operation, whether its operands are reversed, the memory operand, how the
source is read, the destination register and the number of pops. -/
structure ArithShape where
  op : FpOp
  rev : Bool
  mem : Option Mem
  source : M (Option FpOperand)
  dest : StIdx
  pops : Nat

/-- An arithmetic instruction with a real operand or two registers. -/
def realShape (o : FpOp) (rev : Bool) (f : FArith) : ArithShape :=
  { op := o, rev := rev, mem := f.mem?, source := arithSource f, dest := f.dest, pops := 0 }
/-- An arithmetic instruction that pops. -/
def popShape (o : FpOp) (rev : Bool) (k : StIdx) : ArithShape :=
  { op := o, rev := rev, mem := none, source := stOperand 0, dest := k, pops := 1 }
/-- An arithmetic instruction with an integer operand. -/
def intShape (o : FpOp) (rev : Bool) (f : FInt) : ArithShape :=
  { op := o, rev := rev, mem := some f.mem
    source := do pure (some (FpOperand.ofInt (← readIntOp f.bytes f.mem))), dest := 0, pops := 0 }

/-- The arithmetic instructions. -/
def fpuArith : Instr → Option ArithShape
  | .fadd f => some (realShape .add false f)
  | .fsub f => some (realShape .sub false f)
  | .fsubr f => some (realShape .sub true f)
  | .fmul f => some (realShape .mul false f)
  | .fdiv f => some (realShape .div false f)
  | .fdivr f => some (realShape .div true f)
  | .faddp k => some (popShape .add false k)
  | .fsubp k => some (popShape .sub false k)
  | .fsubrp k => some (popShape .sub true k)
  | .fmulp k => some (popShape .mul false k)
  | .fdivp k => some (popShape .div false k)
  | .fdivrp k => some (popShape .div true k)
  | .fiadd f => some (intShape .add false f)
  | .fisub f => some (intShape .sub false f)
  | .fisubr f => some (intShape .sub true f)
  | .fimul f => some (intShape .mul false f)
  | .fidiv f => some (intShape .div false f)
  | .fidivr f => some (intShape .div true f)
  | _ => none

/-- The comparisons of ST: the memory operand, how the other operand is read, and the number of pops. -/
def fpuCompares : Instr → Option (Option Mem × M (Option FpOperand) × Nat)
  | .fcom f => some (f.mem?, compareSource f, 0)
  | .fcomp f => some (f.mem?, compareSource f, 1)
  | .fcompp => some (none, stOperand 1, 2)
  | .fucom k => some (none, stOperand k, 0)
  | .fucomp k => some (none, stOperand k, 1)
  | .fucompp => some (none, stOperand 1, 2)
  | .ficom f => some (some f.mem, do pure (some (FpOperand.ofInt (← readIntOp f.bytes f.mem))), 0)
  | .ficomp f => some (some f.mem, do pure (some (FpOperand.ofInt (← readIntOp f.bytes f.mem))), 1)
  | .ftst => some (none, pure (some (FpOperand.ofExt (fpZero false))), 0)
  | _ => none

/-- The constants, by the rounding mode (47_fpu_fld_to_frstor.md R751, R755 to R760). -/
def fpuConstant (rc : BitVec 2) : Instr → Option Ext80
  | .fld1 => some fpOne
  | .fldz => some (fpZero false)
  | .fldl2e => some (fpMake false 0x3FFF#15 (if rc.getLsbD 0 then 0xB8AA3B295C17F0BB#64 else 0xB8AA3B295C17F0BC#64))
  | .fldl2t => some (fpMake false 0x4000#15 (if rc = 2#2 then 0xD49A784BCD1B8AFF#64 else 0xD49A784BCD1B8AFE#64))
  | .fldlg2 => some (fpMake false 0x3FFD#15 (if rc.getLsbD 0 then 0x9A209A84FBCFF798#64 else 0x9A209A84FBCFF799#64))
  | .fldln2 => some (fpMake false 0x3FFE#15 (if rc.getLsbD 0 then 0xB17217F7D1CF79AB#64 else 0xB17217F7D1CF79AC#64))
  | .fldpi => some (fpMake false 0x4000#15 (if rc.getLsbD 0 then 0xC90FDAA22168C234#64 else 0xC90FDAA22168C235#64))
  | _ => none

/-- The instructions that push a value (45_fpu_common.md R662), with their memory operand, its bytes and its
alignment. -/
def fpuPushes (rc : BitVec 2) (i : Instr) : Option (Option (Mem × Nat × Nat)) :=
  match i with
  | .fld (.st _) => some none
  | .fld _ | .fild _ | .fbld _ => some (fpuMemoryForm i)
  | _ => if (fpuConstant rc i).isSome then some none else none

/-- The field of `w` bits at byte offset `at` of an image. -/
def imageField (v off w : Nat) : Nat := v / 2 ^ (8 * off) % 2 ^ w

/-- The real number an exact value with no dropped part stands for. -/
def Exact.rat (x : Exact) : ℚ := (if x.neg then -1 else 1) * (x.m : ℚ) * (2 : ℚ) ^ x.e

/-- A magnitude an exact value stands for: `m * 2^e`, or, where a part was dropped, one strictly above that and below
`(m + 1) * 2^e`. -/
def Exact.Stands (x : Exact) (v : ℚ) : Prop :=
  if x.sticky then (x.m : ℚ) * 2 ^ x.e < v ∧ v < ((x.m + 1 : Nat) : ℚ) * 2 ^ x.e else v = (x.m : ℚ) * 2 ^ x.e

/-- A magnitude `v` rounded to a multiple of `u` as RC says (45_fpu_common.md R657), the value having the sign `neg`: exact where it is
one, else a neighbour, and which; whether the result is inexact, and whether its magnitude grew. -/
def Rounding.Near (r : Rounding) (rc : BitVec 2) (neg : Bool) (v u : ℚ) : Prop :=
  let lo : ℚ := u * ⌊v / u⌋
  let hi : ℚ := lo + u
  (r.q : ℚ) * u = (if v = lo then lo
    else if rc = 0#2 then
      (if v - lo < hi - v then lo else if hi - v < v - lo then hi else if ⌊v / u⌋ % 2 = 0 then lo else hi)
    else if rc = 1#2 then (if neg then hi else lo)
    else if rc = 2#2 then (if neg then lo else hi)
    else lo) ∧
  (r.inexact = true ↔ (r.q : ℚ) * u ≠ v) ∧ (r.up = true ↔ v < (r.q : ℚ) * u)

end Sys2Proof.Machine
end

