-- ==== Sys2Proof/Certificates/Slice0/Obligations.lean ====
section
/-!
DEFINITION. The statements. Each says which rule of spec/ it formalises. `s.Fresh` is what holds of the latch before an
instruction; a premise such as `updateRM w x s = .ok a s1` says that an operand can be accessed and what it reads.
-/
open Sys2Proof Sys2Proof.Machine

/-! Integer arithmetic, logic, shifts and bits. -/

/-- ADC, ADD, AND, OR, SBB, SUB, XOR: source read, destination read, result written, flags set. CMP and TEST change the
flags alone. -/
def Obligations.AluComplete : Prop :=
  (∀ p ∈ aluWriters, ∀ (f : AluForm) (s s1 s2 s3 : State) (b a : BitVec f.width.bits), s.Fresh →
      aluSource f s = .ok b s1 → updateRM f.width f.dst s1 = .ok a s2 →
      writeRM f.width (p.2 _ a b s.cf).1 f.dst s2 = .ok () s3 →
      ∃ t d, exec (p.1 f) s = .next t ∧
        Agree { s.retired with gpr := s.gpr.writeRM f.width f.dst (p.2 _ a b s.cf).1
                               eflags := clearRf ((p.2 _ a b s.cf).2.apply d s.eflags) } t ∧
        Stored s t (s.storeRM f.width f.dst (p.2 _ a b s.cf).1)) ∧
  (∀ (f : AluForm) (s s1 s2 : State) (b a : BitVec f.width.bits), s.Fresh →
    aluSource f s = .ok b s1 → readRM f.width f.dst s1 = .ok a s2 →
    ∃ t d, exec (.cmp f) s = .next t ∧
      Agree { s.retired with eflags := clearRf ((subFlags a b false).2.apply d s.eflags) } t ∧ Stored s t []) ∧
  (∀ (f : TestForm) (s s1 s2 : State) (b a : BitVec f.width.bits), s.Fresh →
    testSource f s = .ok b s1 → readRM f.width f.dst s1 = .ok a s2 →
    ∃ t d, exec (.test f) s = .next t ∧
      Agree { s.retired with eflags := clearRf ((logicFlags (a &&& b)).2.apply d s.eflags) } t ∧ Stored s t [])

/-- INC, DEC, NEG, NOT. -/
def Obligations.UnaryComplete : Prop :=
  ∀ s : State,
    (∀ f : IncForm, Modifies (.inc f) f.width f.dst incOp s) ∧ (∀ f : IncForm, Modifies (.dec f) f.width f.dst decOp s) ∧
    (∀ w x, Modifies (.neg w x) w x (fun a => subFlags 0 a false) s) ∧
    (∀ w x, Modifies (.not w x) w x (fun a => (~~~a, {})) s)

/-- RCL, RCR, ROL, ROR, SAL, SAR, SHL, SHR, and what each operation gives: its value and its flags. That a masked count of 0
writes the operand back and keeps every flag is the spec's decision D29 (log entry 43). -/
def Obligations.ShiftsComplete : Prop :=
  (∀ p ∈ shifters, ∀ w x c s, Modifies (p.1 w x c) w x (fun a => p.2 _ a s.cf (s.count c)) s) ∧
  (∀ (w : Width) (a : BitVec w.bits) (c : Bool) (d : BitVec 6) (v : Word32),
    (∀ x ∈ [shlOp a 0, shrOp a 0, sarOp a 0, rolOp a 0, rorOp a 0, rclOp a c 0, rcrOp a c 0], x.1 = a ∧ x.2.apply d v = v) ∧
    ∀ k : Nat, 0 < k → k < 32 →
      let n := w.bits
      let ext (i : Nat) : Bool := if i < n then a.getLsbD i else c
      let carry (x : BitVec n × StatusUpd) : Bool := (x.2.apply d v).getLsbD 0
      let shl := shlOp a k
      let shr := shrOp a k
      let sar := sarOp a k
      let rol := rolOp a k
      let ror := rorOp a k
      let rcl := rclOp a c k
      let rcr := rcrOp a c k
      (shl.1.toNat = a.toNat * 2 ^ k % 2 ^ n ∧
        ShiftFlags shl k d v (if k ≤ n then some (a.getLsbD (n - k)) else none) (shl.1.msb != a.getLsbD (n - k))) ∧
      (shr.1.toNat = a.toNat / 2 ^ k ∧ ShiftFlags shr k d v (if k ≤ n then some (a.getLsbD (k - 1)) else none) a.msb) ∧
      (sar.1.toInt = a.toInt / 2 ^ k ∧ ShiftFlags sar k d v (some (if k ≤ n then a.getLsbD (k - 1) else a.msb)) false) ∧
      ((∀ i < n, rol.1.getLsbD ((i + k) % n) = a.getLsbD i) ∧ carry rol = rol.1.getLsbD 0 ∧
        RotateFlags rol k d v (rol.1.msb != rol.1.getLsbD 0)) ∧
      ((∀ i < n, ror.1.getLsbD i = a.getLsbD ((i + k) % n)) ∧ carry ror = ror.1.msb ∧
        RotateFlags ror k d v (ror.1.msb != ror.1.getLsbD (n - 2))) ∧
      ((∀ i ≤ n, (if (i + k) % (n + 1) < n then rcl.1.getLsbD ((i + k) % (n + 1)) else carry rcl) = ext i) ∧
        RotateFlags rcl k d v (rcl.1.msb != carry rcl)) ∧
      ((∀ i ≤ n, (if i < n then rcr.1.getLsbD i else carry rcr) = ext ((i + k) % (n + 1))) ∧
        RotateFlags rcr k d v (rcr.1.msb != rcr.1.getLsbD (n - 2))))

/-- SHLD and SHRD: a count of 0 writes the operand back and changes no flag (the spec's decision D29, log entry 43), a count
below the width shifts, with the value and the flags stated here, a larger count leaves an undefined result and undefined
flags. -/
def Obligations.DoubleShiftsComplete : Prop :=
  (∀ (w : Width) (a b : BitVec w.bits) (d : BitVec 6) (v : Word32) (k : Nat), 0 < k → k < w.bits →
    let n := w.bits
    let shld := shldOp a b k
    let shrd := shrdOp a b k
    (∀ i < n, shld.1.getLsbD i = if i < k then b.getLsbD (n - k + i) else a.getLsbD (i - k)) ∧
    ShiftFlags shld k d v (some (a.getLsbD (n - k))) (shld.1.msb != a.msb) ∧
    (∀ i < n, shrd.1.getLsbD i = if i < n - k then a.getLsbD (i + k) else b.getLsbD (i + k - n)) ∧
    ShiftFlags shrd k d v (some (a.getLsbD (k - 1))) (shrd.1.msb != a.msb)) ∧
  ∀ p ∈ doubleShifters, ∀ (os : Size) (x : RM) (r : Reg) (c : DCount) (s s1 : State) (d : BitVec os.width.bits), s.Fresh →
    updateRM os.width x s = .ok d s1 →
    (s.dcount c = 0 → ∀ s2, writeRM os.width d x s1 = .ok () s2 →
      ∃ t, exec (p.1 os x r c) s = .next t ∧
        Agree { s.retired with gpr := s.gpr.writeRM os.width x d } t ∧ Stored s t (s.storeRM os.width x d)) ∧
    (0 < s.dcount c → s.dcount c < os.bits →
      ∀ s2, writeRM os.width (p.2 _ d (s.gpr.read os.width r) (s.dcount c)).1 x s1 = .ok () s2 →
      ∃ t e, exec (p.1 os x r c) s = .next t ∧
        Agree { s.retired with
          gpr := s.gpr.writeRM os.width x (p.2 _ d (s.gpr.read os.width r) (s.dcount c)).1
          eflags := clearRf ((p.2 _ d (s.gpr.read os.width r) (s.dcount c)).2.apply e s.eflags) } t ∧
        Stored s t (s.storeRM os.width x (p.2 _ d (s.gpr.read os.width r) (s.dcount c)).1)) ∧
    (os.bits ≤ s.dcount c → (∀ v, ∃ s2, writeRM os.width v x { s1 with freeCtr := s1.freeCtr + 1 } = .ok () s2) →
      ∃ t v e, exec (p.1 os x r c) s = .next t ∧
        Agree { s.retired with gpr := s.gpr.writeRM os.width x v
                               eflags := clearRf (StatusUpd.undefined.apply e s.eflags) } t ∧
        Stored s t (s.storeRM os.width x v))

/-- BT, BTC, BTR, BTS: CF is the bit, the other status flags are undefined; all but BT change the bit. -/
def Obligations.BitTestsComplete : Prop :=
  ∀ p ∈ bitTests, ∀ (f : BitForm) (s : State), s.Fresh →
    (∀ b, bitDst f = .reg b → ∃ t d, exec (p.1 f) s = .next t ∧
      Agree { s.retired with
        gpr := if p.2.isNone then s.gpr
               else s.gpr.write (bitWidth f) b (bitAfter p.2 (s.gpr.read (bitWidth f) b) (bitSpot f s.gpr).2)
        eflags := clearRf ((bitFlags ((s.gpr.read (bitWidth f) b).getLsbD (bitSpot f s.gpr).2)).apply d s.eflags) } t ∧
      Stored s t []) ∧
    (∀ m n s1, bitDst f = .mem m → p.2 = none →
      memRead m.as (s.segOf m) (bitSpot f s.gpr).1 (bitWidth f).bytes 4 s = .ok n s1 →
      ∃ t d, exec (p.1 f) s = .next t ∧
        Agree { s.retired with eflags := clearRf ((bitFlags (n.testBit (bitSpot f s.gpr).2)).apply d s.eflags) } t ∧
        Stored s t []) ∧
    (∀ m n g s1 s2, bitDst f = .mem m → p.2 = some g →
      memReadWrite m.as (s.segOf m) (bitSpot f s.gpr).1 (bitWidth f).bytes 4 s = .ok n s1 →
      memWrite m.as (s.segOf m) (bitSpot f s.gpr).1 (bitWidth f).bytes 4
        (bitAfter (some g) (BitVec.ofNat (bitWidth f).bits n) (bitSpot f s.gpr).2).toNat s1 = .ok () s2 →
      ∃ t d, exec (p.1 f) s = .next t ∧
        Agree { s.retired with eflags := clearRf ((bitFlags (n.testBit (bitSpot f s.gpr).2)).apply d s.eflags) } t ∧
        Stored s t [((s.seg.get (s.segOf m)).base + (bitSpot f s.gpr).1, (bitWidth f).bytes,
          (bitAfter (some g) (BitVec.ofNat (bitWidth f).bits n) (bitSpot f s.gpr).2).toNat)])

/-- BSF and BSR: the number of the lowest or highest bit set; a source of 0 sets ZF and leaves the destination
undefined. -/
def Obligations.ScansComplete : Prop :=
  ∀ (os : Size) (r : Reg) (x : RM) (s s1 : State) (v : BitVec os.width.bits), s.Fresh → readRM os.width x s = .ok v s1 →
    (v ≠ 0 → ∃ t d k, exec (.bsf os r x) s = .next t ∧ v.getLsbD k = true ∧ (∀ j, j < k → v.getLsbD j = false) ∧
      Agree { s.retired with gpr := s.gpr.write os.width r (BitVec.ofNat _ k)
                             eflags := clearRf ((scanFlags false).apply d s.eflags) } t ∧ Stored s t []) ∧
    (v ≠ 0 → ∃ t d k, exec (.bsr os r x) s = .next t ∧ v.getLsbD k = true ∧ (∀ j, k < j → v.getLsbD j = false) ∧
      Agree { s.retired with gpr := s.gpr.write os.width r (BitVec.ofNat _ k)
                             eflags := clearRf ((scanFlags false).apply d s.eflags) } t ∧ Stored s t []) ∧
    (v = 0 → ∀ i ∈ [Instr.bsf os r x, .bsr os r x], ∃ t d u, exec i s = .next t ∧
      Agree { s.retired with gpr := s.gpr.write os.width r u
                             eflags := clearRf ((scanFlags true).apply d s.eflags) } t ∧ Stored s t [])

/-- SETcc writes 1 or 0 as its condition holds, and what each of the sixteen conditions says of CF, PF, ZF, SF and OF, bits 0, 2, 6, 7
and 11 of EFLAGS. -/
def Obligations.SetccComplete : Prop :=
  (∀ s : State,
    let cf := s.eflags.getLsbD 0
    let pf := s.eflags.getLsbD 2
    let zf := s.eflags.getLsbD 6
    let sf := s.eflags.getLsbD 7
    let of := s.eflags.getLsbD 11
    ∀ p ∈ [(Cond.o, of = true), (.no, of = false), (.b, cf = true), (.nb, cf = false), (.e, zf = true), (.ne, zf = false),
        (.be, cf = true ∨ zf = true), (.nbe, cf = false ∧ zf = false), (.s, sf = true), (.ns, sf = false), (.p, pf = true),
        (.np, pf = false), (.l, sf ≠ of), (.nl, sf = of), (.le, zf = true ∨ sf ≠ of), (.nle, zf = false ∧ sf = of)],
      (s.cond p.1 = true ↔ p.2)) ∧
  ∀ p ∈ setters, ∀ (x : RM) (s s1 : State), s.Fresh → writeRM .byte (if s.cond p.2 then 1#8 else 0#8) x s = .ok () s1 →
    ∃ t, exec (p.1 x) s = .next t ∧
      Agree { s.retired with gpr := s.gpr.writeRM .byte x (if s.cond p.2 then 1#8 else 0#8) } t ∧
      Stored s t (s.storeRM .byte x (if s.cond p.2 then 1#8 else 0#8))

/-- CBW, CWDE, CWD, CDQ: the sign of the accumulator is extended. BSWAP reverses the bytes of a doubleword register; with
an operand size of 16 the low half is undefined. -/
def Obligations.ConversionsComplete : Prop :=
  ∀ s : State, s.Fresh →
    (∀ r, (∃ t v, exec (.bswap .s32 r) s = .next t ∧ Stored s t [] ∧
        (∀ i < 4, v.extractLsb' (8 * i) 8 = (s.gpr.get r).extractLsb' (24 - 8 * i) 8) ∧
        Agree { s.retired with gpr := s.gpr.put r v } t) ∧
      (∃ t v, exec (.bswap .s16 r) s = .next t ∧ Stored s t [] ∧
        Agree { s.retired with gpr := s.gpr.write .word r v } t)) ∧
    (∃ t, exec .cbw s = .next t ∧ Stored s t [] ∧
      Agree { s.retired with gpr := s.gpr.write .word .eax ((s.gpr.read .byte .eax).signExtend 16) } t) ∧
    (∃ t, exec .cwde s = .next t ∧ Stored s t [] ∧
      Agree { s.retired with gpr := { s.gpr with eax := (s.gpr.read .word .eax).signExtend 32 } } t) ∧
    (∃ t, exec .cwd s = .next t ∧ Stored s t [] ∧
      Agree { s.retired with gpr := s.gpr.write .word .edx (if s.gpr.eax.getLsbD 15 then 0xFFFF#16 else 0#16) } t) ∧
    (∃ t, exec .cdq s = .next t ∧ Stored s t [] ∧
      Agree { s.retired with gpr := { s.gpr with edx := if s.gpr.eax.getLsbD 31 then 0xFFFFFFFF#32 else 0#32 } } t)

/-- LAHF, SAHF, CLC, STC, CMC, CLD, STD, NOP; CLI and STI in Real Mode and where CPL is at most IOPL. STI holds
interrupts off for one instruction if IF was 0: that it does so only then is the spec's decision D32 (log entry 43). -/
def Obligations.FlagMovesComplete : Prop :=
  ∀ s : State, s.Fresh →
    (s.real = true ∨ s.cpl.toNat ≤ s.iopl.toNat →
      (∃ t, exec .cli s = .next t ∧ Stored s t [] ∧
        Agree { s.retired with eflags := clearRf (setBit s.eflags 9 false) } t) ∧
      (∃ t, exec .sti s = .next t ∧ Stored s t [] ∧
        Agree { s.retired with eflags := clearRf (setBit s.eflags 9 true)
                               latch := { s.retired.latch with stiShadow := !s.ifl } } t)) ∧
    (∃ t, exec .lahf s = .next t ∧ Stored s t [] ∧
      Agree { s.retired with gpr := s.gpr.write .byte .esp (s.eflags.setWidth 8) } t) ∧
    (∃ t, exec .sahf s = .next t ∧ Stored s t [] ∧
      Agree { s.retired with
        eflags := clearRf ((s.eflags &&& 0xFFFFFF2A#32) ||| ((s.gpr.eax >>> 8) &&& 0xD5#32)) } t) ∧
    (∃ t, exec .clc s = .next t ∧ Stored s t [] ∧ Agree { s.retired with eflags := clearRf (setBit s.eflags 0 false) } t) ∧
    (∃ t, exec .stc s = .next t ∧ Stored s t [] ∧ Agree { s.retired with eflags := clearRf (setBit s.eflags 0 true) } t) ∧
    (∃ t, exec .cmc s = .next t ∧ Stored s t [] ∧ Agree { s.retired with eflags := clearRf (s.eflags ^^^ 1#32) } t) ∧
    (∃ t, exec .cld s = .next t ∧ Stored s t [] ∧ Agree { s.retired with eflags := clearRf (setBit s.eflags 10 false) } t) ∧
    (∃ t, exec .std s = .next t ∧ Stored s t [] ∧ Agree { s.retired with eflags := clearRf (setBit s.eflags 10 true) } t) ∧
    (∃ t, exec .nop s = .next t ∧ Stored s t [] ∧ Agree s.retired t)

/-- AAA, AAS, AAD, AAM, DAA, DAS, by the digits of AL and AH. AAD and AAM with a base other than 10 are the spec's decision
D21 (log entry 43); AAM with a base of 0 is another statement. -/
def Obligations.DecimalAdjustsComplete : Prop :=
  ∀ s : State, s.Fresh →
    let al := s.gpr.read .byte .eax
    let ah := s.gpr.read .byte .esp
    let adj := decide (9 < al.toNat % 16) || s.af
    let open4 : StatusUpd := { cf := .set adj, af := .set adj, of := .undef, sf := .undef, zf := .undef, pf := .undef }
    (∃ t d, exec .aaa s = .next t ∧ Stored s t [] ∧ Agree { s.retired with
      gpr := s.gpr.halves .byte (BitVec.ofNat 8 ((al.toNat + if adj then 6 else 0) % 16))
        (BitVec.ofNat 8 (ah.toNat + if adj then 1 else 0))
      eflags := clearRf (open4.apply d s.eflags) } t) ∧
    (∃ t d, exec .aas s = .next t ∧ Stored s t [] ∧ Agree { s.retired with
      gpr := s.gpr.halves .byte (BitVec.ofNat 8 ((al.toNat + if adj then 250 else 0) % 16))
        (BitVec.ofNat 8 (ah.toNat + if adj then 255 else 0))
      eflags := clearRf (open4.apply d s.eflags) } t) ∧
    (∀ base : Byte, ∃ t d, exec (.aad base) s = .next t ∧ Stored s t [] ∧ Agree { s.retired with
      gpr := s.gpr.halves .byte (BitVec.ofNat 8 (ah.toNat * base.toNat + al.toNat)) 0#8
      eflags := clearRf ((asciiFlags (BitVec.ofNat 8 (ah.toNat * base.toNat + al.toNat))).apply d s.eflags) } t) ∧
    (∀ base : Byte, base ≠ 0#8 → ∃ t d, exec (.aam base) s = .next t ∧ Stored s t [] ∧ Agree { s.retired with
      gpr := s.gpr.halves .byte (BitVec.ofNat 8 (al.toNat % base.toNat)) (BitVec.ofNat 8 (al.toNat / base.toNat))
      eflags := clearRf ((asciiFlags (BitVec.ofNat 8 (al.toNat % base.toNat))).apply d s.eflags) } t) ∧
    (∃ t d r, exec .daa s = .next t ∧ Stored s t [] ∧
      r = BitVec.ofNat 8 (al.toNat + (if adj then 6 else 0)
        + if 0x9F < (al.toNat + if adj then 6 else 0) % 256 ∨ s.cf = true then 0x60 else 0) ∧
      Agree { s.retired with
        gpr := s.gpr.write .byte .eax r
        eflags := clearRf ((withSzp r { cf := .set (decide (0x9F < (al.toNat + if adj then 6 else 0) % 256) || s.cf),
                                        af := .set adj, of := .undef }).apply d s.eflags) } t) ∧
    (∃ t d r, exec .das s = .next t ∧ Stored s t [] ∧
      r = BitVec.ofNat 8 (al.toNat + (if adj then 250 else 0)
        + if 0x9F < (al.toNat + if adj then 250 else 0) % 256 ∨ s.cf = true then 0xA0 else 0) ∧
      Agree { s.retired with
        gpr := s.gpr.write .byte .eax r
        eflags := clearRf ((withSzp r { cf := .set (decide (0x9F < (al.toNat + if adj then 250 else 0) % 256) || s.cf),
                                        af := .set adj, of := .undef }).apply d s.eflags) } t)

/-- MUL and the accumulator form of IMUL leave the double-width product in two registers; the forms of IMUL with a
register destination keep its low half. -/
def Obligations.MultipliesComplete : Prop :=
  (∀ (w : Width) (x : RM) (s s1 : State) (v : BitVec w.bits), s.Fresh → readRM w x s = .ok v s1 →
      (∃ t d, exec (.mul w x) s = .next t ∧ Stored s t [] ∧ Agree { s.retired with
        gpr := s.gpr.halves w (BitVec.ofNat _ ((s.gpr.read w .eax).toNat * v.toNat))
          (BitVec.ofNat _ ((s.gpr.read w .eax).toNat * v.toNat / 2 ^ w.bits))
        eflags := clearRf ((productFlags
          (decide (2 ^ w.bits ≤ (s.gpr.read w .eax).toNat * v.toNat))).apply d s.eflags) } t) ∧
      (∃ t d, exec (.imul (.one w x)) s = .next t ∧ Stored s t [] ∧ Agree { s.retired with
        gpr := s.gpr.halves w (BitVec.ofInt _ ((s.gpr.read w .eax).toInt * v.toInt))
          (BitVec.ofInt _ ((s.gpr.read w .eax).toInt * v.toInt / 2 ^ w.bits))
        eflags := clearRf ((productFlags
          (decide ((BitVec.ofInt w.bits ((s.gpr.read w .eax).toInt * v.toInt)).toInt ≠
            (s.gpr.read w .eax).toInt * v.toInt))).apply d s.eflags) } t)) ∧
  (∀ (f : ImulForm) (w : Width) (r : Reg) (x : RM) (b : Int) (s s1 : State) (v : BitVec w.bits), s.Fresh →
      readRM w x s = .ok v s1 →
      (∃ os, w = os.width ∧ (f = .two os r x ∧ b = (s.gpr.read w r).toInt ∨ ∃ i, f = .three8 os r x i ∧ b = i.toInt)) ∨
        (∃ i : Imm, w = i.width ∧ f = .three r x i ∧ b = i.val.toInt) →
      ∃ t d, exec (.imul f) s = .next t ∧ Stored s t [] ∧ Agree { s.retired with
        gpr := s.gpr.write w r (BitVec.ofInt _ (v.toInt * b))
        eflags := clearRf ((productFlags
          (decide ((BitVec.ofInt w.bits (v.toInt * b)).toInt ≠ v.toInt * b))).apply d s.eflags) } t)

/-- DIV and IDIV leave quotient and remainder where the quotient fits; every status flag is undefined. -/
def Obligations.DividesComplete : Prop :=
  ∀ (w : Width) (x : RM) (s s1 : State) (v : BitVec w.bits), s.Fresh → readRM w x s = .ok v s1 → v ≠ 0 →
    ((s.gpr.wide w).toNat / v.toNat < 2 ^ w.bits →
      ∃ t d, exec (.div w x) s = .next t ∧ Stored s t [] ∧ Agree { s.retired with
        gpr := s.gpr.halves w (BitVec.ofNat _ ((s.gpr.wide w).toNat / v.toNat))
          (BitVec.ofNat _ ((s.gpr.wide w).toNat % v.toNat))
        eflags := clearRf (StatusUpd.undefined.apply d s.eflags) } t) ∧
    (-(2 ^ (w.bits - 1) : Int) ≤ (s.gpr.wide w).toInt.tdiv v.toInt → (s.gpr.wide w).toInt.tdiv v.toInt < 2 ^ (w.bits - 1) →
      ∃ t d, exec (.idiv w x) s = .next t ∧ Stored s t [] ∧ Agree { s.retired with
        gpr := s.gpr.halves w (BitVec.ofInt _ ((s.gpr.wide w).toInt.tdiv v.toInt))
          (BitVec.ofInt _ ((s.gpr.wide w).toInt.tmod v.toInt))
        eflags := clearRf (StatusUpd.undefined.apply d s.eflags) } t)

/-- CMPXCHG, XADD and XCHG. The destination of CMPXCHG is written whether or not it equals the accumulator; a memory
operand of XCHG is exchanged under lock, prefix or not. -/
def Obligations.ExchangesComplete : Prop :=
  (∀ (w : Width) (x : RM) (r : Reg) (s s1 : State) (d : BitVec w.bits), s.Fresh → updateRM w x s = .ok d s1 →
      (s.gpr.read w .eax = d → ∀ s2, writeRM w (s.gpr.read w r) x s1 = .ok () s2 →
        ∃ t e, exec (.cmpxchg w x r) s = .next t ∧
          Agree { s.retired with gpr := s.gpr.writeRM w x (s.gpr.read w r)
                                 eflags := clearRf ((subFlags (s.gpr.read w .eax) d false).2.apply e s.eflags) } t ∧
          Stored s t (s.storeRM w x (s.gpr.read w r))) ∧
      (s.gpr.read w .eax ≠ d → ∀ s2, writeRM w d x s1 = .ok () s2 →
        ∃ t e, exec (.cmpxchg w x r) s = .next t ∧
          Agree { s.retired with gpr := (s.gpr.writeRM w x d).write w .eax d
                                 eflags := clearRf ((subFlags (s.gpr.read w .eax) d false).2.apply e s.eflags) } t ∧
          Stored s t (s.storeRM w x d)) ∧
      (∀ y, x = .reg y → ∃ t e, exec (.xadd w x r) s = .next t ∧ Stored s t [] ∧
        Agree { s.retired with
          gpr := (s.gpr.write w r d).write w y (BitVec.ofNat _ (d.toNat + (s.gpr.read w r).toNat))
          eflags := clearRf ((addFlags d (s.gpr.read w r) false).2.apply e s.eflags) } t) ∧
      (∀ m s2, x = .mem m → writeMem w m (BitVec.ofNat _ (d.toNat + (s.gpr.read w r).toNat)) s1 = .ok () s2 →
        ∃ t e, exec (.xadd w x r) s = .next t ∧
          Agree { s.retired with
            gpr := s.gpr.write w r d
            eflags := clearRf ((addFlags d (s.gpr.read w r) false).2.apply e s.eflags) } t ∧
          Stored s t (s.storeRM w x (BitVec.ofNat _ (d.toNat + (s.gpr.read w r).toNat))))) ∧
  (∀ s : State, s.Fresh →
      (∀ os r, ∃ t, exec (.xchg (.acc os r)) s = .next t ∧ Stored s t [] ∧
        Agree { s.retired with
          gpr := (s.gpr.write os.width .eax (s.gpr.read os.width r)).write os.width r (s.gpr.read os.width .eax) } t) ∧
      (∀ w a r, ∃ t, exec (.xchg (.rm w (.reg a) r)) s = .next t ∧ Stored s t [] ∧
        Agree { s.retired with gpr := (s.gpr.write w a (s.gpr.read w r)).write w r (s.gpr.read w a) } t) ∧
      (∀ w m r d s1 s2, updateMem w m s.locked = .ok d s1 → writeMem w m (s.gpr.read w r) s1 = .ok () s2 →
        ∃ t, exec (.xchg (.rm w (.mem m) r)) s = .next t ∧
          Agree { s.retired with gpr := s.gpr.write w r d } t ∧ Stored s t (s.storeRM w (.mem m) (s.gpr.read w r))))

/-! Data movement. -/

/-- MOV of data, every form. -/
def Obligations.MovesComplete : Prop :=
  ∀ s : State, s.Fresh →
    (∀ w x r s1, writeRM w (s.gpr.read w r) x s = .ok () s1 → ∃ t, exec (.mov (.rmReg w x r)) s = .next t ∧
      Agree { s.retired with gpr := s.gpr.writeRM w x (s.gpr.read w r) } t ∧ Stored s t (s.storeRM w x (s.gpr.read w r))) ∧
    (∀ w x r v s1, readRM w x s = .ok v s1 → ∃ t, exec (.mov (.regRm w r x)) s = .next t ∧
      Agree { s.retired with gpr := s.gpr.write w r v } t ∧ Stored s t []) ∧
    (∀ w (o : Offset) n s1, memRead o.size (s.segOr .ds) o.val w.bytes w.bytes s = .ok n s1 →
      ∃ t, exec (.mov (.accMoffs w o)) s = .next t ∧
        Agree { s.retired with gpr := s.gpr.write w .eax (BitVec.ofNat _ n) } t ∧ Stored s t []) ∧
    (∀ w (o : Offset) s1, memWrite o.size (s.segOr .ds) o.val w.bytes w.bytes (s.gpr.read w .eax).toNat s = .ok () s1 →
      ∃ t, exec (.mov (.moffsAcc w o)) s = .next t ∧ Agree s.retired t ∧
        Stored s t [((s.seg.get (s.segOr .ds)).base + o.val, w.bytes, (s.gpr.read w .eax).toNat)]) ∧
    (∀ r (v : Imm), ∃ t, exec (.mov (.regImm r v)) s = .next t ∧
      Agree { s.retired with gpr := s.gpr.write v.width r v.val } t ∧ Stored s t []) ∧
    (∀ x (v : Imm) s1, writeRM v.width v.val x s = .ok () s1 → ∃ t, exec (.mov (.rmImm x v)) s = .next t ∧
      Agree { s.retired with gpr := s.gpr.writeRM v.width x v.val } t ∧ Stored s t (s.storeRM v.width x v.val))

/-- MOVSX, MOVZX, LEA, XLAT and MOV from a segment register. That the last writes the low half of a register only, for either
operand size, is the spec's decision D28 (log entry 43). -/
def Obligations.ExtensionsComplete : Prop :=
  ∀ s : State, s.Fresh →
    (∀ os r x v s1, readRM .byte x s = .ok v s1 →
      (∃ t, exec (.movsx (.byte os r x)) s = .next t ∧ Stored s t [] ∧
        Agree { s.retired with gpr := s.gpr.write os.width r (v.signExtend _) } t) ∧
      (∃ t, exec (.movzx (.byte os r x)) s = .next t ∧ Stored s t [] ∧
        Agree { s.retired with gpr := s.gpr.write os.width r (v.setWidth _) } t)) ∧
    (∀ os r x v s1, readRM .word x s = .ok v s1 →
      (∃ t, exec (.movsx (.word os r x)) s = .next t ∧ Stored s t [] ∧
        Agree { s.retired with gpr := s.gpr.write os.width r (v.signExtend _) } t) ∧
      (∃ t, exec (.movzx (.word os r x)) s = .next t ∧ Stored s t [] ∧
        Agree { s.retired with gpr := s.gpr.write os.width r (v.setWidth _) } t)) ∧
    (∀ os r m, ∃ t, exec (.lea os r m) s = .next t ∧ Stored s t [] ∧
      Agree { s.retired with gpr := s.gpr.write os.width r ((s.gpr.ea m).setWidth _) } t) ∧
    (∀ as n s1, memRead as (s.segOr .ds) (as.trunc (s.gpr.ebx + (s.gpr.read .byte .eax).setWidth 32)) 1 1 s = .ok n s1 →
      ∃ t, exec (.xlat as) s = .next t ∧ Stored s t [] ∧
        Agree { s.retired with gpr := s.gpr.write .byte .eax (BitVec.ofNat 8 n) } t) ∧
    (∀ os x r s1, writeRM .word (s.seg.get r).sel x s = .ok () s1 → ∃ t, exec (.movFromSeg os x r) s = .next t ∧
      Agree { s.retired with gpr := s.gpr.writeRM .word x (s.seg.get r).sel } t ∧
      Stored s t (s.storeRM .word x (s.seg.get r).sel))

/-- IN and OUT where the port may be used (21 R290): the platform sees the access; IN takes what the platform answers. That
ports 00F8h to 00FFh and an access that runs past port FFFFh are driven like any other is the model's choice (log entry 38; 93 U22,
U23). -/
def Obligations.PortsComplete : Prop :=
  ∀ (f : IoForm) (s s1 : State) (p : Word16) (w : Width), s.Fresh →
    (∃ n, f = .imm w n ∧ p = n.setWidth 16) ∨ (f = .dx w ∧ p = s.gpr.edx.setWidth 16) →
    ioPermit p w.bytes s = .ok () s1 →
    (∃ t v, exec (.inp f) s = .next t ∧ Stored s t [] ∧ Agree { s.retired with
      gpr := s.gpr.write w .eax v, events := s.events ++ [.ioRead p w.bytes] } t) ∧
    (∃ t, exec (.outp f) s = .next t ∧ Stored s t [] ∧ Agree { s.retired with
      events := s.events ++ [.ioWrite p w.bytes ((s.gpr.read w .eax).setWidth 32)] } t)

/-! Segment registers. -/

/-- MOV and POP to a segment register, LDS, LES, LFS, LGS, LSS. What the load leaves in the register is another statement;
here: nothing else changes but the accessed byte of the descriptor, whose accessed bit is set and whose other bits stay (with paging
on: one read-modify-write of it, `Reaches`), and loading
SS by MOV or POP begins an interrupt shadow. -/
def Obligations.SegmentLoadsComplete : Prop :=
  ∀ s : State, s.Fresh →
    let others (v : Word16) (t : State) : Prop := s.memOk = true → s.paging = false →
      ∀ a, a ≠ (s.phys (descAddr s v + 5#32)).toNat → Memory.read t.mem a = Memory.read s.mem a
    let marks (v : Word16) (u t : State) : Prop :=
      let plain : Prop := s.paging = false ∧ s.WritesThrough
      (s.prot = false ∨ selNull v = true → (plain → t.mem = s.mem) ∧ Reaches s t [] []) ∧
      (∀ d w, s.prot = true → selNull v = false → readDesc v u = .ok d w →
        (plain → t.mem = s.memMark v d s.mem) ∧ Reaches s t [] (s.marking v d))
    (∀ r x v s1 s2, r ≠ .cs → readRM .word x s = .ok v s1 → loadSeg r v s1 = .ok () s2 →
      ∃ t, exec (.movToSeg r x) s = .next t ∧ others v t ∧ marks v s1 t ∧
        Agree { s.retired with seg := s2.seg
                               latch := { s.retired.latch with inhibitNext := decide (r = .ss) } } t) ∧
    (∀ os r v s1 s2, r ≠ .cs → stackRead 0 os.bytes s = .ok v s1 →
      loadSeg r (BitVec.ofNat 16 v) (s1.moveSp (BitVec.ofNat 32 os.bytes)) = .ok () s2 →
      ∃ t, exec (.popSeg os r) s = .next t ∧ others (BitVec.ofNat 16 v) t ∧ marks (BitVec.ofNat 16 v) s1 t ∧
        Agree { s.retired with gpr := s.espPlus (BitVec.ofNat 32 os.bytes), seg := s2.seg
                               latch := { s.retired.latch with inhibitNext := decide (r = .ss) } } t) ∧
    (∀ p ∈ farLoaders, ∀ os d m f s1 s2, readFar os m s = .ok f s1 → loadSeg p.2 f.2 s1 = .ok () s2 →
      ∃ t, exec (p.1 os d m) s = .next t ∧ others f.2 t ∧ marks f.2 s1 t ∧
        Agree { s.retired with gpr := s.gpr.write os.width d (f.1.setWidth _), seg := s2.seg } t)

/-- What a load leaves in a segment register: a paragraph in Real and V86 Mode, a null selector, or the descriptor, which
is present and passes the checks of the register. And the checks of far transfers, in their order, with the exception of each: what a
descriptor is; a code segment reached directly, a gate, a TSS named directly or through a task gate, the code segment a call gate leads
to, the CS and SS of a return, and the stack of an inner level, which the TSS holds. `e` is the exception of the caller: #GP, or #TS
for a CALL, an event or IRET (90_conflicts.md C24). The places of the inner stacks in the TSS (R981, R982), the limit test there and its
#TS with the selector in TR (R983) are general knowledge that the spec adopts by its decision D49 (log entry 43). The attribute bits
that V86 Mode gives a register and R182 does not state (`SegReg.v86`) are the model's choice (log entry 3). That a TSS descriptor which
stands in the LDT counts as not available is DEDUCED (log entry 21). -/
def Obligations.SegmentRegisterRules : Prop :=
  (∀ d : Desc,
    let sys (l : List (BitVec 4)) : Prop := d.hi.getLsbD 12 = false ∧ d.hi.extractLsb' 8 4 ∈ l
    (d.isCode = true ↔ d.hi.getLsbD 12 = true ∧ d.hi.getLsbD 11 = true) ∧
    (d.conforming = true ↔ d.isCode = true ∧ d.hi.getLsbD 10 = true) ∧
    (farTarget d = .code ↔ d.isCode = true) ∧ (farTarget d = .callGate ↔ sys [4#4, 0xC#4]) ∧
    (farTarget d = .taskGate ↔ sys [5#4]) ∧ (farTarget d = .tss ↔ sys [1#4, 3#4, 9#4, 0xB#4]) ∧
    (d.isFreeTss = true ↔ sys [1#4, 9#4]) ∧ (d.isBusyTss = true ↔ sys [3#4, 0xB#4])) ∧
  (∀ (x : Word16) (s : State),
    let gp : Exc := excGP (selCode x false)
    let np : Exc := excNP (selCode x false)
    (Named (farDesc x) x s (excGP 0#16) gp ∧ (selNull x = false → selInTable s x = true → farDesc x s = readDesc x s)) ∧
    (∀ d : Desc, Ladder (checkDirect x d) s () s
      [((d.conforming = true → d.dpl.toNat ≤ s.cpl.toNat) ∧
          (d.conforming = false → (selRpl x).toNat ≤ s.cpl.toNat ∧ d.dpl = s.cpl), gp), (d.present = true, np)]) ∧
    (∀ (d : Desc) (e : Word16 → Exc),
      let level : Prop := s.cpl.toNat ≤ d.dpl.toNat ∧ (selRpl x).toNat ≤ d.dpl.toNat
      Ladder (checkDpl x d e) s () s [(level, e (selCode x false))] ∧
      Ladder (checkGate x d e) s () s [(level, e (selCode x false)), (d.present = true, np)] ∧
      Ladder (checkTask x d e) s () s
        [(level ∧ selTi x = false ∧ d.isFreeTss = true, e (selCode x false)), (d.present = true, np)]) ∧
    (∀ (ext : Bool) (e : Word16 → Exc),
      (selNull x = true ∨ selTi x = true ∨ selInTable s x = false → checkTss x ext e s = .error (e (selCode x ext)) s) ∧
      (∀ d t, selNull x = false → selTi x = false → selInTable s x = true → readDesc x s = .ok d t →
        Ladder (checkTss x ext e) s () t
          [(d.isFreeTss = true, e (selCode x ext)), (d.present = true, excNP (selCode x ext))])) ∧
    (∀ (g : Desc) (jmp : Bool), g.gateSel = x → Named (gateTarget g jmp) x s (excGP 0#16) gp ∧
      ∀ c t, selNull x = false → selInTable s x = true → readDesc x s = .ok c t →
        Ladder (gateTarget g jmp) s c t [(c.isCode = true, gp),
          ((jmp = true ∧ c.conforming = false → c.dpl = s.cpl) ∧ c.dpl.toNat ≤ s.cpl.toNat, gp), (c.present = true, np)]) ∧
    (∀ level : BitVec 2, Named (checkReturnCs x level) x s (excGP 0#16) gp ∧
      ∀ c t, selNull x = false → selInTable s x = true → readDesc x s = .ok c t →
        Ladder (checkReturnCs x level) s c t [(c.isCode = true, gp),
          ((c.conforming = true → c.dpl.toNat ≤ level.toNat) ∧ (c.conforming = false → c.dpl = level), gp),
          (c.present = true, np)]) ∧
    (∀ level : BitVec 2, Named (checkReturnSs x level) x s (excGP 0#16) gp ∧
      (selNull x = false → selInTable s x = true → selRpl x ≠ level → checkReturnSs x level s = .error gp s) ∧
      ∀ d t, selNull x = false → selInTable s x = true → selRpl x = level → readDesc x s = .ok d t →
        Ladder (checkReturnSs x level) s d t [(d.writable = true ∧ d.dpl = level, gp), (d.present = true, np)])) ∧
  (∀ (level : BitVec 2) (ext : Bool) (s : State),
    (∀ x p u, tssStack level ext s = .ok (x, p) u →
      let ts : Exc := excTS (selCode x ext)
      (selNull x = true → innerStack level ext s = .error (excTS (extCode ext)) u) ∧
      (selNull x = false → selInTable u x = false ∨ selRpl x ≠ level → innerStack level ext s = .error ts u) ∧
      (∀ d t, selNull x = false → selInTable u x = true → selRpl x = level → readDesc x u = .ok d t →
        Ladder (innerStack level ext) s (x, p, d) t
          [(d.dpl = level ∧ d.writable = true, ts), (d.present = true, excSS (selCode x ext))])) ∧
    (let at' : Nat := match s.tr.format with
        | .tss486 => 4 + 8 * level.toNat
        | .tss286 => 2 + 4 * level.toNat
     let n : Nat := match s.tr.format with
        | .tss486 => 4
        | .tss286 => 2
     (s.tr.limit.toNat < at' + n + 1 → tssStack level ext s = .error (excTS (selCode s.tr.sel ext)) s) ∧
     (∀ x p u, s.Uncached → s.paging = false → tssStack level ext s = .ok (x, p) u →
       p = BitVec.ofNat 32 (s.memNat (s.tr.base + BitVec.ofNat 32 at') n) ∧
       x = BitVec.ofNat 16 (s.memNat (s.tr.base + BitVec.ofNat 32 (at' + n)) 2)))) ∧
  ∀ (r : SReg) (v : Word16) (s t : State), loadSeg r v s = .ok () t →
    (s.real = true → t = { s with seg := s.seg.put r { s.seg.get r with
      sel := v, base := v.setWidth 32 <<< 4, usable := true } }) ∧
    (s.v86 = true → t = { s with seg := s.seg.put r (SegReg.v86 v) }) ∧
    (s.prot = true → selNull v = true → r ≠ .ss ∧ t = { s with seg := s.seg.put r ((s.seg.get r).null v) }) ∧
    (s.prot = true → selNull v = false → ∃ d u, readDesc v s = .ok d u ∧ selInTable s v = true ∧ d.present = true ∧
      t.seg = s.seg.put r (d.toSeg v) ∧ t.gpr = s.gpr ∧ t.eip = s.eip ∧ t.eflags = s.eflags ∧ t.cpl = s.cpl ∧
      (r = .ss → d.writable = true ∧ d.dpl = s.cpl ∧ selRpl v = s.cpl) ∧
      (r ≠ .ss → d.readable = true ∧
        (d.conforming = true ∨ (s.cpl.toNat ≤ d.dpl.toNat ∧ (selRpl v).toNat ≤ d.dpl.toNat))))

/-! The stack. -/

/-- PUSH of data or of a segment register: the value is stored below the stack pointer, which moves down. That a segment register
in a doubleword slot has a zero upper half is log entry 47 (DESIGN CHOICE, the spec's U46, 43 R577). V86 Mode with SP = 1, where the
listing shuts the processor down, is left out: log entry 37. -/
def Obligations.PushesComplete : Prop :=
  ∀ (s s1 s2 : State) (i : Instr) (n v : Nat), s.Fresh →
    (∃ (os : Size) (x : RM) (b : BitVec os.width.bits), n = os.bytes ∧ i = .push (.rm os x) ∧
      readRM os.width x s = .ok b s1 ∧ v = b.toNat) ∨
    (s1 = s ∧ ((∃ (os : Size) (r : Reg), n = os.bytes ∧ i = .push (.reg os r) ∧ v = (s.gpr.read os.width r).toNat) ∨
      (∃ (os : Size) (b : Byte), n = os.bytes ∧ i = .push (.imm8 os b) ∧ v = (b.signExtend os.width.bits).toNat) ∨
      (∃ b : Imm, n = b.width.bytes ∧ i = .push (.imm b) ∧ v = b.val.toNat) ∨
      (∃ (os : Size) (r : SReg), n = os.bytes ∧ i = .pushSeg os r ∧ v = (s.seg.get r).sel.toNat))) →
    ¬ (s.v86 = true ∧ s.sp = 1#32) → pushesTo n [v] s1 s2 →
    ∃ t, exec i s = .next t ∧ Agree { s.retired with gpr := s.espPlus (-BitVec.ofNat 32 n) } t ∧
      Stored s t (s.pushStores n [v])

/-- PUSHF, PUSHFD, POPF and POPFD. VM is pushed as 0; what is loaded depends on the privilege level and the operand size, bit by bit
of EFLAGS. -/
def Obligations.FlagStackComplete : Prop :=
  (∀ image size cpl rf old, FlagsLoaded image size cpl rf old (loadFlags image size cpl rf old)) ∧
  ∀ s : State, s.Fresh → (s.v86 = true → s.iopl = 3#2) →
    (∀ s2, pushesTo 2 [(s.eflags &&& 0xFFFDFFFF#32).toNat % 2 ^ 16] s s2 → ∃ t, exec .pushf s = .next t ∧
      Agree { s.retired with gpr := s.espPlus (-2#32) } t ∧
      Stored s t (s.pushStores 2 [(s.eflags &&& 0xFFFDFFFF#32).toNat % 2 ^ 16])) ∧
    (∀ s2, pushesTo 4 [(s.eflags &&& 0xFFFDFFFF#32).toNat] s s2 → ∃ t, exec .pushfd s = .next t ∧
      Agree { s.retired with gpr := s.espPlus (-4#32) } t ∧
      Stored s t (s.pushStores 4 [(s.eflags &&& 0xFFFDFFFF#32).toNat])) ∧
    (∀ v s1, stackRead 0 2 s = .ok v s1 → ∃ t, exec .popf s = .next t ∧ Stored s t [] ∧
      Agree { s.retired with gpr := s.espPlus 2#32
                             eflags := loadFlags (BitVec.ofNat 32 v) .s16 s.cpl false s.eflags } t) ∧
    (∀ v s1, stackRead 0 4 s = .ok v s1 → ∃ t, exec .popfd s = .next t ∧ Stored s t [] ∧
      Agree { s.retired with gpr := s.espPlus 4#32
                             eflags := loadFlags (BitVec.ofNat 32 v) .s32 s.cpl false s.eflags } t)

/-- POP to a register or to memory. A memory destination is addressed with the stack pointer already raised; POP of the
stack pointer leaves the value popped. -/
def Obligations.PopsComplete : Prop :=
  ∀ (os : Size) (s s1 : State) (v : Nat), s.Fresh → stackRead 0 os.bytes s = .ok v s1 →
    (∀ r, ∃ t, exec (.pop (.reg os r)) s = .next t ∧ Stored s t [] ∧
      Agree { s.retired with gpr := (s.espPlus (BitVec.ofNat 32 os.bytes)).write os.width r (BitVec.ofNat _ v) } t) ∧
    (∀ x s2, writeRM os.width (BitVec.ofNat _ v) x (s1.moveSp (BitVec.ofNat 32 os.bytes)) = .ok () s2 →
      ∃ t, exec (.pop (.rm os x)) s = .next t ∧
        Agree { s.retired with
          gpr := (s.espPlus (BitVec.ofNat 32 os.bytes)).writeRM os.width x (BitVec.ofNat _ v) } t ∧
        Stored s t ((s.moveSp (BitVec.ofNat 32 os.bytes)).storeRM os.width x (BitVec.ofNat _ v)))

/-- PUSHA, PUSHAD, POPA and POPAD: eight registers, the stack pointer as it was before; POPA drops the slot of the stack
pointer. -/
def Obligations.AllRegistersComplete : Prop :=
  ∀ (os : Size) (s s2 : State), s.Fresh →
    let regs := [Reg.eax, .ecx, .edx, .ebx, .esp, .ebp, .esi, .edi].map fun r => (s.gpr.read os.width r).toNat
    (pushAllCheck os.bytes s = .ok () s → pushesTo os.bytes regs s s2 →
      ∃ t, exec (match os with
          | .s16 => .pusha
          | .s32 => .pushad) s = .next t ∧
        Agree { s.retired with gpr := s.espPlus (-BitVec.ofNat 32 (8 * os.bytes)) } t ∧
        Stored s t (s.pushStores os.bytes regs)) ∧
    (∀ di si bp x bx dx cx ax, s.topOk (8 * os.bytes) = true →
      stackItems os.bytes 0 8 s = .ok [di, si, bp, x, bx, dx, cx, ax] s2 →
      ∃ t, exec (match os with
          | .s16 => .popa
          | .s32 => .popad) s = .next t ∧ Stored s t [] ∧
        Agree { s.retired with
          gpr := { eax := os.merge s.gpr.eax (BitVec.ofNat 32 ax), ecx := os.merge s.gpr.ecx (BitVec.ofNat 32 cx)
                   edx := os.merge s.gpr.edx (BitVec.ofNat 32 dx), ebx := os.merge s.gpr.ebx (BitVec.ofNat 32 bx)
                   esp := (s.espPlus (BitVec.ofNat 32 (8 * os.bytes))).esp
                   ebp := os.merge s.gpr.ebp (BitVec.ofNat 32 bp), esi := os.merge s.gpr.esi (BitVec.ofNat 32 si)
                   edi := os.merge s.gpr.edi (BitVec.ofNat 32 di) } } t)

/-- ENTER and LEAVE. ENTER of level 0 pushes (E)BP alone; of a higher level it also pushes the frame pointers it copies, one for
each level but the last, and the new frame pointer: all of them are in the slots below the stack pointer. That LEAVE takes (E)SP
by the stack size and pops by the operand size is the spec's decision D25 (log entry 43). -/
def Obligations.FramesComplete : Prop :=
  ∀ (os : Size) (s s1 : State), s.Fresh →
    let bp := (s.gpr.read os.width .ebp).toNat
    let frame := (s.moveSp (-BitVec.ofNat 32 os.bytes)).sp
    (∀ (alloc : Word16) (lev : Byte) (vs : List Nat) (s2 s3 : State), lev.toNat % 32 = vs.length + 1 →
      pushesTo os.bytes [bp] s s1 → copiesTo os vs s1.commitStores s2 →
      pushesTo os.bytes [(frame.setWidth os.width.bits).toNat] s2 s3 →
      ∃ t, exec (.enter os alloc lev) s = .next t ∧
        Agree { s.retired with
          gpr := { (s.espPlus (-BitVec.ofNat 32 (os.bytes * (vs.length + 2)) - alloc.setWidth 32)) with
                   ebp := os.merge s.gpr.ebp frame } } t ∧
        Stored s t (s.pushStores os.bytes (bp :: (vs ++ [(frame.setWidth os.width.bits).toNat])))) ∧
    (∀ (alloc : Word16) (lev : Byte), lev.toNat % 32 = 0 → pushesTo os.bytes [bp] s s1 →
      ∃ t, exec (.enter os alloc lev) s = .next t ∧
        Agree { s.retired with
          gpr := { (s.espPlus (-BitVec.ofNat 32 os.bytes - alloc.setWidth 32)) with
                   ebp := os.merge s.gpr.ebp frame } } t ∧
        Stored s t (s.pushStores os.bytes [bp])) ∧
    (∀ v, stackRead 0 os.bytes { s with gpr := { s.gpr with esp := s.stackSize.merge s.gpr.esp s.gpr.ebp } } = .ok v s1 →
      ∃ t, exec (.leave os) s = .next t ∧ Stored s t [] ∧
        Agree { s.retired with
          gpr := { s.gpr with
                   esp := s.stackSize.merge s.gpr.esp (s.stackSize.trunc s.gpr.ebp + BitVec.ofNat 32 os.bytes)
                   ebp := os.merge s.gpr.ebp (BitVec.ofNat 32 v) } } t)

/-! Strings. -/

/-- The string instructions without a repeat prefix: one access or two, the index registers stepped by DF. INS and OUTS drive
every port alike (log entry 38); which of two operands is read and checked first is log entry 18. -/
def Obligations.StringsComplete : Prop :=
  ∀ (as : Size) (w : Width) (s : State) (i : Instr), s.Fresh → s.insn.rep = none →
    let di := s.stepIndex as s.gpr.edi w.bytes
    let si := s.stepIndex as s.gpr.esi w.bytes
    let src := s.srcIndex as
    let dst := s.dstIndex as
    let one (v : Nat) : List Store := [(s.seg.es.base + dst, w.bytes, v)]
    (Sized (.lodsb as) (.lodsw · as) i w → ∀ n s1, memRead as (s.segOr .ds) src w.bytes w.bytes s = .ok n s1 →
      ∃ t, exec i s = .next t ∧ Stored s t [] ∧
        Agree { s.retired with gpr := { s.gpr.write w .eax (BitVec.ofNat _ n) with esi := si } } t) ∧
    (Sized (.stosb as) (.stosw · as) i w → ∀ s1, memWrite as .es dst w.bytes w.bytes (s.gpr.read w .eax).toNat s = .ok () s1 →
      ∃ t, exec i s = .next t ∧ Stored s t (one (s.gpr.read w .eax).toNat) ∧
        Agree { s.retired with gpr := { s.gpr with edi := di } } t) ∧
    (Sized (.movsb as) (.movsw · as) i w → ∀ n s1 s2,
      segTypeOk s s.seg.es .write = true → segLimitOk as s.seg.es dst.toNat w.bytes = true →
      memRead as (s.segOr .ds) src w.bytes w.bytes s = .ok n s1 → memWrite as .es dst w.bytes w.bytes n s1 = .ok () s2 →
      ∃ t, exec i s = .next t ∧ Stored s t (one n) ∧
        Agree { s.retired with gpr := { s.gpr with esi := si, edi := di } } t) ∧
    (Sized (.cmpsb as) (.cmpsw · as) i w → ∀ a b s1 s2,
      memRead as (s.segOr .ds) src w.bytes w.bytes s = .ok a s1 → memRead as .es dst w.bytes w.bytes s1 = .ok b s2 →
      ∃ t d, exec i s = .next t ∧ Stored s t [] ∧ Agree { s.retired with
        gpr := { s.gpr with esi := si, edi := di }
        eflags := clearRf ((subFlags (BitVec.ofNat w.bits a) (BitVec.ofNat w.bits b) false).2.apply d s.eflags) } t) ∧
    (Sized (.scasb as) (.scasw · as) i w → ∀ b s1, memRead as .es dst w.bytes w.bytes s = .ok b s1 →
      ∃ t d, exec i s = .next t ∧ Stored s t [] ∧ Agree { s.retired with
        gpr := { s.gpr with edi := di }
        eflags := clearRf ((subFlags (s.gpr.read w .eax) (BitVec.ofNat w.bits b) false).2.apply d s.eflags) } t) ∧
    (Sized (.insb as) (.insw · as) i w → ∀ s1 s2, ioPermit (s.gpr.edx.setWidth 16) w.bytes s = .ok () s1 →
      memProbe as .es dst w.bytes w.bytes s1 = .ok () s2 →
      (∀ v, ∃ s3, memWrite as .es dst w.bytes w.bytes v
        { s2 with freeCtr := s2.freeCtr + 1
                  events := s2.events ++ [.ioRead (s.gpr.edx.setWidth 16) w.bytes] } = .ok () s3) →
      ∃ t v, exec i s = .next t ∧ Stored s t (one v) ∧ Agree { s.retired with
        gpr := { s.gpr with edi := di }
        events := s.events ++ [.ioRead (s.gpr.edx.setWidth 16) w.bytes] } t) ∧
    (Sized (.outsb as) (.outsw · as) i w → ∀ n s1 s2, ioPermit (s.gpr.edx.setWidth 16) w.bytes s = .ok () s1 →
      memRead as (s.segOr .ds) src w.bytes w.bytes s1 = .ok n s2 →
      ∃ t, exec i s = .next t ∧ Stored s t [] ∧ Agree { s.retired with
        gpr := { s.gpr with esi := si }
        events := s.events ++ [.ioWrite (s.gpr.edx.setWidth 16) w.bytes (BitVec.ofNat 32 n)] } t)

/-- Repetition. A count of 0 does nothing. Otherwise one iteration runs and the count falls by 1; while it is not 0 (and,
for CMPS and SCAS, ZF does not end it) the instruction is run again from its first byte, RF kept.
That EIP goes back to the first prefix byte is the spec's decision D30 (log entry 43); that the interrupt latches stay is DEDUCED (log
entry 30). -/
def Obligations.RepeatsComplete : Prop :=
  ∀ (i : Instr) (as : Size) (cmp : Bool) (body : M Unit) (s u : State) (p : Rep), stringBody i = some (as, cmp, body) →
    s.Fresh → s.insn.rep = some p →
    (as.trunc s.gpr.ecx = 0#32 → ∃ t, exec i s = .next t ∧ Agree s.retired t ∧ Stored s t []) ∧
    (as.trunc s.gpr.ecx ≠ 0#32 → body s = .ok () u →
      let left := as.merge u.gpr.ecx (u.gpr.ecx - 1#32)
      let more := as.trunc left ≠ 0#32 ∧ (cmp = true → (u.zf = true ↔ p = .repe))
      ∃ t, exec i s = .next t ∧ t.mem = (finish s u).mem ∧ t.eip = (if more then s.insn.start else s.eip) ∧
        Agree { u with gpr := { u.gpr with ecx := left }, eip := t.eip
                       eflags := if more then u.eflags else clearRf u.eflags
                       latch := if more then s.latch else s.retired.latch } t)

/-! Transfers of control. -/

/-- Jcc: the jump is taken when the condition holds and its target is in the code segment. What each condition says of the flags is
SetccComplete's. -/
def Obligations.CondJumpsComplete : Prop :=
  ∀ p ∈ condJumps, ∀ (d : Rel) (s : State), s.Fresh →
    (s.cond p.2 = false → ∃ t, exec (p.1 d) s = .next t ∧ Agree s.retired t ∧ Stored s t []) ∧
    (s.cond p.2 = true → eipOk s.seg.cs.limit (d.os.trunc (s.eip + d.disp)) = true →
      ∃ t, exec (p.1 d) s = .next t ∧ Agree { s.retired with eip := d.os.trunc (s.eip + d.disp) } t ∧ Stored s t [])

/-- JCXZ, JECXZ and the loops: the count register is that of the address size; the loops lower it and change no flag. -/
def Obligations.CountJumpsComplete : Prop :=
  ∀ (os : Size) (d : Byte) (s : State), s.Fresh →
    let target := os.trunc (s.eip + d.signExtend 32)
    (∀ p ∈ [(Instr.jcxz os d, Size.s16), (.jecxz os d, .s32)],
      (p.2.trunc s.gpr.ecx ≠ 0#32 → ∃ t, exec p.1 s = .next t ∧ Agree s.retired t ∧ Stored s t []) ∧
      (p.2.trunc s.gpr.ecx = 0#32 → eipOk s.seg.cs.limit target = true →
        ∃ t, exec p.1 s = .next t ∧ Agree { s.retired with eip := target } t ∧ Stored s t [])) ∧
    (∀ p ∈ loopers, ∀ as : Size,
      let left := as.merge s.gpr.ecx (s.gpr.ecx - 1#32)
      (as.trunc left = 0#32 ∨ p.2 s.zf = false → ∃ t, exec (p.1 os as d) s = .next t ∧ Stored s t [] ∧
        Agree { s.retired with gpr := { s.gpr with ecx := left } } t) ∧
      (as.trunc left ≠ 0#32 → p.2 s.zf = true → eipOk s.seg.cs.limit target = true →
        ∃ t, exec (p.1 os as d) s = .next t ∧ Stored s t [] ∧
          Agree { s.retired with gpr := { s.gpr with ecx := left }, eip := target } t))

/-- Near JMP, CALL and RET. CALL pushes the address of the next instruction; RET releases its parameters. -/
def Obligations.NearTransfersComplete : Prop :=
  ∀ (s s1 : State), s.Fresh →
    (∀ (f : NearForm) (target : Word32) (os : Size),
      (∃ d : Rel, f = .rel d ∧ os = d.os ∧ target = os.trunc (s.eip + d.disp) ∧ s1 = s) ∨
        (∃ x v, f = .ind os x ∧ readRM os.width x s = .ok v s1 ∧ target = v.setWidth 32) →
      eipOk s.seg.cs.limit target = true →
      (∃ t, exec (.jmpNear f) s = .next t ∧ Agree { s.retired with eip := target } t ∧ Stored s t []) ∧
      (∀ s2, pushesTo os.bytes [(os.trunc s.eip).toNat] s1 s2 →
        ∃ t, exec (.callNear f) s = .next t ∧
          Agree { s.retired with eip := target, gpr := s.espPlus (-BitVec.ofNat 32 os.bytes) } t ∧
          Stored s t (s.pushStores os.bytes [(os.trunc s.eip).toNat]))) ∧
    (∀ (f : RetForm) (os : Size) (k v : Nat), (f = .plain os ∧ k = 0) ∨ (∃ n, f = .imm os n ∧ k = n.toNat) →
      stackRead 0 os.bytes s = .ok v s1 → eipOk s.seg.cs.limit (BitVec.ofNat 32 v) = true →
      ∃ t, exec (.retNear f) s = .next t ∧ Stored s t [] ∧
        Agree { s.retired with eip := BitVec.ofNat 32 v, gpr := s.espPlus (BitVec.ofNat 32 (os.bytes + k)) } t)

/-- Far JMP, CALL and RET: in Real and V86 Mode; in Protected Mode to a code segment, through a call gate of the same or an
inner level, to a task, and back to the same or an outer level. The pushed slot of CS has a zero upper half (log entry 47). What the
checks let pass is SegmentRegisterRules, what a switch of tasks does is TaskSwitches. The parameters of a call gate are read the last
first, each just before it is pushed: log entry 55 (DESIGN CHOICE). With paging on, the stores and the accessed bits set are those
named (`Reaches`). That a CALL that names a busy TSS raises #TS and a JMP #GP is 90_conflicts.md C24.
That a far JMP outside Protected Mode checks its target and a far CALL does not is DEDUCED (log entry 19). That a 16-bit RET to an
outer level keeps ESP[31:16] (atOuter) is the spec's decision D23 (log entry 43, general knowledge). That the room for a frame and the
top bytes of a stack are one block that does not wrap is log entry 37. -/
def Obligations.FarTransfersComplete : Prop :=
  ∀ (s s1 : State), s.Fresh →
    let marked (x : Word16) (d : Desc) (t : State) : Prop := Reaches s t [] (s.marking x d) ∧
      (s.memOk = true → s.paging = false → ∀ a, a ≠ (s.phys (descAddr s x + 5#32)).toNat →
        Memory.read t.mem a = Memory.read s.mem a) ∧
      (s.paging = false → s.WritesThrough → t.mem = s.memMark x d s.mem)
    let after (u t : State) : Prop := Agree { u with latch := s.retired.latch } t
    (∀ (f : FarForm) (off : Word32) (x : Word16) (os : Size), farPointer f s = .ok (off, x, os) s1 →
      (s.prot = false → eipOk s.seg.cs.limit off = true →
        ∃ t, exec (.jmpFar f) s = .next t ∧ Stored s t [] ∧
          Agree { s.retired with eip := off, seg := s.seg.put .cs (s.cs8086 x) } t) ∧
      (∀ s2, s.prot = false → pushesTo os.bytes [s.seg.cs.sel.toNat, (os.trunc s.eip).toNat] s1 s2 →
        ∃ t, exec (.callFar f) s = .next t ∧
          Agree { s.retired with eip := off, seg := s.seg.put .cs (s.cs8086 x)
                                 gpr := s.espPlus (-BitVec.ofNat 32 (2 * os.bytes)) } t ∧
          Stored s t (s.pushStores os.bytes [s.seg.cs.sel.toNat, (os.trunc s.eip).toNat])) ∧
      (∀ d s2, s.prot = true → farDesc x s1 = .ok d s2 →
        (∀ s3, farTarget d = .code → checkDirect x d s2 = .ok () s3 → eipOk d.limit off = true →
          (∀ s4, markAccessed x d s3 = .ok () s4 →
            ∃ t, exec (.jmpFar f) s = .next t ∧ marked x d t ∧
              Agree { s.retired with eip := off, seg := s.seg.put .cs (d.toSeg (withRpl x s.cpl)) } t) ∧
          (∀ s4 s5, s.room (2 * os.bytes) = true → pushesTo os.bytes [s.seg.cs.sel.toNat, s.eip.toNat] s3 s4 →
            markAccessed x d s4 = .ok () s5 →
            let l := s.pushStores os.bytes [s.seg.cs.sel.toNat, s.eip.toNat]
            ∃ t, exec (.callFar f) s = .next t ∧ Reaches s t l (s.marking x d) ∧
              (s.paging = false → s.WritesThrough → s.clearOf x l → t.mem = s.memAfter l (s.memMark x d s.mem)) ∧
              Agree { s.retired with eip := off, seg := s.seg.put .cs (d.toSeg (withRpl x s.cpl))
                                     gpr := s.espPlus (-BitVec.ofNat 32 (2 * os.bytes)) } t)) ∧
        (∀ s3, farTarget d = .callGate → checkGate x d excGP s2 = .ok () s3 →
          let n := d.gateBytes
          (∀ c s4 s5, gateTarget d true s3 = .ok c s4 → eipOk c.limit d.gateOffset = true →
            markAccessed d.gateSel c s4 = .ok () s5 →
            ∃ t, exec (.jmpFar f) s = .next t ∧ marked d.gateSel c t ∧
              Agree { s.retired with eip := d.gateOffset, seg := s.seg.put .cs (c.toSeg (withRpl d.gateSel s.cpl)) } t) ∧
          (∀ c s4, gateTarget d false s3 = .ok c s4 → eipOk c.limit d.gateOffset = true →
            (∀ s5 s6, c.conforming = true ∨ ¬ c.dpl.toNat < s.cpl.toNat → s.room (2 * n) = true →
              pushesTo n [s.seg.cs.sel.toNat, s.eip.toNat] s4 s5 → markAccessed d.gateSel c s5 = .ok () s6 →
              let l := s.pushStores n [s.seg.cs.sel.toNat, s.eip.toNat]
              ∃ t, exec (.callFar f) s = .next t ∧ Reaches s t l (s.marking d.gateSel c) ∧
                (s.paging = false → s.WritesThrough → s.clearOf d.gateSel l →
                  t.mem = s.memAfter l (s.memMark d.gateSel c s.mem)) ∧
                Agree { s.retired with eip := d.gateOffset, seg := s.seg.put .cs (c.toSeg (withRpl d.gateSel s.cpl))
                                       gpr := s.espPlus (-BitVec.ofNat 32 (2 * n)) } t) ∧
            (∀ ns nsp y ps s5 s6 s7 s8 s9 s10, c.conforming = false → c.dpl.toNat < s.cpl.toNat →
              innerStack c.dpl false s4 = .ok (ns, nsp, y) s5 →
              roomBelow (y.toSeg ns) y.stackSize nsp (4 * n + n * d.gateCount) = true →
              markAccessed ns y s5 = .ok () s6 → markAccessed d.gateSel c s6 = .ok () s7 →
              pushAllSys n [s.seg.ss.sel.toNat, s.gpr.esp.toNat] (s7.onStack ns nsp y) = .ok () s8 →
              ps.length = d.gateCount → paramsTo n s.seg.ss s.gpr.esp ps s8 s9 →
              pushAllSys n [s.seg.cs.sel.toNat, s.eip.toNat] s9 = .ok () s10 →
              let frame := [s.seg.ss.sel.toNat, s.gpr.esp.toNat] ++ ps ++ [s.seg.cs.sel.toNat, s.eip.toNat]
              let u := s.enterInner c.dpl ns nsp y
              ∃ t, exec (.callFar f) s = .next t ∧
                Reaches s t (u.pushStores n frame) (s.marking ns y ++ s.marking d.gateSel c) ∧
                (s.paging = false → s.WritesThrough →
                  t.mem = u.memAfter (u.pushStores n frame) (s.memMark d.gateSel c (s.memMark ns y s.mem))) ∧
                Agree { s.retired with eip := d.gateOffset, cpl := c.dpl
                                       seg := u.seg.put .cs (c.toSeg (withRpl d.gateSel c.dpl))
                                       gpr := u.espPlus (-BitVec.ofNat 32 (4 * n + n * d.gateCount)) } t))) ∧
        (∀ p ∈ [(Instr.jmpFar f, SwitchKind.jmp, excGP), (.callFar f, .call, excTS)], ∀ s3,
          (farTarget d = .tss → checkTask x d p.2.2 s2 = .ok () s3 → ∀ b u, switchTasks p.2.1 x s.eip false s3 = .ok b u →
            eipOk u.seg.cs.limit u.eip = true → ∃ t, exec p.1 s = .next t ∧ after u t ∧ t.mem = (finish s u).mem ∧
              (b = true → t.traps.bt = true)) ∧
          (farTarget d = .taskGate → checkGate x d p.2.2 s2 = .ok () s3 → ∀ s4, checkTss d.gateSel false p.2.2 s3 = .ok () s4 →
            ∀ b u, switchTasks p.2.1 d.gateSel s.eip false s4 = .ok b u → eipOk u.seg.cs.limit u.eip = true →
            ∃ t, exec p.1 s = .next t ∧ after u t ∧ t.mem = (finish s u).mem ∧ (b = true → t.traps.bt = true)) ∧
          (d.isBusyTss = true → checkDpl x d p.2.2 s2 = .ok () s3 → exec p.1 s = failure s (p.2.2 (selCode x false)) s3)))) ∧
    (∀ (f : RetForm) (os : Size) (k : Nat), (f = .plain os ∧ k = 0) ∨ (∃ n, f = .imm os n ∧ k = n.toNat) →
      (∀ ip cs s2, s.prot = false → stackRead 0 os.bytes s = .ok ip s1 → stackRead os.bytes os.bytes s1 = .ok cs s2 →
        eipOk s.seg.cs.limit (BitVec.ofNat 32 ip) = true →
        ∃ t, exec (.retFar f) s = .next t ∧ Stored s t [] ∧
          Agree { s.retired with eip := BitVec.ofNat 32 ip, seg := s.seg.put .cs (s.cs8086 (BitVec.ofNat 16 cs))
                                 gpr := s.espPlus (BitVec.ofNat 32 (2 * os.bytes + k)) } t) ∧
      (∀ cs ip c s2 s3 s4, s.prot = true → stackRead os.bytes 2 s = .ok cs s1 →
        let x := BitVec.ofNat 16 cs
        selRpl x = s.cpl → checkReturnCs x s.cpl s1 = .ok c s2 → s.topOk (2 * os.bytes) = true →
        stackRead 0 os.bytes s2 = .ok ip s3 → eipOk c.limit (BitVec.ofNat 32 ip) = true → markAccessed x c s3 = .ok () s4 →
        ∃ t, exec (.retFar f) s = .next t ∧ marked x c t ∧
          Agree { s.retired with eip := BitVec.ofNat 32 ip, seg := s.seg.put .cs (c.toSeg x)
                                 gpr := s.espPlus (BitVec.ofNat 32 (2 * os.bytes + k)) } t) ∧
      (∀ cs ip sp ss c d s2 s3 s4 s5 s6 s7 s8, s.prot = true → stackRead os.bytes 2 s = .ok cs s1 →
        let x := BitVec.ofNat 16 cs
        let y := BitVec.ofNat 16 ss
        s.cpl.toNat < (selRpl x).toNat → s.topOk (4 * os.bytes + k) = true → checkReturnCs x (selRpl x) s1 = .ok c s2 →
        stackRead (2 * os.bytes + k) os.bytes s2 = .ok sp s3 → stackRead (3 * os.bytes + k) 2 s3 = .ok ss s4 →
        checkReturnSs y (selRpl x) s4 = .ok d s5 → stackRead 0 os.bytes s5 = .ok ip s6 →
        eipOk c.limit (BitVec.ofNat 32 ip) = true → markAccessed x c s6 = .ok () s7 → markAccessed y d s7 = .ok () s8 →
        let u := s.atOuter os x y c d (BitVec.ofNat 32 sp)
        ∃ t, exec (.retFar f) s = .next t ∧ Reaches s t [] (s.marking x c ++ s.marking y d) ∧
          (s.memOk = true → s.paging = false → ∀ a, a ≠ (s.phys (descAddr s x + 5#32)).toNat →
            a ≠ (s.phys (descAddr s y + 5#32)).toNat → Memory.read t.mem a = Memory.read s.mem a) ∧
          (s.paging = false → s.WritesThrough → t.mem = s.memMark y d (s.memMark x c s.mem)) ∧
          Agree { u.retired with eip := BitVec.ofNat 32 ip, gpr := u.espPlus (BitVec.ofNat 32 k) } t))

/-- IRET and IRETD: in Real Mode, and in V86 Mode at IOPL 3; in Protected Mode to the same or an outer level, to V86 Mode, and, with NT
set, back to the task that the back link names. EIP, CS and the flags come from the stack, and NMI is no longer held off; the flags loaded
are written out bit by bit, those of a return to V86 Mode all. What the checks let pass is SegmentRegisterRules, what a switch of tasks
does is TaskSwitches. That a 16-bit IRET to an outer level keeps ESP[31:16] (atOuter) is the spec's decision D23 (log entry 43, general
knowledge); the attribute bits of a segment register in V86 Mode are log entry 3; that the top bytes of the stack are one block that does
not wrap is log entry 37. -/
def Obligations.InterruptReturnsComplete : Prop :=
  (∀ image size cpl rf old, FlagsLoaded image size cpl rf old (loadFlags image size cpl rf old)) ∧
  (∀ (v : Word32) (n : Nat), (fixFlags v).getLsbD n =
    if n = 1 then true else if n ∈ [3, 5, 15] ∨ 19 ≤ n then false else v.getLsbD n) ∧
  ∀ (os : Size) (s : State), s.Fresh →
    let i : Instr := match os with
      | .s16 => .iret
      | .s32 => .iretd
    let b : State := { s with insn := { s.insn with keepRf := true } }
    let unmasked : IntLatches := { s.retired.latch with nmiMasked := false }
    (∀ ip cs fl s1 s2 s3, s.prot = false → (s.v86 = true → s.iopl = 3#2) →
      stackRead 0 os.bytes b = .ok ip s1 → stackRead os.bytes os.bytes s1 = .ok cs s2 →
      stackRead (2 * os.bytes) os.bytes s2 = .ok fl s3 → eipOk s.seg.cs.limit (BitVec.ofNat 32 ip) = true →
      ∃ t, exec i s = .next t ∧ Stored s t [] ∧
        Agree { s.retired with
          eip := BitVec.ofNat 32 ip, seg := s.seg.put .cs (s.cs8086 (BitVec.ofNat 16 cs))
          gpr := s.espPlus (BitVec.ofNat 32 (3 * os.bytes))
          eflags := loadFlags (BitVec.ofNat 32 fl) os (if s.v86 then 3#2 else 0#2) true s.eflags
          latch := unmasked } t) ∧
    (s.prot = true → s.nt = false →
      (∀ f s1, os = .s32 → s.cpl = 0#2 → stackRead 8 4 b = .ok f s1 → f.testBit 17 = true → s.topOk 36 = true →
        ∀ ip cs fl sp ss es ds fs gs s2, stackItems 4 0 9 s1 = .ok [ip, cs, fl, sp, ss, es, ds, fs, gs] s2 → ip ≤ 0xFFFF →
        ∃ t, exec i s = .next t ∧ Stored s t [] ∧
          Agree { s with
            gpr := { s.gpr with esp := BitVec.ofNat 32 sp }, eip := BitVec.ofNat 32 ip
            eflags := fixFlags (BitVec.ofNat 32 fl), cpl := 3#2, latch := unmasked
            seg := { es := .v86 (BitVec.ofNat 16 es), cs := .v86 (BitVec.ofNat 16 cs), ss := .v86 (BitVec.ofNat 16 ss)
                     ds := .v86 (BitVec.ofNat 16 ds), fs := .v86 (BitVec.ofNat 16 fs), gs := .v86 (BitVec.ofNat 16 gs) } } t) ∧
      (∀ s0 cs s1, (os = .s32 ∧ s.cpl = 0#2 ∧ ∃ f, stackRead 8 4 b = .ok f s0 ∧ f.testBit 17 = false) ∨
          ((os = .s16 ∨ s.cpl ≠ 0#2) ∧ s0 = b) →
        stackRead os.bytes 2 s0 = .ok cs s1 →
        let x := BitVec.ofNat 16 cs
        (∀ c ip fl s2 s3 s4 s5, selRpl x = s.cpl → s.topOk (3 * os.bytes) = true → checkReturnCs x s.cpl s1 = .ok c s2 →
          stackRead 0 os.bytes s2 = .ok ip s3 → eipOk c.limit (BitVec.ofNat 32 ip) = true →
          stackRead (2 * os.bytes) os.bytes s3 = .ok fl s4 → markAccessed x c s4 = .ok () s5 →
          ∃ t, exec i s = .next t ∧ Reaches s t [] (s.marking x c) ∧
            (s.memOk = true → s.paging = false → ∀ a, a ≠ (s.phys (descAddr s x + 5#32)).toNat →
              Memory.read t.mem a = Memory.read s.mem a) ∧
            (s.paging = false → s.WritesThrough → t.mem = s.memMark x c s.mem) ∧
            Agree { s with
              eip := BitVec.ofNat 32 ip, seg := s.seg.put .cs (c.toSeg x), gpr := s.espPlus (BitVec.ofNat 32 (3 * os.bytes))
              eflags := loadFlags (BitVec.ofNat 32 fl) os s.cpl true s.eflags, latch := unmasked } t) ∧
        (∀ c d ss ip fl sp s2 s3 s4 s5 s6 s7 s8 s9, s.cpl.toNat < (selRpl x).toNat → s.topOk (5 * os.bytes) = true →
          checkReturnCs x (selRpl x) s1 = .ok c s2 → stackRead (4 * os.bytes) 2 s2 = .ok ss s3 →
          let y := BitVec.ofNat 16 ss
          checkReturnSs y (selRpl x) s3 = .ok d s4 → stackRead 0 os.bytes s4 = .ok ip s5 →
          eipOk c.limit (BitVec.ofNat 32 ip) = true → stackRead (2 * os.bytes) os.bytes s5 = .ok fl s6 →
          stackRead (3 * os.bytes) os.bytes s6 = .ok sp s7 → markAccessed x c s7 = .ok () s8 → markAccessed y d s8 = .ok () s9 →
          ∃ t, exec i s = .next t ∧ Reaches s t [] (s.marking x c ++ s.marking y d) ∧
            (s.memOk = true → s.paging = false → ∀ a, a ≠ (s.phys (descAddr s x + 5#32)).toNat →
              a ≠ (s.phys (descAddr s y + 5#32)).toNat → Memory.read t.mem a = Memory.read s.mem a) ∧
            (s.paging = false → s.WritesThrough → t.mem = s.memMark y d (s.memMark x c s.mem)) ∧
            Agree { s.atOuter os x y c d (BitVec.ofNat 32 sp) with
              eip := BitVec.ofNat 32 ip, eflags := loadFlags (BitVec.ofNat 32 fl) os s.cpl true s.eflags
              latch := unmasked } t))) ∧
    (s.prot = true → s.nt = true → ∀ bl s1 d s2 tr u, sysRead s.tr.base 2 b = .ok bl s1 →
      let x := BitVec.ofNat 16 bl
      selNull x = false → selTi x = false → selInTable s x = true → readDesc x s1 = .ok d s2 → d.isBusyTss = true →
      d.present = true →
      switchTasks .iret x s.eip false s2 = .ok tr u → eipOk u.seg.cs.limit u.eip = true →
      ∃ t, exec i s = .next t ∧ Agree { u with latch := unmasked } t ∧ t.mem = (finish s u).mem ∧ (tr = true → t.traps.bt = true))

/-- INT n, INT 3 and INTO with OF = 1. In every mode (INT n in V86 Mode with IOPL 3) the instruction is a software event of its vector,
without an error code, delivered with the EIP after it; where its delivery raises an exception, that one is delivered with the EIP of
the instruction. In Real Mode the delivery is written out: FLAGS, CS and IP are pushed, IF, TF, NT and RF are cleared, and CS:IP
comes from the vector's entry of the interrupt table; in the other modes it is ProtectedDelivery's. INTO with OF = 0 and BOUND within
its bounds do nothing. INT 1 is such an event too, without debug information: that it leaves DR6 and DR7.GD as they are, where R1085
clears GD on every entry to the #DB handler, is the model's choice (log entry 53). That RF is cleared, and in Protected and V86 Mode
pushed clear, is DEDUCED (log entry 27). -/
def Obligations.SoftwareInterruptsComplete : Prop :=
  ∀ s : State, s.Fresh →
    (∀ (i : Instr) (v : Byte),
      (i = .intN v ∧ (s.v86 = true → s.iopl = 3#2)) ∨ (i = .int3 ∧ v = 3#8) ∨ (i = .into ∧ v = 4#8 ∧ s.of = true) →
      let b : State := { s with insn := .idle s.eip, latch := s.retired.latch }
      let ev : Event := { vector := v, software := true, code := none, isFault := false, debug := none }
      (∀ u, deliver ev s.eip b = .ok () u → exec i s = .next (u.settle s.tf)) ∧
      (∀ v2 c2 d2 t u, deliver ev s.eip b = .error (.exn v2 c2 d2) t → t.insn.arrived = false → t.insn.committed = false →
        deliver (faultEvent v2 c2 d2) s.insn.start ((b.abandon t).restAt s.insn.start) = .ok () u →
        exec i s = .next (u.settle false))) ∧
    (∀ (i : Instr) (v : Byte) (s1 s2 s3 : State) (off sel : Nat), s.real = true →
      (i = .intN v ∨ (i = .int3 ∧ v = 3#8) ∨ (i = .into ∧ v = 4#8 ∧ s.of = true)) →
      v.toNat * 4 + 3 ≤ s.idtr.limit.toNat →
      pushAllSys 2 [s.eflags.toNat % 2 ^ 16, s.seg.cs.sel.toNat, s.eip.toNat % 2 ^ 16] s.atBoundary = .ok () s1 →
      sysRead (s.idtr.base + BitVec.ofNat 32 (v.toNat * 4)) 2 s1 = .ok off s2 →
      sysRead (s.idtr.base + BitVec.ofNat 32 (v.toNat * 4 + 2)) 2 s2 = .ok sel s3 →
      ∃ t, exec i s = .next t ∧
        Agree { s.retired with
          gpr := s.espPlus (-6#32), eip := BitVec.ofNat 32 off, run := .running
          seg := s.seg.put .cs (s.seg.cs.loadReal (BitVec.ofNat 16 sel)), eflags := s.eflags &&& 0xFFFEBCFF#32 } t ∧
        Stored s t (s.pushStores 2 [s.eflags.toNat % 2 ^ 16, s.seg.cs.sel.toNat, s.eip.toNat % 2 ^ 16])) ∧
    (s.of = false → ∃ t, exec .into s = .next t ∧ Agree s.retired t ∧ Stored s t []) ∧
    (∀ (os : Size) (r : Reg) (m : Mem) (v : Nat) (s1 : State), readMemN m (2 * os.bytes) os.bytes s = .ok v s1 →
      (BitVec.ofNat os.width.bits v).toInt ≤ (s.gpr.read os.width r).toInt →
      (s.gpr.read os.width r).toInt ≤ (BitVec.ofNat os.width.bits (v / 2 ^ os.bits)).toInt →
      ∃ t, exec (.bound os r m) s = .next t ∧ Agree s.retired t ∧ Stored s t [])

/-! The system instructions. -/

/-- LGDT, LIDT, SGDT, SIDT: a word of limit and a doubleword of base, of which an operand size of 16 uses 24 bits. LLDT, LTR, SLDT, STR,
in Protected Mode: a null selector makes LDTR invalid, else LLDT loads the descriptor; LTR loads TR and sets the busy bit of the
descriptor, bit 1 of its byte 5. That SLDT and STR write the low half of a register only is the spec's decision D28 (log entry 43). -/
def Obligations.DescriptorTablesComplete : Prop :=
  (∀ (os : Size) (m : Mem) (s s1 s2 : State), s.Fresh →
    let cut (v : Word32) : Word32 := match os with
      | .s16 => v &&& 0x00FFFFFF#32
      | .s32 => v
    (∀ v, s.privileged = true → readMemN m 6 4 s = .ok v s1 →
      let x : TableReg := { base := cut (BitVec.ofNat 32 (v / 2 ^ 16)), limit := BitVec.ofNat 16 v }
      (∃ t, exec (.lgdt os m) s = .next t ∧ Stored s t [] ∧ Agree { s.retired with gdtr := x } t) ∧
      (∃ t, exec (.lidt os m) s = .next t ∧ Stored s t [] ∧ Agree { s.retired with idtr := x } t)) ∧
    (∀ p ∈ [(Instr.sgdt os m, s.gdtr), (.sidt os m, s.idtr)],
      memWrite m.as (s.segOf m) (s.gpr.ea m) 2 4 p.2.limit.toNat s = .ok () s1 →
      memWrite m.as (s.segOf m) (eaPlus m (s.gpr.ea m) 2) 4 1 (cut p.2.base).toNat s1 = .ok () s2 →
      ∃ t, exec p.1 s = .next t ∧ Agree s.retired t ∧
        Stored s t [(s.lin m, 2, p.2.limit.toNat),
          ((s.seg.get (s.segOf m)).base + eaPlus m (s.gpr.ea m) 2, 4, (cut p.2.base).toNat)])) ∧
  ∀ (x : RM) (s s1 : State), s.Fresh → s.prot = true →
    (∀ v, s.cpl = 0#2 → readRM .word x s = .ok v s1 →
      (selNull v = true → ∃ t, exec (.lldt x) s = .next t ∧ Stored s t [] ∧
        Agree { s.retired with ldtr := { s.ldtr with sel := v, valid := false } } t) ∧
      (∀ d s2, selNull v = false → selTi v = false → selInTable s v = true → readDesc v s1 = .ok d s2 →
        d.s = false → d.present = true →
        (d.typ = 2#4 → ∃ t, exec (.lldt x) s = .next t ∧ Stored s t [] ∧
          Agree { s.retired with ldtr := { sel := v, base := d.base, limit := d.limit, access := d.hi.extractLsb' 8 8,
                                           top := d.hi.extractLsb' 20 4, valid := true } } t) ∧
        (∀ s3, d.isFreeTss = true → setBusy v true s2 = .ok () s3 → ∃ t, exec (.ltr x) s = .next t ∧
          Agree { s.retired with tr := { sel := v, base := d.base, limit := d.limit, format := d.tssFormat } } t ∧
          (s.paging = false → s.WritesThrough → t.mem = s.memUpdate (s.busyByte v) (· ||| 2#8) s.mem) ∧
          (s.memOk = true → s.paging = false → ∀ a, a ≠ (s.phys (s.busyByte v)).toNat →
            Memory.read t.mem a = Memory.read s.mem a) ∧ Reaches s t [] [s.busyMark v true]))) ∧
    (∀ os, ∀ p ∈ [(Instr.sldt os x, s.ldtr.sel), (.str os x, s.tr.sel)], writeRM .word p.2 x s = .ok () s1 →
      ∃ t, exec p.1 s = .next t ∧ Agree { s.retired with gpr := s.gpr.writeRM .word x p.2 } t ∧
        Stored s t (s.storeRM .word x p.2))

/-- The task switch, as far as one that begins with no store held back goes. A TSS too small raises #TS. Otherwise the old task is
saved and left (`v`): TR and TS are set and memory is `switchMem`. Then the new TSS is read (`i`), and the switch ends in `t`: the
registers, flags and selectors are those of the image, NT and the busy bits say how the tasks nest, and memory is as the switch left it
but for the accessed bits of the descriptors loaded, which are set. With the cache off and empty the image is what memory holds, by the
layout of the TSS. With paging on memory is what the stores of the switch and its read-modify-writes leave (`Reaches`), before the new
CR3 and after it. The layouts are general knowledge (R981, R982), the steps after the commit point the spec's decision D49, what a 80286
TSS gives (EIP and EFLAGS zero-extended, FS and GS null) its decision D51 (log entry 43; the upper halves of the registers are open, log
entry 39). That the EFLAGS saved are the live ones, without RF set for a fault, is log entry 28; that a null TR selector names no
descriptor to free is log entry 50. -/
def Obligations.TaskSwitches : Prop :=
  (∀ (k : SwitchKind) (ts : Word16) (ret : Word32) (ext : Bool) (s s1 : State) (d : Desc), s.insn.stores = [] →
    readDesc ts s = .ok d s1 →
    let least := match d.tssFormat with
      | .tss486 => 0x64
      | .tss286 => 0x2B
    (d.limit.toNat ≤ least → switchTasks k ts ret ext s = .error (excTS (selCode ts ext)) s1) ∧
    (∀ trap t, switchTasks k ts ret ext s = .ok trap t → ∃ v i u, least < d.limit.toNat ∧
      leaveTask k ts ret ext s = .ok d v ∧ readTask d.base d.tssFormat v = .ok i u ∧ v.insn.stores = [] ∧ t.insn.stores = [] ∧
      Agree { s with tr := { sel := ts, base := d.base, limit := d.limit, format := d.tssFormat }, cr0 := s.cr0 ||| 8#32 } v ∧
      t.tr = v.tr ∧ t.cr0 = v.cr0 ∧ t.gpr = gprsOfList i.regs ∧ t.eip = i.eip ∧ trap = i.trap ∧
      t.eflags = fixFlags (if k = .call ∨ k = .int then setBit i.flags 14 true else i.flags) ∧
      t.dr = { s.dr with dr7 := s.dr.dr7 &&& 0xFFFFFEAA#32 } ∧ t.ldtr.sel = i.ldt ∧ t.ldtr.valid = !selNull i.ldt ∧
      t.gdtr = s.gdtr ∧ t.idtr = s.idtr ∧ t.cr2 = s.cr2 ∧ t.cr3 = i.cr3.getD s.cr3 ∧ t.fpu = s.fpu ∧
      (s.paging = false → i.cr3 = none) ∧ (s.paging = true → d.tssFormat = .tss486 → i.cr3.isSome = true) ∧
      (t.vm = true → t.cpl = 3#2 ∧ t.seg = { es := .v86 i.es, cs := .v86 i.cs, ss := .v86 i.ss, ds := .v86 i.ds,
                                             fs := .v86 i.fs, gs := .v86 i.gs }) ∧
      (t.vm = false → t.cpl = selRpl i.cs ∧ t.seg.cs.sel = i.cs ∧ t.seg.ss.sel = i.ss ∧ t.seg.ds.sel = i.ds ∧
        t.seg.es.sel = i.es ∧ t.seg.fs.sel = i.fs ∧ t.seg.gs.sel = i.gs) ∧
      (s.paging = false →
        let sw := s.switchMem k ts d.base ret
        let at5 (x : Word16) : Nat := (s.phys (descAddr t x + 5#32)).toNat
        (s.WritesThrough → v.mem = sw ∧
          (s.memOk = true → ∀ a, Memory.read t.mem a ||| 1#8 = Memory.read sw a ||| 1#8 ∧
            ((∀ x ∈ i.loads t.vm, at5 x ≠ a) → Memory.read t.mem a = Memory.read sw a))) ∧
        (s.Uncached → i.Lies { s with mem := sw } d.base d.tssFormat ∧
          (s.memOk = true → ∀ x ∈ i.loads t.vm, Memory.read t.mem (at5 x) = Memory.read sw (at5 x) ||| 1#8))) ∧
      Reaches s v (s.switchStores k d.base ret) (s.switchBusy k ts) ∧ Reaches v u [] [] ∧
      ∃ ks, (∀ c ∈ ks, ∃ x ∈ i.loads t.vm, c = t.accessMark x) ∧ Reaches (u.loadTask k i) t [] ks)) ∧
  (∀ (base : Word32) (f : TssFormat) (i : TaskImage) (s t : State), s.Uncached → s.paging = false →
    readTask base f s = .ok i t → i.Lies s base f)

/-- SMSW, LMSW, CLTS, HLT, INVD, WBINVD and INVLPG. LMSW cannot clear PE. INVD and WBINVD leave no valid cache line. INVLPG
invalidates the TLB entries of the page, all of them where several hold it (log entry 66), with paging on or off (log entry 51), and
leaves every other entry and the LRU bits. That SMSW writes the low half of a register only is the spec's decision D28 (log entry 43).
And the run states: a halted processor, and one frozen before an FPU instruction, goes on with a pending debug trap, an NMI or, with IF
1, an INTR, delivered with the EIP it waits at; with none due a step changes nothing. In shutdown only an NMI is looked at: in Real Mode
it is delivered where the vector is within IDTR.limit and SP is above 5, else another shutdown cycle is driven; in the other modes a
delivery that raises an exception shuts down again, by the spec's decision D46 (log entry 43). An event whose delivery was left for the
next step is delivered by it (log entry 11). That a trap held off by a load of SS ends a freeze is log entry 30, the acknowledge cycle log
entry 33, that an interrupt with vector 1 leaves DR6 and DR7.GD log entry 53; pending traps are log entry 31. -/
def Obligations.MachineControlComplete : Prop :=
  (∀ (s u : State),
    let b := s.restAt s.eip
    let ev : Event := { vector := 1#8, software := false, code := none, isFault := false, debug := none }
    let trap := (s.traps.bs || s.traps.bt || s.traps.data) && !s.latch.inhibitNext
    let nmi := s.latch.nmiPending && !s.latch.nmiMasked
    let accepted : State := { b with latch := { s.latch with nmiPending := false, nmiMasked := true } }
    let wakes (e : Event) (p : State) : Prop :=
      deliver e s.eip p = .ok () u → step s = .next (u.settle false) ∧ u.run = .running
    (s.run = .halted ∨ s.run = .frozen →
      (trap = true → ∀ d : Word32, d.getLsbD 15 = s.traps.bt → d.getLsbD 14 = s.traps.bs → d.extractLsb' 0 4 = s.traps.hits →
        d &&& 0xFFFF3FF0#32 = 0#32 → wakes { ev with debug := some d } { b with traps := .none }) ∧
      (trap = false → nmi = true → s.latch.inhibitNext = false → wakes { ev with vector := 2#8 } accepted) ∧
      (trap = false → nmi = false → s.pins.intr = true → s.ifl = true → s.latch.inhibitNext = false →
        s.latch.stiShadow = false →
        wakes { ev with vector := s.pins.intVector } { b with events := s.events ++ [.intAck s.pins.intVector] }) ∧
      (trap = false → nmi = false ∨ s.latch.inhibitNext = true →
        s.pins.intr = false ∨ s.ifl = false ∨ s.latch.inhibitNext = true ∨ s.latch.stiShadow = true → step s = .next b)) ∧
    (s.run = .shutdown →
      let room : Prop := 0x17 ≤ s.idtr.limit.toNat ∧ 5 < s.gpr.esp.toNat % 2 ^ 16
      (nmi = false → step s = .next b) ∧
      (nmi = true →
        (s.real = true → ¬ room → step s = .next { accepted with run := .shutdown, events := s.events ++ [.shutdown] }) ∧
        ((s.real = true → room) → wakes { ev with vector := 2#8 } accepted) ∧
        (s.real = false → ∀ v c d t, deliver { ev with vector := 2#8 } s.eip accepted = .error (.exn v c d) t →
          t.insn.arrived = false →
          ∃ x, step s = .next x ∧ x.run = .shutdown ∧ x.events = t.events ++ [.shutdown]))) ∧
    ∀ e, s.run = .redeliver e → wakes e { b with run := .running }) ∧
  ∀ (s s1 : State), s.Fresh →
    (∀ os x, writeRM .word (s.cr0.setWidth 16) x s = .ok () s1 → ∃ t, exec (.smsw os x) s = .next t ∧
      Agree { s.retired with gpr := s.gpr.writeRM .word x (s.cr0.setWidth 16) } t ∧
      Stored s t (s.storeRM .word x (s.cr0.setWidth 16))) ∧
    (s.privileged = true →
      (∀ x v, readRM .word x s = .ok v s1 → ∃ t, exec (.lmsw x) s = .next t ∧ Stored s t [] ∧
        Agree { s.retired with
          cr0 := (s.cr0 &&& 0xFFFFFFF1#32) ||| (v.setWidth 32 &&& 0xF#32) } t) ∧
      (∃ t, exec .clts s = .next t ∧ Stored s t [] ∧ Agree { s.retired with cr0 := s.cr0 &&& 0xFFFFFFF7#32 } t) ∧
      (∃ t, exec .hlt s = .next t ∧ Stored s t [] ∧
        Agree { s.retired with run := .halted, events := s.events ++ [.halt] } t) ∧
      (∃ t, exec .invd s = .next t ∧ Stored s t [] ∧ Agree { s.retired with events := s.events ++ [.flush] } t ∧
        ∀ a, (t.cacheSetAt a).hit (cacheTag a) = none) ∧
      (∃ t, exec .wbinvd s = .next t ∧ Stored s t [] ∧
        Agree { s.retired with events := s.events ++ [.writeBack, .flush] } t ∧
        ∀ a, (t.cacheSetAt a).hit (cacheTag a) = none) ∧
      (∀ m, ∃ t, exec (.invlpg m) s = .next t ∧ Stored s t [] ∧ Agree s.retired t ∧
        (∀ w, ((t.tlbSetAt (tlbIndex (s.lin m))).get w).tag = tlbTag (s.lin m) →
          ((t.tlbSetAt (tlbIndex (s.lin m))).get w).valid = false) ∧
        ∀ j, (t.tlbSetAt j).lru = (s.tlbSetAt j).lru ∧ ∀ w,
          let e := (s.tlbSetAt j).get w
          (t.tlbSetAt j).get w =
            if j = tlbIndex (s.lin m) ∧ e.tag = tlbTag (s.lin m) then { e with valid := false } else e))

/-- ARPL, LAR, LSL, VERR and VERW, in Protected Mode: ZF alone says whether the selector passes; LAR and LSL then load the
access rights and the limit. A selector passes if it is not null, in its table, its descriptor visible from the level and RPL, and
of a type the instruction takes; every segment descriptor examined is marked accessed, passing or not (log entry 48). -/
def Obligations.AccessChecksComplete : Prop :=
  (∀ (p : Desc → Bool) (v : Word16) (s : State),
    (selNull v = true ∨ selInTable s v = false → examine p v s = .ok none s) ∧
    (∀ d s1 s2, selNull v = false → selInTable s v = true → readDesc v s = .ok d s1 →
      (if d.s then markAccessed v d s1 = .ok () s2 else s2 = s1) →
      let seen : Prop := d.conforming = true ∨ (s.cpl.toNat ≤ d.dpl.toNat ∧ (selRpl v).toNat ≤ d.dpl.toNat)
      (seen ∧ p d = true → examine p v s = .ok (some d) s2) ∧ (¬ (seen ∧ p d = true) → examine p v s = .ok none s2))) ∧
  (∀ d : Desc,
    (d.larOk = true ↔ d.s = true ∨
      d.typ ∈ [1#4, 2#4, 3#4, 4#4, 5#4, 6#4, 7#4, 9#4, 0xB#4, 0xC#4, 0xE#4, 0xF#4]) ∧
    (d.lslOk = true ↔ d.s = true ∨ d.typ ∈ [1#4, 2#4, 3#4, 9#4, 0xB#4]) ∧
    (d.readable = true ↔ d.s = true ∧ (d.typ.getLsbD 3 = false ∨ d.typ.getLsbD 1 = true)) ∧
    (d.writable = true ↔ d.s = true ∧ d.typ.getLsbD 3 = false ∧ d.typ.getLsbD 1 = true)) ∧
  ∀ (x : RM) (r : Reg) (s s1 : State), s.Fresh → s.prot = true →
    (∀ d, updateRM .word x s = .ok d s1 →
      (¬ (selRpl d).toNat < (selRpl (s.gpr.read .word r)).toNat → ∃ t, exec (.arpl x r) s = .next t ∧ Stored s t [] ∧
        Agree { s.retired with eflags := clearRf (setBit s.eflags 6 false) } t) ∧
      (∀ s2, (selRpl d).toNat < (selRpl (s.gpr.read .word r)).toNat →
        writeRM .word (withRpl d (selRpl (s.gpr.read .word r))) x s1 = .ok () s2 →
        ∃ t, exec (.arpl x r) s = .next t ∧
          Agree { s.retired with gpr := s.gpr.writeRM .word x (withRpl d (selRpl (s.gpr.read .word r)))
                                 eflags := clearRf (setBit s.eflags 6 true) } t ∧
          Stored s t (s.storeRM .word x (withRpl d (selRpl (s.gpr.read .word r)))))) ∧
    (let others (v : Word16) (t : State) : Prop :=
        (s.memOk = true → s.paging = false → ∀ a, a ≠ (s.phys (descAddr s v + 5#32)).toNat →
          Memory.read t.mem a = Memory.read s.mem a) ∧
        ∃ k, (k = [] ∨ k = [s.accessMark v]) ∧ Reaches s t [] k
     (∀ os v o s2, readSel os x s = .ok v s1 →
      (examine Desc.larOk v s1 = .ok o s2 → ∃ t g, exec (.lar os r x) s = .next t ∧ others v t ∧
        Agree { s.retired with gpr := g, eflags := clearRf (setBit s.eflags 6 o.isSome) } t ∧
        (o = none → g = s.gpr) ∧
        (∀ d, o = some d → ∃ u : Word32, u &&& 0xFFF0FFFF#32 = d.hi &&& 0x00F0FF00#32 ∧
          g = s.gpr.write os.width r (u.setWidth _))) ∧
      (examine Desc.lslOk v s1 = .ok o s2 → ∃ t g, exec (.lsl os r x) s = .next t ∧ others v t ∧
        Agree { s.retired with gpr := g, eflags := clearRf (setBit s.eflags 6 o.isSome) } t ∧
        (o = none → g = s.gpr) ∧
        (∀ d, o = some d → g = s.gpr.write os.width r (d.limit.setWidth _)))) ∧
     (∀ v o s2, readRM .word x s = .ok v s1 → ∀ p ∈ [(Instr.verr x, Desc.readable), (.verw x, Desc.writable)],
      examine p.2 v s1 = .ok o s2 → ∃ t, exec p.1 s = .next t ∧ others v t ∧
        Agree { s.retired with eflags := clearRf (setBit s.eflags 6 o.isSome) } t))

/-- MOV to and from the control, debug and test registers where they may be used: the status flags become undefined and nothing else
changes but the destination. A write to CR0 of paging without protection, or of NW without CD, raises #GP(0). CR0, DR6 and DR7 keep the
bits they have and read 0 elsewhere; that GD is bit 13 of DR7 is general knowledge (10_state.md R43). A write to a test register also runs
its command: TR3 fills the buffer, TR5 writes, reads or flushes the cache, TR6 writes the TLB or looks it up. A read of TR3 gives the read
buffer unless a memory reference has corrupted it since TR5 last filled it (DataAccesses says that one does); that nothing else does is
DEDUCED (log entry 17). That ET reads as 1 is the spec's decision D9 (log entry 43), the order of the LRU bits D55, what a cache test does
besides its registers log entry 17. -/
def Obligations.SpecialMovesComplete : Prop :=
  ∀ (s : State) (r : Reg), s.Fresh → s.privileged = true →
    let fl (d : BitVec 6) : Word32 := clearRf (StatusUpd.undefined.apply d s.eflags)
    let v := s.gpr.get r
    let keeps (x : Word32) (l : List Nat) : Prop := ∀ n, x.getLsbD n = (decide (n ∈ l) && v.getLsbD n)
    let legal : Prop := (v.getLsbD 31 = true → v.getLsbD 0 = true) ∧ (v.getLsbD 29 = true → v.getLsbD 30 = true)
    (∀ p ∈ [(CReg.cr0, s.cr0), (.cr2, s.cr2), (.cr3, s.cr3)], ∃ t d, exec (.movFromCr r p.1) s = .next t ∧ Stored s t [] ∧
      Agree { s.retired with gpr := s.gpr.put r p.2, eflags := fl d } t) ∧
    (legal → ∃ t d x, exec (.movToCr .cr0 r) s = .next t ∧ t.mem = s.mem ∧ keeps x [0, 1, 2, 3, 5, 16, 18, 29, 30, 31] ∧
      Agree { s.retired with cr0 := x ||| 0x10#32, eflags := fl d } t) ∧
    (¬ legal → exec (.movToCr .cr0 r) s = failure s (excGP 0#16) s) ∧
    (∃ t d, exec (.movToCr .cr2 r) s = .next t ∧ Stored s t [] ∧ Agree { s.retired with cr2 := v, eflags := fl d } t) ∧
    (∃ t d, exec (.movToCr .cr3 r) s = .next t ∧ Stored s t [] ∧ (∀ i w, ((t.tlbSetAt i).get w).valid = false) ∧
      Agree { s.retired with cr3 := v, eflags := fl d } t) ∧
    (s.dr.dr7.getLsbD 13 = false → ∀ six seven : Word32, keeps six [0, 1, 2, 3, 13, 14, 15] →
      keeps seven ((List.range 32).filter fun n => decide (n ∉ [10, 11, 12, 14, 15])) →
      ∀ p ∈ [(DReg.dr0, s.dr.dr0, { s.dr with dr0 := v }), (.dr1, s.dr.dr1, { s.dr with dr1 := v }),
        (.dr2, s.dr.dr2, { s.dr with dr2 := v }), (.dr3, s.dr.dr3, { s.dr with dr3 := v }),
        (.dr6, s.dr.dr6, { s.dr with dr6 := six }), (.dr7, s.dr.dr7, { s.dr with dr7 := seven })],
      (∃ t d, exec (.movFromDr r p.1) s = .next t ∧ Stored s t [] ∧
        Agree { s.retired with gpr := s.gpr.put r p.2.1, eflags := fl d } t) ∧
      (∃ t d, exec (.movToDr p.1 r) s = .next t ∧ Stored s t [] ∧
        Agree { s.retired with dr := p.2.2, eflags := fl d } t)) ∧
    (∀ x, ∃ t u d, exec (.movFromTr r x) s = .next t ∧ Stored s t [] ∧ t.cache = s.cache ∧ t.tlb = s.tlb ∧
      (x = .tr4 → u = s.test.tr4) ∧ (x = .tr5 → u = s.test.tr5) ∧ (x = .tr6 → u = s.test.tr6) ∧
      (x = .tr7 → u = s.test.tr7) ∧
      (x = .tr3 → s.test.tr5.extractLsb' 0 2 = 0#2 → s.bufferSpoiled = false → u = s.test.read.get (s.test.tr5.extractLsb' 2 2)) ∧
      Agree { s.retired with gpr := s.gpr.put r u, eflags := fl d } t) ∧
    (∀ x, ∃ t d g, exec (.movToTr x r) s = .next t ∧ Stored s t [] ∧ Agree { s.retired with test := g, eflags := fl d } t ∧
      (x ≠ .tr5 → t.cache = s.cache) ∧
      t.bufferSpoiled = (if x = .tr5 ∧ v.extractLsb' 0 2 = 2#2 then false else s.bufferSpoiled) ∧ (x ≠ .tr6 → t.tlb = s.tlb) ∧
      (x = .tr3 → g = { s.test with tr3 := v, fill := s.test.fill.put (s.test.tr5.extractLsb' 2 2) v }) ∧
      (x = .tr4 → g = { s.test with tr4 := v &&& 0xFFFFFFF8#32 }) ∧
      (x = .tr7 → g = { s.test with tr7 := v &&& 0xFFFFFF9C#32 }) ∧
      (x = .tr5 →
        let i := (v.extractLsb' 4 7).toNat
        let w := Way.ofBits (v.extractLsb' 2 2)
        let set (y : State) (j : Nat) : CacheSet := sparseGet .blank y.cache j
        (v.extractLsb' 0 2 = 0#2 → g = { s.test with tr5 := v } ∧ t.cache = s.cache) ∧
        (v.extractLsb' 0 2 = 1#2 → g = { s.test with tr5 := v } ∧ (∀ j, j ≠ i → set t j = set s j) ∧
          set t i = { (set s i).put w { valid := s.test.tr4.getLsbD 10, tag := s.test.tr4.extractLsb' 11 21,
                                        data := s.test.fill.line } with lru := (set s i).lru.touch w }) ∧
        (v.extractLsb' 0 2 = 2#2 → t.cache = s.cache ∧ ∃ q, g = { s.test with
            tr5 := v, read := LineBuf.ofLine ((set s i).get w).data, tr4 := q } ∧
          q.extractLsb' 11 21 = ((set s i).get w).tag ∧ q.getLsbD 10 = ((set s i).get w).valid ∧
          q.getLsbD 9 = (set s i).lru.b2 ∧ q.getLsbD 8 = (set s i).lru.b1 ∧ q.getLsbD 7 = (set s i).lru.b0 ∧
          q.getLsbD 6 = (set s i).i3.valid ∧ q.getLsbD 5 = (set s i).i2.valid ∧ q.getLsbD 4 = (set s i).i1.valid ∧
          q.getLsbD 3 = (set s i).i0.valid ∧ q.extractLsb' 0 3 = 0#3) ∧
        (v.extractLsb' 0 2 = 3#2 → g = { s.test with tr5 := v } ∧ ∀ j y, (set t j).lru = .zero ∧
          (set t j).get y = { (set s j).get y with valid := false })) ∧
      (x = .tr6 →
        let c := s.tlbSetAt (v.extractLsb' 12 3).toNat
        let others : Prop := ∀ j, j ≠ (v.extractLsb' 12 3).toNat → t.tlbSetAt j = s.tlbSetAt j
        let here := t.tlbSetAt (v.extractLsb' 12 3).toNat
        (v.getLsbD 0 = false → g = { s.test with tr6 := v &&& 0xFFFFFFE1#32 } ∧ others ∧ ∃ w e,
          w = (if s.test.tr7.getLsbD 4 then Way.ofBits (s.test.tr7.extractLsb' 2 2) else c.victim) ∧
          here = { c.put w e with lru := c.lru.touch w } ∧ e.valid = v.getLsbD 11 ∧ e.tag = v.extractLsb' 15 17 ∧
          e.page = s.test.tr7.extractLsb' 12 20 ∧ e.pcd = s.test.tr7.getLsbD 11 ∧ e.pwt = s.test.tr7.getLsbD 10 ∧
          (v.getLsbD 10 ≠ v.getLsbD 9 → e.dirty = v.getLsbD 10) ∧ (v.getLsbD 8 ≠ v.getLsbD 7 → e.user = v.getLsbD 8) ∧
          (v.getLsbD 6 ≠ v.getLsbD 5 → e.writable = v.getLsbD 6)) ∧
        (v.getLsbD 0 = true →
          let found := [Way.w0, .w1, .w2, .w3].filter fun w =>
            (c.get w).valid && (c.get w).tag == v.extractLsb' 15 17 &&
              (v.getLsbD 10 == v.getLsbD 9 && v.getLsbD 10 || v.getLsbD 10 != v.getLsbD 9 && (c.get w).dirty == v.getLsbD 10) &&
              (v.getLsbD 8 == v.getLsbD 7 && v.getLsbD 8 || v.getLsbD 8 != v.getLsbD 7 && (c.get w).user == v.getLsbD 8) &&
              (v.getLsbD 6 == v.getLsbD 5 && v.getLsbD 6 || v.getLsbD 6 != v.getLsbD 5 && (c.get w).writable == v.getLsbD 6)
          (∀ w, found = [w] → others ∧ here = { c with lru := c.lru.touch w } ∧ ∃ q, g = { s.test with
              tr6 := v &&& 0xFFFFFFE1#32, tr7 := q } ∧
            q.extractLsb' 12 20 = (c.get w).page ∧ q.getLsbD 11 = (c.get w).pcd ∧ q.getLsbD 10 = (c.get w).pwt ∧
            q.getLsbD 9 = c.lru.b2 ∧ q.getLsbD 8 = c.lru.b1 ∧ q.getLsbD 7 = c.lru.b0 ∧ q.getLsbD 4 = true ∧
            q.extractLsb' 2 2 = w.toBits) ∧
          ((∀ w, found ≠ [w]) → t.tlb = s.tlb ∧ ∃ q, g = { s.test with tr6 := v &&& 0xFFFFFFE1#32, tr7 := q } ∧
            q.getLsbD 4 = false))))

/-! The FPU. -/

/-- Every numeric instruction without a memory operand, and every one that reads memory, completes whatever its operands
are; it changes the FPU alone and records itself in the error pointers. -/
def Obligations.FpuFormsComplete : Prop :=
  ∀ (i : Instr) (s : State), s.Fresh → s.fpuReady = true →
    (fpuRegisterForm i = true → ∃ t f, exec i s = .next t ∧ Stored s t [] ∧ Agree { s.retired with fpu := f } t ∧
      f.cw = s.fpu.cw ∧ f.fip = s.insn.start ∧ f.fcs = s.seg.cs.sel ∧ f.fop = fopOf i) ∧
    (∀ m n a v s1, fpuMemoryForm i = some (m, n, a) → readMemN m n a s = .ok v s1 →
      ∃ t f, exec i s = .next t ∧ Stored s t [] ∧ Agree { s.retired with fpu := f } t ∧
        f.cw = s.fpu.cw ∧ f.fip = s.insn.start ∧ f.fcs = s.seg.cs.sel ∧ f.fop = fopOf i ∧
        f.fds = (s.seg.get (s.segOf m)).sel ∧ f.fdp = s.gpr.ea m)

/-- FADD, FSUB, FSUBR, FMUL, FDIV, FDIVR, their popping and integer forms, on ordinary operands: the exact result rounded
to the precision of PC, or the infinity or zero that needs no rounding. The delivered value rests on log entry 24 (PRESUMED) and,
for unmasked overflow and underflow, on the spec's decision D36, which is general knowledge. -/
def Obligations.FpuArithmeticResults : Prop :=
  ∀ (i : Instr) (h : ArithShape) (s s1 : State) (y : FpOperand), fpuArith i = some h → s.Fresh → s.fpuReady = true →
    h.source s = .ok (some y) s1 → s.fpu.isEmpty h.dest = false →
    let x := FpOperand.ofExt (s.fpu.st h.dest)
    let a := if h.rev then y.val else x.val
    let b := if h.rev then x.val else y.val
    fpOrdinary x.val = true → fpOrdinary y.val = true → h.op.invalid a b = false → h.op.zeroDivide a b = false →
    (x.denormal || y.denormal) = false ∨ s.fpu.masked .de = true →
    (∀ v, h.op.special s.fpu.rc a b = some v → ∃ t d c3 c2 c0, exec i s = .next t ∧ Stored s t [] ∧ s.dataAt h.mem d ∧
      Agree { s.retired with
        fpu := popTimes h.pops ((((s.noted i d).codes c3 c2 false c0).flagIf .de (x.denormal || y.denormal)).putSt
          h.dest v) } t) ∧
    (∀ p v, h.op.special s.fpu.rc a b = none → s.fpu.precisionIs p →
      let r := deliverValue (FpFormat.ext p) s.fpu.rc (s.fpu.masked .oe) (s.fpu.masked .ue) false (h.op.exact a b)
      r.out.ext = some v → ∃ t d c3 c2 c0, exec i s = .next t ∧ Stored s t [] ∧ s.dataAt h.mem d ∧
        Agree { s.retired with
          fpu := popTimes h.pops (((((((s.noted i d).codes c3 c2 r.c1 c0).flagIf .de (x.denormal || y.denormal)).flagIf
            .oe r.oe).flagIf .ue r.ue).flagIf .pe r.pe).putSt h.dest v) } t)

/-- The responses of the arithmetic instructions to operands that are not ordinary: an empty register is a stack fault; a
signaling NaN, an unsupported format or an invalid operation sets IE; a quiet NaN alone is answered without an exception; a zero
divisor gives an infinity. Unmasked, the flag is set and the registers keep their contents. The NaN answered is marked general
knowledge by the spec; the order of the tests is DEDUCED (log entry 25). -/
def Obligations.FpuArithmeticExceptions : Prop :=
  (∀ (i : Instr) (h : ArithShape) (s s1 : State) (o : Option FpOperand), fpuArith i = some h → s.Fresh →
    s.fpuReady = true → h.source s = .ok o s1 → o = none ∨ s.fpu.isEmpty h.dest = true →
    ∃ t d c3 c2 c0, exec i s = .next t ∧ Stored s t [] ∧ s.dataAt h.mem d ∧
      let f := ((s.noted i d).codes c3 c2 false c0).faulted
      Agree { s.retired with
        fpu := if s.fpu.masked .ie then popTimes h.pops (f.putSt h.dest fpIndefinite) else f } t) ∧
  ∀ (i : Instr) (h : ArithShape) (s s1 : State) (y : FpOperand), fpuArith i = some h → s.Fresh → s.fpuReady = true →
    h.source s = .ok (some y) s1 → s.fpu.isEmpty h.dest = false →
    let x := s.fpu.st h.dest
    let a := if h.rev then y.val else x
    let b := if h.rev then x else y.val
    (fpIsBad a = true ∨ fpIsBad b = true ∨ (fpIsNan a = false ∧ fpIsNan b = false ∧ h.op.invalid a b = true) →
      ∃ t d c3 c2 c0, exec i s = .next t ∧ Stored s t [] ∧ s.dataAt h.mem d ∧
        let f := ((s.noted i d).codes c3 c2 false c0).flag .ie
        Agree { s.retired with
          fpu := if s.fpu.masked .ie then popTimes h.pops (f.putSt h.dest (nanResult a b)) else f } t) ∧
    (fpIsBad a = false → fpIsBad b = false → h.op.invalid a b = false → fpIsNan a = true ∨ fpIsNan b = true →
      ∃ t d c3 c2 c0, exec i s = .next t ∧ Stored s t [] ∧ s.dataAt h.mem d ∧ Agree { s.retired with
        fpu := popTimes h.pops (((s.noted i d).codes c3 c2 false c0).putSt h.dest (nanResult a b)) } t) ∧
    (let den := (FpOperand.ofExt x).denormal || y.denormal
     fpOrdinary a = true → fpOrdinary b = true → h.op.invalid a b = false → h.op.zeroDivide a b = true →
      den = false ∨ s.fpu.masked .de = true →
      ∃ t d c3 c2 c0, exec i s = .next t ∧ Stored s t [] ∧ s.dataAt h.mem d ∧
        let f := (((s.noted i d).codes c3 c2 false c0).flagIf .de den).flag .ze
        Agree { s.retired with
          fpu := if s.fpu.masked .ze then popTimes h.pops (f.putSt h.dest (fpInf (fpSign a != fpSign b))) else f } t)

/-- FCOM, FUCOM, FICOM and FTST and their popping forms, and FXAM: the condition codes say the order, or the class of ST. C3, C2
and C0 are 1 where there is no order: an empty register is a stack fault; a NaN or an unsupported format sets IE, but a quiet NaN sets
nothing in FUCOM and its popping forms. Unmasked, IE keeps the stack, and a denormal sets DE and leaves the codes too, which is DEDUCED
(log entry 12). The order of the tests is log entry 25. -/
def Obligations.FpuComparisonResults : Prop :=
  ∀ (i : Instr) (s : State), s.Fresh → s.fpuReady = true →
    (∀ m src k o s1, fpuCompares i = some (m, src, k) → src s = .ok o s1 → s.fpu.isEmpty 0 = true ∨ o = none →
      ∃ t d, exec i s = .next t ∧ Stored s t [] ∧ s.dataAt m d ∧
        let f := (s.noted i d).faulted.codes true true false true
        Agree { s.retired with fpu := if s.fpu.masked .ie then popTimes k f else f } t) ∧
    (∀ m src k y s1, fpuCompares i = some (m, src, k) → src s = .ok (some y) s1 → s.fpu.isEmpty 0 = false →
      let x := FpOperand.ofExt (s.fpu.st 0)
      let quiet : Prop := (∃ j, i = .fucom j ∨ i = .fucomp j) ∨ i = .fucompp
      let nan : Prop := fpIsNan x.val = true ∨ fpIsNan y.val = true
      let bad : Prop := fpIsBad x.val = true ∨ fpIsBad y.val = true
      let ends (g : Fpu → Fpu) : Prop := ∃ t d, exec i s = .next t ∧ Stored s t [] ∧ s.dataAt m d ∧
        Agree { s.retired with fpu := g (s.noted i d) } t
      (bad ∨ (nan ∧ ¬ quiet) → ends fun f =>
        let f := (f.flag .ie).codes true true false true
        if s.fpu.masked .ie then popTimes k f else f) ∧
      (nan → ¬ bad → quiet → ends fun f => popTimes k (f.codes true true false true)) ∧
      (¬ nan → ¬ bad → (x.denormal || y.denormal) = true → s.fpu.masked .de = false → ends fun f => f.flag .de)) ∧
    (∀ m src k y s1, fpuCompares i = some (m, src, k) → src s = .ok (some y) s1 → s.fpu.isEmpty 0 = false →
      let x := FpOperand.ofExt (s.fpu.st 0)
      fpOrdinary x.val = true → fpOrdinary y.val = true →
      (x.denormal || y.denormal) = false ∨ s.fpu.masked .de = true →
      ∃ t d, exec i s = .next t ∧ Stored s t [] ∧ s.dataAt m d ∧ Agree { s.retired with
        fpu := popTimes k (((s.noted i d).flagIf .de (x.denormal || y.denormal)).codes
          (fpCompare x.val y.val == .eq) false false (fpCompare x.val y.val == .lt)) } t) ∧
    (i = .fxam → ∃ t d c3 c2 c0, exec i s = .next t ∧ Stored s t [] ∧
      Agree { s.retired with fpu := (s.noted i d).codes c3 c2 (fpSign (s.fpu.st 0)) c0 } t ∧
      (c3, c2, c0) =
        (if s.fpu.isEmpty 0 then (true, false, true)
         else match fpClass (s.fpu.st 0) with
          | .unsupported => (false, false, false)
          | .snan => (false, false, true)
          | .qnan => (false, false, true)
          | .normal => (false, true, false)
          | .infinity => (false, true, true)
          | .zero => (true, false, false)
          | .denormal => (true, true, false)))

/-- FLD, FILD, FBLD and the constants push their value when ST(7) is empty: a register or an extended image unchanged, a
single or double image widened exactly, an integer or a packed decimal by its value. When it is not, every one of them is a stack
overflow. FLD of an empty register is a stack underflow, of a signaling NaN from memory an invalid operation, which loads it made quiet
where masked. What the images of these values are is FpuExactValues. -/
def Obligations.FpuLoadResults : Prop :=
  (∀ (i : Instr) (s s1 : State) (o : Option (Mem × Nat × Nat)), s.Fresh → s.fpuReady = true → s.fpu.isEmpty 7 = false →
    fpuPushes s.fpu.rc i = some o → (∀ p, o = some p → ∃ v, readMemN p.1 p.2.1 p.2.2 s = .ok v s1) →
    ∃ t d c3 c2 c0, exec i s = .next t ∧ Stored s t [] ∧ s.dataAt (o.map (·.1)) d ∧
      let f := ((s.noted i d).codes c3 c2 true c0).faulted
      Agree { s.retired with fpu := if s.fpu.masked .ie then f.push fpIndefinite else f } t) ∧
  ∀ (i : Instr) (s : State), s.Fresh → s.fpuReady = true → s.fpu.isEmpty 7 = true →
    let pushes (m : Option Mem) (v : Ext80) : Prop := ∃ t d c3 c2 c0, exec i s = .next t ∧ Stored s t [] ∧
      s.dataAt m d ∧ Agree { s.retired with fpu := ((s.noted i d).codes c3 c2 false c0).push v } t
    let answers (m : Option Mem) (g : Fpu → Fpu) (x : FpFlag) (v : Ext80) : Prop := ∃ t d c3 c2 c0, exec i s = .next t ∧
      Stored s t [] ∧ s.dataAt m d ∧
        let f := g ((s.noted i d).codes c3 c2 false c0)
        Agree { s.retired with fpu := if s.fpu.masked x then f.push v else f } t
    (∀ v, fpuConstant s.fpu.rc i = some v → pushes none v) ∧
    (∀ k, i = .fld (.st k) → s.fpu.isEmpty k = false → pushes none (s.fpu.st k)) ∧
    (∀ k, i = .fld (.st k) → s.fpu.isEmpty k = true → answers none (fun f => f.faulted) .ie fpIndefinite) ∧
    (∀ m v s1, i = .fld (.m80 m) → readMemN m 10 8 s = .ok v s1 → pushes (some m) (BitVec.ofNat 80 v)) ∧
    (∀ m f x s1, (i = .fld (.m32 m) ∧ f = FpFormat.single) ∨ (i = .fld (.m64 m) ∧ f = FpFormat.double) →
      readRealOp f m s = .ok x s1 →
      (fpClass x.val = .snan → answers (some m) (fun g => g.flag .ie) .ie (x.val ||| 0x4000000000000000#80)) ∧
      (x.denormal = true → answers (some m) (fun g => g.flag .de) .de x.val) ∧
      (fpClass x.val ≠ .snan → x.denormal = false → pushes (some m) x.val)) ∧
    (∀ f v s1, i = .fild f → readIntOp f.bytes f.mem s = .ok v s1 → pushes (some f.mem) (fpOfInt v)) ∧
    (∀ m v s1, i = .fbld m → readMemN m 10 8 s = .ok v s1 → bcdValid v 18 = true →
      pushes (some m) (fpOfFinite (v.testBit 79) (bcdValue v 18) 0))

/-- FST, FSTP, FIST, FISTP and FBSTP to memory: the value rounded to the destination's format, or its image
chopped where nothing is rounded, is stored, and the popping forms pop. An empty ST is a stack fault; a signaling NaN or an unsupported
format sets IE, and for the integer and decimal forms so does every NaN, an infinity and a value out of range. Masked, the indefinite
of the format is stored, or a signaling NaN made quiet, and the popping forms pop; unmasked, nothing is stored or popped, and the same
where a denormal, an overflow or an underflow is unmasked. That C1 is 0 after an invalid operand that is no stack fault and after an
unmasked denormal, overflow or underflow is log entry 49 (DESIGN CHOICE). Of the functions named: the integer a value is rounded to is
the one RC names, exact or a neighbour; the image of a finite value in single or double precision stands for that value, where it has
one; the chopped image keeps the sign and the upper bits of the fraction; a packed decimal holds the decimal digits. The rounding rests
on log entry 24 (PRESUMED). -/
def Obligations.FpuStoreResults : Prop :=
  (∀ (rc : BitVec 2) (x : Ext80), fpOrdinary x = true → fpIsInf x = false →
    (fpToInt rc x).k = 0 ∧ (fpToInt rc x).Near rc (fpSign x) |(fpVal x).rat| 1) ∧
  (∀ v n : Nat, bcdPack v n < 16 ^ n ∧ ∀ k < n, bcdPack v n / 16 ^ k % 16 = v / 10 ^ k % 10) ∧
  (∀ p ∈ [(FpFormat.single, 32, 8), (FpFormat.double, 64, 11)],
    let f := p.1
    let frac : Nat := p.2.1 - 1 - p.2.2
    let sign (v : Nat) (neg : Bool) : Prop := v < 2 ^ p.2.1 ∧ v.testBit (p.2.1 - 1) = neg
    let field (v : Nat) : Nat := v / 2 ^ frac % 2 ^ p.2.2
    let ones : Nat := 2 ^ p.2.2 - 1
    (∀ x : Ext80, sign (f.chop x) (fpSign x) ∧ field (f.chop x) = (if fpIsZero x then 0 else ones) ∧
      ∀ i < frac, (f.chop x).testBit i = x.getLsbD (63 - frac + i)) ∧
    (∀ neg v, f.imageOf (.inf neg) = some v → sign v neg ∧ field v = ones ∧ v % 2 ^ frac = 0) ∧
    (∀ neg q k v, f.imageOf (.fin neg q k) = some v → q ≤ 2 ^ f.p →
      (q : ℚ) * 2 ^ k < 2 ^ (1 - (f.bias : Int)) → 2 - (f.bias : Int) - f.p ≤ k →
      sign v neg ∧ field v = 0 ∧ ((v % 2 ^ frac : Nat) : ℚ) * 2 ^ (2 - (f.bias : Int) - f.p) = q * 2 ^ k) ∧
    (∀ neg q k v, f.imageOf (.fin neg q k) = some v → q ≤ 2 ^ f.p → 2 ^ (1 - (f.bias : Int)) ≤ (q : ℚ) * 2 ^ k →
      (q : ℚ) * 2 ^ k < 2 ^ ((f.bias : Int) + 1) →
      sign v neg ∧ 0 < field v ∧ field v < ones ∧
        ((2 ^ frac + v % 2 ^ frac : Nat) : ℚ) * 2 ^ ((field v : Int) - f.bias - frac) = q * 2 ^ k)) ∧
  ∀ (i : Instr) (s : State), s.Fresh → s.fpuReady = true →
    let x := s.fpu.st 0
    let ends (m : Mem) (l : List Store) (g : Fpu → Fpu) (c1 : Bool) : Prop := ∃ t d c3 c2 c0, exec i s = .next t ∧
      Stored s t l ∧ s.dataAt (some m) d ∧ Agree { s.retired with fpu := g ((s.noted i d).codes c3 c2 c1 c0) } t
    let probed (m : Mem) (n al : Nat) (s1 : State) : Prop := memProbe m.as (s.segOf m) (s.gpr.ea m) n al s = .ok () s1
    let takes (m : Mem) (n al v : Nat) (s1 : State) : Prop :=
      ∀ f k, ∃ s2, memWrite m.as (s.segOf m) (s.gpr.ea m) n al v { s1 with fpu := f, freeCtr := k } = .ok () s2
    let answers (m : Mem) (n al v pops : Nat) (g : Fpu → Fpu) : Prop := ∀ s1, probed m n al s1 →
      (s.fpu.masked .ie = true → takes m n al v s1 → ends m [(s.lin m, n, v)] (fun f => popTimes pops (g f)) false) ∧
      (s.fpu.masked .ie = false → ends m [] g false)
    let real (m : Mem) (f : FpFormat) (pops : Nat) : Prop :=
      (i = .fst (.m32 m) ∧ f = FpFormat.single ∧ pops = 0) ∨ (i = .fst (.m64 m) ∧ f = FpFormat.double ∧ pops = 0) ∨
      (i = .fstp (.m32 m) ∧ f = FpFormat.single ∧ pops = 1) ∨ (i = .fstp (.m64 m) ∧ f = FpFormat.double ∧ pops = 1)
    let integer (m : Mem) (n pops : Nat) : Prop := (∃ f : FInt, i = .fist f ∧ m = f.mem ∧ n = f.bytes ∧ pops = 0) ∨
      (∃ f : FIntL, i = .fistp f ∧ m = f.mem ∧ n = f.bytes ∧ pops = 1)
    let indef (f : FpFormat) : Nat := if f = FpFormat.single then 0xFFC00000 else 0xFFF8000000000000
    let indef10 : Nat := 0xFFFFC000000000000000
    (s.fpu.isEmpty 0 = true →
      (∀ m f pops, real m f pops → answers m f.bytes f.bytes (indef f) pops Fpu.faulted) ∧
      (∀ m, i = .fstp (.m80 m) → answers m 10 8 indef10 1 Fpu.faulted) ∧
      (∀ m n pops, integer m n pops → answers m n n (2 ^ (8 * n - 1)) pops Fpu.faulted) ∧
      (∀ m, i = .fbstp m → answers m 10 8 indef10 1 Fpu.faulted)) ∧
    (s.fpu.isEmpty 0 = false →
    let stores (m : Mem) (n al v pops : Nat) (de ue oe pe c1 : Bool) : Prop :=
      ∀ s1, probed m n al s1 → takes m n al v s1 → ends m [(s.lin m, n, v)]
        (fun f => popTimes pops ((((f.flagIf .de de).flagIf .oe oe).flagIf .ue ue).flagIf .pe pe)) c1
    (∀ m f pops, real m f pops →
      (fpClass x = .snan → answers m f.bytes f.bytes (f.chop (x ||| 0x4000000000000000#80)) pops (·.flag .ie)) ∧
      (fpClass x = .unsupported → answers m f.bytes f.bytes (indef f) pops (·.flag .ie)) ∧
      (fpClass x = .denormal → s.fpu.masked .de = false → ∀ s1, probed m f.bytes f.bytes s1 → ends m [] (·.flag .de) false) ∧
      (fpIsBad x = false → (fpIsNan x = true ∨ fpIsInf x = true ∨ fpIsZero x = true) →
        stores m f.bytes f.bytes (f.chop x) pops false false false false false) ∧
      (fpClass x = .normal ∨ (fpClass x = .denormal ∧ s.fpu.masked .de = true) →
        let r := deliverValue f s.fpu.rc (s.fpu.masked .oe) (s.fpu.masked .ue) true (fpVal x)
        let de := decide (fpClass x = .denormal)
        (∀ v, f.imageOf r.out = some v → stores m f.bytes f.bytes v pops de r.ue r.oe r.pe r.c1) ∧
        (r.out = .unstated → ∀ s1, probed m f.bytes f.bytes s1 →
          ends m [] (fun g => ((g.flagIf .de de).flagIf .oe r.oe).flagIf .ue r.ue) false))) ∧
    (∀ m, i = .fstp (.m80 m) → stores m 10 8 x.toNat 1 false false false false false) ∧
    (let r := fpToInt s.fpu.rc x
     let q := r.int (fpSign x)
     let number : Prop := fpOrdinary x = true ∧ fpIsInf x = false
     (∀ m n pops, integer m n pops →
       let fits : Prop := -(2 ^ (8 * n - 1) : Int) ≤ q ∧ q < 2 ^ (8 * n - 1)
       (number → fits → stores m n n (BitVec.ofInt (8 * n) q).toNat pops false false false r.inexact r.up) ∧
       (¬ (number ∧ fits) → answers m n n (2 ^ (8 * n - 1)) pops (·.flag .ie))) ∧
     (∀ m, i = .fbstp m →
       (number → q.natAbs < 10 ^ 18 →
         stores m 10 8 ((if fpSign x then 2 ^ 79 else 0) + bcdPack q.natAbs 18) 1 false false false r.inexact r.up) ∧
       (¬ (number ∧ q.natAbs < 10 ^ 18) → answers m 10 8 indef10 1 (·.flag .ie)))))

/-- FST and FSTP to a register, FXCH, FDECSTP, FINCSTP, FFREE, FABS and FCHS: registers and TOP change as said, their contents are
moved unchanged. An empty register is a stack fault: masked, the indefinite stands for its contents; unmasked, no register changes. That
FFREE keeps the condition codes, which 45 R669 calls undefined, is log entry 12 and the spec's decision D40 (log entry 43). -/
def Obligations.FpuMoveResults : Prop :=
  ∀ (s : State) (k : StIdx), s.Fresh → s.fpuReady = true →
    let leaves (i : Instr) (g : Fpu → Fpu) : Prop := ∃ t d c3 c2 c0, exec i s = .next t ∧ Stored s t [] ∧
      Agree { s.retired with fpu := g ((s.noted i d).codes c3 c2 false c0) } t
    leaves .fdecstp (fun f => { f with status := { f.status with top := s.fpu.top - 1 } }) ∧
    leaves .fincstp (fun f => { f with status := { f.status with top := s.fpu.top + 1 } }) ∧
    (∃ t d, exec (.ffree k) s = .next t ∧ Stored s t [] ∧
      Agree { s.retired with fpu := (s.noted (.ffree k) d).free k } t) ∧
    (s.fpu.isEmpty 0 = false →
      leaves (.fst (.st k)) (fun f => f.putSt k (s.fpu.st 0)) ∧
      leaves (.fstp (.st k)) (fun f => (f.putSt k (s.fpu.st 0)).pop) ∧
      leaves .fabs (fun f => f.putSt 0 (s.fpu.st 0 &&& 0x7FFFFFFFFFFFFFFFFFFF#80)) ∧
      leaves .fchs (fun f => f.putSt 0 (s.fpu.st 0 ^^^ 0x80000000000000000000#80)) ∧
      (s.fpu.isEmpty k = false →
        leaves (.fxch k) (fun f => (f.putSt k (s.fpu.st 0)).putSt 0 (s.fpu.st k)))) ∧
    (let faults (i : Instr) (g : Fpu → Fpu) : Prop := leaves i fun f => if s.fpu.masked .ie then g f.faulted else f.faulted
     let held (j : StIdx) : Ext80 := if s.fpu.isEmpty j then 0xFFFFC000000000000000#80 else s.fpu.st j
     (s.fpu.isEmpty 0 = true →
       faults (.fst (.st k)) (fun f => f.putSt k 0xFFFFC000000000000000#80) ∧
       faults (.fstp (.st k)) (fun f => (f.putSt k 0xFFFFC000000000000000#80).pop) ∧
       faults .fabs (fun f => f.putSt 0 0xFFFFC000000000000000#80) ∧
       faults .fchs (fun f => f.putSt 0 0xFFFFC000000000000000#80)) ∧
     (s.fpu.isEmpty 0 = true ∨ s.fpu.isEmpty k = true → faults (.fxch k) (fun f => (f.putSt k (held 0)).putSt 0 (held k))))

/-- FSQRT, FRNDINT, FSCALE, FXTRACT, FPREM and FPREM1 on normal operands. The integer of FRNDINT is that of FpuStoreResults. The scale is
ST(1) chopped to an integer, cut at 2^17, beyond which every result is out of range (log entry 26); a scale of 0 leaves ST. The quotient
of FPREM is chopped, that of FPREM1 the nearest integer, even on a tie; the remainder is the dividend less the quotient times the modulus,
a zero one with the sign of the dividend, which the rules mark general knowledge for FPREM1. The rounding of the first three rests on log
entry 24 (PRESUMED), unmasked overflow and underflow on the spec's decision D36, and the tie of FPREM1 is general knowledge (log entry
24). -/
def Obligations.FpuNumberResults : Prop :=
  (∀ y : Ext80, fpIsReal y = true →
    let size : ℚ := |(fpVal y).rat|
    let n : Int := if size < 2 ^ 17 then ⌊size⌋ else 2 ^ 17
    scaleOf y = if fpSign y then -n else n) ∧
  (∀ (x : Ext80) (e : Int), e ≤ (fpVal x).e → (shiftUp (fpVal x).m ((fpVal x).e - e) : ℚ) * 2 ^ e = |(fpVal x).rat|) ∧
  (∀ (nearest : Bool) (a b : Nat), 0 < b →
    let z := remainderOf nearest a b
    let rest : Int := if z.2.2 then -(z.2.1 : Int) else z.2.1
    rest = a - z.1 * b ∧ (nearest = false → z.2.2 = false ∧ z.2.1 < b) ∧
      (nearest = true → 2 * z.2.1 ≤ b ∧ (2 * z.2.1 = b → z.1 % 2 = 0))) ∧
  ∀ (s : State), s.Fresh → s.fpuReady = true → s.fpu.isEmpty 0 = false →
    let x := s.fpu.st 0
    let y := s.fpu.st 1
    fpClass x = .normal →
    let delivers (i : Instr) (r : Delivery) : Prop := ∀ v, r.out.ext = some v → ∃ t d c3 c2 c0, exec i s = .next t ∧
      Stored s t [] ∧ Agree { s.retired with
        fpu := ((((((s.noted i d).codes c3 c2 r.c1 c0).flagIf .oe r.oe).flagIf .ue r.ue).flagIf .pe r.pe).putSt 0 v) } t
    let deliver (p : Nat) (e : Exact) : Delivery :=
      deliverValue (FpFormat.ext p) s.fpu.rc (s.fpu.masked .oe) (s.fpu.masked .ue) false e
    (∀ p, fpSign x = false → s.fpu.precisionIs p → delivers .fsqrt (deliver p (fpVal x).sqrt)) ∧
    delivers .frndint { out := .fin (fpSign x) (fpToInt s.fpu.rc x).q 0, oe := false, ue := false,
                        pe := (fpToInt s.fpu.rc x).inexact, c1 := (fpToInt s.fpu.rc x).up } ∧
    (s.fpu.isEmpty 1 = false → fpClass y = .normal → scaleOf y ≠ 0 →
      delivers .fscale (deliver 64 { fpVal x with e := (fpVal x).e + scaleOf y })) ∧
    (s.fpu.isEmpty 1 = false → fpClass y = .normal → scaleOf y = 0 → ∃ t d c3 c2 c0, exec .fscale s = .next t ∧
      Stored s t [] ∧ Agree { s.retired with fpu := (s.noted .fscale d).codes c3 c2 false c0 } t) ∧
    (s.fpu.isEmpty 7 = true → ∃ t d c3 c2 c0, exec .fxtract s = .next t ∧ Stored s t [] ∧ Agree { s.retired with
      fpu := (((s.noted .fxtract d).codes c3 c2 false c0).putSt 0 (fpOfInt ((fpVal x).e + (fpVal x).m.log2))).push
        (fpOfFinite (fpSign x) (fpVal x).m (-((fpVal x).m.log2 : Int))) } t) ∧
    (s.fpu.isEmpty 1 = false → fpClass y = .normal → (fpVal x).log2 - (fpVal y).log2 < 64 →
      ∀ p ∈ [(Instr.fprem, false), (.fprem1, true)],
        let e := min (fpVal x).e (fpVal y).e
        let q := remainderOf p.2 (shiftUp (fpVal x).m ((fpVal x).e - e)) (shiftUp (fpVal y).m ((fpVal y).e - e))
        let leaves (g : Fpu → Fpu) : Prop := ∃ t d, exec p.1 s = .next t ∧ Stored s t [] ∧ Agree { s.retired with
          fpu := (g (s.noted p.1 d)).codes (q.1.testBit 1) false (q.1.testBit 0) (q.1.testBit 2) } t
        (q.2.1 = 0 → leaves fun f => f.putSt 0 (fpZero (fpSign x))) ∧
        (q.2.1 ≠ 0 →
          let r := deliver 64 { neg := fpSign x != q.2.2, m := q.2.1, e := e, sticky := false }
          ∀ v, r.out.ext = some v →
            leaves fun f => (((f.flagIf .oe r.oe).flagIf .ue r.ue).flagIf .pe r.pe).putSt 0 v))

/-- The transcendental instructions on normal operands in range, with overflow and underflow masked: the value of the
function, whose error the model leaves open (log entry 22), replaces the operands; it has the properties the rules state. The sine of
a very small operand, a denormal among them, is the operand to within rounding: it has its sign and is within a unit in its last place;
that very small is below 2^-32 is the model's choice (log entry 22). -/
def Obligations.TranscendentalResults : Prop :=
  (∀ (x : Ext80) (rc : BitVec 2), fpClass x = .normal ∨ fpClass x = .denormal → |(fpVal x).rat| < 2 ^ (-32 : Int) →
    let v := (Machine.fsin x rc).value
    fpIsReal v = true ∧ fpSign v = fpSign x ∧ |(fpVal v).rat - (fpVal x).rat| ≤ 2 ^ (fpVal x).e) ∧
  ∀ (s : State), s.Fresh → s.fpuReady = true → s.fpu.isEmpty 0 = false → s.fpu.masked .ue = true → s.fpu.masked .oe = true →
    let x := s.fpu.st 0
    let y := s.fpu.st 1
    let rc := s.fpu.rc
    fpClass x = .normal →
    let leaves (i : Instr) (g : Fpu → Fpu) (c2 : Option Bool) : Prop := ∃ t d st, exec i s = .next t ∧ Stored s t [] ∧
      s.fpu.status.extends st ∧ (∀ b, c2 = some b → st.c2 = b) ∧
      Agree { s.retired with fpu := g { (s.noted i d) with status := st } } t
    (fpIsReal (Machine.f2xm1 x rc).value = true ∧ fpUpToOne (Machine.fsin x rc).value = true ∧
      fpUpToOne (Machine.fcos x rc).value = true ∧ fpIsReal (Machine.ftan x rc).value = true ∧
      fpIsReal (Machine.fyl2xp1 x y rc).value = true ∧ fpBelowPi (Machine.fpatan x y rc).value = true ∧
      fpSign (Machine.fpatan x y rc).value = fpSign y) ∧
    (fpBelowOne x = true → leaves .f2xm1 (fun f => f.putSt 0 (Machine.f2xm1 x rc).value) none) ∧
    (fpInTrigRange x = true →
      leaves .fsin (fun f => f.putSt 0 (Machine.fsin x rc).value) (some false) ∧
      leaves .fcos (fun f => f.putSt 0 (Machine.fcos x rc).value) (some false) ∧
      (s.fpu.isEmpty 7 = true →
        leaves .fptan (fun f => (f.putSt 0 (Machine.ftan x rc).value).push fpOne) (some false) ∧
        leaves .fsincos (fun f => (f.putSt 0 (Machine.fsin x rc).value).push (Machine.fcos x rc).value) (some false))) ∧
    (fpInTrigRange x = false →
      leaves .fsin id (some true) ∧ leaves .fcos id (some true) ∧
      (s.fpu.isEmpty 7 = true → leaves .fptan id (some true) ∧ leaves .fsincos id (some true))) ∧
    (s.fpu.isEmpty 1 = false → fpClass y = .normal →
      leaves .fpatan (fun f => (f.putSt 1 (Machine.fpatan x y rc).value).pop) none ∧
      (fpSign x = false → x ≠ fpOne →
        (fpIsInf (Machine.fyl2x x y rc).value = false →
          leaves .fyl2x (fun f => (f.putSt 1 (Machine.fyl2x x y rc).value).pop) none) ∧
        (fpIsInf (Machine.fyl2x x y rc).value = true → ∀ v,
          (overflowOut (FpFormat.ext 64) rc (fpSign (Machine.fyl2x x y rc).value)).ext = some v →
          leaves .fyl2x (fun f => (f.putSt 1 v).pop) none)) ∧
      (yl2xp1InRange x = true → leaves .fyl2xp1 (fun f => (f.putSt 1 (Machine.fyl2xp1 x y rc).value).pop) none))

/-- FNCLEX, FNINIT, FNSTCW, FNSTSW, FNSTENV, FNSAVE and their wait forms, FNENI and its like, FNOP, FLDCW, FLDENV, FRSTOR,
WAIT and FWAIT. A wait form also needs no error pending. The images follow the spec's decision D12, the condition codes of FNCLEX
its decision D40 (log entry 43). That FNENI, FNDISI and FNSETPM do nothing but the #NM check is its decision D42 (general knowledge),
what FLDENV and FRSTOR leave in the pointers and FOP its decision D43 (log entry 43). FNOP records itself in FCS, FIP and FOP; that
it keeps the data pointer is log entry 12. The images are written out by their fields (offset in bytes, bits, value), as is what loading
one leaves in each register: that of Protected Mode with a 32-bit operand size holds the opcode by general knowledge (R55). -/
def Obligations.FpuControlComplete : Prop :=
  (∀ f : Fpu,
    let has (v : Nat) (l : List (Nat × Nat × Nat)) : Prop := ∀ p ∈ l, imageField v p.1 p.2.1 = p.2.2
    let ip : Nat := (f.fcs.toNat * 16 + f.fip.toNat) % 2 ^ 32
    let dp : Nat := (f.fds.toNat * 16 + f.fdp.toNat) % 2 ^ 32
    has (f.envImage .s32 true) [(0x00, 32, f.cw.toNat), (0x04, 32, f.sw.toNat), (0x08, 32, f.tagWord.toNat),
      (0x0C, 32, f.fip.toNat), (0x10, 16, f.fcs.toNat), (0x12, 16, f.fop.toNat), (0x14, 32, f.fdp.toNat),
      (0x18, 32, f.fds.toNat)] ∧
    has (f.envImage .s32 false) [(0x00, 32, f.cw.toNat), (0x04, 32, f.sw.toNat), (0x08, 32, f.tagWord.toNat),
      (0x0C, 32, ip % 2 ^ 16), (0x10, 32, f.fop.toNat + 2 ^ 12 * (ip / 2 ^ 16)), (0x14, 32, dp % 2 ^ 16),
      (0x18, 32, 2 ^ 12 * (dp / 2 ^ 16))] ∧
    has (f.envImage .s16 true) [(0x0, 16, f.cw.toNat), (0x2, 16, f.sw.toNat), (0x4, 16, f.tagWord.toNat),
      (0x6, 16, f.fip.toNat % 2 ^ 16), (0x8, 16, f.fcs.toNat), (0xA, 16, f.fdp.toNat % 2 ^ 16), (0xC, 16, f.fds.toNat)] ∧
    has (f.envImage .s16 false) [(0x0, 16, f.cw.toNat), (0x2, 16, f.sw.toNat), (0x4, 16, f.tagWord.toNat),
      (0x6, 16, ip % 2 ^ 16), (0x8, 16, f.fop.toNat + 2 ^ 12 * (ip / 2 ^ 16 % 16)), (0xA, 16, dp % 2 ^ 16),
      (0xC, 16, 2 ^ 12 * (dp / 2 ^ 16 % 16))] ∧
    (∀ os prot, f.stateImage os prot % 2 ^ (8 * envBytes os) = f.envImage os prot ∧
      ∀ n : StIdx, imageField (f.stateImage os prot) (envBytes os + 10 * n.val) 80 = (f.st n).toNat) ∧
    (∀ n : Fin 8, f.tagWord.extractLsb' (2 * n.val) 2 = if f.empty.get n then 3#2 else
      if fpClass (f.regs.get n) = .normal then 0#2 else if fpClass (f.regs.get n) = .zero then 1#2 else 2#2) ∧
    (∀ p ∈ [(0, f.status.ie), (1, f.status.de), (2, f.status.ze), (3, f.status.oe), (4, f.status.ue), (5, f.status.pe),
        (6, f.status.sf), (7, f.error), (8, f.status.c0), (9, f.status.c1), (10, f.status.c2), (14, f.status.c3),
        (15, f.error)], f.sw.getLsbD p.1 = p.2) ∧
    (f.sw.extractLsb' 11 3).toNat = f.top.val) ∧
  (∀ (f : Fpu) (os : Size) (prot : Bool) (v : Nat),
    let g := f.loadEnv os prot v
    let w : Nat := imageField v os.bytes 16
    g.regs = f.regs ∧ g.cw.toNat = imageField v 0 16 ∧ g.top.val = w / 2 ^ 11 % 8 ∧
    (∀ p ∈ [(0, g.status.ie), (1, g.status.de), (2, g.status.ze), (3, g.status.oe), (4, g.status.ue), (5, g.status.pe),
        (6, g.status.sf), (8, g.status.c0), (9, g.status.c1), (10, g.status.c2), (14, g.status.c3)], w.testBit p.1 = p.2) ∧
    (∀ n : Fin 8, g.empty.get n = true ↔ imageField v (2 * os.bytes) 16 / 4 ^ n.val % 4 = 3) ∧
    (os = .s32 → prot = true → g.fip.toNat = imageField v 0x0C 32 ∧ g.fcs.toNat = imageField v 0x10 16 ∧
      g.fop.toNat = imageField v 0x12 16 % 2 ^ 11 ∧ g.fdp.toNat = imageField v 0x14 32 ∧ g.fds.toNat = imageField v 0x18 16) ∧
    (os = .s32 → prot = false → g.fcs = 0#16 ∧ g.fds = 0#16 ∧ g.fop.toNat = imageField v 0x10 32 % 2 ^ 11 ∧
      g.fip.toNat = imageField v 0x0C 16 + 2 ^ 16 * (imageField v 0x10 32 / 2 ^ 12 % 2 ^ 16) ∧
      g.fdp.toNat = imageField v 0x14 16 + 2 ^ 16 * (imageField v 0x18 32 / 2 ^ 12 % 2 ^ 16)) ∧
    (os = .s16 → prot = true → g.fop = f.fop ∧ g.fip.toNat = imageField v 0x6 16 ∧ g.fcs.toNat = imageField v 0x8 16 ∧
      g.fdp.toNat = imageField v 0xA 16 ∧ g.fds.toNat = imageField v 0xC 16) ∧
    (os = .s16 → prot = false → g.fcs = 0#16 ∧ g.fds = 0#16 ∧ g.fop.toNat = imageField v 0x8 16 % 2 ^ 11 ∧
      g.fip.toNat = imageField v 0x6 16 + 2 ^ 16 * (imageField v 0x8 16 / 2 ^ 12) ∧
      g.fdp.toNat = imageField v 0xA 16 + 2 ^ 16 * (imageField v 0xC 16 / 2 ^ 12)) ∧
    { f.loadStack v with regs := f.regs } = f ∧
    ∀ n : StIdx, ((f.loadStack v).st n).toNat = imageField v (10 * n.val) 80) ∧
  ∀ s : State, s.Fresh →
    let initial : Fpu := { regs := s.fpu.regs, empty := Vector.replicate 8 true, cw := 0x037F#16, status := .zero
                           fip := 0#32, fcs := 0#16, fdp := 0#32, fds := 0#16, fop := 0#11 }
    (s.escReady = true →
      (∀ i, s.either .fnclex .fclex i → ∃ t, exec i s = .next t ∧ Stored s t [] ∧ Agree { s.retired with
        fpu := { s.fpu with status := { FpuStatus.zero with c0 := s.fpu.status.c0, c1 := s.fpu.status.c1
                                                            c2 := s.fpu.status.c2, c3 := s.fpu.status.c3
                                                            top := s.fpu.status.top } } } t) ∧
      (∀ i, s.either .fninit .finit i → ∃ t, exec i s = .next t ∧ Stored s t [] ∧ Agree { s.retired with
        fpu := initial } t) ∧
      (∀ k, ∃ t, exec (.fpuNop k) s = .next t ∧ Stored s t [] ∧ Agree s.retired t) ∧
      (∀ m s1, memWrite m.as (s.segOf m) (s.gpr.ea m) 2 2 s.fpu.cw.toNat s = .ok () s1 →
        ∀ i, s.either (.fnstcw m) (.fstcw m) i → ∃ t, exec i s = .next t ∧ Agree s.retired t ∧
          Stored s t [(s.lin m, 2, s.fpu.cw.toNat)]) ∧
      (∀ m s1, memWrite m.as (s.segOf m) (s.gpr.ea m) 2 2 s.fpu.sw.toNat s = .ok () s1 →
        ∀ i, s.either (.fnstsw (.mem m)) (.fstsw (.mem m)) i → ∃ t, exec i s = .next t ∧ Agree s.retired t ∧
          Stored s t [(s.lin m, 2, s.fpu.sw.toNat)]) ∧
      (∀ i, s.either (.fnstsw .ax) (.fstsw .ax) i → ∃ t, exec i s = .next t ∧ Stored s t [] ∧
        Agree { s.retired with gpr := s.gpr.write .word .eax s.fpu.sw } t) ∧
      (∀ os m s1, memWrite m.as (s.segOf m) (s.gpr.ea m) (envBytes os) os.bytes (s.fpu.envImage os s.prot) s = .ok () s1 →
        ∀ i, s.either (.fnstenv os m) (.fstenv os m) i → ∃ t, exec i s = .next t ∧
          Agree { s.retired with fpu := { s.fpu with cw := s.fpu.cw ||| 0x3F#16 } } t ∧
          Stored s t [(s.lin m, envBytes os, s.fpu.envImage os s.prot)]) ∧
      (∀ os m s1, memWrite m.as (s.segOf m) (s.gpr.ea m) (envBytes os + 80) os.bytes (s.fpu.stateImage os s.prot) s = .ok () s1 →
        ∀ i, s.either (.fnsave os m) (.fsave os m) i → ∃ t, exec i s = .next t ∧
          Agree { s.retired with fpu := initial } t ∧
          Stored s t [(s.lin m, envBytes os + 80, s.fpu.stateImage os s.prot)])) ∧
    (s.fpuReady = true →
      (∃ t, exec .fnop s = .next t ∧ Stored s t [] ∧ Agree { s.retired with
        fpu := { s.fpu with fcs := s.seg.cs.sel, fip := s.insn.start, fop := fopOf .fnop } } t) ∧
      (∀ m v s1, readMemN m 2 2 s = .ok v s1 → ∃ t, exec (.fldcw m) s = .next t ∧ Stored s t [] ∧
        Agree { s.retired with fpu := { s.fpu with cw := BitVec.ofNat 16 v } } t) ∧
      (∀ os m v s1, readMemN m (envBytes os) os.bytes s = .ok v s1 → ∃ t, exec (.fldenv os m) s = .next t ∧ Stored s t [] ∧
        Agree { s.retired with fpu := s.fpu.loadEnv os s.prot v } t) ∧
      (∀ os m v s1, readMemN m (envBytes os + 80) os.bytes s = .ok v s1 → ∃ t, exec (.frstor os m) s = .next t ∧
        Stored s t [] ∧
        Agree { s.retired with fpu := (s.fpu.loadEnv os s.prot v).loadStack (v / 2 ^ (8 * envBytes os)) } t)) ∧
    ((s.cr0Bit 1 && s.cr0Bit 3) = false → s.fpu.error = false ∨ (s.cr0Bit 5 = false ∧ s.pins.ignne = true) →
      ∀ i ∈ [Instr.wait, .fwait], ∃ t, exec i s = .next t ∧ Agree s.retired t ∧ Stored s t [])

/-! Prefixes, fetching and decoding. -/

/-- The prefixes: each changes the latch of the instruction in flight and nothing else. -/
def Obligations.PrefixesComplete : Prop :=
  ∀ s : State,
    exec .lockPrefix s = .next { s with insn := { s.insn with lock := true } } ∧
    exec .repnePrefix s = .next { s with insn := { s.insn with rep := some .repne } } ∧
    exec .repPrefix s = .next { s with insn := { s.insn with rep := some .repe } } ∧
    exec .segEs s = .next { s with insn := { s.insn with seg := some .es } } ∧
    exec .segCs s = .next { s with insn := { s.insn with seg := some .cs } } ∧
    exec .segSs s = .next { s with insn := { s.insn with seg := some .ss } } ∧
    exec .segDs s = .next { s with insn := { s.insn with seg := some .ds } } ∧
    exec .segFs s = .next { s with insn := { s.insn with seg := some .fs } } ∧
    exec .segGs s = .next { s with insn := { s.insn with seg := some .gs } } ∧
    exec .opSizePrefix s = .next { s with insn := { s.insn with opSize := true } } ∧
    exec .addrSizePrefix s = .next { s with insn := { s.insn with addrSize := true } }

/-- At an instruction boundary a running machine takes a pending debug trap, else an instruction breakpoint, else an NMI, else a maskable
interrupt, where nothing holds it off. A step in which none is due decodes the bytes at CS:EIP, moves EIP past them and runs the prefixes
and the instruction; an undefined opcode, a misplaced LOCK, or more than 15 bytes raises its exception instead. That a step fetches
exactly the bytes of the instruction, and finds an undefined opcode with the bytes that show it, is DEDUCED (log entry 41); that one step
runs all prefixes and the body is log entry 16; pending traps are log entry 31, the acknowledge cycle is log entry 33, that an interrupt
with vector 1 leaves DR6 and DR7.GD as they are, where R1085 clears GD on every entry to the #DB handler, is the model's choice (log entry
53), that an instruction breakpoint clears the interrupt shadows log entry 30, and the order where LOCK or more than 15 bytes meet another
fault log entry 54. That a load of SS holds debug traps off is the spec's decision D27, #NM first for an undefined ESC opcode D37, the LEN
mask of a code breakpoint and that undefined LEN never matches D54 (log entry 43). The other run states are in MachineControlComplete. -/
def Obligations.StepRunsDecoded : Prop :=
  (∀ s u : State, s.run = .running →
    let b := s.restAt s.eip
    let due := (s.traps.bs || s.traps.bt || s.traps.data) && !s.latch.inhibitNext
    let ev : Event := { vector := 1#8, software := false, code := none, isFault := false, debug := none }
    (due = true → ∀ d : Word32, d.getLsbD 15 = s.traps.bt → d.getLsbD 14 = s.traps.bs → d.extractLsb' 0 4 = s.traps.hits →
      d &&& 0xFFFF3FF0#32 = 0#32 → deliver { ev with debug := some d } s.eip { b with traps := .none } = .ok () u →
      step s = .next (u.settle false)) ∧
    (due = false → (∃ n < 4, s.instrHits.getLsbD n = true ∧ s.dr.enabled n = true) → s.rf = false →
      deliver { ev with isFault := true, debug := some (s.instrHits.setWidth 32) } s.eip { b with
        latch := { s.latch with inhibitNext := false, stiShadow := false } } = .ok () u →
      step s = .next (u.settle false)) ∧
    (due = false → s.instrBreak = none → s.latch.nmiPending = true → s.latch.nmiMasked = false →
      s.latch.inhibitNext = false →
      deliver { ev with vector := 2#8 } s.eip { b with
        latch := { s.latch with nmiPending := false, nmiMasked := true } } = .ok () u → step s = .next (u.settle false)) ∧
    (due = false → s.instrBreak = none → s.latch.nmiPending = false ∨ s.latch.nmiMasked = true → s.pins.intr = true →
      s.ifl = true → s.latch.inhibitNext = false → s.latch.stiShadow = false →
      deliver { ev with vector := s.pins.intVector } s.eip { b with
        events := s.events ++ [.intAck s.pins.intVector] } = .ok () u → step s = .next (u.settle false))) ∧
  (∀ s : State,
    (s.latch.inhibitNext = true → s.pendingTrap = none ∧ s.nmiReady = false ∧ s.intrReady = false) ∧
    (s.latch.stiShadow = true ∨ s.ifl = false ∨ s.pins.intr = false → s.intrReady = false) ∧
    (s.latch.nmiMasked = true ∨ s.latch.nmiPending = false → s.nmiReady = false) ∧
    (s.rf = true → s.instrBreak = none) ∧
    ∀ n < 4, s.instrHits.getLsbD n = true ↔ s.dr.rw n = 0#2 ∧
      ∃ m, lenMask (s.dr.len n) = some m ∧ (s.seg.cs.base + s.eip) &&& ~~~m = s.dr.addr n &&& ~~~m) ∧
  ∀ s : State, s.run = .running → s.pendingTrap = none → s.instrBreak = none → s.nmiReady = false → s.intrReady = false →
    let b := s.restAt s.eip
    let l := peekBytes 0 maxLength b
    (∀ ps i rest, decodeInstr s.defaultSize l = .ok (ps, i) rest →
      ∃ t, fetchBytes 0 (l.length - rest.length) b = .ok () t ∧ Agree b t ∧ t.insn = b.insn ∧
        step s = if lockBad ps i then failure b excUD t
                 else execAll ps i { t with eip := s.eip + BitVec.ofNat 32 (l.length - rest.length) }) ∧
    (∀ rest, decodeInstr s.defaultSize l = .error .undefined rest →
      ∃ t, fetchBytes 0 (l.length - rest.length) b = .ok () t ∧ Agree b t ∧ step s = failure b excUD t) ∧
    (∀ rest, decodeInstr s.defaultSize l = .error .undefinedEsc rest →
      ∃ t, fetchBytes 0 (l.length - rest.length) b = .ok () t ∧ Agree b t ∧ step s = failure b s.escUndefined t) ∧
    (∀ rest, l.length = 15 → decodeInstr s.defaultSize l = .error .truncated rest →
      ∃ t, fetchBytes 0 15 b = .ok () t ∧ Agree b t ∧ step s = failure b (excGP 0#16) t)

/-- Instructions written out byte by byte from the encoding tables decode as they stand. -/
def Obligations.DecodeWords : Prop :=
  ∀ p ∈ ([(.s32, [0x66#8, 0x05#8, 0x34#8, 0x12#8], [.opSizePrefix], .add (.acc (.i16 0x1234#16))),
      (.s32, [0x8B#8, 0x44#8, 0x8B#8, 0x10#8], [], .mov (.regRm .dword .eax (.mem (.sib .x4 .ecx .ebx (.d8 0x10#8))))),
      (.s16, [0xF3#8, 0x26#8, 0xA4#8], [.repPrefix, .segEs], .movsb .s16),
      (.s16, [0x0F#8, 0x84#8, 0xFE#8, 0xFF#8], [], .je (.r16 0xFFFE#16)),
      (.s32, [0xEA#8, 0x78#8, 0x56#8, 0x34#8, 0x12#8, 0x08#8, 0x00#8], [], .jmpFar (.ptr (.o32 0x12345678#32) 8#16)),
      (.s32, [0x0F#8, 0x22#8, 0xC0#8], [], .movToCr .cr0 .eax),
      (.s32, [0xDC#8, 0xC1#8], [], .fadd (.toSti 1)),
      (.s16, [0xDF#8, 0x6E#8, 0x02#8], [], .fild (.m64 (.ind16 .bp (.d8 0x02#8))))] :
      List (Size × List Byte × List Instr × Instr)),
    decodeInstr p.1 p.2.1 = .ok (p.2.2.1, p.2.2.2) []

/-- Decoding the encoding of a well-formed instruction, under the operand and address sizes it is written for, gives it
back, with the bytes that follow. A wait form is WAIT followed by its no-wait form. -/
def Obligations.DecodeEncode : Prop :=
  (∀ (os as : Size) (i : Instr) (rest : List Byte), i.wf = true → i.fits os as = true → i.noWait = none →
    decodeItem os as (encode i ++ rest) = .ok i.canonical rest) ∧
  (∀ i j : Instr, i.noWait = some j → encode i = 0x9B#8 :: encode j ∧ i.wf = j.wf ∧ j.noWait = none ∧
    ∀ os as, i.fits os as = j.fits os as)

/-! The machine as a whole. -/

/-- The state after RESET, with the self test, for every value the table gives. -/
def Obligations.ResetState : Prop :=
  let s := State.reset
  s.gpr.eax = Config.bistResult ∧ s.gpr.edx = 0x400#32 + Config.revId.setWidth 32 ∧ s.eflags = 2#32 ∧ s.eip = 0xFFF0#32 ∧
  s.seg.cs.sel = 0xF000#16 ∧ s.seg.cs.base = 0xFFFF0000#32 ∧ s.seg.cs.base + s.eip = 0xFFFFFFF0#32 ∧
  (∀ r, r ≠ .cs → (s.seg.get r).sel = 0#16 ∧ (s.seg.get r).base = 0#32) ∧
  (∀ r, (s.seg.get r).limit = 0xFFFF#32 ∧ (s.seg.get r).usable = true ∧ (s.seg.get r).present = true ∧
    (s.seg.get r).dpl = 0#2 ∧ (s.seg.get r).db = false ∧ (s.seg.get r).bit2 = false ∧ (s.seg.get r).bit1 = true) ∧
  s.cpl = 0#2 ∧ s.real = true ∧ s.run = .running ∧ s.idtr = { base := 0#32, limit := 0x3FF#16 } ∧
  s.cr0 = 0x60000010#32 ∧ s.dr.dr7 = 0#32 ∧ s.fpu.cw = 0x37F#16 ∧ s.fpu.sw = 0#16 ∧ s.fpu.tagWord = 0xFFFF#16 ∧
  s.fpu.fip = 0#32 ∧ s.fpu.fcs = 0#16 ∧ s.fpu.fdp = 0#32 ∧ s.fpu.fds = 0#16 ∧ s.fpu.fop = 0#11 ∧
  s.test.tr3 = 0#32 ∧ s.test.tr4 = 0#32 ∧ s.test.tr5 = 0#32 ∧ s.test.tr6 = 0#32 ∧ s.test.tr7 = 0#32 ∧
  (∀ a w, ((s.cacheSetAt a).get w).valid = false) ∧ s.latch.nmiMasked = false ∧ s.latch.nmiPending = false

/-- Every step keeps the invariant: memory in canonical form, the fixed bits of EFLAGS, CR0 and DR7 at their values, no
paging without protection, no NW without CD, level 0 and no VM in Real Mode, level 3 in V86 Mode. After it the latch is at rest. -/
def Obligations.StepKeepsInvariant : Prop :=
  ∀ s t : State, s.Inv → step s = .next t → t.Inv ∧ t.insn = .idle t.eip

/-- The state after reset has the invariant. -/
def Obligations.ResetInvariant : Prop :=
  State.reset.Inv ∧ State.reset.insn = .idle State.reset.eip

/-! Exceptions. -/

/-- Delivery through an interrupt or trap gate in Protected Mode, to a handler of the same level or, with a switch to the
stack the TSS holds, of an inner one, and from V86 Mode to level 0, where GS, FS, DS and ES are pushed first and made null:
flags, CS, EIP and the error code are pushed, TF, NT and RF are cleared, and an interrupt gate clears IF. A debug exception
has updated DR6 and cleared GD before. Through a task gate: the task is switched, with EFLAGS saved as they are, RF too, and an error
code is pushed on the stack of the new task; what the checks let pass is SegmentRegisterRules, what the switch does is TaskSwitches, and
that the new EIP is tested before the push is log entry 50. That the live RF is cleared and a software interrupt pushes it clear is DEDUCED
(log entry 27); the zero upper half of a selector's slot is the model's choice (log entry 47), and so is that the accessed bits of CS and
SS are set before the frame is pushed (log entry 56), that the room is one block that does not wrap (log entry 37), and that an event of
vector 1 without debug information leaves DR7.GD set (log entry 53). The places of the inner stacks are the spec's decision D49 (log
entry 43). -/
def Obligations.ProtectedDelivery : Prop :=
  ∀ (ev : Event) (ret : Word32) (s s1 s2 : State) (lo hi : Nat), s.Fresh → s.pe = true →
    let b : State := { s with
      run := .running
      dr := match ev.debug with
        | none => s.dr
        | some d => { s.dr with dr6 := s.dr.dr6 ||| d, dr7 := s.dr.dr7 &&& 0xFFFFDFFF#32 } }
    let g : Desc := { lo := BitVec.ofNat 32 lo, hi := BitVec.ofNat 32 hi }
    let at8 : Word32 := s.idtr.base + BitVec.ofNat 32 (ev.vector.toNat * 8)
    let n : Nat := if g.hi.getLsbD 11 then 4 else 2
    let image : Word32 := if ev.isFault then setBit s.eflags 16 true else if ev.software then clearRf s.eflags else s.eflags
    let flags : Word32 := s.eflags &&& (if g.hi.getLsbD 8 then 0xFFFEBEFF#32 else 0xFFFEBCFF#32)
    let code : List Nat := match ev.code with
      | none => []
      | some e => [e.toNat]
    ev.vector.toNat * 8 + 7 ≤ s.idtr.limit.toNat → sysRead at8 4 b = .ok lo s1 → sysRead (at8 + 4#32) 4 s1 = .ok hi s2 →
    g.s = false → g.present = true → (ev.software = true → s.cpl.toNat ≤ g.dpl.toNat) →
    (∀ s3 trap u w, g.typ = 5#4 → checkTss g.gateSel ev.ext excTS s2 = .ok () s3 →
      switchTasks .int g.gateSel ret ev.ext s3 = .ok trap u →
      let k : Nat := if u.tr.format = .tss486 then 4 else 2
      (code ≠ [] → u.room k = true) → eipOk u.seg.cs.limit u.eip = true →
      pushAllSys k code { u with insn := { u.insn with arrived := false } } = .ok () w →
      ∃ t, deliver ev ret s = .ok () t ∧ (t.settle false).mem = (w.settle false).mem ∧
        Agree { u with gpr := u.espPlus (-BitVec.ofNat 32 (k * code.length)) } (t.settle false) ∧
        (trap = true → (t.settle false).traps.bt = true)) ∧
    ∀ (s3 : State) (c : Desc), g.typ ∈ [6#4, 7#4, 14#4, 15#4] →
    selNull g.gateSel = false → selInTable s g.gateSel = true → readDesc g.gateSel s2 = .ok c s3 →
    c.isCode = true → c.present = true → eipOk c.limit g.gateOffset = true →
    (∀ s4 s5, s.vm = false → c.conforming = true ∨ c.dpl = s.cpl →
      let frame := [image.toNat, s.seg.cs.sel.toNat, ret.toNat] ++ code
      s.room (n * (3 + code.length)) = true → markAccessed g.gateSel c s3 = .ok () s4 → pushAllSys n frame s4 = .ok () s5 →
      ∃ t, deliver ev ret s = .ok () t ∧
        Agree { b with gpr := s.espPlus (-BitVec.ofNat 32 (n * (3 + code.length))), eip := g.gateOffset, eflags := flags
                       seg := s.seg.put .cs (c.toSeg (withRpl g.gateSel s.cpl)) } (t.settle false) ∧
        Reaches s (t.settle false) (s.pushStores n frame) (s.marking g.gateSel c) ∧
        (s.paging = false → s.WritesThrough → (t.settle false).mem = s.memAfter (s.pushStores n frame) s4.mem)) ∧
    (∀ ns nsp d s4 s5 s6 s7, s.vm = false → c.conforming = false → c.dpl.toNat < s.cpl.toNat →
      innerStack c.dpl ev.ext s3 = .ok (ns, nsp, d) s4 →
      let frame := [s.seg.ss.sel.toNat, s.gpr.esp.toNat, image.toNat, s.seg.cs.sel.toNat, ret.toNat] ++ code
      let u := s.enterInner c.dpl ns nsp d
      roomBelow (d.toSeg ns) d.stackSize nsp (n * (5 + code.length)) = true →
      markAccessed g.gateSel c s4 = .ok () s5 → markAccessed ns d s5 = .ok () s6 →
      pushAllSys n frame (s6.enterInner c.dpl ns nsp d) = .ok () s7 →
      ∃ t, deliver ev ret s = .ok () t ∧
        Agree { b with gpr := u.espPlus (-BitVec.ofNat 32 (n * (5 + code.length))), eip := g.gateOffset, eflags := flags
                       cpl := c.dpl, seg := u.seg.put .cs (c.toSeg (withRpl g.gateSel c.dpl)) } (t.settle false) ∧
        Reaches s (t.settle false) (u.pushStores n frame) (s.marking g.gateSel c ++ s.marking ns d) ∧
        (s.paging = false → s.WritesThrough → (t.settle false).mem = u.memAfter (u.pushStores n frame) s6.mem)) ∧
    (∀ ns nsp d s4 s5 s6 s7 s8, s.vm = true → n = 4 → c.conforming = false → c.dpl = 0#2 → s.cpl ≠ 0#2 →
      innerStack 0#2 ev.ext s3 = .ok (ns, nsp, d) s4 →
      let datas := [s.seg.gs.sel.toNat, s.seg.fs.sel.toNat, s.seg.ds.sel.toNat, s.seg.es.sel.toNat]
      let frame := [s.seg.ss.sel.toNat, s.gpr.esp.toNat, image.toNat, s.seg.cs.sel.toNat, ret.toNat] ++ code
      let u := s.leaveV86 ns nsp d
      roomBelow (d.toSeg ns) d.stackSize nsp (36 + 4 * code.length) = true →
      markAccessed g.gateSel c s4 = .ok () s5 → markAccessed ns d s5 = .ok () s6 →
      pushAllSys 4 datas (s6.leaveV86 ns nsp d) = .ok () s7 → pushAllSys 4 frame s7.nullData = .ok () s8 →
      ∃ t, deliver ev ret s = .ok () t ∧
        Agree { b with gpr := u.espPlus (-BitVec.ofNat 32 (36 + 4 * code.length)), eip := g.gateOffset
                       eflags := setBit flags 17 false, cpl := 0#2
                       seg := u.nullData.seg.put .cs (c.toSeg (withRpl g.gateSel 0#2)) } (t.settle false) ∧
        Reaches s (t.settle false) (u.pushStores 4 (datas ++ frame)) (s.marking g.gateSel c ++ s.marking ns d) ∧
        (s.paging = false → s.WritesThrough →
          (t.settle false).mem = u.memAfter (u.pushStores 4 (datas ++ frame)) s6.mem))

/-- The instructions of Protected Mode raise #UD outside it (21 R222); the privileged instructions raise #GP(0) at levels 1
to 3 and in V86 Mode (21 R220); the IOPL-sensitive ones as 21 R221 says. -/
def Obligations.ModeFaults : Prop :=
  ∀ s : State, s.Fresh →
    (s.real = true ∨ s.v86 = true → ∀ os x r, ∀ i ∈ [Instr.ltr x, .str os x, .lldt x, .sldt os x, .lar os r x, .lsl os r x,
      .verr x, .verw x, .arpl x r], exec i s = failure s excUD s) ∧
    (∀ os x r m c d tr, ∀ i ∈ [Instr.clts, .hlt, .invd, .invlpg m, .lgdt os m, .lidt os m, .lmsw x, .movFromCr r c,
        .movToCr c r, .movFromDr r d, .movToDr d r, .movFromTr r tr, .movToTr tr r, .wbinvd],
      (s.prot = true ∧ s.cpl ≠ 0#2) ∨ s.v86 = true → exec i s = failure s (excGP 0#16) s) ∧
    (s.prot = true → s.cpl ≠ 0#2 → ∀ x, ∀ i ∈ [Instr.lldt x, .ltr x], exec i s = failure s (excGP 0#16) s) ∧
    (s.real = false → s.iopl.toNat < s.cpl.toNat → ∀ i ∈ [Instr.cli, .sti], exec i s = failure s (excGP 0#16) s) ∧
    (s.v86 = true → s.iopl ≠ 3#2 → ∀ n, ∀ i ∈ [Instr.pushf, .pushfd, .popf, .popfd, .intN n, .iret, .iretd],
      exec i s = failure s (excGP 0#16) s)

/-- What else raises an exception: division (#DE), BOUND (#BR), FPU instructions when the FPU is not available (#NM) or has an error
pending (#MF), the debug registers under general detect (#DB); what leaves a debug trap pending: single step and the data breakpoints an
access matches; and that an exception is delivered with the address of the instruction that raised it. An exception raised in its place
becomes a double fault where 60_exceptions.md R925 says so, and is delivered itself elsewhere; one raised in place of a double fault shuts
the processor down. Before the commit point of a task switch it finds the state before the attempt; after it the new task, at its own EIP
(log entry 58, DEDUCED), and a fault of steps 13 to 17 of the switch is a fresh exception of that task (61_tasking.md R990). That a base
of 0 makes AAM raise #DE is the spec's decision D21; the CS:EIP and the state a double fault is delivered with are its decision D45 (log
entries 32, 43); that any exception raised while vector 8 is delivered shuts the processor down, where the source speaks of a protection
fault, is its decision D46 (R935; log entry 43); pending traps are log entry 31. That breakpoints match by their LEN mask, an undefined
LEN or R/W never, and which accesses count, is its decision D54 (log entry 43; R1081, R1082). -/
def Obligations.FaultsRaised : Prop :=
  ∀ s : State, s.Fresh →
    (∀ w x v s1, readRM w x s = .ok v s1 →
      (v = 0 ∨ 2 ^ w.bits ≤ (s.gpr.wide w).toNat / v.toNat → exec (.div w x) s = failure s excDE s1) ∧
      (v = 0 ∨ (s.gpr.wide w).toInt.tdiv v.toInt < -(2 ^ (w.bits - 1) : Int) ∨
        (2 ^ (w.bits - 1) : Int) ≤ (s.gpr.wide w).toInt.tdiv v.toInt → exec (.idiv w x) s = failure s excDE s1)) ∧
    exec (.aam 0#8) s = failure s excDE s ∧
    (∀ (os : Size) (r : Reg) (m : Mem) (v : Nat) (s1 : State), readMemN m (2 * os.bytes) os.bytes s = .ok v s1 →
      (s.gpr.read os.width r).toInt < (BitVec.ofNat os.width.bits v).toInt ∨
        (BitVec.ofNat os.width.bits (v / 2 ^ os.bits)).toInt < (s.gpr.read os.width r).toInt →
      exec (.bound os r m) s = failure s excBR s1) ∧
    (∀ i, fpuNoWaitForm i = true → (s.cr0Bit 2 || s.cr0Bit 3) = true → exec i s = failure s excNM s) ∧
    (∀ i ∈ [Instr.wait, .fwait], ((s.cr0Bit 1 && s.cr0Bit 3) = true → exec i s = failure s excNM s) ∧
      ((s.cr0Bit 1 && s.cr0Bit 3) = false → s.fpu.error = true →
        (s.cr0Bit 5 = true → exec i s = failure s excMF s) ∧
        (s.cr0Bit 5 = false → s.pins.ignne = false → exec i s = failure s .freeze s))) ∧
    (s.privileged = true → s.dr.dr7.getLsbD 13 = true → ∀ r x, ∀ i ∈ [Instr.movFromDr r x, .movToDr x r],
      ∃ d : Word32, exec i s = failure s (.exn 1#8 none d) s ∧ d.getLsbD 13 = true ∧ d &&& 0xFFFFDFF0#32 = 0#32 ∧
        ∀ n < 4, d.getLsbD n = true ↔ s.dr.rw n = 0#2 ∧ ∃ m, lenMask (s.dr.len n) = some m ∧
          (s.seg.cs.base + s.insn.start) &&& ~~~m = s.dr.addr n &&& ~~~m) ∧
    (∀ (m : M Unit) (u : State), m s = .ok () u → ∃ t, Machine.run m s = .next t ∧
      (t.traps.bs = true ↔ u.traps.bs = true ∨ s.tf = true) ∧ t.traps.bt = u.traps.bt ∧
      (t.traps.data = true ↔ u.traps.data = true ∨ ∃ n < 4, u.insn.hits.getLsbD n = true ∧ u.dr.enabled n = true)) ∧
    (∀ z r off n al v u, ∀ p ∈ [((do let _ ← memRead z r off n al : M Unit), false), (memWrite z r off n al v, true)],
      p.1 s = .ok () u → ∀ k < 4, u.insn.hits.getLsbD k = true ↔ s.insn.hits.getLsbD k = true ∨
        ((s.dr.rw k = 3#2 ∨ (s.dr.rw k = 1#2 ∧ p.2 = true)) ∧ ∃ j < n, ∃ m, lenMask (s.dr.len k) = some m ∧
          ((s.seg.get r).base + off + BitVec.ofNat 32 j) &&& ~~~m = s.dr.addr k &&& ~~~m)) ∧
    (∀ i, fpuRegisterForm i = true ∨ (fpuMemoryForm i).isSome = true ∨ fpuWaitingForm i = true →
      ((s.cr0Bit 2 || s.cr0Bit 3) = true → exec i s = failure s excNM s) ∧
      ((s.cr0Bit 2 || s.cr0Bit 3) = false → s.fpu.error = true →
        (s.cr0Bit 5 = true → exec i s = failure s excMF s) ∧
        (s.cr0Bit 5 = false → s.pins.ignne = false → exec i s = failure s .freeze s))) ∧
    (∀ v code dr6 t, t.insn.committed = false →
      let a := s.insn.start
      let b := (s.abandon t).restAt a
      let ev := faultEvent v code dr6
      (∀ u, deliver ev a b = .ok () u → failure s (.exn v code dr6) t = .next (u.settle false)) ∧
      (∀ v2 c2 d2 t2, deliver ev a b = .error (.exn v2 c2 d2) t2 → t2.insn.arrived = false →
        let q := if t2.insn.committed then t2.commitStores.restAt t2.eip else (b.abandon t2).restAt a
        let double : Prop := v ∈ [10#8, 11#8, 12#8, 13#8, 14#8] ∧ v2 ≠ 14#8
        (v = 8#8 → code.isSome = true → ∃ x, failure s (.exn v code dr6) t = .next x ∧ x.run = .shutdown ∧
          x.events = q.events ++ [.shutdown]) ∧
        (double → (∀ u, deliver doubleFault q.eip q = .ok () u → failure s (.exn v code dr6) t = .next (u.settle false)) ∧
          ∀ v3 c3 d3 t3, deliver doubleFault q.eip q = .error (.exn v3 c3 d3) t3 → t3.insn.arrived = false →
            ∃ x, failure s (.exn v code dr6) t = .next x ∧ x.run = .shutdown) ∧
        (v ≠ 8#8 → ¬ double → ∀ u, deliver (faultEvent v2 c2 d2) q.eip q = .ok () u →
          failure s (.exn v code dr6) t = .next (u.settle false))) ∧
      (∀ v2 c2 d2 t2, deliver ev a b = .error (.exn v2 c2 d2) t2 → t2.insn.arrived = true →
        ∀ u, deliver (faultEvent v2 c2 d2) t2.eip (t2.commitStores.restAt t2.eip) = .ok () u →
          failure s (.exn v code dr6) t = .next (u.settle false)))

/-! Arithmetic. -/

/-- The flags of additions, subtractions and logical operations, bit by bit of EFLAGS; INC and DEC leave CF alone (41 R459,
R452). -/
def Obligations.IntegerFlags : Prop :=
  ∀ (w : Width) (a b : BitVec w.bits) (c : Bool) (d : BitVec 6) (v : Word32),
    let szp (r : BitVec w.bits) (f : Word32) : Prop := SignZeroParity r f v
    let sum := a.toInt + b.toInt + c.toNat
    let diff := a.toInt - b.toInt - c.toNat
    let add := addFlags a b c
    let sub := subFlags a b c
    let fits (x : Int) : Prop := -(2 ^ (w.bits - 1) : Int) ≤ x ∧ x < 2 ^ (w.bits - 1)
    (add.1.toNat = (a.toNat + b.toNat + c.toNat) % 2 ^ w.bits ∧
      (let f := add.2.apply d v
       szp add.1 f ∧ (f.getLsbD 0 = true ↔ 2 ^ w.bits ≤ a.toNat + b.toNat + c.toNat) ∧
       (f.getLsbD 4 = true ↔ 16 ≤ a.toNat % 16 + b.toNat % 16 + c.toNat) ∧ (f.getLsbD 11 = true ↔ ¬ fits sum))) ∧
    ((sub.1.toNat : Int) = ((a.toNat : Int) - b.toNat - c.toNat) % 2 ^ w.bits ∧
      (let f := sub.2.apply d v
       szp sub.1 f ∧ (f.getLsbD 0 = true ↔ a.toNat < b.toNat + c.toNat) ∧
       (f.getLsbD 4 = true ↔ a.toNat % 16 < b.toNat % 16 + c.toNat) ∧ (f.getLsbD 11 = true ↔ ¬ fits diff))) ∧
    ((logicFlags a).1 = a ∧
      (let f := (logicFlags a).2.apply d v
       szp a f ∧ f.getLsbD 0 = false ∧ f.getLsbD 11 = false ∧ f.getLsbD 4 = d.getLsbD 2)) ∧
    ((incOp a).1 = (addFlags a 1 false).1 ∧ (decOp a).1 = (subFlags a 1 false).1 ∧
      (∀ i, ((incOp a).2.apply d v).getLsbD i = if i = 0 then v.getLsbD 0 else ((addFlags a 1 false).2.apply d v).getLsbD i) ∧
      (∀ i, ((decOp a).2.apply d v).getLsbD i = if i = 0 then v.getLsbD 0 else ((subFlags a 1 false).2.apply d v).getLsbD i))

/-- Data accesses. While paging is off: the type test, then the limit test, then the alignment check, each with its
exception; an access that passes them all is made. A read gives the bytes of memory, the lowest address least
significant, if the cache holds what memory holds; the bytes of a store lie in the same order. With paging on: a TLB hit, or a walk
of the two tables (stated with the cache off and empty), gives the frame or the page fault, whose code has P, W/R and U/S in bits 0,
1 and 2 (their places are general knowledge, 21 R266) and which leaves the address in CR2; the accessed and dirty bits are set, and
the entry serves the next access. A translation changes nothing in memory but those bits, in the first bytes of doublewords. A data
access corrupts the cache read buffer. That a page's accessed bit waits for the test of its protection is marked derived by R262. That
the entry serves the next access also where a write walked through one with D = 0 rests on the model's choice that the walk replaces
that entry (log entry 59). That a fault of the first byte's page is the one reported rests on the model's choice to translate the bytes
from the lowest address up (log entry 62). -/
def Obligations.DataAccesses : Prop :=
  (∀ (z : Size) (r : SReg) (off : Word32) (n al v : Nat) (s : State), s.Fresh → s.paging = false → 0 < n →
    (s.pins.a20m = true → s.real = true) →
    let x := s.seg.get r
    let code := x.typ.getLsbD 3
    let limitOk : Prop := (z = .s16 → off.toNat + n ≤ 0x10000) ∧
      if code = false ∧ x.typ.getLsbD 2 = true then
        x.limit.toNat < off.toNat ∧ off.toNat + n - 1 ≤ (if x.db then 0xFFFFFFFF else 0xFFFF)
      else off.toNat + n - 1 ≤ x.limit.toNat
    let readOk : Prop := s.prot = true → x.usable = true ∧ (code = true → x.typ.getLsbD 1 = true)
    let writeOk : Prop := s.prot = true → x.usable = true ∧ code = false ∧ x.typ.getLsbD 1 = true
    let aligned : Prop := s.cr0Bit 18 = true → s.eflags.getLsbD 18 = true → s.cpl = 3#2 → (x.base + off).toNat % al = 0
    let e : Exc := if r = .ss then excSS 0#16 else excGP 0#16
    ∀ m : M Unit, ∀ typeOk : Prop,
      (m = (do let _ ← memRead z r off n al) ∧ typeOk = readOk) ∨ (m = memWrite z r off n al v ∧ typeOk = writeOk) →
      (¬ typeOk → m s = .error (excGP 0#16) s) ∧ (typeOk → ¬ limitOk → m s = .error e s) ∧
      (typeOk → limitOk → ¬ aligned → m s = .error excAC s) ∧ (typeOk → limitOk → aligned → ∃ t, m s = .ok () t)) ∧
  (∀ (z : Size) (r : SReg) (off : Word32) (n al v i : Nat) (s t : State), s.Fresh → s.paging = false → s.Coherent →
    memRead z r off n al s = .ok v t → i < n →
    v / 256 ^ i % 256 = (Memory.read s.mem (s.phys ((s.seg.get r).base + off + BitVec.ofNat 32 i)).toNat).toNat ∧
      v < 256 ^ n) ∧
  (∀ (s : State) (lin : Word32) (n v i : Nat) (m : List Host.Cell), Memory.wf m = true → i < n → n < 1024 →
    Memory.read (s.memAfter [(lin, n, v)] m) (s.phys (lin + BitVec.ofNat 32 i)).toNat = BitVec.ofNat 8 (v / 256 ^ i)) ∧
  (∀ (lin : Word32) (write user : Bool) (s : State), s.paging = true → s.pins.a20m = false →
    let set := s.tlbSetAt (lin.extractLsb' 12 3).toNat
    let holds (w : Way) : Prop := (set.get w).valid = true ∧ (set.get w).tag = lin.extractLsb' 15 17
    let fails (present : Bool) (m : List Host.Cell) : Prop := ∃ code t, translate lin write user s = .error (excPF code) t ∧
      code.getLsbD 0 = present ∧ code.getLsbD 1 = write ∧ code.getLsbD 2 = user ∧ t.cr2 = lin ∧
      ∀ a, Memory.read t.mem a = Memory.read m a
    (∀ w, holds w → (∀ y, holds y → y = w) →
      let e := set.get w
      (¬ s.pageAllows e.user e.writable write user → fails true s.mem) ∧
      (s.pageAllows e.user e.writable write user → (write = true → e.dirty = true) →
        ∃ t, translate lin write user s = .ok (e.page ++ lin.extractLsb' 0 12, !e.pcd) t ∧ t.mem = s.mem ∧ Agree s t)) ∧
    (s.Uncached → s.memOk = true →
      (∀ w, ¬ holds w) ∨ (∃ w, holds w ∧ (∀ y, holds y → y = w) ∧ write = true ∧ (set.get w).dirty = false ∧
        s.pageAllows (set.get w).user (set.get w).writable true user) →
      let pa := s.pdeAddr lin
      let pde := dwordAt s.mem pa
      let m1 := entryMem s.mem pa 0x20#8
      let qa := pteAddr pde lin
      let pte := dwordAt m1 qa
      let level := min (pde.extractLsb' 1 2).toNat (pte.extractLsb' 1 2).toNat
      let allowed := s.pageAllows (decide (2 ≤ level)) (decide (level % 2 = 1)) write user
      (pde.getLsbD 0 = false → fails false s.mem) ∧
      (pde.getLsbD 0 = true → pte.getLsbD 0 = false → fails false m1) ∧
      (pde.getLsbD 0 = true → pte.getLsbD 0 = true → ¬ allowed → fails true m1) ∧
      (pde.getLsbD 0 = true → pte.getLsbD 0 = true → allowed →
        ∃ t, translate lin write user s = .ok (pte.extractLsb' 12 20 ++ lin.extractLsb' 0 12, !pte.getLsbD 4) t ∧ Agree s t ∧
          (∀ a, Memory.read t.mem a = Memory.read (entryMem m1 qa (if write then 0x60#8 else 0x20#8)) a) ∧
          ∃ w, t.tlbServes lin write user = some w ∧
            ((t.tlbSetAt (lin.extractLsb' 12 3).toNat).get w).page = pte.extractLsb' 12 20))) ∧
  (∀ (z : Size) (r : SReg) (off : Word32) (n al v : Nat) (s : State), 0 < n →
    ∀ p ∈ [((do let _ ← memRead z r off n al : M Unit), Access.read), (memWrite z r off n al v, .write)],
    segTypeOk s (s.seg.get r) p.2 = true → segLimitOk z (s.seg.get r) off.toNat n = true →
    (s.alignOn = true → ((s.seg.get r).base + off).toNat % al = 0) →
    ∃ h : BitVec 4, ∀ e t, translate ((s.seg.get r).base + off) (decide (p.2 = .write)) (decide (s.cpl = 3#2))
      { s.refer with insn := { s.insn with hits := h } } = .error e t → p.1 s = .error e t) ∧
  (∀ (z : Size) (r : SReg) (off : Word32) (n al v : Nat) (s t : State),
    ∀ m ∈ [(do let _ ← memRead z r off n al : M Unit), memWrite z r off n al v], m s = .ok () t → t.bufferSpoiled = true) ∧
  (∀ (lin : Word32) (write user : Bool) (p : Word32 × Bool) (s t : State), s.memOk = true →
    translate lin write user s = .ok p t → AlikeBut s.mem t.mem [])

/-- Rounding to p bits: exact where the value fits, else the neighbour that RC names; whether it was inexact and whether
the magnitude grew. That a tie goes to the even neighbour is stated by no rule (log entry 24). The delivery of a value: in
range as rounded; too large or tiny, masked, the infinity or greatest value RC names, or the value rounded to a multiple of the unit
of the denormals; unmasked, to memory nothing, to a register the value scaled by 2^24576, unstated where that is out of range too. The overflow
table and the test for tininess on the rounded value are marked general knowledge, the scaling is decision D36 (log entries 24,
43); that a scaled value still out of range leaves an unstated one is DEDUCED, since D36 does not speak of it (log entry 26); C1 of an
unmasked one to memory is log entry 49. -/
def Obligations.FpuRounding : Prop :=
  (∀ (rc : BitVec 2) (p : Nat) (x : Exact) (v : ℚ), 0 < p → 0 < x.m → x.Stands v → (x.sticky = true → p ≤ x.m.log2) →
    let r := roundTo rc p x
    (2 : ℚ) ^ (r.k + p - 1) ≤ v ∧ v < (2 : ℚ) ^ (r.k + p) ∧ r.Near rc x.neg v ((2 : ℚ) ^ r.k)) ∧
  (∀ (f : FpFormat) (rc : BitVec 2) (om um mem : Bool) (x : Exact) (v : ℚ), 0 < f.p → 0 < x.m → x.Stands v →
    (x.sticky = true → f.p ≤ x.m.log2) →
    let r := roundTo rc f.p x
    let size : ℚ := (r.q : ℚ) * (2 : ℚ) ^ r.k
    let emax : Int := f.bias
    let emin : Int := 1 - f.bias
    let dv := deliverValue f rc om um mem x
    let scaled (n : Int) : Prop :=
      let z := roundTo rc f.p { x with e := x.e + n }
      let zs : ℚ := (z.q : ℚ) * (2 : ℚ) ^ z.k
      dv.pe = z.inexact ∧ dv.c1 = z.up ∧
        ((2 : ℚ) ^ emin ≤ zs ∧ zs < (2 : ℚ) ^ (emax + 1) → dv.out = .fin x.neg z.q z.k) ∧
        (¬ ((2 : ℚ) ^ emin ≤ zs ∧ zs < (2 : ℚ) ^ (emax + 1)) → dv.out = .unstated)
    ((2 : ℚ) ^ emin ≤ size → size < (2 : ℚ) ^ (emax + 1) →
      dv = { out := .fin x.neg r.q r.k, oe := false, ue := false, pe := r.inexact, c1 := r.up }) ∧
    ((2 : ℚ) ^ (emax + 1) ≤ size →
      (om = true →
        let big := if rc = 0#2 then true else if rc = 1#2 then x.neg else if rc = 2#2 then !x.neg else false
        dv.oe = true ∧ dv.ue = false ∧ dv.pe = true ∧ dv.c1 = big ∧
          dv.out = if big then .inf x.neg else .fin x.neg (2 ^ f.p - 1) (emax - f.p + 1)) ∧
      (om = false → dv.oe = true ∧ dv.ue = false ∧
        (mem = true → dv.out = .unstated ∧ dv.pe = false ∧ dv.c1 = false) ∧ (mem = false → scaled (-24576)))) ∧
    (size < (2 : ℚ) ^ emin → 0 < f.bias →
      (um = true → ∃ d : Rounding, d.k = emin - f.p + 1 ∧ d.Near rc x.neg v ((2 : ℚ) ^ d.k) ∧
        dv = { out := .fin x.neg d.q d.k, oe := false, ue := d.inexact, pe := d.inexact, c1 := d.up }) ∧
      (um = false → dv.oe = false ∧ dv.ue = true ∧
        (mem = true → dv.out = .unstated ∧ dv.pe = false ∧ dv.c1 = false) ∧ (mem = false → scaled 24576))))

/-- Exact values: sums, products, quotients and square roots stand for the numbers they should, and comparison orders
the numbers. And the images of values, by their bits: the class of an extended image; the number a finite one stands for; the image of a
finite outcome (`FpOut.ext`, `fpOfFinite`), of an infinity, a zero, the indefinite and an integer; a single or double image widened, by its
fields; the digits of a packed decimal. -/
def Obligations.FpuExactValues : Prop :=
  (∀ x : Ext80,
    let e : Nat := x.toNat / 2 ^ 64 % 2 ^ 15
    let m : Nat := x.toNat % 2 ^ 64
    fpSign x = x.getLsbD 79 ∧ (fpVal x).sticky = false ∧
    (fpVal x).rat = (if x.getLsbD 79 then -1 else 1) * (m : ℚ) * 2 ^ ((max 1 e : Nat) - 16383 - 63 : Int) ∧
    fpClass x = if e = 0 then (if m = 0 then .zero else .denormal) else if m < 2 ^ 63 then .unsupported
      else if e < 0x7FFF then .normal else if m = 2 ^ 63 then .infinity else if m < 2 ^ 63 + 2 ^ 62 then .snan else .qnan) ∧
  (∀ (neg : Bool) (q : Nat) (k : Int), 2 ^ (q.log2 - 63) ∣ q → (q : ℚ) * 2 ^ k < 2 ^ (16384 : Int) →
    -16445 ≤ k ∨ (2 : ℚ) ^ (-16382 : Int) ≤ q * 2 ^ k →
    let x := fpOfFinite neg q k
    fpIsReal x = true ∧ fpSign x = neg ∧ |(fpVal x).rat| = q * 2 ^ k ∧
      ((2 : ℚ) ^ (-16382 : Int) ≤ q * 2 ^ k → fpClass x = .normal)) ∧
  (∀ neg : Bool,
    let sign : Nat := if neg then 2 ^ 79 else 0
    (fpInf neg).toNat = sign + 0x7FFF8000000000000000 ∧ (fpZero neg).toNat = sign) ∧
  fpIndefinite = 0xFFFFC000000000000000#80 ∧
  (∀ v : Int, v.natAbs ≤ 2 ^ 64 → (fpVal (fpOfInt v)).rat = v ∧ fpSign (fpOfInt v) = decide (v < 0) ∧
    fpIsReal (fpOfInt v) = true) ∧
  (∀ p ∈ [(FpFormat.single, 32, 8), (FpFormat.double, 64, 11)], ∀ v : Nat,
    let frac : Nat := p.2.1 - 1 - p.2.2
    let bias : Int := 2 ^ (p.2.2 - 1) - 1
    let field : Nat := v / 2 ^ frac % 2 ^ p.2.2
    let rest : Nat := v % 2 ^ frac
    let x := p.1.widen v
    fpSign x.val = v.testBit (p.2.1 - 1) ∧ x.denormal = decide (field = 0 ∧ rest ≠ 0) ∧
    (field = 2 ^ p.2.2 - 1 → x.val.toNat % 2 ^ 79 = 0x7FFF * 2 ^ 64 + 2 ^ 63 + rest * 2 ^ (63 - frac)) ∧
    (field ≠ 2 ^ p.2.2 - 1 → fpIsReal x.val = true ∧ |(fpVal x.val).rat| =
      (((if field = 0 then 0 else 2 ^ frac) + rest : Nat) : ℚ) * 2 ^ ((max 1 field : Nat) - bias - frac : Int))) ∧
  (∀ v n : Nat, (bcdValid v n = true ↔ ∀ k < n, v / 16 ^ k % 16 < 10) ∧
    bcdValue v n = ∑ k ∈ Finset.range n, v / 16 ^ k % 16 * 10 ^ k) ∧
  (∀ a b : Exact, a.sticky = false → b.sticky = false →
    (a.add b).sticky = false ∧ (a.add b).rat = a.rat + b.rat ∧ (a.mul b).sticky = false ∧ (a.mul b).rat = a.rat * b.rat ∧
    (b.m ≠ 0 → (a.div b).Stands |a.rat / b.rat| ∧ (a.div b).neg = (a.neg != b.neg) ∧
      (0 < a.m → a.m < 2 ^ 64 → 0 < b.m → b.m < 2 ^ 64 → 64 ≤ (a.div b).m.log2))) ∧
  (∀ a : Exact, a.sticky = false → a.neg = false → 0 < a.m → a.m < 2 ^ 64 →
    (a.sqrt.sticky = false → a.sqrt.rat ^ 2 = a.rat) ∧
    (a.sqrt.sticky = true → ((a.sqrt.m : ℚ) * 2 ^ a.sqrt.e) ^ 2 < a.rat ∧ a.rat < (((a.sqrt.m + 1 : Nat) : ℚ) * 2 ^ a.sqrt.e) ^ 2) ∧
    64 ≤ a.sqrt.m.log2) ∧
  (∀ x y : Ext80, fpOrdinary x = true → fpOrdinary y = true → fpIsInf x = false → fpIsInf y = false →
    fpCompare x y = if (fpVal x).rat < (fpVal y).rat then .lt else if (fpVal x).rat = (fpVal y).rat then .eq else .gt) ∧
  (∀ x y : Ext80, fpOrdinary x = true → fpOrdinary y = true → fpIsInf x = true →
    fpCompare x y = if fpIsInf y = true ∧ fpSign y = fpSign x then .eq else if fpSign x then .lt else .gt)
end

