-- ==== Sys2Proof/Laws/Monad.lean ====
section
/-! SUPPORT. How the computations of the meanings run: one equation and one inversion for each operation of the monad. -/
namespace Sys2Proof.Machine
open Sys2Proof

variable {α β : Type}

theorem bind_run (x : M α) (f : α → M β) (s : State) :
    (x >>= f) s = match x s with
      | .ok a t => f a t
      | .error e t => .error e t := by
  show EStateM.bind x f s = _
  unfold EStateM.bind
  cases x s <;> rfl

theorem bind_of_ok {x : M α} {f : α → M β} {s t : State} {a : α} (h : x s = .ok a t) : (x >>= f) s = f a t := by
  rw [bind_run, h]

theorem bind_of_error {x : M α} {f : α → M β} {s t : State} {e : Exc} (h : x s = .error e t) :
    (x >>= f) s = .error e t := by
  rw [bind_run, h]

theorem bind_ok_iff {x : M α} {f : α → M β} {s t : State} {b : β} :
    (x >>= f) s = .ok b t ↔ ∃ a u, x s = .ok a u ∧ f a u = .ok b t := by
  rw [bind_run]
  cases h : x s <;> simp

theorem bind_error_iff {x : M α} {f : α → M β} {s t : State} {e : Exc} :
    (x >>= f) s = .error e t ↔ x s = .error e t ∨ ∃ a u, x s = .ok a u ∧ f a u = .error e t := by
  rw [bind_run]
  cases h : x s <;> simp

@[simp] theorem pure_run (a : α) (s : State) : (pure a : M α) s = .ok a s := by rfl
@[simp] theorem get_run (s : State) : (get : M State) s = .ok s s := by rfl
@[simp] theorem set_run (t s : State) : (set t : M PUnit) s = .ok ⟨⟩ t := by rfl
@[simp] theorem modify_run (f : State → State) (s : State) : (modify f : M PUnit) s = .ok ⟨⟩ (f s) := by rfl
@[simp] theorem throw_run (e : Exc) (s : State) : (throw e : M α) s = .error e s := by rfl

/-! The same, before a continuation. -/
@[simp] theorem pure_then (a : α) (f : α → M β) (s : State) : ((pure a : M α) >>= f) s = f a s := by rfl
@[simp] theorem get_then (f : State → M β) (s : State) : ((get : M State) >>= f) s = f s s := by rfl
@[simp] theorem set_then (t : State) (f : PUnit → M β) (s : State) : ((set t : M PUnit) >>= f) s = f ⟨⟩ t := by rfl
@[simp] theorem modify_then (g : State → State) (f : PUnit → M β) (s : State) :
    ((modify g : M PUnit) >>= f) s = f ⟨⟩ (g s) := by rfl
@[simp] theorem throw_then (e : Exc) (f : α → M β) (s : State) : ((throw e : M α) >>= f) s = .error e s := by rfl

theorem check_run (c : Bool) (e : Exc) (s : State) : check c e s = if c then .ok () s else .error e s := by
  unfold check; cases c <;> rfl

@[simp] theorem check_true (e : Exc) (s : State) : check true e s = .ok () s := by rfl
@[simp] theorem check_false (e : Exc) (s : State) : check false e s = .error e s := by rfl

theorem check_ok_iff {c : Bool} {e : Exc} {s t : State} {u : Unit} :
    check c e s = .ok u t ↔ c = true ∧ t = s := by
  rw [check_run]; cases c <;> simp [eq_comm]

theorem map_run (f : α → β) (x : M α) (s : State) :
    (f <$> x) s = match x s with
      | .ok a t => .ok (f a) t
      | .error e t => .error e t := by
  show EStateM.map f x s = _
  unfold EStateM.map
  cases x s <;> rfl

/-- One law for `draw`: it answers the free value of the counter and advances the counter. -/
theorem draw_run (w : Nat) (s : State) :
    draw w s = .ok (Config.freeBits w s.freeCtr) { s with freeCtr := s.freeCtr + 1 } := by rfl

theorem getReg_run (w : Width) (r : Reg) (s : State) : getReg w r s = .ok (s.gpr.read w r) s := by rfl
@[simp] theorem getReg_then (w : Width) (r : Reg) (f : BitVec w.bits → M β) (s : State) :
    (getReg w r >>= f) s = f (s.gpr.read w r) s := by rfl
@[simp] theorem setReg_then (w : Width) (r : Reg) (v : BitVec w.bits) (f : PUnit → M β) (s : State) :
    (setReg w r v >>= f) s = f ⟨⟩ (s.setGpr (s.gpr.write w r v)) := by rfl
@[simp] theorem draw_then (w : Nat) (f : BitVec w → M β) (s : State) :
    (draw w >>= f) s = f (Config.freeBits w s.freeCtr) { s with freeCtr := s.freeCtr + 1 } := by rfl
theorem setReg_run (w : Width) (r : Reg) (v : BitVec w.bits) (s : State) :
    setReg w r v s = .ok () (s.setGpr (s.gpr.write w r v)) := by rfl

/-- One law for `setStatus`: whatever the undefined flags become, EFLAGS alone changes, and the draw counter. -/
theorem setStatus_run (u : StatusUpd) (s : State) :
    ∃ d n, setStatus u s = .ok () { s with eflags := u.apply d s.eflags, freeCtr := n } := by
  unfold setStatus
  cases u.open?
  · exact ⟨0#6, s.freeCtr, rfl⟩
  · exact ⟨_, _, rfl⟩

end Sys2Proof.Machine
end

