-- ==== Sys2Proof/Laws/Access.lean ====
section
/-!
SUPPORT. What an access to memory may change: one lemma for each operation that reads or stores. A read changes memory
(accessed and dirty bits, with paging on), the cache, the TLB, the matched breakpoints and the mark of a data reference; a store
adds to that the bytes held back until the instruction completes.
-/
namespace Sys2Proof.Machine
open Sys2Proof

/-- What a read may change. With paging on a store held back for a page table entry takes the bits set in it. -/
structure Quiet (s t : State) : Prop where
  eqn : t = { s with mem := t.mem, cache := t.cache, tlb := t.tlb, bufferSpoiled := t.bufferSpoiled
                     insn := { s.insn with hits := t.insn.hits, stores := t.insn.stores } }
  mem : s.paging = false → t.mem = s.mem
  stores : s.paging = false → t.insn.stores = s.insn.stores
  via : ∀ s0 l k ps, Via s0 l k ps s → Via s0 l k ps t

theorem Quiet.refl (s : State) : Quiet s s := ⟨rfl, fun _ => rfl, fun _ => rfl, fun _ _ _ _ h => h⟩

theorem Quiet.cr0 {s t : State} (h : Quiet s t) : t.cr0 = s.cr0 := by rw [h.eqn]
theorem Quiet.paging {s t : State} (h : Quiet s t) : t.paging = s.paging := by
  unfold State.paging State.cr0Bit; rw [h.cr0]

theorem Quiet.trans {s t u : State} (h : Quiet s t) (k : Quiet t u) : Quiet s u := by
  refine ⟨?_, fun hp => ?_, fun hp => ?_, fun s0 l _ ps w => k.via _ _ _ _ (h.via _ _ _ _ w)⟩
  · have e := k.eqn
    rw [h.eqn] at e
    rw [e]
  · rw [k.mem (by rw [h.paging]; exact hp), h.mem hp]
  · rw [k.stores (by rw [h.paging]; exact hp), h.stores hp]

/-- A computation that reads. -/
def Reads {α : Type} (x : M α) : Prop := ∀ s a t, x s = .ok a t → Quiet s t

theorem Reads.pure {α : Type} (a : α) : Reads (pure a : M α) := by
  intro s b t h
  simp only [pure_run, EStateM.Result.ok.injEq] at h
  rw [← h.2]; exact .refl s

theorem Reads.get : Reads (get : M State) := by
  intro s b t h
  simp only [get_run, EStateM.Result.ok.injEq] at h
  rw [← h.2]; exact .refl s

theorem Reads.throw {α : Type} (e : Exc) : Reads (throw e : M α) := by
  intro s b t h
  simp at h

theorem Reads.check (c : Bool) (e : Exc) : Reads (check c e) := by
  intro s b t h
  rw [check_ok_iff] at h
  rw [h.2]; exact .refl s

theorem Reads.bind {α β : Type} {x : M α} {f : α → M β} (hx : Reads x) (hf : ∀ a, Reads (f a)) : Reads (x >>= f) := by
  intro s b t h
  rw [bind_ok_iff] at h
  obtain ⟨a, u, h1, h2⟩ := h
  exact (hx s a u h1).trans (hf a u b t h2)

theorem Reads.ite {α : Type} {c : Prop} [Decidable c] {x y : M α} (hx : Reads x) (hy : Reads y) :
    Reads (if c then x else y) := by
  split
  · exact hx
  · exact hy

/-- A read of a byte changes the cache alone. -/
theorem readPhys_eqn (s : State) (a : Word32) (c l : Bool) :
    (s.readPhys a c l).2 = { s with cache := (s.readPhys a c l).2.cache } := by
  unfold State.readPhys
  split
  · rfl
  · dsimp only
    split
    · rfl
    · split <;> rfl

theorem readPhys_quiet (s : State) (a : Word32) (c l : Bool) : Quiet s (s.readPhys a c l).2 := by
  have e := readPhys_eqn s a c l
  exact ⟨by rw [e], fun _ => by rw [e], fun _ => by rw [e], fun _ _ _ _ h => h.read⟩

theorem writePhys_eqn (s : State) (a : Word32) (v : Byte) :
    s.writePhys a v = { s with mem := (s.writePhys a v).mem, cache := (s.writePhys a v).cache } := by
  unfold State.writePhys
  dsimp only
  split
  · split <;> rfl
  · rfl

/-- A locked read-modify-write changes memory, the cache and, where one covers the byte, a store held back. -/
theorem updatePhys_eqn (s : State) (a : Word32) (f : Byte → Byte) :
    s.updatePhys a f = { s with mem := (s.updatePhys a f).mem, cache := (s.updatePhys a f).cache
                                insn := { s.insn with stores := (s.updatePhys a f).insn.stores } } := by
  have h := writePhys_eqn s a (f (Memory.read s.mem a.toNat))
  unfold State.updatePhys
  dsimp only
  split
  · rw [h]
  · rw [h]

theorem maskA20_reads (a : Word32) : Reads (maskA20 a) :=
  .bind .get fun s => by
    split
    · exact .pure _
    · split
      · exact .pure _
      · exact .throw _

theorem maskA20_state {a b : Word32} {s t : State} (h : maskA20 a s = .ok b t) : t = s := by
  unfold maskA20 at h
  rw [bind_run] at h
  simp only [get_run] at h
  split at h
  · cases h; rfl
  · split at h
    · cases h; rfl
    · simp at h

theorem maskA20_phys {a b : Word32} {s t : State} (h : maskA20 a s = .ok b t) :
    b = if s.pins.a20m then a &&& 0xFFEFFFFF#32 else a := by
  unfold maskA20 at h
  rw [bind_run] at h
  simp only [get_run] at h
  split at h
  · rename_i hc
    simp only [pure_run, EStateM.Result.ok.injEq] at h
    have : s.pins.a20m = false := by simpa using hc
    simp [this, h.1]
  · rename_i hc
    have : s.pins.a20m = true := by simpa using hc
    split at h
    · simp only [pure_run, EStateM.Result.ok.injEq] at h
      simp [this, h.1]
    · simp at h

/-- The paging unit changes memory; an equation alone says what. -/
structure Walks (s t : State) : Prop where
  eqn : t = { s with mem := t.mem, cache := t.cache, tlb := t.tlb, insn := { s.insn with stores := t.insn.stores } }

theorem Walks.refl (s : State) : Walks s s := ⟨rfl⟩

theorem Walks.trans {s t u : State} (h : Walks s t) (k : Walks t u) : Walks s u := by
  refine ⟨?_⟩
  have e := k.eqn
  rw [h.eqn] at e
  rw [e]

theorem physRead_walks (n : Nat) : ∀ (a : Word32) (c l : Bool) (s : State) (v : List Byte) (t : State),
    physRead a c l n s = .ok v t → Walks s t := by
  induction n with
  | zero =>
    intro a c l s v t h
    simp only [physRead, pure_run, EStateM.Result.ok.injEq] at h
    rw [← h.2]; exact .refl s
  | succ n ih =>
    intro a c l s v t h
    rw [physRead, bind_ok_iff] at h
    obtain ⟨p, u, h1, h⟩ := h
    simp only [get_then, set_then, bind_ok_iff, pure_run, EStateM.Result.ok.injEq] at h
    obtain ⟨rest, u4, h4, _, rfl⟩ := h
    have e := maskA20_state h1
    subst e
    refine Walks.trans ⟨?_⟩ (ih _ _ _ _ _ _ h4)
    rw [readPhys_eqn]

theorem physOr_walks (l : List Byte) : ∀ (a : Word32) (s : State) (u : Unit) (t : State),
    physOr a l s = .ok u t → Walks s t := by
  induction l with
  | nil =>
    intro a s u t h
    simp only [physOr, pure_run, EStateM.Result.ok.injEq] at h
    rw [← h.2]; exact .refl s
  | cons v l ih =>
    intro a s u t h
    rw [physOr, bind_ok_iff] at h
    obtain ⟨p, s1, h1, h3⟩ := h
    rw [modify_then] at h3
    have e := maskA20_state h1
    subst e
    refine Walks.trans ⟨?_⟩ (ih _ _ _ _ h3)
    have := updatePhys_eqn s1 p (· ||| v)
    rw [this]

theorem physDword_walks {a : Word32} {c l : Bool} {s t : State} {v : Word32} (h : physDword a c l s = .ok v t) :
    Walks s t := by
  simp only [physDword, bind_ok_iff, pure_run, EStateM.Result.ok.injEq] at h
  obtain ⟨x, u, h1, _, rfl⟩ := h
  exact physRead_walks _ _ _ _ _ _ _ h1

theorem pageFault_not_ok {α : Type} {lin : Word32} {p w u : Bool} {s t : State} {a : α} :
    ¬ (pageFault lin p w u : M α) s = .ok a t := by
  intro h
  simp [pageFault] at h

theorem secondRead_walks {a o b v : Word32} {s t : State} (h : secondRead a o b s = .ok v t) : Walks s t := by
  unfold secondRead at h
  split at h
  · cases h; exact .refl s
  · exact physDword_walks h

theorem setEntryBits_walks {a o b : Word32} {v : Unit} {s t : State} (h : setEntryBits a o b s = .ok v t) : Walks s t := by
  unfold setEntryBits at h
  split at h
  · cases h; exact .refl s
  · exact physOr_walks _ _ _ _ _ h

/-- A directory entry that passes is present, and the test changes nothing. -/
theorem checkPde_ok {lin pde : Word32} {w us : Bool} {v : Unit} {s t : State} (h : checkPde lin w us pde s = .ok v t) :
    t = s ∧ pde.getLsbD 0 = true := by
  unfold checkPde at h
  split at h
  · next hp => cases h; exact ⟨rfl, hp⟩
  · exact absurd h pageFault_not_ok

/-- A table entry that passes is present and permits the access, and the test changes nothing. -/
theorem checkPte_ok {lin pde pte : Word32} {w us : Bool} {v : Unit} {s t : State}
    (h : checkPte lin w us pde pte s = .ok v t) :
    t = s ∧ pte.getLsbD 0 = true ∧ pagePermits s (pageRights pde pte).1 (pageRights pde pte).2 w us = true := by
  unfold checkPte at h
  rw [get_then] at h
  split at h
  · exact absurd h pageFault_not_ok
  · next hp =>
    split at h
    · next hq => cases h; exact ⟨rfl, by simpa using hp, hq⟩
    · exact absurd h pageFault_not_ok

/-- A walk that succeeds, as its accesses: each entry is read, read again where the update needs it, and updated; the translation is
that of the entries last read, which pass the tests. -/
theorem walk_inv {lin : Word32} {w us : Bool} {s t : State} {e : TlbEntry} (h : walk lin w us s = .ok e t) :
    ∃ (pde1 pde pte1 pte : Word32) (u1 u2 u3 u4 u5 : State),
      let need : Word32 := if w then 0x60#32 else 0x20#32
      let pa := (s.cr3 &&& 0xFFFFF000#32) + ((lin >>> 22) <<< 2)
      let qa := (pde &&& 0xFFFFF000#32) + (((lin >>> 12) &&& 0x3FF#32) <<< 2)
      physDword pa (!s.cr3.getLsbD 4) false s = .ok pde1 u1 ∧ secondRead pa pde1 0x20#32 u1 = .ok pde u2 ∧
      setEntryBits pa pde1 0x20#32 u2 = .ok () u3 ∧ physDword qa (!pde.getLsbD 4) false u3 = .ok pte1 u4 ∧
      secondRead qa pte1 need u4 = .ok pte u5 ∧ setEntryBits qa pte1 need u5 = .ok () t ∧
      pde.getLsbD 0 = true ∧ pte.getLsbD 0 = true ∧ e.user = (pageRights pde pte).1 ∧ e.writable = (pageRights pde pte).2 ∧
      pagePermits u5 e.user e.writable w us = true ∧ e.page = pte.extractLsb' 12 20 ∧ e.pcd = pte.getLsbD 4 := by
  unfold walk at h
  rw [get_then] at h
  simp only [bind_ok_iff, pure_run, EStateM.Result.ok.injEq] at h
  obtain ⟨pde1, u1, h1, _, _, c1, pde, u2, h2, _, _, c2, _, u3, h3, pte1, u4, h4, _, _, c3, pte, u5, h5, _, _, c4, _, _, h6,
    rfl, rfl⟩ := h
  obtain ⟨rfl, -⟩ := checkPde_ok c1
  obtain ⟨rfl, p1⟩ := checkPde_ok c2
  obtain ⟨rfl, -⟩ := checkPte_ok c3
  obtain ⟨rfl, p2, p3⟩ := checkPte_ok c4
  exact ⟨pde1, pde, pte1, pte, _, _, _, _, _, h1, h2, h3, h4, h5, h6, p1, p2, rfl, rfl, p3, rfl, rfl⟩

theorem walk_walks {lin : Word32} {w us : Bool} {s t : State} {e : TlbEntry} (h : walk lin w us s = .ok e t) :
    Walks s t := by
  obtain ⟨_, _, _, _, _, _, _, _, _, h1, h2, h3, h4, h5, h6, -⟩ := walk_inv h
  exact (((((physDword_walks h1).trans (secondRead_walks h2)).trans (setEntryBits_walks h3)).trans
    (physDword_walks h4)).trans (secondRead_walks h5)).trans (setEntryBits_walks h6)

theorem translate_off {lin : Word32} {w us : Bool} {s t : State} {p : Word32 × Bool} (hp : s.paging = false)
    (h : translate lin w us s = .ok p t) : p = (lin, true) ∧ t = s := by
  simp only [translate, bind_run, get_run, hp, Bool.not_false, if_true, pure_run, EStateM.Result.ok.injEq] at h
  exact ⟨h.1.symm, h.2.symm⟩

theorem translate_walks {lin : Word32} {w us : Bool} {s t : State} {p : Word32 × Bool}
    (h : translate lin w us s = .ok p t) : Walks s t := by
  unfold translate at h
  rw [get_then] at h
  split at h
  · cases h; exact .refl s
  · cases hh : s.tlbServes lin w us with
    | some w' =>
      rw [hh] at h
      dsimp only at h
      split at h
      · simp only [set_then, pure_run, EStateM.Result.ok.injEq] at h
        obtain ⟨_, rfl⟩ := h
        exact ⟨rfl⟩
      · exact absurd h pageFault_not_ok
    | none =>
      rw [hh] at h
      dsimp only at h
      rw [bind_ok_iff] at h
      obtain ⟨e, u, h1, h⟩ := h
      simp only [modify_then, pure_run, EStateM.Result.ok.injEq] at h
      obtain ⟨_, rfl⟩ := h
      exact (walk_walks h1).trans ⟨rfl⟩

theorem translate_reads (lin : Word32) (w us : Bool) : Reads (translate lin w us) := by
  intro s p t h
  have e := (translate_walks h).eqn
  have m (hp : s.paging = false) : t = s := (translate_off hp h).2
  exact ⟨by rw [e], fun hp => by rw [m hp], fun hp => by rw [m hp], fun _ _ _ _ k => k.walk h⟩

theorem translateBytes_reads (n : Nat) : ∀ (lin : Word32) (w us : Bool), Reads (translateBytes lin w us n) := by
  induction n with
  | zero => intro lin w us; exact .pure _
  | succ n ih =>
    intro lin w us
    exact (translate_reads lin w us).bind fun p => (maskA20_reads _).bind fun a => (ih _ _ _).bind fun r => .pure _

/-- The physical addresses of an access while paging is off. -/
def offAddrs (s : State) (lin : Word32) : Nat → List (Word32 × Bool)
  | 0 => []
  | n + 1 => ((if s.pins.a20m then lin &&& 0xFFEFFFFF#32 else lin), true) :: offAddrs s (lin + 1#32) n

theorem translateBytes_off (n : Nat) : ∀ {lin : Word32} {w us : Bool} {s t : State} {ps : List (Word32 × Bool)},
    s.paging = false → translateBytes lin w us n s = .ok ps t → ps = offAddrs s lin n ∧ t = s := by
  induction n with
  | zero =>
    intro lin w us s t ps _ h
    simp only [translateBytes, pure_run, EStateM.Result.ok.injEq] at h
    exact ⟨h.1.symm, h.2.symm⟩
  | succ n ih =>
    intro lin w us s t ps hp h
    simp only [translateBytes, bind_ok_iff, pure_run, EStateM.Result.ok.injEq] at h
    obtain ⟨p, u1, h1, a, u2, h2, r, u3, h3, h4, rfl⟩ := h
    obtain ⟨rfl, rfl⟩ := translate_off hp h1
    have e := maskA20_state h2
    subst e
    have ha := maskA20_phys h2
    obtain ⟨rfl, rfl⟩ := ih hp h3
    refine ⟨?_, rfl⟩
    rw [← h4, offAddrs, ha]

theorem readBytes_reads (l : Bool) : ∀ ps, Reads (readBytes l ps)
  | [] => .pure _
  | p :: ps => by
    intro s a t h
    simp only [readBytes, get_then, set_then, bind_ok_iff, pure_run, EStateM.Result.ok.injEq] at h
    obtain ⟨r, u, h1, _, rfl⟩ := h
    exact (readPhys_quiet s p.1 p.2 l).trans (readBytes_reads l ps _ _ _ h1)

theorem noteAccess_reads (lin : Word32) (k : Nat) (w : Bool) : Reads (noteAccess lin k w) := by
  intro s a t h
  simp only [noteAccess, modify_run, EStateM.Result.ok.injEq] at h
  rw [← h.2]
  exact ⟨rfl, fun _ => rfl, fun _ => rfl, fun _ _ _ _ h => h.elsewhere ⟨rfl, rfl, rfl, rfl, rfl, rfl, rfl⟩⟩

theorem refer_reads : Reads refer := by
  intro s a t h
  simp only [refer, modify_run, EStateM.Result.ok.injEq] at h
  rw [← h.2]
  exact ⟨rfl, fun _ => rfl, fun _ => rfl, fun _ _ _ _ h => h.elsewhere ⟨rfl, rfl, rfl, rfl, rfl, rfl, rfl⟩⟩

theorem segCheck_reads (z : Size) (r : SReg) (off : Word32) (n : Nat) (k : Access) : Reads (segCheck z r off n k) :=
  .bind .get fun _ => (Reads.check _ _).bind fun _ => (Reads.check _ _).bind fun _ => .pure _

theorem alignCheck_reads (lin : Word32) (a : Nat) : Reads (alignCheck lin a) := .bind .get fun _ => .check _ _

/-- Everything a read of an operand can change. -/
theorem memRead_reads (z : Size) (r : SReg) (off : Word32) (n a : Nat) : Reads (memRead z r off n a) :=
  (segCheck_reads _ _ _ _ _).bind fun _ => (alignCheck_reads _ _).bind fun _ => (noteAccess_reads _ _ _).bind fun _ =>
    Reads.get.bind fun _ => (translateBytes_reads _ _ _ _).bind fun _ => (readBytes_reads _ _).bind fun _ => .pure _

theorem memProbe_reads (z : Size) (r : SReg) (off : Word32) (n a : Nat) : Reads (memProbe z r off n a) :=
  (segCheck_reads _ _ _ _ _).bind fun _ => (alignCheck_reads _ _).bind fun _ =>
    Reads.get.bind fun _ => (translateBytes_reads _ _ _ _).bind fun _ => .pure _

theorem memReadWrite_reads (z : Size) (r : SReg) (off : Word32) (n a : Nat) : Reads (memReadWrite z r off n a) :=
  (memProbe_reads z r off n a).bind fun _ => memRead_reads z r off n a

theorem readMemN_reads (m : Mem) (n a : Nat) : Reads (readMemN m n a) := Reads.get.bind fun _ => memRead_reads _ _ _ _ _

theorem getReg_reads (w : Width) (r : Reg) : Reads (getReg w r) := Reads.get.bind fun _ => .pure _

theorem readRM_reads (w : Width) : ∀ x, Reads (readRM w x)
  | .reg r => getReg_reads w r
  | .mem m => (readMemN_reads m _ _).bind fun _ => .pure _

theorem updateRM_reads (w : Width) : ∀ x, Reads (updateRM w x)
  | .reg r => getReg_reads w r
  | .mem _ => Reads.get.bind fun _ => (memReadWrite_reads _ _ _ _ _).bind fun _ => .pure _

theorem aluSource_reads (f : AluForm) : Reads (aluSource f) := by
  cases f with
  | acc v => exact .pure _
  | rmImm x v => exact .pure _
  | rmImm8 os x v => exact .pure _
  | rmReg w x r => exact getReg_reads w r
  | regRm w r x => exact readRM_reads w x

theorem testSource_reads (f : TestForm) : Reads (testSource f) := by
  cases f with
  | acc v => exact .pure _
  | rmImm x v => exact .pure _
  | rmReg w x r => exact getReg_reads w r

theorem sysRead_reads (lin : Word32) (n : Nat) : Reads (sysRead lin n) :=
  refer_reads.bind fun _ => (translateBytes_reads _ _ _ _).bind fun _ => (readBytes_reads _ _).bind fun _ => .pure _

theorem readDesc_reads (x : Word16) : Reads (readDesc x) :=
  Reads.get.bind fun _ => (sysRead_reads _ _).bind fun _ => (sysRead_reads _ _).bind fun _ => .pure _

theorem stackRead_reads (k n : Nat) : Reads (stackRead k n) := Reads.get.bind fun _ => memRead_reads _ _ _ _ _

theorem ioMapAllows_reads (base : Nat) : ∀ (n port : Nat), Reads (ioMapAllows base port n)
  | 0, _ => .pure _
  | n + 1, _ => Reads.get.bind fun _ => (Reads.check _ _).bind fun _ => (sysRead_reads _ _).bind fun _ =>
      (Reads.check _ _).bind fun _ => ioMapAllows_reads base n _

/-- The permission test for a port reads the TSS and changes nothing. -/
theorem ioPermit_reads (p : Word16) (n : Nat) : Reads (ioPermit p n) :=
  Reads.get.bind fun _ => Reads.ite (.pure _)
    ((Reads.check _ _).bind fun _ => (sysRead_reads _ _).bind fun _ => ioMapAllows_reads _ _ _)

/-! Stores. -/

/-- The bytes a store at a linear address leaves to be committed, newest first, while paging is off. -/
def heldBytes (p : Pins) (lin : Word32) : List Byte → List Host.Cell → List Host.Cell
  | [], l => l
  | v :: t, l =>
    heldBytes p (lin + 1#32) t (((if p.a20m then lin &&& 0xFFEFFFFF#32 else lin).toNat, v) :: l)

/-- What a computation that makes a store may change: the stores held back, and what a read may change. -/
structure Holds (s t : State) (p : Store) : Prop where
  eqn : t = { s with mem := t.mem, cache := t.cache, tlb := t.tlb, bufferSpoiled := t.bufferSpoiled
                     insn := { s.insn with hits := t.insn.hits, stores := t.insn.stores } }
  mem : s.paging = false → t.mem = s.mem
  stores : s.paging = false → t.insn.stores = heldBytes s.pins p.1 (toBytes p.2.1 p.2.2) s.insn.stores
  via : ∀ s0 l k ps, Via s0 l k ps s → ∃ qs, Via s0 (l ++ [p]) k (ps ++ qs) t

theorem storeBytes_eqn : ∀ (ps : List (Word32 × Bool)) (l : List Byte) (s t : State) (u : Unit),
    storeBytes ps l s = .ok u t → t = { s with insn := { s.insn with stores := t.insn.stores } } := by
  intro ps
  induction ps with
  | nil =>
    intro l s t u h
    simp only [storeBytes, pure_run, EStateM.Result.ok.injEq] at h
    rw [← h.2]
  | cons p ps ih =>
    intro l s t u h
    cases l with
    | nil =>
      simp only [storeBytes, pure_run, EStateM.Result.ok.injEq] at h
      rw [← h.2]
    | cons v l =>
      simp only [storeBytes, bind_run, modify_run] at h
      have := ih _ _ _ _ h
      rw [this]

theorem storeBytes_off : ∀ (l : List Byte) (lin : Word32) (s0 s t : State) (u : Unit),
    storeBytes (offAddrs s0 lin l.length) l s = .ok u t → t.insn.stores = heldBytes s0.pins lin l s.insn.stores := by
  intro l
  induction l with
  | nil =>
    intro lin s0 s t u h
    simp only [List.length_nil, offAddrs, storeBytes, pure_run, EStateM.Result.ok.injEq] at h
    rw [← h.2]; rfl
  | cons v l ih =>
    intro lin s0 s t u h
    simp only [List.length_cons, offAddrs, storeBytes, bind_run, modify_run] at h
    have := ih _ _ _ _ _ h
    rw [this]; rfl

theorem toBytes_length : ∀ n v, (toBytes n v).length = n
  | 0, _ => rfl
  | n + 1, v => by simp [toBytes, toBytes_length n]

/-- Everything a store of an operand can change. -/
theorem memWrite_holds {z : Size} {r : SReg} {off : Word32} {n a v : Nat} {s t : State} {u : Unit}
    (h : memWrite z r off n a v s = .ok u t) : Holds s t ((s.seg.get r).base + off, n, v) := by
  simp only [memWrite, bind_ok_iff, get_then] at h
  obtain ⟨lin, s1, h1, _, s2, h2, _, s3, h3, ps, s5, h5, h6⟩ := h
  have q : Quiet s s5 := (((segCheck_reads _ _ _ _ _ _ _ _ h1).trans (alignCheck_reads _ _ _ _ _ h2)).trans
    (noteAccess_reads _ _ _ _ _ _ h3)).trans (translateBytes_reads _ _ _ _ _ _ _ h5)
  have q3 : Quiet s s3 := ((segCheck_reads _ _ _ _ _ _ _ _ h1).trans (alignCheck_reads _ _ _ _ _ h2)).trans
    (noteAccess_reads _ _ _ _ _ _ h3)
  have hlin : lin = (s.seg.get r).base + off := by
    simp only [segCheck, get_then, bind_ok_iff, EStateM.Result.ok.injEq, check_ok_iff, pure_run] at h1
    obtain ⟨_, _, ⟨_, rfl⟩, _, _, ⟨_, rfl⟩, h, _⟩ := h1
    exact h.symm
  have e := storeBytes_eqn _ _ _ _ _ h6
  refine ⟨?_, fun hp => ?_, fun hp => ?_, fun s0 l _ ps w => ?_⟩
  · rw [e, q.eqn]
  · rw [e]; exact q.mem hp
  · have hp3 : s3.paging = false := by rw [q3.paging]; exact hp
    obtain ⟨rfl, rfl⟩ := translateBytes_off _ hp3 h5
    have := storeBytes_off (toBytes n v) lin s5 s5 t u (by rw [toBytes_length]; exact h6)
    have hs : s5.insn.stores = s.insn.stores := q3.stores hp
    have hpin : s5.pins = s.pins := by rw [q3.eqn]
    rw [this, hs, hpin, hlin]
  · rw [← hlin]
    exact ⟨_, (q3.via _ _ _ _ w).store h5 h6⟩

end Sys2Proof.Machine
end

