-- ==== Sys2Proof/Laws/Memory.lean ====
section
/-! SUPPORT. Memory: what a read gives after a write, and that every memory operation keeps the canonical form. -/
namespace Sys2Proof.Machine
open Sys2Proof

theorem Memory.wfFrom_mono {lo lo' : Nat} (h : lo' ≤ lo) {m : List Host.Cell} (w : Memory.wfFrom lo m = true) :
    Memory.wfFrom lo' m = true := by
  cases m with
  | nil => rfl
  | cons p t =>
    obtain ⟨k, v⟩ := p
    simp only [Memory.wfFrom, Bool.and_eq_true, decide_eq_true_eq] at w ⊢
    exact ⟨⟨⟨by omega, w.1.1.2⟩, w.1.2⟩, w.2⟩

/-- A byte below every listed address reads as an unlisted one. -/
theorem Memory.read_below {lo : Nat} {m : List Host.Cell} (w : Memory.wfFrom lo m = true) {a : Nat} (h : a < lo) :
    Memory.read m a = Memory.unlisted := by
  cases m with
  | nil => rfl
  | cons p t =>
    obtain ⟨k, v⟩ := p
    simp only [Memory.wfFrom, Bool.and_eq_true, decide_eq_true_eq] at w
    have h1 : k ≠ a := by omega
    have h2 : a < k := by omega
    simp [Memory.read, h1, h2]

theorem Memory.wfFrom_write {m : List Host.Cell} : ∀ {lo : Nat}, Memory.wfFrom lo m = true → ∀ {a : Nat} {v : Byte},
    lo ≤ a → a < 2 ^ 32 → Memory.wfFrom lo (Memory.write m a v) = true := by
  induction m with
  | nil =>
    intro lo _ a v h1 h2
    by_cases hv : v = Memory.unlisted <;> simp [Memory.write, Memory.wfFrom, hv, h1]
    omega
  | cons p t ih =>
    obtain ⟨k, x⟩ := p
    intro lo w a v h1 h2
    have w' := w
    simp only [Memory.wfFrom, Bool.and_eq_true, decide_eq_true_eq] at w
    obtain ⟨⟨⟨hk, hk2⟩, hx⟩, ht⟩ := w
    simp only [Memory.write]
    split
    · rename_i hlt
      split
      · exact w'
      · rename_i hv
        simp only [Memory.wfFrom, Bool.and_eq_true, decide_eq_true_eq]
        exact ⟨⟨⟨h1, h2⟩, hv⟩, ⟨⟨by omega, hk2⟩, hx⟩, ht⟩
    · split
      · rename_i hne heq
        split
        · exact Memory.wfFrom_mono (by omega) ht
        · rename_i hv
          subst heq
          simp only [Memory.wfFrom, Bool.and_eq_true, decide_eq_true_eq]
          exact ⟨⟨⟨hk, hk2⟩, hv⟩, ht⟩
      · rename_i hne1 hne2
        simp only [Memory.wfFrom, Bool.and_eq_true, decide_eq_true_eq]
        exact ⟨⟨⟨hk, hk2⟩, hx⟩, ih ht (by omega) h2⟩

/-- A write below 2^32 keeps the canonical form. -/
theorem Memory.wf_write {m : List Host.Cell} (w : Memory.wf m = true) {a : Nat} (v : Byte) (h : a < 2 ^ 32) :
    Memory.wf (Memory.write m a v) = true := Memory.wfFrom_write w (Nat.zero_le _) h

theorem Memory.read_write_from {m : List Host.Cell} : ∀ {lo : Nat}, Memory.wfFrom lo m = true → ∀ (a : Nat) (v : Byte) (b : Nat),
    Memory.read (Memory.write m a v) b = if b = a then v else Memory.read m b := by
  induction m with
  | nil =>
    intro lo _ a v b
    by_cases hv : v = Memory.unlisted <;> by_cases hb : b = a
    · simp [Memory.write, Memory.read, hv]
    · simp [Memory.write, Memory.read, hv]
    · simp [Memory.write, Memory.read, hv, hb]
    · have : ¬ a = b := fun h => hb h.symm
      simp [Memory.write, Memory.read, hv, hb, this]
  | cons p t ih =>
    obtain ⟨k, x⟩ := p
    intro lo w a v b
    have w0 := w
    simp only [Memory.wfFrom, Bool.and_eq_true, decide_eq_true_eq] at w
    obtain ⟨⟨⟨hk, hk2⟩, hx⟩, ht⟩ := w
    have htb := fun (c : Nat) (h : c < k + 1) => Memory.read_below ht h
    simp only [Memory.write]
    split
    · rename_i hlt
      split
      · rename_i hv
        by_cases hb : b = a
        · subst hb
          have h1 : k ≠ b := by omega
          simp [Memory.read, h1, hlt, hv]
        · simp [hb]
      · by_cases hb : b = a
        · subst hb; simp [Memory.read]
        · have h1 : a ≠ b := fun h => hb h.symm
          by_cases h2 : b < a
          · have h3 : k ≠ b := by omega
            have h4 : b < k := by omega
            simp [Memory.read, h1, h2, hb, h3, h4]
          · simp [Memory.read, h1, h2, hb]
    · split
      · rename_i hne heq
        subst heq
        split
        · rename_i hv
          by_cases hb : b = a
          · subst hb
            simp [htb b (by omega), hv]
          · have h1 : a ≠ b := fun h => hb h.symm
            by_cases h2 : b < a
            · simp [Memory.read, h1, h2, hb, htb b (by omega)]
            · simp [Memory.read, h1, h2, hb]
        · by_cases hb : b = a
          · subst hb; simp [Memory.read]
          · have h1 : a ≠ b := fun h => hb h.symm
            simp [Memory.read, h1, hb]
      · rename_i hne1 hne2
        have hlt : k < a := by omega
        by_cases h1 : k = b
        · subst h1
          have : k ≠ a := by omega
          simp [Memory.read, this]
        · by_cases h2 : b < k
          · have : b ≠ a := by omega
            simp [Memory.read, h1, h2, this]
          · simp only [Memory.read, h1, h2, if_false]
            exact ih ht a v b

/-- Reading after a write: the byte written, and every other byte as before. -/
theorem Memory.read_write {m : List Host.Cell} (w : Memory.wf m = true) (a : Nat) (v : Byte) (b : Nat) :
    Memory.read (Memory.write m a v) b = if b = a then v else Memory.read m b := Memory.read_write_from w a v b

/-- Writing what nothing has written lists nothing. -/
theorem Memory.write_unlisted_nil (a : Nat) : Memory.write [] a Memory.unlisted = [] := by simp [Memory.write]

/-- The canonical form holds after reset. -/
theorem reset_memory_wf : Memory.wf State.reset.mem = true := rfl

theorem writePhys_mem_wf (s : State) (a : Word32) (v : Byte) (w : Memory.wf s.mem = true) :
    Memory.wf (s.writePhys a v).mem = true := by
  have h := Memory.wf_write w (a := a.toNat) v a.isLt
  unfold State.writePhys
  dsimp only
  split
  · split
    · exact w
    · exact h
  · exact h

theorem updatePhys_mem_wf (s : State) (a : Word32) (f : Byte → Byte) (w : Memory.wf s.mem = true) :
    Memory.wf (s.updatePhys a f).mem = true := by
  unfold State.updatePhys
  dsimp only
  split <;> exact writePhys_mem_wf s a _ w

theorem readPhys_mem (s : State) (a : Word32) (c l : Bool) : (s.readPhys a c l).2.mem = s.mem := by
  unfold State.readPhys
  split
  · rfl
  · dsimp only
    split
    · rfl
    · split <;> rfl

theorem commitList_mem_wf (s : State) (w : Memory.wf s.mem = true) : ∀ l, Memory.wf (s.commitList l).mem = true
  | [] => w
  | (a, v) :: t => by
    simp only [State.commitList]
    exact writePhys_mem_wf _ _ _ (commitList_mem_wf s w t)

theorem commitStores_mem_wf (s : State) (w : Memory.wf s.mem = true) : Memory.wf s.commitStores.mem = true :=
  commitList_mem_wf s w _

/-- A byte none of the stores touches is not changed by committing them. -/
theorem commitList_frame (s : State) (w : Memory.wf s.mem = true) (a : Nat) : ∀ l : List Host.Cell,
    (∀ p ∈ l, (BitVec.ofNat 32 p.1).toNat ≠ a) → Memory.read (s.commitList l).mem a = Memory.read s.mem a
  | [], _ => rfl
  | (k, v) :: t, h => by
    have ih := commitList_frame s w a t fun p hp => h p (by simp [hp])
    have hk : (BitVec.ofNat 32 k).toNat ≠ a := h (k, v) (by simp)
    have wt := commitList_mem_wf s w t
    simp only [State.commitList]
    unfold State.writePhys
    dsimp only
    split
    · split
      · exact ih
      · simp only [State.putCacheSet]
        rw [Memory.read_write wt, if_neg (fun h => hk h.symm)]
        exact ih
    · simp only []
      rw [Memory.read_write wt, if_neg (fun h => hk h.symm)]
      exact ih

end Sys2Proof.Machine
end

