-- ==== Sys2Proof/Laws/Paged.lean ====
section
/-!
SUPPORT. Memory along a way of translations, reads and stores (`Via`), paging on or off: where the way may start and that it leaves
every byte alone but the stored ones and the accessed and dirty bits.
-/
namespace Sys2Proof.Machine
open Sys2Proof

theorem SameMemory.refl (s : State) : SameMemory s s := ⟨rfl, rfl, rfl, rfl, rfl, rfl, rfl⟩

theorem SameMemory.symm {s t : State} (h : SameMemory s t) : SameMemory t s :=
  ⟨h.mem.symm, h.cache.symm, h.tlb.symm, h.cr0.symm, h.cr3.symm, h.pins.symm, h.stores.symm⟩

/-- A way may start in any state alike as far as memory is concerned. -/
theorem Via.from {s s' t : State} {l : List Store} {k : List Change} {ps : List (Word32 × Bool)} (e : SameMemory s' s)
    (h : Via s l k ps t) : Via s' l k ps t := by
  induction h with
  | start => exact .elsewhere .start e
  | elsewhere _ k ih => exact .elsewhere ih k
  | walk _ k ih => exact .walk ih k
  | read _ ih => exact .read ih
  | store _ k1 k2 ih => exact .store ih k1 k2
  | write _ k1 k2 ih => exact .write ih k1 k2
  | update _ k1 k2 ih => exact .update ih k1 k2
  | commit _ ih => exact .commit ih

/-- One byte of memory against another at an address: alike but for the bits the paging unit sets. -/
def ByteAlike (a : Nat) (x y : Byte) : Prop := y &&& 0x9F#8 = x &&& 0x9F#8 ∧ (a % 4 ≠ 0 → y = x)

theorem ByteAlike.refl (a : Nat) (x : Byte) : ByteAlike a x x := ⟨rfl, fun _ => rfl⟩

theorem ByteAlike.trans {a : Nat} {x y z : Byte} (h : ByteAlike a x y) (k : ByteAlike a y z) : ByteAlike a x z :=
  ⟨by rw [k.1, h.1], fun n => by rw [k.2 n, h.2 n]⟩

/-- What the paging unit may do to memory and to the stores held back: accessed and dirty bits set in memory, and the entries that
held back stores cover stored again. -/
structure Marks (s t : State) : Prop where
  wf : Memory.wf s.mem = true → Memory.wf t.mem = true
  alike : Memory.wf s.mem = true → ∀ a, ByteAlike a (Memory.read s.mem a) (Memory.read t.mem a)
  stores : ∀ p ∈ t.insn.stores, ∃ q ∈ s.insn.stores, q.1 = p.1

theorem Marks.refl (s : State) : Marks s s := ⟨id, fun _ _ => .refl _ _, fun p h => ⟨p, h, rfl⟩⟩

theorem Marks.trans {s t u : State} (h : Marks s t) (k : Marks t u) : Marks s u := by
  refine ⟨fun w => k.wf (h.wf w), fun w a => (h.alike w a).trans (k.alike (h.wf w) a), fun p hp => ?_⟩
  obtain ⟨q, hq, e⟩ := k.stores p hp
  obtain ⟨r, hr, f⟩ := h.stores q hq
  exact ⟨r, hr, f.trans e⟩

/-- A state alike in memory and stores. -/
theorem Marks.same {s t : State} (m : t.mem = s.mem) (i : t.insn.stores = s.insn.stores) : Marks s t :=
  ⟨fun w => by rw [m]; exact w, fun _ a => by rw [m]; exact .refl _ _, fun p hp => ⟨p, by rw [← i]; exact hp, rfl⟩⟩

theorem pendingByte_mem {l : List Host.Cell} {a : Nat} {v : Byte} (h : pendingByte l a = some v) : ∃ q ∈ l, q.1 = a := by
  induction l with
  | nil => simp [pendingByte] at h
  | cons p t ih =>
    obtain ⟨k, x⟩ := p
    simp only [pendingByte] at h
    split at h
    · exact ⟨(k, x), by simp, by assumption⟩
    · obtain ⟨q, hq, e⟩ := ih h
      exact ⟨q, by simp [hq], e⟩

/-- A locked read-modify-write holds back no store at a new address. -/
theorem updatePhys_stores (s : State) (a : Word32) (f : Byte → Byte) :
    ∀ p ∈ (s.updatePhys a f).insn.stores, ∃ q ∈ s.insn.stores, q.1 = p.1 := by
  intro p hp
  unfold State.updatePhys at hp
  dsimp only at hp
  have hw : (s.writePhys a (f (Memory.read s.mem a.toNat))).insn.stores = s.insn.stores := by rw [writePhys_eqn]
  split at hp
  · exact ⟨p, by rw [hw] at hp; exact hp, rfl⟩
  · rename_i v hv
    simp only [List.mem_cons] at hp
    rcases hp with e | e
    · obtain ⟨q, hq, f⟩ := pendingByte_mem hv
      exact ⟨q, hq, by rw [e, f]⟩
    · exact ⟨p, by rw [hw] at e; exact e, rfl⟩

/-- Setting accessed or dirty bits in a byte of memory. -/
theorem updatePhys_marks (s : State) (a : Word32) (b : Byte) (h : b &&& 0x9F#8 = 0#8) (h0 : a.toNat % 4 ≠ 0 → b = 0#8) :
    Marks s (s.updatePhys a (· ||| b)) := by
  have hm : (s.updatePhys a (· ||| b)).mem = s.mem ∨
      (s.updatePhys a (· ||| b)).mem = Memory.write s.mem a.toNat (Memory.read s.mem a.toNat ||| b) := by
    unfold State.updatePhys State.writePhys
    dsimp only
    split <;> split <;> (try split) <;> simp [State.putCacheSet]
  refine ⟨updatePhys_mem_wf s a _, fun w x => ?_, updatePhys_stores s a _⟩
  · rcases hm with e | e
    · rw [e]; exact .refl _ _
    · rw [e, Memory.read_write w]
      split
      · rename_i hx
        subst hx
        refine ⟨?_, fun n => ?_⟩
        · show (_ ||| b) &&& 0x9F#8 = _
          generalize Memory.read s.mem a.toNat = v at *
          rw [BitVec.and_comm, BitVec.and_or_distrib_left, BitVec.and_comm _ b, h, BitVec.or_zero, BitVec.and_comm]
        · rw [h0 n]; simp
      · exact .refl _ _

theorem physRead_marks (n : Nat) : ∀ (a : Word32) (c l : Bool) (s : State) (v : List Byte) (t : State),
    physRead a c l n s = .ok v t → Marks s t := by
  induction n with
  | zero =>
    intro a c l s v t h
    simp only [physRead, pure_run, EStateM.Result.ok.injEq] at h
    rw [← h.2]; exact .refl s
  | succ n ih =>
    intro a c l s v t h
    rw [physRead, bind_ok_iff] at h
    obtain ⟨p, u, h1, h⟩ := h
    simp only [get_then, set_then, bind_ok_iff, pure_run, EStateM.Result.ok.injEq] at h
    obtain ⟨rest, u4, h4, _, rfl⟩ := h
    have e := maskA20_state h1
    subst e
    exact Marks.trans (.same (readPhys_mem u p c l) (by rw [readPhys_eqn])) (ih _ _ _ _ _ _ h4)

theorem physDword_marks {a : Word32} {c l : Bool} {s t : State} {v : Word32} (h : physDword a c l s = .ok v t) :
    Marks s t := by
  simp only [physDword, bind_ok_iff, pure_run, EStateM.Result.ok.injEq] at h
  obtain ⟨x, u, h1, _, rfl⟩ := h
  exact physRead_marks _ _ _ _ _ _ _ h1

theorem physOr_marks (l : List Byte) : ∀ (a : Word32) (s : State) (u : Unit) (t : State), (∀ b ∈ l, b &&& 0x9F#8 = 0#8) →
    (∀ b ∈ l.tail, b = 0#8) → (a.toNat % 4 ≠ 0 → ∀ b ∈ l, b = 0#8) → physOr a l s = .ok u t → Marks s t := by
  induction l with
  | nil =>
    intro a s u t _ _ _ h
    simp only [physOr, pure_run, EStateM.Result.ok.injEq] at h
    rw [← h.2]; exact .refl s
  | cons v l ih =>
    intro a s u t hb ht ha h
    rw [physOr, bind_ok_iff] at h
    obtain ⟨p, s1, h1, h3⟩ := h
    rw [modify_then] at h3
    have e := maskA20_state h1
    subst e
    refine Marks.trans (updatePhys_marks s1 p v (hb v (by simp)) fun n => ?_) (ih _ _ _ _ (fun b k => hb b (by simp [k]))
      (fun b k => ht b (List.mem_of_mem_tail k)) (fun _ b k => ht b k) h3)
    refine ha (fun z => n ?_) v (by simp)
    rw [maskA20_phys h1]
    split
    · have : (a &&& 0xFFEFFFFF#32).toNat % 4 = a.toNat % 4 := by
        rw [BitVec.toNat_and]
        have := Nat.and_mod_two_pow (a := a.toNat) (b := (0xFFEFFFFF#32).toNat) (n := 2)
        simp at this ⊢
        rw [this, Nat.and_comm]
        have h3 : (3 : Nat) = 2 ^ 2 - 1 := rfl
        rw [h3, Nat.and_comm, Nat.and_two_pow_sub_one_eq_mod]
        simp
      rw [this, z]
    · exact z

theorem secondRead_marks {a o b v : Word32} {s t : State} (h : secondRead a o b s = .ok v t) : Marks s t := by
  unfold secondRead at h
  split at h
  · cases h; exact .refl s
  · exact physDword_marks h

theorem setEntryBits_marks {a o b : Word32} {v : Unit} {s t : State} (ha : a.toNat % 4 = 0) (hb : b = 0x20#32 ∨ b = 0x60#32)
    (h : setEntryBits a o b s = .ok v t) : Marks s t := by
  unfold setEntryBits at h
  split at h
  · cases h; exact .refl s
  · refine physOr_marks _ _ _ _ _ ?_ ?_ (fun n => absurd ha n) h
    · rcases hb with rfl | rfl <;> decide
    · rcases hb with rfl | rfl <;> decide

/-- An entry of a page table lies at a multiple of four. -/
theorem entry_aligned (x y : Word32) : ((x &&& 0xFFFFF000#32) + (y <<< 2)).toNat % 4 = 0 := by
  have h1 : (x &&& 0xFFFFF000#32).toNat % 4 = 0 := by
    rw [BitVec.toNat_and]
    have := Nat.and_mod_two_pow (a := x.toNat) (b := (0xFFFFF000#32).toNat) (n := 2)
    simp at this ⊢
    exact this
  have h2 : (y <<< 2).toNat % 4 = 0 := by
    rw [BitVec.toNat_shiftLeft, Nat.shiftLeft_eq]
    omega
  rw [BitVec.toNat_add]
  omega

theorem walk_marks {lin : Word32} {w us : Bool} {s t : State} {e : TlbEntry} (h : walk lin w us s = .ok e t) : Marks s t := by
  obtain ⟨_, _, _, _, _, _, _, _, _, h1, h2, h3, h4, h5, h6, -⟩ := walk_inv h
  refine (((((physDword_marks h1).trans (secondRead_marks h2)).trans
    (setEntryBits_marks (entry_aligned _ _) (.inl rfl) h3)).trans (physDword_marks h4)).trans (secondRead_marks h5)).trans
    (setEntryBits_marks (entry_aligned _ _) ?_ h6)
  cases w
  · exact .inl rfl
  · exact .inr rfl

theorem translate_marks {lin : Word32} {w us : Bool} {s t : State} {p : Word32 × Bool}
    (h : translate lin w us s = .ok p t) : Marks s t := by
  unfold translate at h
  rw [get_then] at h
  split at h
  · cases h; exact .refl s
  · cases hh : s.tlbServes lin w us with
    | some w' =>
      rw [hh] at h
      dsimp only at h
      split at h
      · simp only [set_then, pure_run, EStateM.Result.ok.injEq] at h
        obtain ⟨_, rfl⟩ := h
        exact .same rfl rfl
      · exact absurd h pageFault_not_ok
    | none =>
      rw [hh] at h
      dsimp only at h
      rw [bind_ok_iff] at h
      obtain ⟨e, u, h1, h⟩ := h
      simp only [modify_then, pure_run, EStateM.Result.ok.injEq] at h
      obtain ⟨_, rfl⟩ := h
      exact (walk_marks h1).trans (.same rfl rfl)

theorem translateBytes_marks (n : Nat) : ∀ {lin : Word32} {w us : Bool} {s t : State} {ps : List (Word32 × Bool)},
    translateBytes lin w us n s = .ok ps t → Marks s t := by
  induction n with
  | zero =>
    intro lin w us s t ps h
    simp only [translateBytes, pure_run, EStateM.Result.ok.injEq] at h
    rw [← h.2]; exact .refl s
  | succ n ih =>
    intro lin w us s t ps h
    simp only [translateBytes, bind_ok_iff, pure_run, EStateM.Result.ok.injEq] at h
    obtain ⟨p, u1, h1, a, u2, h2, r, u3, h3, _, rfl⟩ := h
    have e := maskA20_state h2
    subst e
    exact (translate_marks h1).trans (ih h3)

theorem storeBytes_mem : ∀ (ps : List (Word32 × Bool)) (l : List Byte) (s t : State) (u : Unit),
    storeBytes ps l s = .ok u t → ∀ p ∈ t.insn.stores, p ∈ s.insn.stores ∨ ∃ q ∈ ps, q.1.toNat = p.1 := by
  intro ps
  induction ps with
  | nil =>
    intro l s t u h p hp
    simp only [storeBytes, pure_run, EStateM.Result.ok.injEq] at h
    rw [← h.2] at hp; exact .inl hp
  | cons q ps ih =>
    intro l s t u h p hp
    cases l with
    | nil =>
      simp only [storeBytes, pure_run, EStateM.Result.ok.injEq] at h
      rw [← h.2] at hp; exact .inl hp
    | cons v l =>
      simp only [storeBytes, bind_run, modify_run] at h
      rcases ih _ _ _ _ h p hp with k | ⟨r, hr, e⟩
      · simp only [List.mem_cons] at k
        rcases k with k | k
        · exact .inr ⟨q, by simp, by rw [k]⟩
        · exact .inl k
      · exact .inr ⟨r, by simp [hr], e⟩

/-- What a change of bytes made at once may do: it leaves the bytes at other addresses alone and holds back no store at a new
address. -/
structure Pokes (s t : State) (ps : List (Word32 × Bool)) : Prop where
  wf : Memory.wf s.mem = true → Memory.wf t.mem = true
  frame : Memory.wf s.mem = true → ∀ a, (∀ p ∈ ps, p.1.toNat ≠ a) → Memory.read t.mem a = Memory.read s.mem a
  stores : ∀ p ∈ t.insn.stores, ∃ q ∈ s.insn.stores, q.1 = p.1

theorem Pokes.nil (s : State) : Pokes s s [] := ⟨id, fun _ _ _ => rfl, fun p h => ⟨p, h, rfl⟩⟩

theorem Pokes.trans {s t u : State} {p : Word32 × Bool} {ps : List (Word32 × Bool)} (h : Pokes s t [p]) (k : Pokes t u ps) :
    Pokes s u (p :: ps) := by
  refine ⟨fun w => k.wf (h.wf w), fun w a ha => ?_, fun x hx => ?_⟩
  · rw [k.frame (h.wf w) a fun q hq => ha q (by simp [hq]), h.frame w a fun q hq => ha q (by simp at hq; simp [hq])]
  · obtain ⟨q, hq, e⟩ := k.stores x hx
    obtain ⟨r, hr, f⟩ := h.stores q hq
    exact ⟨r, hr, f.trans e⟩

theorem updatePhys_pokes (s : State) (p : Word32 × Bool) (f : Byte → Byte) : Pokes s (s.updatePhys p.1 f) [p] := by
  have hm : (s.updatePhys p.1 f).mem = s.mem ∨
      (s.updatePhys p.1 f).mem = Memory.write s.mem p.1.toNat (f (Memory.read s.mem p.1.toNat)) := by
    unfold State.updatePhys State.writePhys
    dsimp only
    split <;> split <;> (try split) <;> simp [State.putCacheSet]
  refine ⟨updatePhys_mem_wf s _ _, fun w a ha => ?_, updatePhys_stores s p.1 f⟩
  rcases hm with e | e
  · rw [e]
  · rw [e, Memory.read_write w, if_neg fun h => ha p (by simp) h.symm]

theorem writeBytes_pokes : ∀ (ps : List (Word32 × Bool)) (l : List Byte) (s t : State) (u : Unit),
    writeBytes ps l s = .ok u t → Pokes s t ps := by
  intro ps
  induction ps with
  | nil =>
    intro l s t u h
    simp only [writeBytes, pure_run, EStateM.Result.ok.injEq] at h
    rw [← h.2]; exact .nil s
  | cons q ps ih =>
    intro l s t u h
    cases l with
    | nil =>
      simp only [writeBytes, pure_run, EStateM.Result.ok.injEq] at h
      rw [← h.2]; exact ⟨id, fun _ _ _ => rfl, fun p h => ⟨p, h, rfl⟩⟩
    | cons v l =>
      simp only [writeBytes, modify_then] at h
      exact (updatePhys_pokes s q fun _ => v).trans (ih _ _ _ _ h)

theorem updateBytes_pokes (f : Byte → Byte) : ∀ (ps : List (Word32 × Bool)) (s t : State) (u : Unit),
    updateBytes f ps s = .ok u t → Pokes s t ps := by
  intro ps
  induction ps with
  | nil =>
    intro s t u h
    simp only [updateBytes, pure_run, EStateM.Result.ok.injEq] at h
    rw [← h.2]; exact .nil s
  | cons q ps ih =>
    intro s t u h
    simp only [updateBytes, modify_then] at h
    exact (updatePhys_pokes s q f).trans (ih _ _ _ h)

/-- A translation, then a change of the bytes it names. -/
theorem frame_poked {s u v w : State} {ps qs : List (Word32 × Bool)} (m : Marks u v) (k : Pokes v w qs)
    (h : Memory.wf u.mem = true ∧ (∀ p ∈ u.insn.stores, ∃ q ∈ ps, q.1.toNat = p.1) ∧ AlikeBut s.mem u.mem ps) :
    Memory.wf w.mem = true ∧ (∀ p ∈ w.insn.stores, ∃ q ∈ ps ++ qs, q.1.toNat = p.1) ∧ AlikeBut s.mem w.mem (ps ++ qs) := by
  obtain ⟨i1, i2, i3⟩ := h
  refine ⟨k.wf (m.wf i1), fun p hp => ?_, fun a ha => ?_⟩
  · obtain ⟨q, hq, b⟩ := k.stores p hp
    obtain ⟨q, hq, c⟩ := m.stores q hq
    obtain ⟨r, hr, d⟩ := i2 q hq
    exact ⟨r, by simp [hr], (d.trans c).trans b⟩
  · rw [k.frame (m.wf i1) a fun p hp => ha p (by simp [hp])]
    exact ByteAlike.trans (i3 a fun p hp => ha p (by simp [hp])) (m.alike i1 a)

/-- The frame of a way: canonical memory stays canonical, every store held back is at an address of the stores, and every other
byte is left alone, but for the bits the paging unit sets. -/
theorem Via.frame {s t : State} {l : List Store} {k : List Change} {ps : List (Word32 × Bool)} (h : Via s l k ps t)
    (w : s.memOk = true) (e : s.insn.stores = []) :
    Memory.wf t.mem = true ∧ (∀ p ∈ t.insn.stores, ∃ q ∈ ps, q.1.toNat = p.1) ∧ AlikeBut s.mem t.mem ps := by
  induction h with
  | start => exact ⟨w, by simp [e], fun a _ => ⟨rfl, fun _ => rfl⟩⟩
  | elsewhere _ k ih => rw [k.mem, k.stores]; exact ih
  | @walk l _ ps u v lin wr us p _ k ih =>
    obtain ⟨i1, i2, i3⟩ := ih
    have m := translate_marks k
    refine ⟨m.wf i1, fun p hp => ?_, fun a ha => ?_⟩
    · obtain ⟨q, hq, f⟩ := m.stores p hp
      obtain ⟨r, hr, g⟩ := i2 q hq
      exact ⟨r, hr, g.trans f⟩
    · exact ByteAlike.trans (i3 a ha) (m.alike i1 a)
  | read _ ih => rw [readPhys_mem, readPhys_eqn]; exact ih
  | @store l _ ps u v t lin n x us qs _ k1 k2 ih =>
    obtain ⟨i1, i2, i3⟩ := ih
    have m := translateBytes_marks _ k1
    have f := storeBytes_eqn _ _ _ _ _ k2
    have hm : t.mem = v.mem := by rw [f]
    refine ⟨by rw [hm]; exact m.wf i1, fun p hp => ?_, fun a ha => ?_⟩
    · rcases storeBytes_mem _ _ _ _ _ k2 p hp with b | ⟨q, hq, b⟩
      · obtain ⟨q, hq, c⟩ := m.stores p b
        obtain ⟨r, hr, d⟩ := i2 q hq
        exact ⟨r, by simp [hr], d.trans c⟩
      · exact ⟨q, by simp [hq], b⟩
    · rw [hm]
      exact ByteAlike.trans (i3 a fun p hp => ha p (by simp [hp])) (m.alike i1 a)
  | write _ k1 k2 ih => exact frame_poked (translateBytes_marks _ k1) (writeBytes_pokes _ _ _ _ _ k2) ih
  | update _ k1 k2 ih => exact frame_poked (translateBytes_marks _ k1) (updateBytes_pokes _ _ _ _ _ k2) ih
  | @commit l _ ps u _ ih =>
    obtain ⟨i1, i2, i3⟩ := ih
    refine ⟨commitStores_mem_wf _ i1, by simp [State.commitStores], fun a ha => ?_⟩
    have : Memory.read u.commitStores.mem a = Memory.read u.mem a := by
      refine commitList_frame u i1 a _ fun p hp b => ?_
      obtain ⟨q, hq, c⟩ := i2 p hp
      refine ha q hq ?_
      rw [← b, ← c]
      simp
    rw [this]
    exact i3 a ha

/-- The frame of a way, as `Stored` says it. -/
theorem Via.alike {s t : State} {l : List Store} {k : List Change} {ps : List (Word32 × Bool)} (h : Via s l k ps t)
    (w : s.memOk = true) (e : s.insn.stores = []) : AlikeBut s.mem t.mem ps := (h.frame w e).2.2

/-! A cache that is off and empty: paging off, every access is one to memory. -/

/-- Nothing is in an empty cache. -/
theorem hit_of_empty {s : State} (e : s.cache = []) (a : Word32) : (s.cacheSetAt a).hit (cacheTag a) = none := by
  unfold State.cacheSetAt
  rw [e]
  rfl

/-- A read with the cache off and empty changes nothing. -/
theorem readPhys_uncached {s : State} (c : s.cr0Bit 30 = true) (e : s.cache = []) (a : Word32) (q l : Bool) :
    (s.readPhys a q l).2 = s := by
  unfold State.readPhys
  split
  · rfl
  · simp [hit_of_empty e, State.mayFill, c]

/-- A write to an empty cache goes to memory. -/
theorem writePhys_uncached {s : State} (e : s.cache = []) (a : Word32) (v : Byte) :
    s.writePhys a v = { s with mem := Memory.write s.mem a.toNat v } := by
  unfold State.writePhys
  dsimp only
  rw [hit_of_empty e]

theorem updatePhys_uncached {s : State} (e : s.cache = []) (a : Word32) (f : Byte → Byte) :
    (s.updatePhys a f).cache = [] ∧ (s.updatePhys a f).cr0 = s.cr0 := by
  unfold State.updatePhys
  rw [writePhys_uncached e]
  dsimp only
  split <;> exact ⟨e, rfl⟩

theorem writeBytes_uncached : ∀ (ps : List (Word32 × Bool)) (l : List Byte) (s t : State) (u : Unit),
    writeBytes ps l s = .ok u t → s.cache = [] → t.cache = [] ∧ t.cr0 = s.cr0 := by
  intro ps
  induction ps with
  | nil =>
    intro l s t u h e
    simp only [writeBytes, pure_run, EStateM.Result.ok.injEq] at h
    rw [← h.2]; exact ⟨e, rfl⟩
  | cons q ps ih =>
    intro l s t u h e
    cases l with
    | nil =>
      simp only [writeBytes, pure_run, EStateM.Result.ok.injEq] at h
      rw [← h.2]; exact ⟨e, rfl⟩
    | cons v l =>
      simp only [writeBytes, modify_then] at h
      have k := updatePhys_uncached e q.1 fun _ => v
      have r := ih _ _ _ _ h k.1
      exact ⟨r.1, r.2.trans k.2⟩

theorem updateBytes_uncached (f : Byte → Byte) : ∀ (ps : List (Word32 × Bool)) (s t : State) (u : Unit),
    updateBytes f ps s = .ok u t → s.cache = [] → t.cache = [] ∧ t.cr0 = s.cr0 := by
  intro ps
  induction ps with
  | nil =>
    intro s t u h e
    simp only [updateBytes, pure_run, EStateM.Result.ok.injEq] at h
    rw [← h.2]; exact ⟨e, rfl⟩
  | cons q ps ih =>
    intro s t u h e
    simp only [updateBytes, modify_then] at h
    have k := updatePhys_uncached e q.1 f
    have r := ih _ _ _ h k.1
    exact ⟨r.1, r.2.trans k.2⟩

theorem commitList_uncached {s : State} (e : s.cache = []) : ∀ l, (s.commitList l).cache = [] ∧ (s.commitList l).cr0 = s.cr0
  | [] => ⟨e, rfl⟩
  | (a, v) :: t => by
    have ih := commitList_uncached e t
    simp only [State.commitList]
    rw [writePhys_uncached ih.1]
    exact ih

/-- Along a way with paging off from a state with the cache off and empty the cache stays so. -/
theorem Via.uncached {s t : State} {l : List Store} {k : List Change} {ps : List (Word32 × Bool)} (h : Via s l k ps t)
    (p : s.paging = false) (c : s.cr0Bit 30 = true) (e : s.cache = []) : t.cache = [] ∧ t.cr0 = s.cr0 := by
  have off {u : State} (h : u.cr0 = s.cr0) : u.paging = false := by
    unfold State.paging State.cr0Bit at *; rw [h]; exact p
  induction h with
  | start => exact ⟨e, rfl⟩
  | elsewhere _ k ih => exact ⟨k.cache.trans ih.1, k.cr0.trans ih.2⟩
  | walk _ k ih =>
    obtain ⟨-, rfl⟩ := translate_off (off ih.2) k
    exact ih
  | read _ ih =>
    rw [readPhys_uncached (by unfold State.cr0Bit at *; rw [ih.2]; exact c) ih.1]
    exact ih
  | store _ k1 k2 ih =>
    obtain ⟨-, rfl⟩ := translateBytes_off _ (off ih.2) k1
    rw [storeBytes_eqn _ _ _ _ _ k2]
    exact ih
  | write _ k1 k2 ih =>
    obtain ⟨-, rfl⟩ := translateBytes_off _ (off ih.2) k1
    have r := writeBytes_uncached _ _ _ _ _ k2 ih.1
    exact ⟨r.1, r.2.trans ih.2⟩
  | update _ k1 k2 ih =>
    obtain ⟨-, rfl⟩ := translateBytes_off _ (off ih.2) k1
    have r := updateBytes_uncached _ _ _ _ _ k2 ih.1
    exact ⟨r.1, r.2.trans ih.2⟩
  | @commit _ _ _ u _ ih =>
    have r := commitList_uncached ih.1 u.insn.stores
    exact ⟨r.1, r.2.trans ih.2⟩

end Sys2Proof.Machine
end

