-- ==== Sys2Proof/Laws/Finish.lean ====
section
/-!
SUPPORT. The end of an instruction: what committing its stores changes, and what `finish` leaves; then the stores an
access holds back as stores to memory; then a delivery and what is delivered in its place.
-/
namespace Sys2Proof.Machine
open Sys2Proof

/-- Committing changes memory and the cache alone. -/
theorem commitList_eqn (s : State) : ∀ l, s.commitList l = { s with mem := (s.commitList l).mem, cache := (s.commitList l).cache }
  | [] => rfl
  | (a, v) :: t => by
    have ih := commitList_eqn s t
    have h := writePhys_eqn (s.commitList t) (BitVec.ofNat 32 a) v
    simp only [State.commitList]
    rw [h, ih]

/-- Committing the stores changes memory, the cache and the list of stores alone. -/
theorem commitStores_eqn (s : State) :
    s.commitStores = { s with mem := s.commitStores.mem, cache := s.commitStores.cache,
                              insn := { s.insn with stores := [] } } := by
  have h := commitList_eqn s s.insn.stores
  unfold State.commitStores
  dsimp only
  rw [h]

theorem commitStores_mem (s : State) : s.commitStores.mem = (s.commitList s.insn.stores).mem := rfl

/-- Memory after bytes are committed straight to it, newest first in the list. -/
def commitMem (m : List Host.Cell) : List Host.Cell → List Host.Cell
  | [] => m
  | (a, v) :: t => Memory.write (commitMem m t) (BitVec.ofNat 32 a).toNat v

/-- With an empty cache every store that is committed goes to memory. -/
theorem commitList_mem_empty (s : State) (e : s.cache = []) : ∀ l, (s.commitList l).mem = commitMem s.mem l
  | [] => rfl
  | (a, v) :: t => by
    simp only [State.commitList, commitMem, ← commitList_mem_empty s e t]
    rw [writePhys_uncached (commitList_uncached e t).1]

theorem commitList_mem (s : State) (h : s.cacheOnly = false) : ∀ l, (s.commitList l).mem = commitMem s.mem l
  | [] => rfl
  | (a, v) :: t => by
    have ih := commitList_mem s h t
    have hc : ((s.commitList t).cr0Bit 30 && (s.commitList t).cr0Bit 29) = false := by
      rw [commitList_eqn]; exact h
    simp only [State.commitList, commitMem, ← ih]
    unfold State.writePhys
    dsimp only
    split
    · have : ∀ i c, (((s.commitList t).putCacheSet i c).cr0Bit 30 &&
          ((s.commitList t).putCacheSet i c).cr0Bit 29) = false := fun _ _ => hc
      rw [if_neg (by rw [this]; decide)]
      rfl
    · rfl

/-! The stores an access holds back. -/

/-- The bytes of stores as they are held back, newest first. -/
def heldAll (s : Pins) : List Store → List Host.Cell → List Host.Cell
  | [], l => l
  | p :: t, l => heldAll s t (heldBytes s p.1 (toBytes p.2.1 p.2.2) l)

theorem heldBytes_commit (s : State) (m : List Host.Cell) : ∀ (l : List Byte) (lin : Word32) (x : List Host.Cell),
    commitMem m (heldBytes s.pins lin l x) = s.memBytes lin l (commitMem m x)
  | [], _, _ => rfl
  | v :: t, lin, x => by
    simp only [heldBytes, State.memBytes]
    rw [heldBytes_commit s m t]
    simp [commitMem, State.phys]

theorem heldAll_commit (s : State) (m : List Host.Cell) : ∀ (l : List Store) (x : List Host.Cell),
    commitMem m (heldAll s.pins l x) = s.memAfter l (commitMem m x)
  | [], _ => rfl
  | p :: t, x => by
    simp only [heldAll, State.memAfter]
    rw [heldAll_commit s m t, heldBytes_commit]

theorem heldBytes_mem (s : State) : ∀ (l : List Byte) (lin : Word32) (x : List Host.Cell) (p : Host.Cell),
    p ∈ heldBytes s.pins lin l x → p ∈ x ∨ ∃ i, i < l.length ∧ (s.phys (lin + BitVec.ofNat 32 i)).toNat = p.1
  | [], _, _, _, h => .inl h
  | v :: t, lin, x, p, h => by
    simp only [heldBytes] at h
    rcases heldBytes_mem s t _ _ p h with h | ⟨i, hi, he⟩
    · simp only [List.mem_cons] at h
      rcases h with h | h
      · right
        refine ⟨0, by simp, ?_⟩
        simp [h, State.phys]
      · exact .inl h
    · right
      refine ⟨i + 1, by simpa using hi, ?_⟩
      rw [← he]
      congr 2
      rw [BitVec.add_assoc]
      congr 1
      apply BitVec.eq_of_toNat_eq
      simp [BitVec.toNat_ofNat]
      omega

theorem heldAll_mem (s : State) : ∀ (l : List Store) (x : List Host.Cell) (p : Host.Cell),
    p ∈ heldAll s.pins l x → p ∈ x ∨ ∃ q ∈ l, s.touches q p.1
  | [], _, _, h => .inl h
  | q :: t, x, p, h => by
    simp only [heldAll] at h
    rcases heldAll_mem s t _ p h with h | ⟨q', hq, he⟩
    · rcases heldBytes_mem s _ _ _ _ h with h | ⟨i, hi, he⟩
      · exact .inl h
      · right
        rw [toBytes_length] at hi
        exact ⟨q, by simp, i, hi, he⟩
    · exact .inr ⟨q', by simp [hq], he⟩

theorem heldAll_append (s : Pins) : ∀ (l k : List Store) (x : List Host.Cell),
    heldAll s (l ++ k) x = heldAll s k (heldAll s l x)
  | [], _, _ => rfl
  | p :: t, k, x => by
    simp only [List.cons_append, heldAll]
    exact heldAll_append s t k _

/-- Stores held back since a state: nothing else happened to memory. -/
structure Held (s t : State) (l : List Store) : Prop where
  via : ∃ ps, Via s l [] ps t
  cr0 : t.cr0 = s.cr0
  pins : t.pins = s.pins
  mem : s.paging = false → t.mem = s.mem
  stores : s.paging = false → t.insn.stores = heldAll s.pins l s.insn.stores

/-- The end of an instruction commits what it held back. -/
theorem finish_stored {s t : State} {l : List Store} (s0 : State) (h : Held s t l) (hs : s.insn.stores = []) :
    Stored s (finish s0 t) l := by
  have hmem : (finish s0 t).mem = (t.commitList t.insn.stores).mem := rfl
  refine ⟨fun hw hp a ha => ?_, fun hp hc => ?_, fun _ => ?_⟩
  · rw [hmem]
    have hm := h.mem hp
    have : Memory.read (t.commitList t.insn.stores).mem a = Memory.read t.mem a := by
      apply commitList_frame
      · rw [hm]; exact hw
      · intro p hp'
        rw [h.stores hp, hs] at hp'
        rcases heldAll_mem s l [] p hp' with h0 | ⟨q, hq, i, hi, he⟩
        · simp at h0
        · intro hpa
          refine ha q hq ⟨i, hi, ?_⟩
          rw [← hpa, ← he]
          simp
    rw [this, hm]
  · rw [hmem]
    have hm : (t.commitList t.insn.stores).mem = commitMem t.mem t.insn.stores := by
      rcases hc with hc | hc
      · refine commitList_mem t ?_ _
        unfold State.cacheOnly State.cr0Bit at *
        rw [h.cr0]; exact hc
      · obtain ⟨ps, w⟩ := h.via
        exact commitList_mem_empty t (w.uncached hp hc.off hc.empty).1 _
    rw [hm, h.stores hp, hs, heldAll_commit, h.mem hp]
    rfl
  · obtain ⟨ps, w⟩ := h.via
    exact ⟨ps, _, w.commit, rfl, hmem, fun hw => w.commit.alike hw hs⟩

/-- States that agree with one state agree with each other. -/
theorem Agree.congr {x y t : State} (h : Agree x t) (e : Agree x y) : Agree y t := by
  constructor
  · rw [h.gpr, e.gpr]
  · rw [h.eip, e.eip]
  · rw [h.eflags, e.eflags]
  · rw [h.seg, e.seg]
  · rw [h.cpl, e.cpl]
  · rw [h.cr0, e.cr0]
  · rw [h.cr2, e.cr2]
  · rw [h.cr3, e.cr3]
  · rw [h.gdtr, e.gdtr]
  · rw [h.idtr, e.idtr]
  · rw [h.ldtr, e.ldtr]
  · rw [h.tr, e.tr]
  · rw [h.dr, e.dr]
  · rw [h.test, e.test]
  · rw [h.fpu, e.fpu]
  · rw [h.run, e.run]
  · rw [h.latch, e.latch]
  · rw [h.pins, e.pins]
  · rw [h.events, e.events]

/-- What `finish` leaves of every register. -/
theorem finish_eqn (s t : State) (h1 : t.insn.again = false) (h2 : t.insn.keepRf = false) :
    Agree { t with eflags := clearRf t.eflags
                   latch := { t.latch with inhibitNext := t.insn.inhibit, stiShadow := t.insn.stiShadow } }
      (finish s t) := by
  have e := commitStores_eqn t
  constructor <;> simp only [finish, h1, h2, State.restAt, clearRf] <;> (try rw [e]) <;> simp

/-! A delivery and what is delivered in its place. -/

/-- The start of a delivery changes DR6, DR7.GD and the run state alone; EFLAGS stay. -/
theorem startDelivery_eqn (s : State) (ev : Event) : s.startDelivery ev = { s with
    run := .running
    dr := match ev.debug with
      | none => s.dr
      | some d => { s.dr with dr6 := s.dr.dr6 ||| d, dr7 := s.dr.dr7 &&& 0xFFFFDFFF#32 } } := by
  unfold State.startDelivery State.noteDebug
  cases ev.debug <;> rfl

/-- The image of a fault has RF set. -/
theorem flagsImage_fault {s : State} {ev : Event} (h : ev.isFault = true) : s.flagsImage ev = setBit s.eflags 16 true := by
  simp only [State.flagsImage, h, if_true]

/-- The image of a software interrupt has RF clear. -/
theorem flagsImage_software {s : State} {ev : Event} (h : ev.isFault = false) (hs : ev.software = true) :
    s.flagsImage ev = clearRf s.eflags := by
  simp only [State.flagsImage, h, hs, Bool.false_eq_true, if_false, if_true]

/-- The image of a trap or an external interrupt is EFLAGS. -/
theorem flagsImage_other {s : State} {ev : Event} (h : ev.isFault = false) (hs : ev.software = false) :
    s.flagsImage ev = s.eflags := by
  simp only [State.flagsImage, h, hs, Bool.false_eq_true, if_false]

/-- An event that is delivered. -/
theorem deliverLoop_of_ok {n : Nat} {ev : Event} {ret fret : Word32} {bs : Bool} {p t : State} (h : deliver ev ret p = .ok () t) :
    deliverLoop (n + 1) ev ret fret bs p = .next (t.settle bs) := by
  rw [deliverLoop, h]

/-- A fault of steps 13 to 17 of a task switch is an event of its own. -/
theorem deliverLoop_of_arrived {n : Nat} {ev : Event} {ret fret : Word32} {bs : Bool} {p t : State} {v : Byte} {c : Option Word16}
    {d : Word32} (h : deliver ev ret p = .error (.exn v c d) t) (ha : t.insn.arrived = true) :
    deliverLoop (n + 1) ev ret fret bs p =
      deliverLoop n (faultEvent v c d) t.eip t.eip false (t.commitStores.restAt t.eip) := by
  rw [deliverLoop, h]
  simp only [ha, if_true]

/-- An exception raised in place of an event, where one is delivered. -/
theorem deliverLoop_of_escalate {n : Nat} {ev e : Event} {ret fret : Word32} {bs : Bool} {p t : State} {v : Byte}
    {c : Option Word16} {d : Word32} (h : deliver ev ret p = .error (.exn v c d) t) (ha : t.insn.arrived = false)
    (he : escalate ev (faultEvent v c d) = some e) :
    deliverLoop (n + 1) ev ret fret bs p =
      deliverLoop n e (p.leftBy t fret).eip (p.leftBy t fret).eip false (p.leftBy t fret) := by
  rw [deliverLoop, h]
  dsimp only
  rw [he]
  simp only [ha, Bool.false_eq_true, if_false]

/-- An exception raised while a double fault is delivered. -/
theorem deliverLoop_of_shutdown {n : Nat} {ev : Event} {ret fret : Word32} {bs : Bool} {p t : State} {v : Byte}
    {c : Option Word16} {d : Word32} (h : deliver ev ret p = .error (.exn v c d) t) (ha : t.insn.arrived = false)
    (he : escalate ev (faultEvent v c d) = none) : deliverLoop (n + 1) ev ret fret bs p = .next (p.shutBy t ret) := by
  rw [deliverLoop, h]
  dsimp only
  rw [he]
  simp only [ha, Bool.false_eq_true, if_false]

end Sys2Proof.Machine
end

