-- ==== Sys2Proof/Laws/Checks.lean ====
section
/-!
SUPPORT. When an access completes: with paging off, exactly when the checks of 21 R200 and 20 R126 pass.
-/
namespace Sys2Proof.Machine
open Sys2Proof

/-- A20M# stops no access. -/
def State.a20Ok (s : State) : Prop := s.pins.a20m = true → s.real = true

theorem maskA20_ok {s : State} (h : s.a20Ok) (a : Word32) : maskA20 a s = .ok (s.phys a) s := by
  unfold maskA20 State.phys
  rw [get_then]
  cases ha : s.pins.a20m
  · simp [pure_run]
  · simp [h ha, pure_run]

theorem translate_unpaged {s : State} (hp : s.paging = false) (lin : Word32) (w u : Bool) :
    translate lin w u s = .ok (lin, true) s := by
  unfold translate
  rw [get_then]
  simp [hp, pure_run]

/-- The physical addresses of bytes from a linear address on, while paging is off. -/
def State.physList (s : State) (lin : Word32) : Nat → List (Word32 × Bool)
  | 0 => []
  | n + 1 => (s.phys lin, true) :: s.physList (lin + 1#32) n

theorem translateBytes_unpaged {s : State} (hp : s.paging = false) (ha : s.a20Ok) (w u : Bool) (n : Nat) (lin : Word32) :
    translateBytes lin w u n s = .ok (s.physList lin n) s := by
  induction n generalizing lin with
  | zero => rfl
  | succ n ih =>
    unfold translateBytes
    rw [bind_of_ok (translate_unpaged hp lin w u), bind_of_ok (maskA20_ok ha lin), bind_of_ok (ih (lin + 1#32))]
    rfl

/-- The checks a data access makes before paging: type, limit, alignment. -/
def State.admits (s : State) (z : Size) (r : SReg) (off : Word32) (n al : Nat) (k : Access) : Bool :=
  segTypeOk s (s.seg.get r) k && segLimitOk z (s.seg.get r) off.toNat n &&
    (!s.alignOn || decide (((s.seg.get r).base + off).toNat % al = 0))

theorem segCheck_run (z : Size) (r : SReg) (off : Word32) (n : Nat) (k : Access) (s : State) :
    segCheck z r off n k s =
      if segTypeOk s (s.seg.get r) k then
        if segLimitOk z (s.seg.get r) off.toNat n then .ok ((s.seg.get r).base + off) s
        else .error (if r = .ss then excSS 0#16 else excGP 0#16) s
      else .error (excGP 0#16) s := by
  unfold segCheck
  rw [get_then]
  cases segTypeOk s (s.seg.get r) k
  · rfl
  · cases segLimitOk z (s.seg.get r) off.toNat n <;> rfl

theorem alignCheck_run (lin : Word32) (a : Nat) (s : State) :
    alignCheck lin a s = if !s.alignOn || decide (lin.toNat % a = 0) then .ok () s else .error excAC s := by
  unfold alignCheck
  rw [get_then, check_run]

theorem readBytes_ok (lk : Bool) (ps : List (Word32 × Bool)) (s : State) : ∃ l t, readBytes lk ps s = .ok l t := by
  induction ps generalizing s with
  | nil => exact ⟨[], s, rfl⟩
  | cons p ps ih =>
    obtain ⟨l, t, h⟩ := ih (s.readPhys p.1 p.2 lk).2
    refine ⟨(s.readPhys p.1 p.2 lk).1 :: l, t, ?_⟩
    unfold readBytes
    rw [get_then]
    simp only [set_then]
    rw [bind_of_ok h]
    rfl

theorem storeBytes_ok (ps : List (Word32 × Bool)) (vs : List Byte) (s : State) : ∃ t, storeBytes ps vs s = .ok () t := by
  induction ps generalizing vs s with
  | nil => exact ⟨s, by unfold storeBytes; rfl⟩
  | cons p ps ih =>
    cases vs with
    | nil => exact ⟨s, by unfold storeBytes; rfl⟩
    | cons v vs =>
      obtain ⟨t, h⟩ := ih vs { s with insn := { s.insn with stores := (p.1.toNat, v) :: s.insn.stores } }
      exact ⟨t, by unfold storeBytes; rw [modify_then]; exact h⟩

/-- With paging off a read completes when its checks pass. -/
theorem memRead_ok {z : Size} {r : SReg} {off : Word32} {n al : Nat} {s : State} (hp : s.paging = false) (ha : s.a20Ok)
    (h : s.admits z r off n al .read = true) : ∃ v t, memRead z r off n al s = .ok v t := by
  simp only [State.admits, Bool.and_eq_true] at h
  obtain ⟨⟨h1, h2⟩, h3⟩ := h
  have h4 : ∀ x, { s.refer with insn := { s.insn with hits := x } }.a20Ok := fun _ => ha
  unfold memRead
  rw [bind_of_ok (by rw [segCheck_run, h1, h2]; rfl), bind_of_ok (by rw [alignCheck_run, h3]; rfl)]
  unfold noteAccess
  simp only [modify_then, get_then]
  rw [bind_of_ok (translateBytes_unpaged (by exact hp) (h4 _) _ _ _ _)]
  obtain ⟨l, t, e⟩ := readBytes_ok s.insn.lock (State.physList _ ((s.seg.get r).base + off) n) _
  rw [bind_of_ok e]
  exact ⟨_, _, rfl⟩

/-- With paging off a write completes when its checks pass. -/
theorem memWrite_ok {z : Size} {r : SReg} {off : Word32} {n al v : Nat} {s : State} (hp : s.paging = false) (ha : s.a20Ok)
    (h : s.admits z r off n al .write = true) : ∃ t, memWrite z r off n al v s = .ok () t := by
  simp only [State.admits, Bool.and_eq_true] at h
  obtain ⟨⟨h1, h2⟩, h3⟩ := h
  have h4 : ∀ x, { s.refer with insn := { s.insn with hits := x } }.a20Ok := fun _ => ha
  unfold memWrite
  rw [bind_of_ok (by rw [segCheck_run, h1, h2]; rfl), bind_of_ok (by rw [alignCheck_run, h3]; rfl)]
  unfold noteAccess
  simp only [modify_then, get_then]
  rw [bind_of_ok (translateBytes_unpaged (by exact hp) (h4 _) _ _ _ _)]
  exact storeBytes_ok _ _ _

end Sys2Proof.Machine
end

