-- ==== Sys2Proof/Laws/State.lean ====
section
/-!
SUPPORT. What each named update of the state leaves in each field, and what reading a register gives after a write.
-/
namespace Sys2Proof.Machine
open Sys2Proof

/-! The general registers replaced. -/
@[simp] theorem State.setGpr_gpr (s : State) (g : Gprs) : (s.setGpr g).gpr = g := rfl
@[simp] theorem State.setGpr_eip (s : State) (g : Gprs) : (s.setGpr g).eip = s.eip := rfl
@[simp] theorem State.setGpr_eflags (s : State) (g : Gprs) : (s.setGpr g).eflags = s.eflags := rfl
@[simp] theorem State.setGpr_seg (s : State) (g : Gprs) : (s.setGpr g).seg = s.seg := rfl
@[simp] theorem State.setGpr_cpl (s : State) (g : Gprs) : (s.setGpr g).cpl = s.cpl := rfl
@[simp] theorem State.setGpr_cr0 (s : State) (g : Gprs) : (s.setGpr g).cr0 = s.cr0 := rfl
@[simp] theorem State.setGpr_cr2 (s : State) (g : Gprs) : (s.setGpr g).cr2 = s.cr2 := rfl
@[simp] theorem State.setGpr_cr3 (s : State) (g : Gprs) : (s.setGpr g).cr3 = s.cr3 := rfl
@[simp] theorem State.setGpr_gdtr (s : State) (g : Gprs) : (s.setGpr g).gdtr = s.gdtr := rfl
@[simp] theorem State.setGpr_idtr (s : State) (g : Gprs) : (s.setGpr g).idtr = s.idtr := rfl
@[simp] theorem State.setGpr_ldtr (s : State) (g : Gprs) : (s.setGpr g).ldtr = s.ldtr := rfl
@[simp] theorem State.setGpr_tr (s : State) (g : Gprs) : (s.setGpr g).tr = s.tr := rfl
@[simp] theorem State.setGpr_dr (s : State) (g : Gprs) : (s.setGpr g).dr = s.dr := rfl
@[simp] theorem State.setGpr_test (s : State) (g : Gprs) : (s.setGpr g).test = s.test := rfl
@[simp] theorem State.setGpr_bufferSpoiled (s : State) (g : Gprs) : (s.setGpr g).bufferSpoiled = s.bufferSpoiled := rfl
@[simp] theorem State.setGpr_fpu (s : State) (g : Gprs) : (s.setGpr g).fpu = s.fpu := rfl
@[simp] theorem State.setGpr_cache (s : State) (g : Gprs) : (s.setGpr g).cache = s.cache := rfl
@[simp] theorem State.setGpr_tlb (s : State) (g : Gprs) : (s.setGpr g).tlb = s.tlb := rfl
@[simp] theorem State.setGpr_run (s : State) (g : Gprs) : (s.setGpr g).run = s.run := rfl
@[simp] theorem State.setGpr_latch (s : State) (g : Gprs) : (s.setGpr g).latch = s.latch := rfl
@[simp] theorem State.setGpr_traps (s : State) (g : Gprs) : (s.setGpr g).traps = s.traps := rfl
@[simp] theorem State.setGpr_insn (s : State) (g : Gprs) : (s.setGpr g).insn = s.insn := rfl
@[simp] theorem State.setGpr_pins (s : State) (g : Gprs) : (s.setGpr g).pins = s.pins := rfl
@[simp] theorem State.setGpr_events (s : State) (g : Gprs) : (s.setGpr g).events = s.events := rfl
@[simp] theorem State.setGpr_freeCtr (s : State) (g : Gprs) : (s.setGpr g).freeCtr = s.freeCtr := rfl
@[simp] theorem State.setGpr_mem (s : State) (g : Gprs) : (s.setGpr g).mem = s.mem := rfl
@[simp] theorem State.setGpr_real (s : State) (g : Gprs) : (s.setGpr g).real = s.real := rfl
@[simp] theorem State.setGpr_v86 (s : State) (g : Gprs) : (s.setGpr g).v86 = s.v86 := rfl
@[simp] theorem State.setGpr_prot (s : State) (g : Gprs) : (s.setGpr g).prot = s.prot := rfl
@[simp] theorem State.setGpr_paging (s : State) (g : Gprs) : (s.setGpr g).paging = s.paging := rfl

/-! EIP replaced. -/
@[simp] theorem State.setEip_gpr (s : State) (v : Word32) : (s.setEip v).gpr = s.gpr := rfl
@[simp] theorem State.setEip_eip (s : State) (v : Word32) : (s.setEip v).eip = v := rfl
@[simp] theorem State.setEip_eflags (s : State) (v : Word32) : (s.setEip v).eflags = s.eflags := rfl
@[simp] theorem State.setEip_seg (s : State) (v : Word32) : (s.setEip v).seg = s.seg := rfl
@[simp] theorem State.setEip_cpl (s : State) (v : Word32) : (s.setEip v).cpl = s.cpl := rfl
@[simp] theorem State.setEip_cr0 (s : State) (v : Word32) : (s.setEip v).cr0 = s.cr0 := rfl
@[simp] theorem State.setEip_cr2 (s : State) (v : Word32) : (s.setEip v).cr2 = s.cr2 := rfl
@[simp] theorem State.setEip_cr3 (s : State) (v : Word32) : (s.setEip v).cr3 = s.cr3 := rfl
@[simp] theorem State.setEip_gdtr (s : State) (v : Word32) : (s.setEip v).gdtr = s.gdtr := rfl
@[simp] theorem State.setEip_idtr (s : State) (v : Word32) : (s.setEip v).idtr = s.idtr := rfl
@[simp] theorem State.setEip_ldtr (s : State) (v : Word32) : (s.setEip v).ldtr = s.ldtr := rfl
@[simp] theorem State.setEip_tr (s : State) (v : Word32) : (s.setEip v).tr = s.tr := rfl
@[simp] theorem State.setEip_dr (s : State) (v : Word32) : (s.setEip v).dr = s.dr := rfl
@[simp] theorem State.setEip_test (s : State) (v : Word32) : (s.setEip v).test = s.test := rfl
@[simp] theorem State.setEip_bufferSpoiled (s : State) (v : Word32) : (s.setEip v).bufferSpoiled = s.bufferSpoiled := rfl
@[simp] theorem State.setEip_fpu (s : State) (v : Word32) : (s.setEip v).fpu = s.fpu := rfl
@[simp] theorem State.setEip_cache (s : State) (v : Word32) : (s.setEip v).cache = s.cache := rfl
@[simp] theorem State.setEip_tlb (s : State) (v : Word32) : (s.setEip v).tlb = s.tlb := rfl
@[simp] theorem State.setEip_run (s : State) (v : Word32) : (s.setEip v).run = s.run := rfl
@[simp] theorem State.setEip_latch (s : State) (v : Word32) : (s.setEip v).latch = s.latch := rfl
@[simp] theorem State.setEip_traps (s : State) (v : Word32) : (s.setEip v).traps = s.traps := rfl
@[simp] theorem State.setEip_insn (s : State) (v : Word32) : (s.setEip v).insn = s.insn := rfl
@[simp] theorem State.setEip_pins (s : State) (v : Word32) : (s.setEip v).pins = s.pins := rfl
@[simp] theorem State.setEip_events (s : State) (v : Word32) : (s.setEip v).events = s.events := rfl
@[simp] theorem State.setEip_freeCtr (s : State) (v : Word32) : (s.setEip v).freeCtr = s.freeCtr := rfl
@[simp] theorem State.setEip_mem (s : State) (v : Word32) : (s.setEip v).mem = s.mem := rfl
@[simp] theorem State.setEip_real (s : State) (v : Word32) : (s.setEip v).real = s.real := rfl
@[simp] theorem State.setEip_v86 (s : State) (v : Word32) : (s.setEip v).v86 = s.v86 := rfl
@[simp] theorem State.setEip_prot (s : State) (v : Word32) : (s.setEip v).prot = s.prot := rfl
@[simp] theorem State.setEip_paging (s : State) (v : Word32) : (s.setEip v).paging = s.paging := rfl

/-! One segment register replaced. -/
@[simp] theorem State.putSeg_gpr (s : State) (r : SReg) (v : SegReg) : (s.putSeg r v).gpr = s.gpr := rfl
@[simp] theorem State.putSeg_eip (s : State) (r : SReg) (v : SegReg) : (s.putSeg r v).eip = s.eip := rfl
@[simp] theorem State.putSeg_eflags (s : State) (r : SReg) (v : SegReg) : (s.putSeg r v).eflags = s.eflags := rfl
@[simp] theorem State.putSeg_seg (s : State) (r : SReg) (v : SegReg) : (s.putSeg r v).seg = s.seg.put r v := rfl
@[simp] theorem State.putSeg_cpl (s : State) (r : SReg) (v : SegReg) : (s.putSeg r v).cpl = s.cpl := rfl
@[simp] theorem State.putSeg_cr0 (s : State) (r : SReg) (v : SegReg) : (s.putSeg r v).cr0 = s.cr0 := rfl
@[simp] theorem State.putSeg_cr2 (s : State) (r : SReg) (v : SegReg) : (s.putSeg r v).cr2 = s.cr2 := rfl
@[simp] theorem State.putSeg_cr3 (s : State) (r : SReg) (v : SegReg) : (s.putSeg r v).cr3 = s.cr3 := rfl
@[simp] theorem State.putSeg_gdtr (s : State) (r : SReg) (v : SegReg) : (s.putSeg r v).gdtr = s.gdtr := rfl
@[simp] theorem State.putSeg_idtr (s : State) (r : SReg) (v : SegReg) : (s.putSeg r v).idtr = s.idtr := rfl
@[simp] theorem State.putSeg_ldtr (s : State) (r : SReg) (v : SegReg) : (s.putSeg r v).ldtr = s.ldtr := rfl
@[simp] theorem State.putSeg_tr (s : State) (r : SReg) (v : SegReg) : (s.putSeg r v).tr = s.tr := rfl
@[simp] theorem State.putSeg_dr (s : State) (r : SReg) (v : SegReg) : (s.putSeg r v).dr = s.dr := rfl
@[simp] theorem State.putSeg_test (s : State) (r : SReg) (v : SegReg) : (s.putSeg r v).test = s.test := rfl
@[simp] theorem State.putSeg_bufferSpoiled (s : State) (r : SReg) (v : SegReg) : (s.putSeg r v).bufferSpoiled = s.bufferSpoiled := rfl
@[simp] theorem State.putSeg_fpu (s : State) (r : SReg) (v : SegReg) : (s.putSeg r v).fpu = s.fpu := rfl
@[simp] theorem State.putSeg_cache (s : State) (r : SReg) (v : SegReg) : (s.putSeg r v).cache = s.cache := rfl
@[simp] theorem State.putSeg_tlb (s : State) (r : SReg) (v : SegReg) : (s.putSeg r v).tlb = s.tlb := rfl
@[simp] theorem State.putSeg_run (s : State) (r : SReg) (v : SegReg) : (s.putSeg r v).run = s.run := rfl
@[simp] theorem State.putSeg_latch (s : State) (r : SReg) (v : SegReg) : (s.putSeg r v).latch = s.latch := rfl
@[simp] theorem State.putSeg_traps (s : State) (r : SReg) (v : SegReg) : (s.putSeg r v).traps = s.traps := rfl
@[simp] theorem State.putSeg_insn (s : State) (r : SReg) (v : SegReg) : (s.putSeg r v).insn = s.insn := rfl
@[simp] theorem State.putSeg_pins (s : State) (r : SReg) (v : SegReg) : (s.putSeg r v).pins = s.pins := rfl
@[simp] theorem State.putSeg_events (s : State) (r : SReg) (v : SegReg) : (s.putSeg r v).events = s.events := rfl
@[simp] theorem State.putSeg_freeCtr (s : State) (r : SReg) (v : SegReg) : (s.putSeg r v).freeCtr = s.freeCtr := rfl
@[simp] theorem State.putSeg_mem (s : State) (r : SReg) (v : SegReg) : (s.putSeg r v).mem = s.mem := rfl
@[simp] theorem State.putSeg_real (s : State) (r : SReg) (v : SegReg) : (s.putSeg r v).real = s.real := rfl
@[simp] theorem State.putSeg_v86 (s : State) (r : SReg) (v : SegReg) : (s.putSeg r v).v86 = s.v86 := rfl
@[simp] theorem State.putSeg_prot (s : State) (r : SReg) (v : SegReg) : (s.putSeg r v).prot = s.prot := rfl
@[simp] theorem State.putSeg_paging (s : State) (r : SReg) (v : SegReg) : (s.putSeg r v).paging = s.paging := rfl

/-! EFLAGS replaced. -/
@[simp] theorem State.setEflags_gpr (s : State) (v : Word32) : (s.setEflags v).gpr = s.gpr := rfl
@[simp] theorem State.setEflags_eip (s : State) (v : Word32) : (s.setEflags v).eip = s.eip := rfl
@[simp] theorem State.setEflags_eflags (s : State) (v : Word32) : (s.setEflags v).eflags = v := rfl
@[simp] theorem State.setEflags_seg (s : State) (v : Word32) : (s.setEflags v).seg = s.seg := rfl
@[simp] theorem State.setEflags_cpl (s : State) (v : Word32) : (s.setEflags v).cpl = s.cpl := rfl
@[simp] theorem State.setEflags_cr0 (s : State) (v : Word32) : (s.setEflags v).cr0 = s.cr0 := rfl
@[simp] theorem State.setEflags_cr2 (s : State) (v : Word32) : (s.setEflags v).cr2 = s.cr2 := rfl
@[simp] theorem State.setEflags_cr3 (s : State) (v : Word32) : (s.setEflags v).cr3 = s.cr3 := rfl
@[simp] theorem State.setEflags_gdtr (s : State) (v : Word32) : (s.setEflags v).gdtr = s.gdtr := rfl
@[simp] theorem State.setEflags_idtr (s : State) (v : Word32) : (s.setEflags v).idtr = s.idtr := rfl
@[simp] theorem State.setEflags_ldtr (s : State) (v : Word32) : (s.setEflags v).ldtr = s.ldtr := rfl
@[simp] theorem State.setEflags_tr (s : State) (v : Word32) : (s.setEflags v).tr = s.tr := rfl
@[simp] theorem State.setEflags_dr (s : State) (v : Word32) : (s.setEflags v).dr = s.dr := rfl
@[simp] theorem State.setEflags_test (s : State) (v : Word32) : (s.setEflags v).test = s.test := rfl
@[simp] theorem State.setEflags_bufferSpoiled (s : State) (v : Word32) : (s.setEflags v).bufferSpoiled = s.bufferSpoiled := rfl
@[simp] theorem State.setEflags_fpu (s : State) (v : Word32) : (s.setEflags v).fpu = s.fpu := rfl
@[simp] theorem State.setEflags_cache (s : State) (v : Word32) : (s.setEflags v).cache = s.cache := rfl
@[simp] theorem State.setEflags_tlb (s : State) (v : Word32) : (s.setEflags v).tlb = s.tlb := rfl
@[simp] theorem State.setEflags_run (s : State) (v : Word32) : (s.setEflags v).run = s.run := rfl
@[simp] theorem State.setEflags_latch (s : State) (v : Word32) : (s.setEflags v).latch = s.latch := rfl
@[simp] theorem State.setEflags_traps (s : State) (v : Word32) : (s.setEflags v).traps = s.traps := rfl
@[simp] theorem State.setEflags_insn (s : State) (v : Word32) : (s.setEflags v).insn = s.insn := rfl
@[simp] theorem State.setEflags_pins (s : State) (v : Word32) : (s.setEflags v).pins = s.pins := rfl
@[simp] theorem State.setEflags_events (s : State) (v : Word32) : (s.setEflags v).events = s.events := rfl
@[simp] theorem State.setEflags_freeCtr (s : State) (v : Word32) : (s.setEflags v).freeCtr = s.freeCtr := rfl
@[simp] theorem State.setEflags_mem (s : State) (v : Word32) : (s.setEflags v).mem = s.mem := rfl
@[simp] theorem State.setEflags_real (s : State) (v : Word32) : (s.setEflags v).real = s.real := rfl
@[simp] theorem State.setEflags_paging (s : State) (v : Word32) : (s.setEflags v).paging = s.paging := rfl

/-! CR0 replaced. -/
@[simp] theorem State.setCr0_gpr (s : State) (v : Word32) : (s.setCr0 v).gpr = s.gpr := rfl
@[simp] theorem State.setCr0_eip (s : State) (v : Word32) : (s.setCr0 v).eip = s.eip := rfl
@[simp] theorem State.setCr0_eflags (s : State) (v : Word32) : (s.setCr0 v).eflags = s.eflags := rfl
@[simp] theorem State.setCr0_seg (s : State) (v : Word32) : (s.setCr0 v).seg = s.seg := rfl
@[simp] theorem State.setCr0_cpl (s : State) (v : Word32) : (s.setCr0 v).cpl = s.cpl := rfl
@[simp] theorem State.setCr0_cr0 (s : State) (v : Word32) : (s.setCr0 v).cr0 = v := rfl
@[simp] theorem State.setCr0_cr2 (s : State) (v : Word32) : (s.setCr0 v).cr2 = s.cr2 := rfl
@[simp] theorem State.setCr0_cr3 (s : State) (v : Word32) : (s.setCr0 v).cr3 = s.cr3 := rfl
@[simp] theorem State.setCr0_gdtr (s : State) (v : Word32) : (s.setCr0 v).gdtr = s.gdtr := rfl
@[simp] theorem State.setCr0_idtr (s : State) (v : Word32) : (s.setCr0 v).idtr = s.idtr := rfl
@[simp] theorem State.setCr0_ldtr (s : State) (v : Word32) : (s.setCr0 v).ldtr = s.ldtr := rfl
@[simp] theorem State.setCr0_tr (s : State) (v : Word32) : (s.setCr0 v).tr = s.tr := rfl
@[simp] theorem State.setCr0_dr (s : State) (v : Word32) : (s.setCr0 v).dr = s.dr := rfl
@[simp] theorem State.setCr0_test (s : State) (v : Word32) : (s.setCr0 v).test = s.test := rfl
@[simp] theorem State.setCr0_bufferSpoiled (s : State) (v : Word32) : (s.setCr0 v).bufferSpoiled = s.bufferSpoiled := rfl
@[simp] theorem State.setCr0_fpu (s : State) (v : Word32) : (s.setCr0 v).fpu = s.fpu := rfl
@[simp] theorem State.setCr0_cache (s : State) (v : Word32) : (s.setCr0 v).cache = s.cache := rfl
@[simp] theorem State.setCr0_tlb (s : State) (v : Word32) : (s.setCr0 v).tlb = s.tlb := rfl
@[simp] theorem State.setCr0_run (s : State) (v : Word32) : (s.setCr0 v).run = s.run := rfl
@[simp] theorem State.setCr0_latch (s : State) (v : Word32) : (s.setCr0 v).latch = s.latch := rfl
@[simp] theorem State.setCr0_traps (s : State) (v : Word32) : (s.setCr0 v).traps = s.traps := rfl
@[simp] theorem State.setCr0_insn (s : State) (v : Word32) : (s.setCr0 v).insn = s.insn := rfl
@[simp] theorem State.setCr0_pins (s : State) (v : Word32) : (s.setCr0 v).pins = s.pins := rfl
@[simp] theorem State.setCr0_events (s : State) (v : Word32) : (s.setCr0 v).events = s.events := rfl
@[simp] theorem State.setCr0_freeCtr (s : State) (v : Word32) : (s.setCr0 v).freeCtr = s.freeCtr := rfl
@[simp] theorem State.setCr0_mem (s : State) (v : Word32) : (s.setCr0 v).mem = s.mem := rfl

/-! The privilege level replaced. -/
@[simp] theorem State.setCpl_gpr (s : State) (l : BitVec 2) : (s.setCpl l).gpr = s.gpr := rfl
@[simp] theorem State.setCpl_eip (s : State) (l : BitVec 2) : (s.setCpl l).eip = s.eip := rfl
@[simp] theorem State.setCpl_eflags (s : State) (l : BitVec 2) : (s.setCpl l).eflags = s.eflags := rfl
@[simp] theorem State.setCpl_seg (s : State) (l : BitVec 2) : (s.setCpl l).seg = s.seg := rfl
@[simp] theorem State.setCpl_cpl (s : State) (l : BitVec 2) : (s.setCpl l).cpl = l := rfl
@[simp] theorem State.setCpl_cr0 (s : State) (l : BitVec 2) : (s.setCpl l).cr0 = s.cr0 := rfl
@[simp] theorem State.setCpl_cr2 (s : State) (l : BitVec 2) : (s.setCpl l).cr2 = s.cr2 := rfl
@[simp] theorem State.setCpl_cr3 (s : State) (l : BitVec 2) : (s.setCpl l).cr3 = s.cr3 := rfl
@[simp] theorem State.setCpl_gdtr (s : State) (l : BitVec 2) : (s.setCpl l).gdtr = s.gdtr := rfl
@[simp] theorem State.setCpl_idtr (s : State) (l : BitVec 2) : (s.setCpl l).idtr = s.idtr := rfl
@[simp] theorem State.setCpl_ldtr (s : State) (l : BitVec 2) : (s.setCpl l).ldtr = s.ldtr := rfl
@[simp] theorem State.setCpl_tr (s : State) (l : BitVec 2) : (s.setCpl l).tr = s.tr := rfl
@[simp] theorem State.setCpl_dr (s : State) (l : BitVec 2) : (s.setCpl l).dr = s.dr := rfl
@[simp] theorem State.setCpl_test (s : State) (l : BitVec 2) : (s.setCpl l).test = s.test := rfl
@[simp] theorem State.setCpl_bufferSpoiled (s : State) (l : BitVec 2) : (s.setCpl l).bufferSpoiled = s.bufferSpoiled := rfl
@[simp] theorem State.setCpl_fpu (s : State) (l : BitVec 2) : (s.setCpl l).fpu = s.fpu := rfl
@[simp] theorem State.setCpl_cache (s : State) (l : BitVec 2) : (s.setCpl l).cache = s.cache := rfl
@[simp] theorem State.setCpl_tlb (s : State) (l : BitVec 2) : (s.setCpl l).tlb = s.tlb := rfl
@[simp] theorem State.setCpl_run (s : State) (l : BitVec 2) : (s.setCpl l).run = s.run := rfl
@[simp] theorem State.setCpl_latch (s : State) (l : BitVec 2) : (s.setCpl l).latch = s.latch := rfl
@[simp] theorem State.setCpl_traps (s : State) (l : BitVec 2) : (s.setCpl l).traps = s.traps := rfl
@[simp] theorem State.setCpl_insn (s : State) (l : BitVec 2) : (s.setCpl l).insn = s.insn := rfl
@[simp] theorem State.setCpl_pins (s : State) (l : BitVec 2) : (s.setCpl l).pins = s.pins := rfl
@[simp] theorem State.setCpl_events (s : State) (l : BitVec 2) : (s.setCpl l).events = s.events := rfl
@[simp] theorem State.setCpl_freeCtr (s : State) (l : BitVec 2) : (s.setCpl l).freeCtr = s.freeCtr := rfl
@[simp] theorem State.setCpl_mem (s : State) (l : BitVec 2) : (s.setCpl l).mem = s.mem := rfl
@[simp] theorem State.setCpl_real (s : State) (l : BitVec 2) : (s.setCpl l).real = s.real := rfl
@[simp] theorem State.setCpl_v86 (s : State) (l : BitVec 2) : (s.setCpl l).v86 = s.v86 := rfl
@[simp] theorem State.setCpl_prot (s : State) (l : BitVec 2) : (s.setCpl l).prot = s.prot := rfl
@[simp] theorem State.setCpl_paging (s : State) (l : BitVec 2) : (s.setCpl l).paging = s.paging := rfl

/-! LDTR replaced. -/
@[simp] theorem State.setLdtr_gpr (s : State) (l : LdtReg) : (s.setLdtr l).gpr = s.gpr := rfl
@[simp] theorem State.setLdtr_eip (s : State) (l : LdtReg) : (s.setLdtr l).eip = s.eip := rfl
@[simp] theorem State.setLdtr_eflags (s : State) (l : LdtReg) : (s.setLdtr l).eflags = s.eflags := rfl
@[simp] theorem State.setLdtr_seg (s : State) (l : LdtReg) : (s.setLdtr l).seg = s.seg := rfl
@[simp] theorem State.setLdtr_cpl (s : State) (l : LdtReg) : (s.setLdtr l).cpl = s.cpl := rfl
@[simp] theorem State.setLdtr_cr0 (s : State) (l : LdtReg) : (s.setLdtr l).cr0 = s.cr0 := rfl
@[simp] theorem State.setLdtr_cr2 (s : State) (l : LdtReg) : (s.setLdtr l).cr2 = s.cr2 := rfl
@[simp] theorem State.setLdtr_cr3 (s : State) (l : LdtReg) : (s.setLdtr l).cr3 = s.cr3 := rfl
@[simp] theorem State.setLdtr_gdtr (s : State) (l : LdtReg) : (s.setLdtr l).gdtr = s.gdtr := rfl
@[simp] theorem State.setLdtr_idtr (s : State) (l : LdtReg) : (s.setLdtr l).idtr = s.idtr := rfl
@[simp] theorem State.setLdtr_ldtr (s : State) (l : LdtReg) : (s.setLdtr l).ldtr = l := rfl
@[simp] theorem State.setLdtr_tr (s : State) (l : LdtReg) : (s.setLdtr l).tr = s.tr := rfl
@[simp] theorem State.setLdtr_dr (s : State) (l : LdtReg) : (s.setLdtr l).dr = s.dr := rfl
@[simp] theorem State.setLdtr_test (s : State) (l : LdtReg) : (s.setLdtr l).test = s.test := rfl
@[simp] theorem State.setLdtr_bufferSpoiled (s : State) (l : LdtReg) : (s.setLdtr l).bufferSpoiled = s.bufferSpoiled := rfl
@[simp] theorem State.setLdtr_fpu (s : State) (l : LdtReg) : (s.setLdtr l).fpu = s.fpu := rfl
@[simp] theorem State.setLdtr_cache (s : State) (l : LdtReg) : (s.setLdtr l).cache = s.cache := rfl
@[simp] theorem State.setLdtr_tlb (s : State) (l : LdtReg) : (s.setLdtr l).tlb = s.tlb := rfl
@[simp] theorem State.setLdtr_run (s : State) (l : LdtReg) : (s.setLdtr l).run = s.run := rfl
@[simp] theorem State.setLdtr_latch (s : State) (l : LdtReg) : (s.setLdtr l).latch = s.latch := rfl
@[simp] theorem State.setLdtr_traps (s : State) (l : LdtReg) : (s.setLdtr l).traps = s.traps := rfl
@[simp] theorem State.setLdtr_insn (s : State) (l : LdtReg) : (s.setLdtr l).insn = s.insn := rfl
@[simp] theorem State.setLdtr_pins (s : State) (l : LdtReg) : (s.setLdtr l).pins = s.pins := rfl
@[simp] theorem State.setLdtr_events (s : State) (l : LdtReg) : (s.setLdtr l).events = s.events := rfl
@[simp] theorem State.setLdtr_freeCtr (s : State) (l : LdtReg) : (s.setLdtr l).freeCtr = s.freeCtr := rfl
@[simp] theorem State.setLdtr_mem (s : State) (l : LdtReg) : (s.setLdtr l).mem = s.mem := rfl
@[simp] theorem State.setLdtr_real (s : State) (l : LdtReg) : (s.setLdtr l).real = s.real := rfl
@[simp] theorem State.setLdtr_v86 (s : State) (l : LdtReg) : (s.setLdtr l).v86 = s.v86 := rfl
@[simp] theorem State.setLdtr_prot (s : State) (l : LdtReg) : (s.setLdtr l).prot = s.prot := rfl
@[simp] theorem State.setLdtr_paging (s : State) (l : LdtReg) : (s.setLdtr l).paging = s.paging := rfl

/-! The FPU replaced. -/
@[simp] theorem State.setFpu_gpr (s : State) (f : Fpu) : (s.setFpu f).gpr = s.gpr := rfl
@[simp] theorem State.setFpu_eip (s : State) (f : Fpu) : (s.setFpu f).eip = s.eip := rfl
@[simp] theorem State.setFpu_eflags (s : State) (f : Fpu) : (s.setFpu f).eflags = s.eflags := rfl
@[simp] theorem State.setFpu_seg (s : State) (f : Fpu) : (s.setFpu f).seg = s.seg := rfl
@[simp] theorem State.setFpu_cpl (s : State) (f : Fpu) : (s.setFpu f).cpl = s.cpl := rfl
@[simp] theorem State.setFpu_cr0 (s : State) (f : Fpu) : (s.setFpu f).cr0 = s.cr0 := rfl
@[simp] theorem State.setFpu_cr2 (s : State) (f : Fpu) : (s.setFpu f).cr2 = s.cr2 := rfl
@[simp] theorem State.setFpu_cr3 (s : State) (f : Fpu) : (s.setFpu f).cr3 = s.cr3 := rfl
@[simp] theorem State.setFpu_gdtr (s : State) (f : Fpu) : (s.setFpu f).gdtr = s.gdtr := rfl
@[simp] theorem State.setFpu_idtr (s : State) (f : Fpu) : (s.setFpu f).idtr = s.idtr := rfl
@[simp] theorem State.setFpu_ldtr (s : State) (f : Fpu) : (s.setFpu f).ldtr = s.ldtr := rfl
@[simp] theorem State.setFpu_tr (s : State) (f : Fpu) : (s.setFpu f).tr = s.tr := rfl
@[simp] theorem State.setFpu_dr (s : State) (f : Fpu) : (s.setFpu f).dr = s.dr := rfl
@[simp] theorem State.setFpu_test (s : State) (f : Fpu) : (s.setFpu f).test = s.test := rfl
@[simp] theorem State.setFpu_bufferSpoiled (s : State) (f : Fpu) : (s.setFpu f).bufferSpoiled = s.bufferSpoiled := rfl
@[simp] theorem State.setFpu_fpu (s : State) (f : Fpu) : (s.setFpu f).fpu = f := rfl
@[simp] theorem State.setFpu_cache (s : State) (f : Fpu) : (s.setFpu f).cache = s.cache := rfl
@[simp] theorem State.setFpu_tlb (s : State) (f : Fpu) : (s.setFpu f).tlb = s.tlb := rfl
@[simp] theorem State.setFpu_run (s : State) (f : Fpu) : (s.setFpu f).run = s.run := rfl
@[simp] theorem State.setFpu_latch (s : State) (f : Fpu) : (s.setFpu f).latch = s.latch := rfl
@[simp] theorem State.setFpu_traps (s : State) (f : Fpu) : (s.setFpu f).traps = s.traps := rfl
@[simp] theorem State.setFpu_insn (s : State) (f : Fpu) : (s.setFpu f).insn = s.insn := rfl
@[simp] theorem State.setFpu_pins (s : State) (f : Fpu) : (s.setFpu f).pins = s.pins := rfl
@[simp] theorem State.setFpu_events (s : State) (f : Fpu) : (s.setFpu f).events = s.events := rfl
@[simp] theorem State.setFpu_freeCtr (s : State) (f : Fpu) : (s.setFpu f).freeCtr = s.freeCtr := rfl
@[simp] theorem State.setFpu_mem (s : State) (f : Fpu) : (s.setFpu f).mem = s.mem := rfl
@[simp] theorem State.setFpu_real (s : State) (f : Fpu) : (s.setFpu f).real = s.real := rfl
@[simp] theorem State.setFpu_v86 (s : State) (f : Fpu) : (s.setFpu f).v86 = s.v86 := rfl
@[simp] theorem State.setFpu_prot (s : State) (f : Fpu) : (s.setFpu f).prot = s.prot := rfl
@[simp] theorem State.setFpu_paging (s : State) (f : Fpu) : (s.setFpu f).paging = s.paging := rfl

/-! The FPU changed. -/
@[simp] theorem State.onFpu_gpr (s : State) (g : Fpu → Fpu) : (s.onFpu g).gpr = s.gpr := rfl
@[simp] theorem State.onFpu_eip (s : State) (g : Fpu → Fpu) : (s.onFpu g).eip = s.eip := rfl
@[simp] theorem State.onFpu_eflags (s : State) (g : Fpu → Fpu) : (s.onFpu g).eflags = s.eflags := rfl
@[simp] theorem State.onFpu_seg (s : State) (g : Fpu → Fpu) : (s.onFpu g).seg = s.seg := rfl
@[simp] theorem State.onFpu_cpl (s : State) (g : Fpu → Fpu) : (s.onFpu g).cpl = s.cpl := rfl
@[simp] theorem State.onFpu_cr0 (s : State) (g : Fpu → Fpu) : (s.onFpu g).cr0 = s.cr0 := rfl
@[simp] theorem State.onFpu_cr2 (s : State) (g : Fpu → Fpu) : (s.onFpu g).cr2 = s.cr2 := rfl
@[simp] theorem State.onFpu_cr3 (s : State) (g : Fpu → Fpu) : (s.onFpu g).cr3 = s.cr3 := rfl
@[simp] theorem State.onFpu_gdtr (s : State) (g : Fpu → Fpu) : (s.onFpu g).gdtr = s.gdtr := rfl
@[simp] theorem State.onFpu_idtr (s : State) (g : Fpu → Fpu) : (s.onFpu g).idtr = s.idtr := rfl
@[simp] theorem State.onFpu_ldtr (s : State) (g : Fpu → Fpu) : (s.onFpu g).ldtr = s.ldtr := rfl
@[simp] theorem State.onFpu_tr (s : State) (g : Fpu → Fpu) : (s.onFpu g).tr = s.tr := rfl
@[simp] theorem State.onFpu_dr (s : State) (g : Fpu → Fpu) : (s.onFpu g).dr = s.dr := rfl
@[simp] theorem State.onFpu_test (s : State) (g : Fpu → Fpu) : (s.onFpu g).test = s.test := rfl
@[simp] theorem State.onFpu_bufferSpoiled (s : State) (g : Fpu → Fpu) : (s.onFpu g).bufferSpoiled = s.bufferSpoiled := rfl
@[simp] theorem State.onFpu_fpu (s : State) (g : Fpu → Fpu) : (s.onFpu g).fpu = g s.fpu := rfl
@[simp] theorem State.onFpu_cache (s : State) (g : Fpu → Fpu) : (s.onFpu g).cache = s.cache := rfl
@[simp] theorem State.onFpu_tlb (s : State) (g : Fpu → Fpu) : (s.onFpu g).tlb = s.tlb := rfl
@[simp] theorem State.onFpu_run (s : State) (g : Fpu → Fpu) : (s.onFpu g).run = s.run := rfl
@[simp] theorem State.onFpu_latch (s : State) (g : Fpu → Fpu) : (s.onFpu g).latch = s.latch := rfl
@[simp] theorem State.onFpu_traps (s : State) (g : Fpu → Fpu) : (s.onFpu g).traps = s.traps := rfl
@[simp] theorem State.onFpu_insn (s : State) (g : Fpu → Fpu) : (s.onFpu g).insn = s.insn := rfl
@[simp] theorem State.onFpu_pins (s : State) (g : Fpu → Fpu) : (s.onFpu g).pins = s.pins := rfl
@[simp] theorem State.onFpu_events (s : State) (g : Fpu → Fpu) : (s.onFpu g).events = s.events := rfl
@[simp] theorem State.onFpu_freeCtr (s : State) (g : Fpu → Fpu) : (s.onFpu g).freeCtr = s.freeCtr := rfl
@[simp] theorem State.onFpu_mem (s : State) (g : Fpu → Fpu) : (s.onFpu g).mem = s.mem := rfl
@[simp] theorem State.onFpu_real (s : State) (g : Fpu → Fpu) : (s.onFpu g).real = s.real := rfl
@[simp] theorem State.onFpu_v86 (s : State) (g : Fpu → Fpu) : (s.onFpu g).v86 = s.v86 := rfl
@[simp] theorem State.onFpu_prot (s : State) (g : Fpu → Fpu) : (s.onFpu g).prot = s.prot := rfl
@[simp] theorem State.onFpu_paging (s : State) (g : Fpu → Fpu) : (s.onFpu g).paging = s.paging := rfl

/-! The test registers replaced. -/
@[simp] theorem State.setTest_gpr (s : State) (x : TestRegs) : (s.setTest x).gpr = s.gpr := rfl
@[simp] theorem State.setTest_eip (s : State) (x : TestRegs) : (s.setTest x).eip = s.eip := rfl
@[simp] theorem State.setTest_eflags (s : State) (x : TestRegs) : (s.setTest x).eflags = s.eflags := rfl
@[simp] theorem State.setTest_seg (s : State) (x : TestRegs) : (s.setTest x).seg = s.seg := rfl
@[simp] theorem State.setTest_cpl (s : State) (x : TestRegs) : (s.setTest x).cpl = s.cpl := rfl
@[simp] theorem State.setTest_cr0 (s : State) (x : TestRegs) : (s.setTest x).cr0 = s.cr0 := rfl
@[simp] theorem State.setTest_cr2 (s : State) (x : TestRegs) : (s.setTest x).cr2 = s.cr2 := rfl
@[simp] theorem State.setTest_cr3 (s : State) (x : TestRegs) : (s.setTest x).cr3 = s.cr3 := rfl
@[simp] theorem State.setTest_gdtr (s : State) (x : TestRegs) : (s.setTest x).gdtr = s.gdtr := rfl
@[simp] theorem State.setTest_idtr (s : State) (x : TestRegs) : (s.setTest x).idtr = s.idtr := rfl
@[simp] theorem State.setTest_ldtr (s : State) (x : TestRegs) : (s.setTest x).ldtr = s.ldtr := rfl
@[simp] theorem State.setTest_tr (s : State) (x : TestRegs) : (s.setTest x).tr = s.tr := rfl
@[simp] theorem State.setTest_dr (s : State) (x : TestRegs) : (s.setTest x).dr = s.dr := rfl
@[simp] theorem State.setTest_test (s : State) (x : TestRegs) : (s.setTest x).test = x := rfl
@[simp] theorem State.setTest_bufferSpoiled (s : State) (x : TestRegs) : (s.setTest x).bufferSpoiled = s.bufferSpoiled := rfl
@[simp] theorem State.setTest_fpu (s : State) (x : TestRegs) : (s.setTest x).fpu = s.fpu := rfl
@[simp] theorem State.setTest_cache (s : State) (x : TestRegs) : (s.setTest x).cache = s.cache := rfl
@[simp] theorem State.setTest_tlb (s : State) (x : TestRegs) : (s.setTest x).tlb = s.tlb := rfl
@[simp] theorem State.setTest_run (s : State) (x : TestRegs) : (s.setTest x).run = s.run := rfl
@[simp] theorem State.setTest_latch (s : State) (x : TestRegs) : (s.setTest x).latch = s.latch := rfl
@[simp] theorem State.setTest_traps (s : State) (x : TestRegs) : (s.setTest x).traps = s.traps := rfl
@[simp] theorem State.setTest_insn (s : State) (x : TestRegs) : (s.setTest x).insn = s.insn := rfl
@[simp] theorem State.setTest_pins (s : State) (x : TestRegs) : (s.setTest x).pins = s.pins := rfl
@[simp] theorem State.setTest_events (s : State) (x : TestRegs) : (s.setTest x).events = s.events := rfl
@[simp] theorem State.setTest_freeCtr (s : State) (x : TestRegs) : (s.setTest x).freeCtr = s.freeCtr := rfl
@[simp] theorem State.setTest_mem (s : State) (x : TestRegs) : (s.setTest x).mem = s.mem := rfl
@[simp] theorem State.setTest_real (s : State) (x : TestRegs) : (s.setTest x).real = s.real := rfl
@[simp] theorem State.setTest_v86 (s : State) (x : TestRegs) : (s.setTest x).v86 = s.v86 := rfl
@[simp] theorem State.setTest_prot (s : State) (x : TestRegs) : (s.setTest x).prot = s.prot := rfl
@[simp] theorem State.setTest_paging (s : State) (x : TestRegs) : (s.setTest x).paging = s.paging := rfl

/-! One cache set replaced. -/
@[simp] theorem State.putCacheSet_gpr (s : State) (i : Nat) (c : CacheSet) : (s.putCacheSet i c).gpr = s.gpr := rfl
@[simp] theorem State.putCacheSet_eip (s : State) (i : Nat) (c : CacheSet) : (s.putCacheSet i c).eip = s.eip := rfl
@[simp] theorem State.putCacheSet_eflags (s : State) (i : Nat) (c : CacheSet) : (s.putCacheSet i c).eflags = s.eflags := rfl
@[simp] theorem State.putCacheSet_seg (s : State) (i : Nat) (c : CacheSet) : (s.putCacheSet i c).seg = s.seg := rfl
@[simp] theorem State.putCacheSet_cpl (s : State) (i : Nat) (c : CacheSet) : (s.putCacheSet i c).cpl = s.cpl := rfl
@[simp] theorem State.putCacheSet_cr0 (s : State) (i : Nat) (c : CacheSet) : (s.putCacheSet i c).cr0 = s.cr0 := rfl
@[simp] theorem State.putCacheSet_cr2 (s : State) (i : Nat) (c : CacheSet) : (s.putCacheSet i c).cr2 = s.cr2 := rfl
@[simp] theorem State.putCacheSet_cr3 (s : State) (i : Nat) (c : CacheSet) : (s.putCacheSet i c).cr3 = s.cr3 := rfl
@[simp] theorem State.putCacheSet_gdtr (s : State) (i : Nat) (c : CacheSet) : (s.putCacheSet i c).gdtr = s.gdtr := rfl
@[simp] theorem State.putCacheSet_idtr (s : State) (i : Nat) (c : CacheSet) : (s.putCacheSet i c).idtr = s.idtr := rfl
@[simp] theorem State.putCacheSet_ldtr (s : State) (i : Nat) (c : CacheSet) : (s.putCacheSet i c).ldtr = s.ldtr := rfl
@[simp] theorem State.putCacheSet_tr (s : State) (i : Nat) (c : CacheSet) : (s.putCacheSet i c).tr = s.tr := rfl
@[simp] theorem State.putCacheSet_dr (s : State) (i : Nat) (c : CacheSet) : (s.putCacheSet i c).dr = s.dr := rfl
@[simp] theorem State.putCacheSet_test (s : State) (i : Nat) (c : CacheSet) : (s.putCacheSet i c).test = s.test := rfl
@[simp] theorem State.putCacheSet_bufferSpoiled (s : State) (i : Nat) (c : CacheSet) : (s.putCacheSet i c).bufferSpoiled = s.bufferSpoiled := rfl
@[simp] theorem State.putCacheSet_fpu (s : State) (i : Nat) (c : CacheSet) : (s.putCacheSet i c).fpu = s.fpu := rfl
@[simp] theorem State.putCacheSet_cache (s : State) (i : Nat) (c : CacheSet) : (s.putCacheSet i c).cache = sparseSet s.cache i c := rfl
@[simp] theorem State.putCacheSet_tlb (s : State) (i : Nat) (c : CacheSet) : (s.putCacheSet i c).tlb = s.tlb := rfl
@[simp] theorem State.putCacheSet_run (s : State) (i : Nat) (c : CacheSet) : (s.putCacheSet i c).run = s.run := rfl
@[simp] theorem State.putCacheSet_latch (s : State) (i : Nat) (c : CacheSet) : (s.putCacheSet i c).latch = s.latch := rfl
@[simp] theorem State.putCacheSet_traps (s : State) (i : Nat) (c : CacheSet) : (s.putCacheSet i c).traps = s.traps := rfl
@[simp] theorem State.putCacheSet_insn (s : State) (i : Nat) (c : CacheSet) : (s.putCacheSet i c).insn = s.insn := rfl
@[simp] theorem State.putCacheSet_pins (s : State) (i : Nat) (c : CacheSet) : (s.putCacheSet i c).pins = s.pins := rfl
@[simp] theorem State.putCacheSet_events (s : State) (i : Nat) (c : CacheSet) : (s.putCacheSet i c).events = s.events := rfl
@[simp] theorem State.putCacheSet_freeCtr (s : State) (i : Nat) (c : CacheSet) : (s.putCacheSet i c).freeCtr = s.freeCtr := rfl
@[simp] theorem State.putCacheSet_mem (s : State) (i : Nat) (c : CacheSet) : (s.putCacheSet i c).mem = s.mem := rfl
@[simp] theorem State.putCacheSet_real (s : State) (i : Nat) (c : CacheSet) : (s.putCacheSet i c).real = s.real := rfl
@[simp] theorem State.putCacheSet_v86 (s : State) (i : Nat) (c : CacheSet) : (s.putCacheSet i c).v86 = s.v86 := rfl
@[simp] theorem State.putCacheSet_prot (s : State) (i : Nat) (c : CacheSet) : (s.putCacheSet i c).prot = s.prot := rfl
@[simp] theorem State.putCacheSet_paging (s : State) (i : Nat) (c : CacheSet) : (s.putCacheSet i c).paging = s.paging := rfl

/-! One TLB set replaced. -/
@[simp] theorem State.putTlbSet_gpr (s : State) (i : Nat) (c : TlbSet) : (s.putTlbSet i c).gpr = s.gpr := rfl
@[simp] theorem State.putTlbSet_eip (s : State) (i : Nat) (c : TlbSet) : (s.putTlbSet i c).eip = s.eip := rfl
@[simp] theorem State.putTlbSet_eflags (s : State) (i : Nat) (c : TlbSet) : (s.putTlbSet i c).eflags = s.eflags := rfl
@[simp] theorem State.putTlbSet_seg (s : State) (i : Nat) (c : TlbSet) : (s.putTlbSet i c).seg = s.seg := rfl
@[simp] theorem State.putTlbSet_cpl (s : State) (i : Nat) (c : TlbSet) : (s.putTlbSet i c).cpl = s.cpl := rfl
@[simp] theorem State.putTlbSet_cr0 (s : State) (i : Nat) (c : TlbSet) : (s.putTlbSet i c).cr0 = s.cr0 := rfl
@[simp] theorem State.putTlbSet_cr2 (s : State) (i : Nat) (c : TlbSet) : (s.putTlbSet i c).cr2 = s.cr2 := rfl
@[simp] theorem State.putTlbSet_cr3 (s : State) (i : Nat) (c : TlbSet) : (s.putTlbSet i c).cr3 = s.cr3 := rfl
@[simp] theorem State.putTlbSet_gdtr (s : State) (i : Nat) (c : TlbSet) : (s.putTlbSet i c).gdtr = s.gdtr := rfl
@[simp] theorem State.putTlbSet_idtr (s : State) (i : Nat) (c : TlbSet) : (s.putTlbSet i c).idtr = s.idtr := rfl
@[simp] theorem State.putTlbSet_ldtr (s : State) (i : Nat) (c : TlbSet) : (s.putTlbSet i c).ldtr = s.ldtr := rfl
@[simp] theorem State.putTlbSet_tr (s : State) (i : Nat) (c : TlbSet) : (s.putTlbSet i c).tr = s.tr := rfl
@[simp] theorem State.putTlbSet_dr (s : State) (i : Nat) (c : TlbSet) : (s.putTlbSet i c).dr = s.dr := rfl
@[simp] theorem State.putTlbSet_test (s : State) (i : Nat) (c : TlbSet) : (s.putTlbSet i c).test = s.test := rfl
@[simp] theorem State.putTlbSet_bufferSpoiled (s : State) (i : Nat) (c : TlbSet) : (s.putTlbSet i c).bufferSpoiled = s.bufferSpoiled := rfl
@[simp] theorem State.putTlbSet_fpu (s : State) (i : Nat) (c : TlbSet) : (s.putTlbSet i c).fpu = s.fpu := rfl
@[simp] theorem State.putTlbSet_cache (s : State) (i : Nat) (c : TlbSet) : (s.putTlbSet i c).cache = s.cache := rfl
@[simp] theorem State.putTlbSet_tlb (s : State) (i : Nat) (c : TlbSet) : (s.putTlbSet i c).tlb = sparseSet s.tlb i c := rfl
@[simp] theorem State.putTlbSet_run (s : State) (i : Nat) (c : TlbSet) : (s.putTlbSet i c).run = s.run := rfl
@[simp] theorem State.putTlbSet_latch (s : State) (i : Nat) (c : TlbSet) : (s.putTlbSet i c).latch = s.latch := rfl
@[simp] theorem State.putTlbSet_traps (s : State) (i : Nat) (c : TlbSet) : (s.putTlbSet i c).traps = s.traps := rfl
@[simp] theorem State.putTlbSet_insn (s : State) (i : Nat) (c : TlbSet) : (s.putTlbSet i c).insn = s.insn := rfl
@[simp] theorem State.putTlbSet_pins (s : State) (i : Nat) (c : TlbSet) : (s.putTlbSet i c).pins = s.pins := rfl
@[simp] theorem State.putTlbSet_events (s : State) (i : Nat) (c : TlbSet) : (s.putTlbSet i c).events = s.events := rfl
@[simp] theorem State.putTlbSet_freeCtr (s : State) (i : Nat) (c : TlbSet) : (s.putTlbSet i c).freeCtr = s.freeCtr := rfl
@[simp] theorem State.putTlbSet_mem (s : State) (i : Nat) (c : TlbSet) : (s.putTlbSet i c).mem = s.mem := rfl
@[simp] theorem State.putTlbSet_real (s : State) (i : Nat) (c : TlbSet) : (s.putTlbSet i c).real = s.real := rfl
@[simp] theorem State.putTlbSet_v86 (s : State) (i : Nat) (c : TlbSet) : (s.putTlbSet i c).v86 = s.v86 := rfl
@[simp] theorem State.putTlbSet_prot (s : State) (i : Nat) (c : TlbSet) : (s.putTlbSet i c).prot = s.prot := rfl
@[simp] theorem State.putTlbSet_paging (s : State) (i : Nat) (c : TlbSet) : (s.putTlbSet i c).paging = s.paging := rfl

/-! The TLB flushed. -/
@[simp] theorem State.flushTlb_gpr (s : State) : (s.flushTlb).gpr = s.gpr := rfl
@[simp] theorem State.flushTlb_eip (s : State) : (s.flushTlb).eip = s.eip := rfl
@[simp] theorem State.flushTlb_eflags (s : State) : (s.flushTlb).eflags = s.eflags := rfl
@[simp] theorem State.flushTlb_seg (s : State) : (s.flushTlb).seg = s.seg := rfl
@[simp] theorem State.flushTlb_cpl (s : State) : (s.flushTlb).cpl = s.cpl := rfl
@[simp] theorem State.flushTlb_cr0 (s : State) : (s.flushTlb).cr0 = s.cr0 := rfl
@[simp] theorem State.flushTlb_cr2 (s : State) : (s.flushTlb).cr2 = s.cr2 := rfl
@[simp] theorem State.flushTlb_cr3 (s : State) : (s.flushTlb).cr3 = s.cr3 := rfl
@[simp] theorem State.flushTlb_gdtr (s : State) : (s.flushTlb).gdtr = s.gdtr := rfl
@[simp] theorem State.flushTlb_idtr (s : State) : (s.flushTlb).idtr = s.idtr := rfl
@[simp] theorem State.flushTlb_ldtr (s : State) : (s.flushTlb).ldtr = s.ldtr := rfl
@[simp] theorem State.flushTlb_tr (s : State) : (s.flushTlb).tr = s.tr := rfl
@[simp] theorem State.flushTlb_dr (s : State) : (s.flushTlb).dr = s.dr := rfl
@[simp] theorem State.flushTlb_test (s : State) : (s.flushTlb).test = s.test := rfl
@[simp] theorem State.flushTlb_bufferSpoiled (s : State) : (s.flushTlb).bufferSpoiled = s.bufferSpoiled := rfl
@[simp] theorem State.flushTlb_fpu (s : State) : (s.flushTlb).fpu = s.fpu := rfl
@[simp] theorem State.flushTlb_cache (s : State) : (s.flushTlb).cache = s.cache := rfl
@[simp] theorem State.flushTlb_tlb (s : State) : (s.flushTlb).tlb = [] := rfl
@[simp] theorem State.flushTlb_run (s : State) : (s.flushTlb).run = s.run := rfl
@[simp] theorem State.flushTlb_latch (s : State) : (s.flushTlb).latch = s.latch := rfl
@[simp] theorem State.flushTlb_traps (s : State) : (s.flushTlb).traps = s.traps := rfl
@[simp] theorem State.flushTlb_insn (s : State) : (s.flushTlb).insn = s.insn := rfl
@[simp] theorem State.flushTlb_pins (s : State) : (s.flushTlb).pins = s.pins := rfl
@[simp] theorem State.flushTlb_events (s : State) : (s.flushTlb).events = s.events := rfl
@[simp] theorem State.flushTlb_freeCtr (s : State) : (s.flushTlb).freeCtr = s.freeCtr := rfl
@[simp] theorem State.flushTlb_mem (s : State) : (s.flushTlb).mem = s.mem := rfl
@[simp] theorem State.flushTlb_real (s : State) : (s.flushTlb).real = s.real := rfl
@[simp] theorem State.flushTlb_v86 (s : State) : (s.flushTlb).v86 = s.v86 := rfl
@[simp] theorem State.flushTlb_prot (s : State) : (s.flushTlb).prot = s.prot := rfl
@[simp] theorem State.flushTlb_paging (s : State) : (s.flushTlb).paging = s.paging := rfl

/-! The latch at rest at an address. -/
@[simp] theorem State.restAt_gpr (s : State) (a : Word32) : (s.restAt a).gpr = s.gpr := rfl
@[simp] theorem State.restAt_eip (s : State) (a : Word32) : (s.restAt a).eip = a := rfl
@[simp] theorem State.restAt_eflags (s : State) (a : Word32) : (s.restAt a).eflags = s.eflags := rfl
@[simp] theorem State.restAt_seg (s : State) (a : Word32) : (s.restAt a).seg = s.seg := rfl
@[simp] theorem State.restAt_cpl (s : State) (a : Word32) : (s.restAt a).cpl = s.cpl := rfl
@[simp] theorem State.restAt_cr0 (s : State) (a : Word32) : (s.restAt a).cr0 = s.cr0 := rfl
@[simp] theorem State.restAt_cr2 (s : State) (a : Word32) : (s.restAt a).cr2 = s.cr2 := rfl
@[simp] theorem State.restAt_cr3 (s : State) (a : Word32) : (s.restAt a).cr3 = s.cr3 := rfl
@[simp] theorem State.restAt_gdtr (s : State) (a : Word32) : (s.restAt a).gdtr = s.gdtr := rfl
@[simp] theorem State.restAt_idtr (s : State) (a : Word32) : (s.restAt a).idtr = s.idtr := rfl
@[simp] theorem State.restAt_ldtr (s : State) (a : Word32) : (s.restAt a).ldtr = s.ldtr := rfl
@[simp] theorem State.restAt_tr (s : State) (a : Word32) : (s.restAt a).tr = s.tr := rfl
@[simp] theorem State.restAt_dr (s : State) (a : Word32) : (s.restAt a).dr = s.dr := rfl
@[simp] theorem State.restAt_test (s : State) (a : Word32) : (s.restAt a).test = s.test := rfl
@[simp] theorem State.restAt_bufferSpoiled (s : State) (a : Word32) : (s.restAt a).bufferSpoiled = s.bufferSpoiled := rfl
@[simp] theorem State.restAt_fpu (s : State) (a : Word32) : (s.restAt a).fpu = s.fpu := rfl
@[simp] theorem State.restAt_cache (s : State) (a : Word32) : (s.restAt a).cache = s.cache := rfl
@[simp] theorem State.restAt_tlb (s : State) (a : Word32) : (s.restAt a).tlb = s.tlb := rfl
@[simp] theorem State.restAt_run (s : State) (a : Word32) : (s.restAt a).run = s.run := rfl
@[simp] theorem State.restAt_latch (s : State) (a : Word32) : (s.restAt a).latch = s.latch := rfl
@[simp] theorem State.restAt_traps (s : State) (a : Word32) : (s.restAt a).traps = s.traps := rfl
@[simp] theorem State.restAt_insn (s : State) (a : Word32) : (s.restAt a).insn = .idle a := rfl
@[simp] theorem State.restAt_pins (s : State) (a : Word32) : (s.restAt a).pins = s.pins := rfl
@[simp] theorem State.restAt_events (s : State) (a : Word32) : (s.restAt a).events = s.events := rfl
@[simp] theorem State.restAt_freeCtr (s : State) (a : Word32) : (s.restAt a).freeCtr = s.freeCtr := rfl
@[simp] theorem State.restAt_mem (s : State) (a : Word32) : (s.restAt a).mem = s.mem := rfl
@[simp] theorem State.restAt_real (s : State) (a : Word32) : (s.restAt a).real = s.real := rfl
@[simp] theorem State.restAt_v86 (s : State) (a : Word32) : (s.restAt a).v86 = s.v86 := rfl
@[simp] theorem State.restAt_prot (s : State) (a : Word32) : (s.restAt a).prot = s.prot := rfl
@[simp] theorem State.restAt_paging (s : State) (a : Word32) : (s.restAt a).paging = s.paging := rfl

/-! The stack pointer moved. -/
@[simp] theorem State.moveSp_gpr (s : State) (k : Word32) : (s.moveSp k).gpr = s.espPlus k := rfl
@[simp] theorem State.moveSp_eip (s : State) (k : Word32) : (s.moveSp k).eip = s.eip := rfl
@[simp] theorem State.moveSp_eflags (s : State) (k : Word32) : (s.moveSp k).eflags = s.eflags := rfl
@[simp] theorem State.moveSp_seg (s : State) (k : Word32) : (s.moveSp k).seg = s.seg := rfl
@[simp] theorem State.moveSp_cpl (s : State) (k : Word32) : (s.moveSp k).cpl = s.cpl := rfl
@[simp] theorem State.moveSp_cr0 (s : State) (k : Word32) : (s.moveSp k).cr0 = s.cr0 := rfl
@[simp] theorem State.moveSp_cr2 (s : State) (k : Word32) : (s.moveSp k).cr2 = s.cr2 := rfl
@[simp] theorem State.moveSp_cr3 (s : State) (k : Word32) : (s.moveSp k).cr3 = s.cr3 := rfl
@[simp] theorem State.moveSp_gdtr (s : State) (k : Word32) : (s.moveSp k).gdtr = s.gdtr := rfl
@[simp] theorem State.moveSp_idtr (s : State) (k : Word32) : (s.moveSp k).idtr = s.idtr := rfl
@[simp] theorem State.moveSp_ldtr (s : State) (k : Word32) : (s.moveSp k).ldtr = s.ldtr := rfl
@[simp] theorem State.moveSp_tr (s : State) (k : Word32) : (s.moveSp k).tr = s.tr := rfl
@[simp] theorem State.moveSp_dr (s : State) (k : Word32) : (s.moveSp k).dr = s.dr := rfl
@[simp] theorem State.moveSp_test (s : State) (k : Word32) : (s.moveSp k).test = s.test := rfl
@[simp] theorem State.moveSp_bufferSpoiled (s : State) (k : Word32) : (s.moveSp k).bufferSpoiled = s.bufferSpoiled := rfl
@[simp] theorem State.moveSp_fpu (s : State) (k : Word32) : (s.moveSp k).fpu = s.fpu := rfl
@[simp] theorem State.moveSp_cache (s : State) (k : Word32) : (s.moveSp k).cache = s.cache := rfl
@[simp] theorem State.moveSp_tlb (s : State) (k : Word32) : (s.moveSp k).tlb = s.tlb := rfl
@[simp] theorem State.moveSp_run (s : State) (k : Word32) : (s.moveSp k).run = s.run := rfl
@[simp] theorem State.moveSp_latch (s : State) (k : Word32) : (s.moveSp k).latch = s.latch := rfl
@[simp] theorem State.moveSp_traps (s : State) (k : Word32) : (s.moveSp k).traps = s.traps := rfl
@[simp] theorem State.moveSp_insn (s : State) (k : Word32) : (s.moveSp k).insn = s.insn := rfl
@[simp] theorem State.moveSp_pins (s : State) (k : Word32) : (s.moveSp k).pins = s.pins := rfl
@[simp] theorem State.moveSp_events (s : State) (k : Word32) : (s.moveSp k).events = s.events := rfl
@[simp] theorem State.moveSp_freeCtr (s : State) (k : Word32) : (s.moveSp k).freeCtr = s.freeCtr := rfl
@[simp] theorem State.moveSp_mem (s : State) (k : Word32) : (s.moveSp k).mem = s.mem := rfl
@[simp] theorem State.moveSp_real (s : State) (k : Word32) : (s.moveSp k).real = s.real := rfl
@[simp] theorem State.moveSp_v86 (s : State) (k : Word32) : (s.moveSp k).v86 = s.v86 := rfl
@[simp] theorem State.moveSp_prot (s : State) (k : Word32) : (s.moveSp k).prot = s.prot := rfl
@[simp] theorem State.moveSp_paging (s : State) (k : Word32) : (s.moveSp k).paging = s.paging := rfl

/-! CR3 replaced. -/
@[simp] theorem State.setCr3_gpr (s : State) (v : Word32) : (s.setCr3 v).gpr = s.gpr := rfl
@[simp] theorem State.setCr3_eip (s : State) (v : Word32) : (s.setCr3 v).eip = s.eip := rfl
@[simp] theorem State.setCr3_eflags (s : State) (v : Word32) : (s.setCr3 v).eflags = s.eflags := rfl
@[simp] theorem State.setCr3_seg (s : State) (v : Word32) : (s.setCr3 v).seg = s.seg := rfl
@[simp] theorem State.setCr3_cpl (s : State) (v : Word32) : (s.setCr3 v).cpl = s.cpl := rfl
@[simp] theorem State.setCr3_cr0 (s : State) (v : Word32) : (s.setCr3 v).cr0 = s.cr0 := rfl
@[simp] theorem State.setCr3_cr2 (s : State) (v : Word32) : (s.setCr3 v).cr2 = s.cr2 := rfl
@[simp] theorem State.setCr3_cr3 (s : State) (v : Word32) : (s.setCr3 v).cr3 = v := rfl
@[simp] theorem State.setCr3_gdtr (s : State) (v : Word32) : (s.setCr3 v).gdtr = s.gdtr := rfl
@[simp] theorem State.setCr3_idtr (s : State) (v : Word32) : (s.setCr3 v).idtr = s.idtr := rfl
@[simp] theorem State.setCr3_ldtr (s : State) (v : Word32) : (s.setCr3 v).ldtr = s.ldtr := rfl
@[simp] theorem State.setCr3_tr (s : State) (v : Word32) : (s.setCr3 v).tr = s.tr := rfl
@[simp] theorem State.setCr3_dr (s : State) (v : Word32) : (s.setCr3 v).dr = s.dr := rfl
@[simp] theorem State.setCr3_test (s : State) (v : Word32) : (s.setCr3 v).test = s.test := rfl
@[simp] theorem State.setCr3_bufferSpoiled (s : State) (v : Word32) : (s.setCr3 v).bufferSpoiled = s.bufferSpoiled := rfl
@[simp] theorem State.setCr3_fpu (s : State) (v : Word32) : (s.setCr3 v).fpu = s.fpu := rfl
@[simp] theorem State.setCr3_cache (s : State) (v : Word32) : (s.setCr3 v).cache = s.cache := rfl
@[simp] theorem State.setCr3_tlb (s : State) (v : Word32) : (s.setCr3 v).tlb = [] := rfl
@[simp] theorem State.setCr3_run (s : State) (v : Word32) : (s.setCr3 v).run = s.run := rfl
@[simp] theorem State.setCr3_latch (s : State) (v : Word32) : (s.setCr3 v).latch = s.latch := rfl
@[simp] theorem State.setCr3_traps (s : State) (v : Word32) : (s.setCr3 v).traps = s.traps := rfl
@[simp] theorem State.setCr3_insn (s : State) (v : Word32) : (s.setCr3 v).insn = s.insn := rfl
@[simp] theorem State.setCr3_pins (s : State) (v : Word32) : (s.setCr3 v).pins = s.pins := rfl
@[simp] theorem State.setCr3_events (s : State) (v : Word32) : (s.setCr3 v).events = s.events := rfl
@[simp] theorem State.setCr3_freeCtr (s : State) (v : Word32) : (s.setCr3 v).freeCtr = s.freeCtr := rfl
@[simp] theorem State.setCr3_mem (s : State) (v : Word32) : (s.setCr3 v).mem = s.mem := rfl
@[simp] theorem State.setCr3_real (s : State) (v : Word32) : (s.setCr3 v).real = s.real := rfl
@[simp] theorem State.setCr3_v86 (s : State) (v : Word32) : (s.setCr3 v).v86 = s.v86 := rfl
@[simp] theorem State.setCr3_prot (s : State) (v : Word32) : (s.setCr3 v).prot = s.prot := rfl
@[simp] theorem State.setCr3_paging (s : State) (v : Word32) : (s.setCr3 v).paging = s.paging := rfl

/-! A data reference made. -/
@[simp] theorem State.refer_gpr (s : State) : (s.refer).gpr = s.gpr := rfl
@[simp] theorem State.refer_eip (s : State) : (s.refer).eip = s.eip := rfl
@[simp] theorem State.refer_eflags (s : State) : (s.refer).eflags = s.eflags := rfl
@[simp] theorem State.refer_seg (s : State) : (s.refer).seg = s.seg := rfl
@[simp] theorem State.refer_cpl (s : State) : (s.refer).cpl = s.cpl := rfl
@[simp] theorem State.refer_cr0 (s : State) : (s.refer).cr0 = s.cr0 := rfl
@[simp] theorem State.refer_cr2 (s : State) : (s.refer).cr2 = s.cr2 := rfl
@[simp] theorem State.refer_cr3 (s : State) : (s.refer).cr3 = s.cr3 := rfl
@[simp] theorem State.refer_gdtr (s : State) : (s.refer).gdtr = s.gdtr := rfl
@[simp] theorem State.refer_idtr (s : State) : (s.refer).idtr = s.idtr := rfl
@[simp] theorem State.refer_ldtr (s : State) : (s.refer).ldtr = s.ldtr := rfl
@[simp] theorem State.refer_tr (s : State) : (s.refer).tr = s.tr := rfl
@[simp] theorem State.refer_dr (s : State) : (s.refer).dr = s.dr := rfl
@[simp] theorem State.refer_test (s : State) : (s.refer).test = s.test := rfl
@[simp] theorem State.refer_bufferSpoiled (s : State) : (s.refer).bufferSpoiled = true := rfl
@[simp] theorem State.refer_fpu (s : State) : (s.refer).fpu = s.fpu := rfl
@[simp] theorem State.refer_cache (s : State) : (s.refer).cache = s.cache := rfl
@[simp] theorem State.refer_tlb (s : State) : (s.refer).tlb = s.tlb := rfl
@[simp] theorem State.refer_run (s : State) : (s.refer).run = s.run := rfl
@[simp] theorem State.refer_latch (s : State) : (s.refer).latch = s.latch := rfl
@[simp] theorem State.refer_traps (s : State) : (s.refer).traps = s.traps := rfl
@[simp] theorem State.refer_insn (s : State) : (s.refer).insn = s.insn := rfl
@[simp] theorem State.refer_pins (s : State) : (s.refer).pins = s.pins := rfl
@[simp] theorem State.refer_events (s : State) : (s.refer).events = s.events := rfl
@[simp] theorem State.refer_freeCtr (s : State) : (s.refer).freeCtr = s.freeCtr := rfl
@[simp] theorem State.refer_mem (s : State) : (s.refer).mem = s.mem := rfl
@[simp] theorem State.refer_real (s : State) : (s.refer).real = s.real := rfl
@[simp] theorem State.refer_v86 (s : State) : (s.refer).v86 = s.v86 := rfl
@[simp] theorem State.refer_prot (s : State) : (s.refer).prot = s.prot := rfl
@[simp] theorem State.refer_paging (s : State) : (s.refer).paging = s.paging := rfl

/-! The stack of a segment and an ESP. -/
@[simp] theorem State.withStack_gpr (s : State) (x : SegReg) (e : Word32) : (s.withStack x e).gpr = { s.gpr with esp := e } := rfl
@[simp] theorem State.withStack_eip (s : State) (x : SegReg) (e : Word32) : (s.withStack x e).eip = s.eip := rfl
@[simp] theorem State.withStack_eflags (s : State) (x : SegReg) (e : Word32) : (s.withStack x e).eflags = s.eflags := rfl
@[simp] theorem State.withStack_seg (s : State) (x : SegReg) (e : Word32) : (s.withStack x e).seg = s.seg.put .ss x := rfl
@[simp] theorem State.withStack_cpl (s : State) (x : SegReg) (e : Word32) : (s.withStack x e).cpl = s.cpl := rfl
@[simp] theorem State.withStack_cr0 (s : State) (x : SegReg) (e : Word32) : (s.withStack x e).cr0 = s.cr0 := rfl
@[simp] theorem State.withStack_cr2 (s : State) (x : SegReg) (e : Word32) : (s.withStack x e).cr2 = s.cr2 := rfl
@[simp] theorem State.withStack_cr3 (s : State) (x : SegReg) (e : Word32) : (s.withStack x e).cr3 = s.cr3 := rfl
@[simp] theorem State.withStack_gdtr (s : State) (x : SegReg) (e : Word32) : (s.withStack x e).gdtr = s.gdtr := rfl
@[simp] theorem State.withStack_idtr (s : State) (x : SegReg) (e : Word32) : (s.withStack x e).idtr = s.idtr := rfl
@[simp] theorem State.withStack_ldtr (s : State) (x : SegReg) (e : Word32) : (s.withStack x e).ldtr = s.ldtr := rfl
@[simp] theorem State.withStack_tr (s : State) (x : SegReg) (e : Word32) : (s.withStack x e).tr = s.tr := rfl
@[simp] theorem State.withStack_dr (s : State) (x : SegReg) (e : Word32) : (s.withStack x e).dr = s.dr := rfl
@[simp] theorem State.withStack_test (s : State) (x : SegReg) (e : Word32) : (s.withStack x e).test = s.test := rfl
@[simp] theorem State.withStack_bufferSpoiled (s : State) (x : SegReg) (e : Word32) : (s.withStack x e).bufferSpoiled = s.bufferSpoiled := rfl
@[simp] theorem State.withStack_fpu (s : State) (x : SegReg) (e : Word32) : (s.withStack x e).fpu = s.fpu := rfl
@[simp] theorem State.withStack_cache (s : State) (x : SegReg) (e : Word32) : (s.withStack x e).cache = s.cache := rfl
@[simp] theorem State.withStack_tlb (s : State) (x : SegReg) (e : Word32) : (s.withStack x e).tlb = s.tlb := rfl
@[simp] theorem State.withStack_run (s : State) (x : SegReg) (e : Word32) : (s.withStack x e).run = s.run := rfl
@[simp] theorem State.withStack_latch (s : State) (x : SegReg) (e : Word32) : (s.withStack x e).latch = s.latch := rfl
@[simp] theorem State.withStack_traps (s : State) (x : SegReg) (e : Word32) : (s.withStack x e).traps = s.traps := rfl
@[simp] theorem State.withStack_insn (s : State) (x : SegReg) (e : Word32) : (s.withStack x e).insn = s.insn := rfl
@[simp] theorem State.withStack_pins (s : State) (x : SegReg) (e : Word32) : (s.withStack x e).pins = s.pins := rfl
@[simp] theorem State.withStack_events (s : State) (x : SegReg) (e : Word32) : (s.withStack x e).events = s.events := rfl
@[simp] theorem State.withStack_freeCtr (s : State) (x : SegReg) (e : Word32) : (s.withStack x e).freeCtr = s.freeCtr := rfl
@[simp] theorem State.withStack_mem (s : State) (x : SegReg) (e : Word32) : (s.withStack x e).mem = s.mem := rfl
@[simp] theorem State.withStack_real (s : State) (x : SegReg) (e : Word32) : (s.withStack x e).real = s.real := rfl
@[simp] theorem State.withStack_v86 (s : State) (x : SegReg) (e : Word32) : (s.withStack x e).v86 = s.v86 := rfl
@[simp] theorem State.withStack_prot (s : State) (x : SegReg) (e : Word32) : (s.withStack x e).prot = s.prot := rfl
@[simp] theorem State.withStack_paging (s : State) (x : SegReg) (e : Word32) : (s.withStack x e).paging = s.paging := rfl

/-! The stack switched. -/
@[simp] theorem State.onStack_gpr (s : State) (ns : Word16) (nsp : Word32) (d : Desc) : (s.onStack ns nsp d).gpr = { s.gpr with esp := d.stackSize.merge s.gpr.esp nsp } := rfl
@[simp] theorem State.onStack_eip (s : State) (ns : Word16) (nsp : Word32) (d : Desc) : (s.onStack ns nsp d).eip = s.eip := rfl
@[simp] theorem State.onStack_eflags (s : State) (ns : Word16) (nsp : Word32) (d : Desc) : (s.onStack ns nsp d).eflags = s.eflags := rfl
@[simp] theorem State.onStack_seg (s : State) (ns : Word16) (nsp : Word32) (d : Desc) : (s.onStack ns nsp d).seg = s.seg.put .ss (d.toSeg ns) := rfl
@[simp] theorem State.onStack_cpl (s : State) (ns : Word16) (nsp : Word32) (d : Desc) : (s.onStack ns nsp d).cpl = s.cpl := rfl
@[simp] theorem State.onStack_cr0 (s : State) (ns : Word16) (nsp : Word32) (d : Desc) : (s.onStack ns nsp d).cr0 = s.cr0 := rfl
@[simp] theorem State.onStack_cr2 (s : State) (ns : Word16) (nsp : Word32) (d : Desc) : (s.onStack ns nsp d).cr2 = s.cr2 := rfl
@[simp] theorem State.onStack_cr3 (s : State) (ns : Word16) (nsp : Word32) (d : Desc) : (s.onStack ns nsp d).cr3 = s.cr3 := rfl
@[simp] theorem State.onStack_gdtr (s : State) (ns : Word16) (nsp : Word32) (d : Desc) : (s.onStack ns nsp d).gdtr = s.gdtr := rfl
@[simp] theorem State.onStack_idtr (s : State) (ns : Word16) (nsp : Word32) (d : Desc) : (s.onStack ns nsp d).idtr = s.idtr := rfl
@[simp] theorem State.onStack_ldtr (s : State) (ns : Word16) (nsp : Word32) (d : Desc) : (s.onStack ns nsp d).ldtr = s.ldtr := rfl
@[simp] theorem State.onStack_tr (s : State) (ns : Word16) (nsp : Word32) (d : Desc) : (s.onStack ns nsp d).tr = s.tr := rfl
@[simp] theorem State.onStack_dr (s : State) (ns : Word16) (nsp : Word32) (d : Desc) : (s.onStack ns nsp d).dr = s.dr := rfl
@[simp] theorem State.onStack_test (s : State) (ns : Word16) (nsp : Word32) (d : Desc) : (s.onStack ns nsp d).test = s.test := rfl
@[simp] theorem State.onStack_bufferSpoiled (s : State) (ns : Word16) (nsp : Word32) (d : Desc) : (s.onStack ns nsp d).bufferSpoiled = s.bufferSpoiled := rfl
@[simp] theorem State.onStack_fpu (s : State) (ns : Word16) (nsp : Word32) (d : Desc) : (s.onStack ns nsp d).fpu = s.fpu := rfl
@[simp] theorem State.onStack_cache (s : State) (ns : Word16) (nsp : Word32) (d : Desc) : (s.onStack ns nsp d).cache = s.cache := rfl
@[simp] theorem State.onStack_tlb (s : State) (ns : Word16) (nsp : Word32) (d : Desc) : (s.onStack ns nsp d).tlb = s.tlb := rfl
@[simp] theorem State.onStack_run (s : State) (ns : Word16) (nsp : Word32) (d : Desc) : (s.onStack ns nsp d).run = s.run := rfl
@[simp] theorem State.onStack_latch (s : State) (ns : Word16) (nsp : Word32) (d : Desc) : (s.onStack ns nsp d).latch = s.latch := rfl
@[simp] theorem State.onStack_traps (s : State) (ns : Word16) (nsp : Word32) (d : Desc) : (s.onStack ns nsp d).traps = s.traps := rfl
@[simp] theorem State.onStack_insn (s : State) (ns : Word16) (nsp : Word32) (d : Desc) : (s.onStack ns nsp d).insn = s.insn := rfl
@[simp] theorem State.onStack_pins (s : State) (ns : Word16) (nsp : Word32) (d : Desc) : (s.onStack ns nsp d).pins = s.pins := rfl
@[simp] theorem State.onStack_events (s : State) (ns : Word16) (nsp : Word32) (d : Desc) : (s.onStack ns nsp d).events = s.events := rfl
@[simp] theorem State.onStack_freeCtr (s : State) (ns : Word16) (nsp : Word32) (d : Desc) : (s.onStack ns nsp d).freeCtr = s.freeCtr := rfl
@[simp] theorem State.onStack_mem (s : State) (ns : Word16) (nsp : Word32) (d : Desc) : (s.onStack ns nsp d).mem = s.mem := rfl
@[simp] theorem State.onStack_real (s : State) (ns : Word16) (nsp : Word32) (d : Desc) : (s.onStack ns nsp d).real = s.real := rfl
@[simp] theorem State.onStack_v86 (s : State) (ns : Word16) (nsp : Word32) (d : Desc) : (s.onStack ns nsp d).v86 = s.v86 := rfl
@[simp] theorem State.onStack_prot (s : State) (ns : Word16) (nsp : Word32) (d : Desc) : (s.onStack ns nsp d).prot = s.prot := rfl
@[simp] theorem State.onStack_paging (s : State) (ns : Word16) (nsp : Word32) (d : Desc) : (s.onStack ns nsp d).paging = s.paging := rfl

/-! The stack and the level switched. -/
@[simp] theorem State.enterInner_gpr (s : State) (l : BitVec 2) (ns : Word16) (nsp : Word32) (d : Desc) : (s.enterInner l ns nsp d).gpr = { s.gpr with esp := d.stackSize.merge s.gpr.esp nsp } := rfl
@[simp] theorem State.enterInner_eip (s : State) (l : BitVec 2) (ns : Word16) (nsp : Word32) (d : Desc) : (s.enterInner l ns nsp d).eip = s.eip := rfl
@[simp] theorem State.enterInner_eflags (s : State) (l : BitVec 2) (ns : Word16) (nsp : Word32) (d : Desc) : (s.enterInner l ns nsp d).eflags = s.eflags := rfl
@[simp] theorem State.enterInner_seg (s : State) (l : BitVec 2) (ns : Word16) (nsp : Word32) (d : Desc) : (s.enterInner l ns nsp d).seg = s.seg.put .ss (d.toSeg ns) := rfl
@[simp] theorem State.enterInner_cpl (s : State) (l : BitVec 2) (ns : Word16) (nsp : Word32) (d : Desc) : (s.enterInner l ns nsp d).cpl = l := rfl
@[simp] theorem State.enterInner_cr0 (s : State) (l : BitVec 2) (ns : Word16) (nsp : Word32) (d : Desc) : (s.enterInner l ns nsp d).cr0 = s.cr0 := rfl
@[simp] theorem State.enterInner_cr2 (s : State) (l : BitVec 2) (ns : Word16) (nsp : Word32) (d : Desc) : (s.enterInner l ns nsp d).cr2 = s.cr2 := rfl
@[simp] theorem State.enterInner_cr3 (s : State) (l : BitVec 2) (ns : Word16) (nsp : Word32) (d : Desc) : (s.enterInner l ns nsp d).cr3 = s.cr3 := rfl
@[simp] theorem State.enterInner_gdtr (s : State) (l : BitVec 2) (ns : Word16) (nsp : Word32) (d : Desc) : (s.enterInner l ns nsp d).gdtr = s.gdtr := rfl
@[simp] theorem State.enterInner_idtr (s : State) (l : BitVec 2) (ns : Word16) (nsp : Word32) (d : Desc) : (s.enterInner l ns nsp d).idtr = s.idtr := rfl
@[simp] theorem State.enterInner_ldtr (s : State) (l : BitVec 2) (ns : Word16) (nsp : Word32) (d : Desc) : (s.enterInner l ns nsp d).ldtr = s.ldtr := rfl
@[simp] theorem State.enterInner_tr (s : State) (l : BitVec 2) (ns : Word16) (nsp : Word32) (d : Desc) : (s.enterInner l ns nsp d).tr = s.tr := rfl
@[simp] theorem State.enterInner_dr (s : State) (l : BitVec 2) (ns : Word16) (nsp : Word32) (d : Desc) : (s.enterInner l ns nsp d).dr = s.dr := rfl
@[simp] theorem State.enterInner_test (s : State) (l : BitVec 2) (ns : Word16) (nsp : Word32) (d : Desc) : (s.enterInner l ns nsp d).test = s.test := rfl
@[simp] theorem State.enterInner_bufferSpoiled (s : State) (l : BitVec 2) (ns : Word16) (nsp : Word32) (d : Desc) : (s.enterInner l ns nsp d).bufferSpoiled = s.bufferSpoiled := rfl
@[simp] theorem State.enterInner_fpu (s : State) (l : BitVec 2) (ns : Word16) (nsp : Word32) (d : Desc) : (s.enterInner l ns nsp d).fpu = s.fpu := rfl
@[simp] theorem State.enterInner_cache (s : State) (l : BitVec 2) (ns : Word16) (nsp : Word32) (d : Desc) : (s.enterInner l ns nsp d).cache = s.cache := rfl
@[simp] theorem State.enterInner_tlb (s : State) (l : BitVec 2) (ns : Word16) (nsp : Word32) (d : Desc) : (s.enterInner l ns nsp d).tlb = s.tlb := rfl
@[simp] theorem State.enterInner_run (s : State) (l : BitVec 2) (ns : Word16) (nsp : Word32) (d : Desc) : (s.enterInner l ns nsp d).run = s.run := rfl
@[simp] theorem State.enterInner_latch (s : State) (l : BitVec 2) (ns : Word16) (nsp : Word32) (d : Desc) : (s.enterInner l ns nsp d).latch = s.latch := rfl
@[simp] theorem State.enterInner_traps (s : State) (l : BitVec 2) (ns : Word16) (nsp : Word32) (d : Desc) : (s.enterInner l ns nsp d).traps = s.traps := rfl
@[simp] theorem State.enterInner_insn (s : State) (l : BitVec 2) (ns : Word16) (nsp : Word32) (d : Desc) : (s.enterInner l ns nsp d).insn = s.insn := rfl
@[simp] theorem State.enterInner_pins (s : State) (l : BitVec 2) (ns : Word16) (nsp : Word32) (d : Desc) : (s.enterInner l ns nsp d).pins = s.pins := rfl
@[simp] theorem State.enterInner_events (s : State) (l : BitVec 2) (ns : Word16) (nsp : Word32) (d : Desc) : (s.enterInner l ns nsp d).events = s.events := rfl
@[simp] theorem State.enterInner_freeCtr (s : State) (l : BitVec 2) (ns : Word16) (nsp : Word32) (d : Desc) : (s.enterInner l ns nsp d).freeCtr = s.freeCtr := rfl
@[simp] theorem State.enterInner_mem (s : State) (l : BitVec 2) (ns : Word16) (nsp : Word32) (d : Desc) : (s.enterInner l ns nsp d).mem = s.mem := rfl
@[simp] theorem State.enterInner_real (s : State) (l : BitVec 2) (ns : Word16) (nsp : Word32) (d : Desc) : (s.enterInner l ns nsp d).real = s.real := rfl
@[simp] theorem State.enterInner_v86 (s : State) (l : BitVec 2) (ns : Word16) (nsp : Word32) (d : Desc) : (s.enterInner l ns nsp d).v86 = s.v86 := rfl
@[simp] theorem State.enterInner_prot (s : State) (l : BitVec 2) (ns : Word16) (nsp : Word32) (d : Desc) : (s.enterInner l ns nsp d).prot = s.prot := rfl
@[simp] theorem State.enterInner_paging (s : State) (l : BitVec 2) (ns : Word16) (nsp : Word32) (d : Desc) : (s.enterInner l ns nsp d).paging = s.paging := rfl

/-! Registers. -/
@[simp] theorem Gprs.get_put (g : Gprs) (r : Reg) (v : Word32) : (g.put r v).get r = v := by cases r <;> rfl
theorem Gprs.get_put_ne (g : Gprs) {r q : Reg} (v : Word32) (h : q ≠ r) : (g.put r v).get q = g.get q := by
  cases r <;> cases q <;> first | rfl | exact absurd rfl h
@[simp] theorem Gprs.put_get (g : Gprs) (r : Reg) : g.put r (g.get r) = g := by cases r <;> rfl
@[simp] theorem Gprs.put_put (g : Gprs) (r : Reg) (u v : Word32) : (g.put r u).put r v = g.put r v := by cases r <;> rfl
@[simp] theorem Segs.get_put (x : Segs) (r : SReg) (v : SegReg) : (x.put r v).get r = v := by cases r <;> rfl
theorem Segs.get_put_ne (x : Segs) {r q : SReg} (v : SegReg) (h : q ≠ r) : (x.put r v).get q = x.get q := by
  cases r <;> cases q <;> first | rfl | exact absurd rfl h
@[simp] theorem Segs.put_get (x : Segs) (r : SReg) : x.put r (x.get r) = x := by cases r <;> rfl
@[simp] theorem Segs.put_put (x : Segs) (r : SReg) (u v : SegReg) : (x.put r u).put r v = x.put r v := by cases r <;> rfl
/-- A register operand read after it is written. -/
@[simp] theorem Gprs.read_write (g : Gprs) (w : Width) (r : Reg) (v : BitVec w.bits) : (g.write w r v).read w r = v := by
  cases w
  · show ((g.put r.byteHome _).get r.byteHome).extractLsb' _ 8 = v
    rw [Gprs.get_put]
    cases r.isHigh <;> ext i hi
    · have h8 : i < 8 := hi
      simp only [Bool.false_eq_true, if_false, BitVec.getElem_extractLsb', BitVec.getLsbD_append, BitVec.getLsbD_extractLsb']
      simp [h8]
    · have h8 : i < 8 := hi
      have e : ¬ 8 + i < 8 := by omega
      have e2 : 8 + i - 8 = i := by omega
      simp only [if_true, BitVec.getElem_extractLsb', BitVec.getLsbD_append, BitVec.getLsbD_extractLsb']
      simp [h8, e, e2]
  · show ((g.put r _).get r).setWidth 16 = v
    rw [Gprs.get_put]
    ext i hi
    have h16 : i < 16 := hi
    rw [BitVec.getElem_setWidth, BitVec.getLsbD_append]
    simp [h16]
  · show (g.put r v).get r = v
    rw [Gprs.get_put]

end Sys2Proof.Machine
end

