-- ==== Sys2Proof/Laws/Track.lean ====
section
/-!
SUPPORT. Following a meaning from access to access: `Upto X t l` says that the state reached is the explicit state `X`, as
far as registers go, with the stores `l` held back. One lemma for each operation that changes something.
-/
namespace Sys2Proof.Machine
open Sys2Proof

/-- The state `t` is `X` but for memory, cache, TLB, the mark of a data reference, the draw counter, the matched breakpoints and
the stores held back; with paging off memory is that of `X` and the stores made are `l`; paging on or off, `l` are the stores made
on a way from `X`. -/
structure Upto (X t : State) (l : List Store) : Prop where
  eqn : t = { X with mem := t.mem, cache := t.cache, tlb := t.tlb, bufferSpoiled := t.bufferSpoiled, freeCtr := t.freeCtr
                     insn := { X.insn with hits := t.insn.hits, stores := t.insn.stores } }
  mem : X.paging = false → t.mem = X.mem
  stores : X.paging = false → t.insn.stores = heldAll X.pins l X.insn.stores
  via : ∃ ps, Via X l [] ps t

namespace Upto

theorem refl (s : State) : Upto s s [] := ⟨rfl, fun _ => rfl, fun _ => rfl, [], .start⟩

variable {X t u : State} {l : List Store}

theorem gpr (h : Upto X t l) : t.gpr = X.gpr := by rw [h.eqn]
theorem eflags (h : Upto X t l) : t.eflags = X.eflags := by rw [h.eqn]
theorem eip (h : Upto X t l) : t.eip = X.eip := by rw [h.eqn]
theorem seg (h : Upto X t l) : t.seg = X.seg := by rw [h.eqn]
theorem cpl (h : Upto X t l) : t.cpl = X.cpl := by rw [h.eqn]
theorem cr0 (h : Upto X t l) : t.cr0 = X.cr0 := by rw [h.eqn]
theorem cr2 (h : Upto X t l) : t.cr2 = X.cr2 := by rw [h.eqn]
theorem cr3 (h : Upto X t l) : t.cr3 = X.cr3 := by rw [h.eqn]
theorem gdtr (h : Upto X t l) : t.gdtr = X.gdtr := by rw [h.eqn]
theorem idtr (h : Upto X t l) : t.idtr = X.idtr := by rw [h.eqn]
theorem ldtr (h : Upto X t l) : t.ldtr = X.ldtr := by rw [h.eqn]
theorem tr (h : Upto X t l) : t.tr = X.tr := by rw [h.eqn]
theorem dr (h : Upto X t l) : t.dr = X.dr := by rw [h.eqn]
theorem test (h : Upto X t l) : t.test = X.test := by rw [h.eqn]
theorem fpu (h : Upto X t l) : t.fpu = X.fpu := by rw [h.eqn]
theorem run (h : Upto X t l) : t.run = X.run := by rw [h.eqn]
theorem latch (h : Upto X t l) : t.latch = X.latch := by rw [h.eqn]
theorem traps (h : Upto X t l) : t.traps = X.traps := by rw [h.eqn]
theorem pins (h : Upto X t l) : t.pins = X.pins := by rw [h.eqn]
theorem events (h : Upto X t l) : t.events = X.events := by rw [h.eqn]
theorem insn (h : Upto X t l) : t.insn = { X.insn with hits := t.insn.hits, stores := t.insn.stores } :=
  congrArg State.insn h.eqn
theorem paging (h : Upto X t l) : t.paging = X.paging := by unfold State.paging State.cr0Bit; rw [h.cr0]
theorem cf (h : Upto X t l) : t.cf = X.cf := by unfold State.cf; rw [h.eflags]

end Upto

namespace Upto

variable {X t u : State} {l : List Store}

/-- A read changes nothing that is followed. -/
theorem quiet (h : Upto X t l) (k : Quiet t u) : Upto X u l := by
  have e := k.eqn
  refine ⟨?_, fun hp => ?_, fun hp => ?_, ?_⟩
  · rw [e, h.eqn]
  · rw [k.mem (by rw [h.paging]; exact hp), h.mem hp]
  · rw [k.stores (by rw [h.paging]; exact hp), h.stores hp]
  · exact h.via.imp fun ps w => k.via _ _ _ _ w

theorem reads {α : Type} {x : M α} {a : α} (h : Upto X t l) (hx : Reads x) (k : x t = .ok a u) : Upto X u l :=
  h.quiet (hx _ _ _ k)

/-- A store adds to the stores made. -/
theorem memWrite {y : Size} {r : SReg} {off : Word32} {n a v : Nat} {z : Unit} (h : Upto X t l)
    (k : memWrite y r off n a v t = .ok z u) : Upto X u (l ++ [((X.seg.get r).base + off, n, v)]) := by
  have q := memWrite_holds k
  have e := q.eqn
  refine ⟨?_, fun hp => ?_, fun hp => ?_, ?_⟩
  · rw [e, h.eqn]
  · rw [q.mem (by rw [h.paging]; exact hp), h.mem hp]
  · rw [q.stores (by rw [h.paging]; exact hp), h.stores hp, heldAll_append, h.pins, h.seg]
    rfl
  · obtain ⟨ps, w⟩ := h.via
    obtain ⟨qs, w⟩ := q.via _ _ _ _ w
    rw [h.seg] at w
    exact ⟨_, w⟩

/-- Registers alone change. -/
theorem elsewhere {Y u : State} (h : Upto X t l)
    (e : u = { Y with mem := u.mem, cache := u.cache, tlb := u.tlb, bufferSpoiled := u.bufferSpoiled, freeCtr := u.freeCtr
                      insn := { Y.insn with hits := u.insn.hits, stores := u.insn.stores } })
    (hX : SameMemory X Y) (hu : SameMemory t u) : Upto Y u l := by
  have hp : Y.paging = X.paging := by unfold State.paging State.cr0Bit; rw [hX.cr0]
  refine ⟨e, fun p => ?_, fun p => ?_, ?_⟩
  · rw [hu.mem, hX.mem, h.mem (by rw [← hp]; exact p)]
  · rw [hu.stores, hX.stores, hX.pins, h.stores (by rw [← hp]; exact p)]
  · exact h.via.imp fun ps w => (w.elsewhere hu).from hX.symm

theorem setGpr (h : Upto X t l) (g : Gprs) : Upto (X.setGpr g) (t.setGpr g) l := by
  refine h.elsewhere ?_ ⟨rfl, rfl, rfl, rfl, rfl, rfl, rfl⟩ ⟨rfl, rfl, rfl, rfl, rfl, rfl, rfl⟩
  have e := h.eqn
  unfold State.setGpr
  rw [e]

theorem setEflags (h : Upto X t l) (v : Word32) : Upto (X.setEflags v) (t.setEflags v) l := by
  refine h.elsewhere ?_ ⟨rfl, rfl, rfl, rfl, rfl, rfl, rfl⟩ ⟨rfl, rfl, rfl, rfl, rfl, rfl, rfl⟩
  have e := h.eqn
  unfold State.setEflags
  rw [e]

theorem setEip (h : Upto X t l) (v : Word32) : Upto (X.setEip v) (t.setEip v) l := by
  refine h.elsewhere ?_ ⟨rfl, rfl, rfl, rfl, rfl, rfl, rfl⟩ ⟨rfl, rfl, rfl, rfl, rfl, rfl, rfl⟩
  have e := h.eqn
  unfold State.setEip
  rw [e]

theorem putSeg (h : Upto X t l) (r : SReg) (v : SegReg) : Upto (X.putSeg r v) (t.putSeg r v) l := by
  refine h.elsewhere ?_ ⟨rfl, rfl, rfl, rfl, rfl, rfl, rfl⟩ ⟨rfl, rfl, rfl, rfl, rfl, rfl, rfl⟩
  have e := h.eqn
  unfold State.putSeg
  rw [e]

theorem setFpu (h : Upto X t l) (f : Fpu) : Upto { X with fpu := f } { t with fpu := f } l := by
  refine h.elsewhere ?_ ⟨rfl, rfl, rfl, rfl, rfl, rfl, rfl⟩ ⟨rfl, rfl, rfl, rfl, rfl, rfl, rfl⟩
  have e := h.eqn
  rw [e]

theorem setCtr (h : Upto X t l) (n : Nat) : Upto X { t with freeCtr := n } l := by
  refine h.elsewhere ?_ ⟨rfl, rfl, rfl, rfl, rfl, rfl, rfl⟩ ⟨rfl, rfl, rfl, rfl, rfl, rfl, rfl⟩
  have e := h.eqn
  rw [e]

theorem writeMem {w : Width} {m : Mem} {v : BitVec w.bits} {z : Unit} (h : Upto X t l)
    (k : Machine.writeMem w m v t = .ok z u) : Upto X u (l ++ [(X.lin m, w.bytes, v.toNat)]) := by
  unfold Machine.writeMem at k
  rw [get_then] at k
  have := h.memWrite k
  have hs : t.segOf m = X.segOf m := by unfold State.segOf State.segOr; rw [h.insn]
  rw [h.gpr, hs] at this
  exact this

/-- A write to an r/m operand: a register, or a store. -/
theorem writeRM {w : Width} {x : RM} {v : BitVec w.bits} {z : Unit} (h : Upto X t l)
    (k : Machine.writeRM w v x t = .ok z u) :
    Upto (X.setGpr (X.gpr.writeRM w x v)) u (l ++ X.storeRM w x v) := by
  cases x with
  | reg r =>
    simp only [Machine.writeRM, setReg_run, EStateM.Result.ok.injEq] at k
    rw [← k.2, h.gpr]
    simpa [Gprs.writeRM, State.storeRM] using h.setGpr (X.gpr.write w r v)
  | mem m =>
    simp only [Machine.writeRM] at k
    exact h.writeMem k

/-- The status flags change, whatever the undefined ones become. -/
theorem setStatus (h : Upto X t l) (f : StatusUpd) :
    ∃ d u, Machine.setStatus f t = .ok () u ∧ Upto (X.setEflags (f.apply d X.eflags)) u l := by
  obtain ⟨d, n, e⟩ := setStatus_run f t
  refine ⟨d, _, e, ?_⟩
  rw [h.eflags]
  exact (h.setEflags (f.apply d X.eflags)).setCtr n

/-- The end of an instruction. -/
theorem finish (h : Upto X t l) (s : State) (h1 : X.insn.again = false) (h2 : X.insn.keepRf = false) :
    Agree { X with eflags := clearRf X.eflags
                   latch := { X.latch with inhibitNext := X.insn.inhibit, stiShadow := X.insn.stiShadow } }
      (finish s t) := by
  have hi := h.insn
  have a := finish_eqn s t (by rw [hi]; exact h1) (by rw [hi]; exact h2)
  constructor
  · rw [a.gpr]; exact h.gpr
  · rw [a.eip]; exact h.eip
  · rw [a.eflags]; show clearRf t.eflags = clearRf X.eflags; rw [h.eflags]
  · rw [a.seg]; exact h.seg
  · rw [a.cpl]; exact h.cpl
  · rw [a.cr0]; exact h.cr0
  · rw [a.cr2]; exact h.cr2
  · rw [a.cr3]; exact h.cr3
  · rw [a.gdtr]; exact h.gdtr
  · rw [a.idtr]; exact h.idtr
  · rw [a.ldtr]; exact h.ldtr
  · rw [a.tr]; exact h.tr
  · rw [a.dr]; exact h.dr
  · rw [a.test]; exact h.test
  · rw [a.fpu]; exact h.fpu
  · rw [a.run]; exact h.run
  · rw [a.latch]; show ({ t.latch with inhibitNext := _, stiShadow := _ } : IntLatches) = _; rw [h.latch, hi]
  · rw [a.pins]; exact h.pins
  · rw [a.events]; exact h.events

/-- The stores of an instruction that starts fresh. -/
theorem stored (h : Upto X t l) {s : State} (s0 : State) (hs : s.insn.stores = []) (hc : X.cr0 = s.cr0)
    (hp : X.pins = s.pins) (hm : X.mem = s.mem) (hi : X.insn.stores = s.insn.stores) (h3 : X.cr3 = s.cr3)
    (ht : X.tlb = s.tlb) (hk : X.cache = s.cache) : Stored s (Machine.finish s0 t) l := by
  have hpg : X.paging = s.paging := by unfold State.paging State.cr0Bit; rw [hc]
  refine finish_stored s0 ⟨h.via.imp fun ps w => w.from ⟨hm, hk, ht, hc, h3, hp, hi⟩, ?_, ?_, fun q => ?_, fun q => ?_⟩ hs
  · rw [h.cr0, hc]
  · rw [h.pins, hp]
  · rw [h.mem (by rw [hpg]; exact q), hm]
  · rw [h.stores (by rw [hpg]; exact q), hp, hi]

/-- The end of an instruction that started fresh and told the end nothing. -/
theorem agree {s : State} (h : Upto X t l) (hf : s.Fresh) (hi : X.insn = s.insn) (hl : X.latch = s.latch) :
    Agree { X with eflags := clearRf X.eflags, latch := s.retired.latch } (Machine.finish s t) := by
  have a := h.finish s (by rw [hi]; exact hf.again) (by rw [hi]; exact hf.keepRf)
  rw [hi, hf.inhibit, hf.stiShadow, hl] at a
  constructor
  · exact a.gpr
  · exact a.eip
  · exact a.eflags
  · exact a.seg
  · exact a.cpl
  · exact a.cr0
  · exact a.cr2
  · exact a.cr3
  · exact a.gdtr
  · exact a.idtr
  · exact a.ldtr
  · exact a.tr
  · exact a.dr
  · exact a.test
  · exact a.fpu
  · exact a.run
  · exact a.latch
  · exact a.pins
  · exact a.events

/-- The stores of an instruction whose registers alone are followed by `X`. -/
theorem storedAt {s : State} (h : Upto X t l) (hf : s.Fresh) (hc : X.cr0 = s.cr0 := by rfl) (hp : X.pins = s.pins := by rfl)
    (hm : X.mem = s.mem := by rfl) (hi : X.insn.stores = s.insn.stores := by rfl) (h3 : X.cr3 = s.cr3 := by rfl)
    (ht : X.tlb = s.tlb := by rfl) (hk : X.cache = s.cache := by rfl) : Stored s (Machine.finish s t) l :=
  h.stored s hf.stores hc hp hm hi h3 ht hk

end Upto

/-- An instruction whose meaning ends well completes. -/
theorem run_of_ok {m : M Unit} {s t : State} (h : m s = .ok () t) : Machine.run m s = .next (finish s t) := by
  unfold Machine.run; rw [h]

/-- An instruction whose meaning raises. -/
theorem run_of_error {m : M Unit} {s t : State} {e : Exc} (h : m s = .error e t) : Machine.run m s = failure s e t := by
  unfold Machine.run; rw [h]

end Sys2Proof.Machine
end

