-- ==== Sys2Proof/Laws/Transfers.lean ====
section
/-!
SUPPORT. What the operations of the far transfers do: copying the parameters of a call gate, pushing with supervisor privilege,
switching tasks, and the tests made in order.
-/
namespace Sys2Proof.Machine
open Sys2Proof

/-- The parameters are copied exactly as `paramsTo` says. -/
theorem copyParams_ok_iff {n : Nat} {x : SegReg} {esp : Word32} {k : Nat} {s t : State} :
    copyParams n x esp k s = .ok () t ↔ ∃ ps, ps.length = k ∧ paramsTo n x esp ps s t := by
  induction k generalizing s with
  | zero => simp [copyParams, paramsTo, eq_comm]
  | succ k ih =>
    simp only [copyParams, get_then, modify_then, bind_ok_iff]
    constructor
    · rintro ⟨v, u, h1, _, w, h2, h3⟩
      obtain ⟨ps, h4, h5⟩ := ih.mp h3
      exact ⟨v :: ps, by simp [h4], u, w, by rw [h4]; exact h1, h2, h5⟩
    · rintro ⟨ps, h4, h5⟩
      cases ps with
      | nil => cases h4
      | cons v ps =>
        obtain ⟨u, w, h1, h2, h3⟩ := h5
        have h4 : ps.length = k := by simpa using h4
        exact ⟨v, u, by rw [← h4]; exact h1, (), w, h2, ih.mpr ⟨ps, h4, h3⟩⟩

/-- A task switch leaves the old task, reads the new one, and enters it. -/
theorem switchTasks_ok_iff {k : SwitchKind} {ts : Word16} {ret : Word32} {ext trap : Bool} {s t : State} :
    switchTasks k ts ret ext s = .ok trap t ↔ ∃ d v i u, leaveTask k ts ret ext s = .ok d v ∧
      readTask d.base d.tssFormat v = .ok i u ∧ enterTask i ext (u.loadTask k i) = .ok () t ∧ trap = i.trap := by
  simp only [switchTasks, bind_ok_iff, modify_run, pure_run, EStateM.Result.ok.injEq]
  constructor
  · rintro ⟨d, v, h1, i, u, h2, _, _, ⟨_, rfl⟩, _, w, h3, rfl, rfl⟩
    exact ⟨d, v, i, u, h1, h2, h3, rfl⟩
  · rintro ⟨d, v, i, u, h1, h2, h3, rfl⟩
    exact ⟨d, v, h1, i, u, h2, ⟨⟩, _, ⟨trivial, rfl⟩, (), t, h3, rfl, rfl⟩

/-- A test that passes leaves the others. -/
theorem Ladder.of_pass {α : Type} {m : M α} {s t : State} {a : α} {c : Prop} {e : Exc} {l : List (Prop × Exc)} (h : c)
    (k : Ladder m s a t l) : Ladder m s a t ((c, e) :: l) := ⟨fun n => absurd h n, fun _ => k⟩

/-- A ladder whose tests all pass answers. -/
theorem Ladder.answers {α : Type} {m : M α} {s t : State} {a : α} : ∀ {l : List (Prop × Exc)}, Ladder m s a t l →
    (∀ p ∈ l, p.1) → m s = .ok a t
  | [], h, _ => h
  | (c, e) :: l, h, k => (h.2 (k (c, e) (by simp))).answers fun p hp => k p (by simp [hp])

/-- A store without an alignment check, as a push with supervisor privilege makes it. -/
theorem pushSys_holds {n v : Nat} {s t : State} (h : pushSys n v s = .ok () t) :
    ∃ u, Holds s u (s.seg.ss.base + s.pushOff n, n, v) ∧ setSp (s.pushOff n) u = .ok () t := by
  simp only [pushSys, get_then] at h
  split at h
  · simp at h
  simp only [bind_ok_iff] at h
  obtain ⟨lin, s1, h1, _, s3, h3, ps, s5, h5, _, u, h6, h7⟩ := h
  refine ⟨u, ?_, h7⟩
  have q3 : Quiet s s3 := (segCheck_reads _ _ _ _ _ _ _ _ h1).trans (noteAccess_reads _ _ _ _ _ _ h3)
  have q : Quiet s s5 := q3.trans (translateBytes_reads _ _ _ _ _ _ _ h5)
  have hlin : lin = s.seg.ss.base + s.pushOff n := by
    simp only [segCheck, get_then, bind_ok_iff, EStateM.Result.ok.injEq, check_ok_iff, pure_run] at h1
    obtain ⟨_, _, ⟨_, rfl⟩, _, _, ⟨_, rfl⟩, h, _⟩ := h1
    exact h.symm
  have e := storeBytes_eqn _ _ _ _ _ h6
  refine ⟨?_, fun hp => ?_, fun hp => ?_, fun s0 l _ ps w => ?_⟩
  · rw [e, q.eqn]
  · rw [e]; exact q.mem hp
  · have hp3 : s3.paging = false := by rw [q3.paging]; exact hp
    obtain ⟨rfl, rfl⟩ := translateBytes_off _ hp3 h5
    have := storeBytes_off (toBytes n v) lin s5 s5 u () (by rw [toBytes_length]; exact h6)
    have hs : s5.insn.stores = s.insn.stores := q3.stores hp
    have hpin : s5.pins = s.pins := by rw [q3.eqn]
    rw [this, hs, hpin, hlin]
  · rw [← hlin]
    exact ⟨_, (q3.via _ _ _ _ w).store h5 h6⟩

theorem merge_trunc (z : Size) (o v : Word32) : z.merge o (z.trunc v) = z.merge o v := by
  cases z
  · simp only [Size.merge, Size.trunc]
    congr 1
    ext i hi
    simp
  · rfl

/-- A push with supervisor privilege moves the stack pointer and adds one store. -/
theorem Upto.pushSys {X t u : State} {l : List Store} {n v : Nat} (h : Upto X t l) (k : Machine.pushSys n v t = .ok () u) :
    Upto (X.moveSp (-BitVec.ofNat 32 n)) u (l ++ [(X.seg.ss.base + X.pushOff n, n, v)]) := by
  obtain ⟨w, q, g⟩ := pushSys_holds k
  have e := q.eqn
  have hs : t.stackSize = X.stackSize := by unfold State.stackSize State.prot State.pe State.vm State.cr0Bit; rw [h.cr0, h.eflags, h.seg]
  have hsp : t.sp = X.sp := by unfold State.sp; rw [hs, h.gpr]
  have ho : t.pushOff n = X.pushOff n := by unfold State.pushOff; rw [hs, hsp]
  have hw : Upto X w (l ++ [(X.seg.ss.base + X.pushOff n, n, v)]) := by
    refine ⟨?_, fun hp => ?_, fun hp => ?_, ?_⟩
    · rw [e, h.eqn]
    · rw [q.mem (by rw [h.paging]; exact hp), h.mem hp]
    · rw [q.stores (by rw [h.paging]; exact hp), h.stores hp, heldAll_append, h.pins, h.seg, ho]
      rfl
    · obtain ⟨ps, w⟩ := h.via
      obtain ⟨qs, w⟩ := q.via _ _ _ _ w
      rw [h.seg, ho] at w
      exact ⟨_, w⟩
  have hg : u = w.setGpr (X.espPlus (-BitVec.ofNat 32 n)) := by
    simp only [setSp, modify_run, EStateM.Result.ok.injEq] at g
    have hs' : w.stackSize = X.stackSize := by
      unfold State.stackSize State.prot State.pe State.vm State.cr0Bit; rw [hw.cr0, hw.eflags, hw.seg]
    rw [← g.2, hw.gpr, hs', ho]
    unfold State.pushOff State.espPlus
    rw [merge_trunc, BitVec.sub_eq_add_neg]
  rw [hg]
  exact hw.setGpr _

/-- Pushes with supervisor privilege move the stack pointer by each and add a store for each. -/
theorem Upto.pushAllSys {n : Nat} : ∀ {vs : List Nat} {Y t u : State} {l : List Store}, Upto Y t l →
    Machine.pushAllSys n vs t = .ok () u →
    Upto (vs.foldl (fun s _ => s.moveSp (-BitVec.ofNat 32 n)) Y) u (l ++ Y.pushStores n vs)
  | [], Y, t, u, l, h, k => by
    simp only [Machine.pushAllSys, pure_run, EStateM.Result.ok.injEq] at k
    rw [← k.2]
    simpa [State.pushStores] using h
  | v :: vs, Y, t, u, l, h, k => by
    simp only [Machine.pushAllSys, bind_ok_iff] at k
    obtain ⟨_, w, h1, h2⟩ := k
    simpa [State.pushStores] using (h.pushSys h1).pushAllSys h2

end Sys2Proof.Machine
end

