-- ==== Sys2Proof/Machine/Pins.lean ====
section
/-!
DEFINITION. What the platform does to the processor between two steps (spec/70_reset_and_hazards.md R1070; spec/92_eei_decisions.md
D2). No instruction and no step uses these: they are the host's side of the machine. The levels (INTR and its vector, A20M#,
IGNNE#, KEN#) are fields of `State.pins`; the outputs are `State.events` and `Fpu.error` (FERR#).
-/
namespace Sys2Proof.Machine
open Sys2Proof

/-- Replace the pin levels (70 R1070). -/
def State.setPins (s : State) (p : Pins) : State := { s with pins := p }

/-- A rising edge on NMI (60_exceptions.md R907): one request is remembered. -/
def State.pulseNmi (s : State) : State := { s with latch := { s.latch with nmiPending := true } }

/-- FLUSH# (20_memory.md R172): the whole internal cache becomes invalid; no special cycle is driven. -/
def State.pulseFlush (s : State) : State := s.flushCache

/-- An invalidate cycle (20_memory.md R174): a line that holds the address becomes invalid, the one of the lowest way where several
hold it (DESIGN CHOICE, log entry 60). With CD = NW = 1 it is ignored (R171). -/
def State.invalidateLine (s : State) (a : Word32) : State :=
  let c := s.cacheSetAt a
  if s.cr0Bit 30 && s.cr0Bit 29 then s
  else
    match c.hit (cacheTag a) with
    | some w => s.putCacheSet (cacheIndex a) (c.put w { c.get w with valid := false })
    | none => s

/-- Another bus master stores a byte and runs the invalidate cycle for it (20_memory.md R174). -/
def State.externalWrite (s : State) (a : Word32) (v : Byte) : State :=
  let t : State := { s with mem := Memory.write s.mem a.toNat v }
  t.invalidateLine a

/-- The RESET pin, with or without the built-in self test (70 R1020 to R1023). Memory, the pin levels and what the platform
has seen stay; without the self test the FPU stays too. The cache becomes invalid and keeps its tags and data (71 R1105,
R1102). A register R80 leaves undefined takes the value of log entry 1. -/
def State.pulseReset (s : State) (bist : Bool) : State :=
  { State.reset with
    mem := s.mem, pins := s.pins, events := s.events, freeCtr := s.freeCtr, cache := s.flushCache.cache
    fpu := if bist then State.reset.fpu else s.fpu }

end Sys2Proof.Machine
end

