-- ==== Sys2Proof/Tests/Slice0.lean ====
section
/-!
SUPPORT. Tests: ill-formed terms are refused; words written out from the encoding tables of the spec decode; single steps
give what the rules of the spec give; and for every statement with hypotheses, states and operands that meet them.
-/
namespace Sys2Proof.Tests
set_option Elab.async false
open Sys2Proof Sys2Proof.Machine

/-! WellFormed refuses a term that no encoding exists for. -/

theorem test_wf_bp_without_displacement : (Mem.ind16 .bp .none).wf = false := by decide
theorem test_wf_esp_base_without_sib : (Mem.ind32 .esp .none).wf = false := by decide
theorem test_wf_ebp_without_displacement : (Mem.ind32 .ebp .none).wf = false := by decide
theorem test_wf_sib_ebp_without_displacement : (Mem.sib .x2 .eax .ebp .none).wf = false := by decide
theorem test_wf_memory_operand_of_instruction : (Instr.lea .s32 .eax (.ind32 .esp .none)).wf = false := by decide
theorem test_wf_imul_byte_immediate : (Instr.imul (.three .eax (.reg .ecx) (.i8 1#8))).wf = false := by decide
theorem test_wf_push_byte_immediate : (Instr.push (.imm (.i8 1#8))).wf = false := by decide
theorem test_wf_xchg_accumulator : (Instr.xchg (.acc .s32 .eax)).wf = false := by decide
theorem test_wf_call_short : (Instr.callNear (.rel (.r8 .s32 1#8))).wf = false := by decide
theorem test_wf_mov_to_cs : (Instr.movToSeg .cs (.reg .eax)).wf = false := by decide
theorem test_wf_pop_cs : (Instr.popSeg .s32 .cs).wf = false := by decide
theorem test_fits_operand_size : (Instr.inc (.reg .s32 .eax)).fits .s16 .s32 = false := by decide
theorem test_fits_address_size : (Instr.lea .s32 .eax (.abs16 1#16)).fits .s32 .s32 = false := by decide

/-! Decoding. -/

/-- Do these bytes decode to this instruction, all of them used? -/
def decodes (d : Size) (l : List Byte) (i : Instr) : Bool :=
  match decodeInstr d l with
  | .ok (ps, j) rest => decide (ps = []) && decide (j = i) && decide (rest = [])
  | .error _ _ => false

/-- Is this byte this prefix? -/
def itemIs (d : Size) (l : List Byte) (i : Instr) : Bool :=
  match decodeItem d d l with
  | .ok j rest => decide (j = i) && decide (rest = [])
  | .error _ _ => false

/-- Words put together field by field from 30_encoding.md R310 to R331 and 45_fpu_common.md R690. -/
theorem test_decode_fields : ([
    ([0b000000#6 ++ 0b0#1 ++ 0b1#1, 0b11#2 ++ 0b011#3 ++ 0b000#3], .add (.rmReg .dword (.reg .eax) .ebx)),
    ([0b1101000#7 ++ 0b0#1, 0b11#2 ++ 0b101#3 ++ 0b010#3], .shr .byte (.reg .edx) .one),
    ([0b10001011#8, 0b01#2 ++ 0b000#3 ++ 0b100#3, 0b10#2 ++ 0b001#3 ++ 0b011#3, 0x10#8],
      .mov (.regRm .dword .eax (.mem (.sib .x4 .ecx .ebx (.d8 0x10#8))))),
    ([0b01010#5 ++ 0b011#3], .push (.reg .s32 .ebx)),
    ([0b1010010#7 ++ 0b1#1], .movsw .s32 .s32),
    ([0b0111#4 ++ 0b0100#4, 0xFE#8], .je (.r8 .s32 0xFE#8)),
    ([0b00001111#8, 0b1001#4 ++ 0b1111#4, 0b11#2 ++ 0b000#3 ++ 0b001#3], .setg (.reg .ecx)),
    ([0b00001111#8, 0b00100010#8, 0b11#2 ++ 0b011#3 ++ 0b001#3], .movToCr .cr3 .ecx),
    ([0b11011#5 ++ 0b100#3, 0b11#2 ++ 0b001#3 ++ 0b010#3], .fmul (.toSti 2)),
    ([0b11011#5 ++ 0b011#3, 0b00#2 ++ 0b101#3 ++ 0b110#3], .fld (.m80 (.ind32 .esi .none)))] :
    List (List Byte × Instr)).all (fun p => decodes .s32 p.1 p.2) = true := by decide

theorem test_decode_prefixes : ([
    ([0xF0#8], .lockPrefix),
    ([0xF2#8], .repnePrefix),
    ([0xF3#8], .repPrefix),
    ([0x26#8], .segEs),
    ([0x2E#8], .segCs),
    ([0x36#8], .segSs),
    ([0x3E#8], .segDs),
    ([0x64#8], .segFs),
    ([0x65#8], .segGs),
    ([0x66#8], .opSizePrefix),
    ([0x67#8], .addrSizePrefix)] : List (List Byte × Instr)).all (fun p => itemIs .s32 p.1 p.2) = true := by decide

theorem test_decode_alu : ([
    ([0x00#8, 0xD9#8], .add (.rmReg .byte (.reg .ecx) .ebx)),
    ([0x03#8, 0x1D#8, 0x78#8, 0x56#8, 0x34#8, 0x12#8], .add (.regRm .dword .ebx (.mem (.abs32 0x12345678#32)))),
    ([0x05#8, 0x01#8, 0x00#8, 0x00#8, 0x80#8], .add (.acc (.i32 0x80000001#32))),
    ([0x83#8, 0xC2#8, 0xFF#8], .add (.rmImm8 .s32 (.reg .edx) 0xFF#8)),
    ([0x08#8, 0xD9#8], .or (.rmReg .byte (.reg .ecx) .ebx)),
    ([0x0B#8, 0x1D#8, 0x78#8, 0x56#8, 0x34#8, 0x12#8], .or (.regRm .dword .ebx (.mem (.abs32 0x12345678#32)))),
    ([0x0D#8, 0x01#8, 0x00#8, 0x00#8, 0x80#8], .or (.acc (.i32 0x80000001#32))),
    ([0x83#8, 0xCA#8, 0xFF#8], .or (.rmImm8 .s32 (.reg .edx) 0xFF#8)),
    ([0x10#8, 0xD9#8], .adc (.rmReg .byte (.reg .ecx) .ebx)),
    ([0x13#8, 0x1D#8, 0x78#8, 0x56#8, 0x34#8, 0x12#8], .adc (.regRm .dword .ebx (.mem (.abs32 0x12345678#32)))),
    ([0x15#8, 0x01#8, 0x00#8, 0x00#8, 0x80#8], .adc (.acc (.i32 0x80000001#32))),
    ([0x83#8, 0xD2#8, 0xFF#8], .adc (.rmImm8 .s32 (.reg .edx) 0xFF#8)),
    ([0x18#8, 0xD9#8], .sbb (.rmReg .byte (.reg .ecx) .ebx)),
    ([0x1B#8, 0x1D#8, 0x78#8, 0x56#8, 0x34#8, 0x12#8], .sbb (.regRm .dword .ebx (.mem (.abs32 0x12345678#32)))),
    ([0x1D#8, 0x01#8, 0x00#8, 0x00#8, 0x80#8], .sbb (.acc (.i32 0x80000001#32))),
    ([0x83#8, 0xDA#8, 0xFF#8], .sbb (.rmImm8 .s32 (.reg .edx) 0xFF#8)),
    ([0x20#8, 0xD9#8], .and (.rmReg .byte (.reg .ecx) .ebx)),
    ([0x23#8, 0x1D#8, 0x78#8, 0x56#8, 0x34#8, 0x12#8], .and (.regRm .dword .ebx (.mem (.abs32 0x12345678#32)))),
    ([0x25#8, 0x01#8, 0x00#8, 0x00#8, 0x80#8], .and (.acc (.i32 0x80000001#32))),
    ([0x83#8, 0xE2#8, 0xFF#8], .and (.rmImm8 .s32 (.reg .edx) 0xFF#8)),
    ([0x28#8, 0xD9#8], .sub (.rmReg .byte (.reg .ecx) .ebx)),
    ([0x2B#8, 0x1D#8, 0x78#8, 0x56#8, 0x34#8, 0x12#8], .sub (.regRm .dword .ebx (.mem (.abs32 0x12345678#32)))),
    ([0x2D#8, 0x01#8, 0x00#8, 0x00#8, 0x80#8], .sub (.acc (.i32 0x80000001#32))),
    ([0x83#8, 0xEA#8, 0xFF#8], .sub (.rmImm8 .s32 (.reg .edx) 0xFF#8)),
    ([0x30#8, 0xD9#8], .xor (.rmReg .byte (.reg .ecx) .ebx)),
    ([0x33#8, 0x1D#8, 0x78#8, 0x56#8, 0x34#8, 0x12#8], .xor (.regRm .dword .ebx (.mem (.abs32 0x12345678#32)))),
    ([0x35#8, 0x01#8, 0x00#8, 0x00#8, 0x80#8], .xor (.acc (.i32 0x80000001#32))),
    ([0x83#8, 0xF2#8, 0xFF#8], .xor (.rmImm8 .s32 (.reg .edx) 0xFF#8)),
    ([0x38#8, 0xD9#8], .cmp (.rmReg .byte (.reg .ecx) .ebx)),
    ([0x3B#8, 0x1D#8, 0x78#8, 0x56#8, 0x34#8, 0x12#8], .cmp (.regRm .dword .ebx (.mem (.abs32 0x12345678#32)))),
    ([0x3D#8, 0x01#8, 0x00#8, 0x00#8, 0x80#8], .cmp (.acc (.i32 0x80000001#32))),
    ([0x83#8, 0xFA#8, 0xFF#8], .cmp (.rmImm8 .s32 (.reg .edx) 0xFF#8)),
    ([0x81#8, 0x00#8, 0x44#8, 0x33#8, 0x22#8, 0x11#8], .add (.rmImm (.mem (.ind32 .eax .none)) (.i32 0x11223344#32))),
    ([0x80#8, 0xC4#8, 0x7F#8], .add (.rmImm (.reg .esp) (.i8 0x7F#8)))] : List (List Byte × Instr)).all (fun p => decodes .s32 p.1 p.2) = true := by decide

theorem test_decode_arith : ([
    ([0x84#8, 0xD9#8], .test (.rmReg .byte (.reg .ecx) .ebx)),
    ([0xA9#8, 0x01#8, 0x00#8, 0x00#8, 0x00#8], .test (.acc (.i32 1#32))),
    ([0xF7#8, 0xC1#8, 0x02#8, 0x00#8, 0x00#8, 0x00#8], .test (.rmImm (.reg .ecx) (.i32 2#32))),
    ([0x42#8], .inc (.reg .s32 .edx)),
    ([0xFE#8, 0x06#8], .inc (.rm .byte (.mem (.ind32 .esi .none)))),
    ([0x4D#8], .dec (.reg .s32 .ebp)),
    ([0xFF#8, 0xCB#8], .dec (.rm .dword (.reg .ebx))),
    ([0xF7#8, 0xD8#8], .neg .dword (.reg .eax)),
    ([0xF6#8, 0xD1#8], .not .byte (.reg .ecx)),
    ([0xF7#8, 0xE3#8], .mul .dword (.reg .ebx)),
    ([0xF6#8, 0xEB#8], .imul (.one .byte (.reg .ebx))),
    ([0x0F#8, 0xAF#8, 0xC1#8], .imul (.two .s32 .eax (.reg .ecx))),
    ([0x6B#8, 0xC1#8, 0xFE#8], .imul (.three8 .s32 .eax (.reg .ecx) 0xFE#8)),
    ([0x69#8, 0xC1#8, 0x00#8, 0x01#8, 0x00#8, 0x00#8], .imul (.three .eax (.reg .ecx) (.i32 0x100#32))),
    ([0xF7#8, 0xF1#8], .div .dword (.reg .ecx)),
    ([0xF7#8, 0xF9#8], .idiv .dword (.reg .ecx)),
    ([0x37#8], .aaa),
    ([0x3F#8], .aas),
    ([0xD5#8, 0x0A#8], .aad 0x0A#8),
    ([0xD4#8, 0x0A#8], .aam 0x0A#8),
    ([0x27#8], .daa),
    ([0x2F#8], .das),
    ([0x98#8], .cwde),
    ([0x99#8], .cdq),
    ([0x0F#8, 0xB1#8, 0x0E#8], .cmpxchg .dword (.mem (.ind32 .esi .none)) .ecx),
    ([0x0F#8, 0xC0#8, 0xC8#8], .xadd .byte (.reg .eax) .ecx),
    ([0x0F#8, 0xCB#8], .bswap .s32 .ebx)] : List (List Byte × Instr)).all (fun p => decodes .s32 p.1 p.2) = true := by decide

theorem test_decode_narrow : ([
    ([0x98#8], .cbw),
    ([0x99#8], .cwd),
    ([0x60#8], .pusha),
    ([0x61#8], .popa),
    ([0x9C#8], .pushf),
    ([0x9D#8], .popf),
    ([0xCF#8], .iret),
    ([0xE3#8, 0x05#8], .jcxz .s16 0x05#8),
    ([0x01#8, 0x5A#8, 0x04#8], .add (.rmReg .word (.mem (.ind16 .bpsi (.d8 0x04#8))) .ebx)),
    ([0xA1#8, 0x34#8, 0x12#8], .mov (.accMoffs .word (.o16 0x1234#16))),
    ([0xE8#8, 0xFC#8, 0xFF#8], .callNear (.rel (.r16 0xFFFC#16))),
    ([0x9A#8, 0x34#8, 0x12#8, 0x00#8, 0xF0#8], .callFar (.ptr (.o16 0x1234#16) 0xF000#16))] : List (List Byte × Instr)).all (fun p => decodes .s16 p.1 p.2) = true := by decide

theorem test_decode_shifts : ([
    ([0xD0#8, 0xC3#8], .rol .byte (.reg .ebx) .one),
    ([0xD3#8, 0xC1#8], .rol .dword (.reg .ecx) .cl),
    ([0xC1#8, 0xC6#8, 0x07#8], .rol .dword (.reg .esi) (.imm 0x07#8)),
    ([0xD0#8, 0xCB#8], .ror .byte (.reg .ebx) .one),
    ([0xD3#8, 0xC9#8], .ror .dword (.reg .ecx) .cl),
    ([0xC1#8, 0xCE#8, 0x07#8], .ror .dword (.reg .esi) (.imm 0x07#8)),
    ([0xD0#8, 0xD3#8], .rcl .byte (.reg .ebx) .one),
    ([0xD3#8, 0xD1#8], .rcl .dword (.reg .ecx) .cl),
    ([0xC1#8, 0xD6#8, 0x07#8], .rcl .dword (.reg .esi) (.imm 0x07#8)),
    ([0xD0#8, 0xDB#8], .rcr .byte (.reg .ebx) .one),
    ([0xD3#8, 0xD9#8], .rcr .dword (.reg .ecx) .cl),
    ([0xC1#8, 0xDE#8, 0x07#8], .rcr .dword (.reg .esi) (.imm 0x07#8)),
    ([0xD0#8, 0xE3#8], .shl .byte (.reg .ebx) .one),
    ([0xD3#8, 0xE1#8], .shl .dword (.reg .ecx) .cl),
    ([0xC1#8, 0xE6#8, 0x07#8], .shl .dword (.reg .esi) (.imm 0x07#8)),
    ([0xD0#8, 0xEB#8], .shr .byte (.reg .ebx) .one),
    ([0xD3#8, 0xE9#8], .shr .dword (.reg .ecx) .cl),
    ([0xC1#8, 0xEE#8, 0x07#8], .shr .dword (.reg .esi) (.imm 0x07#8)),
    ([0xD0#8, 0xFB#8], .sar .byte (.reg .ebx) .one),
    ([0xD3#8, 0xF9#8], .sar .dword (.reg .ecx) .cl),
    ([0xC1#8, 0xFE#8, 0x07#8], .sar .dword (.reg .esi) (.imm 0x07#8)),
    ([0x0F#8, 0xA4#8, 0xCA#8, 0x04#8], .shld .s32 (.reg .edx) .ecx (.imm 0x04#8)),
    ([0x0F#8, 0xA5#8, 0xCA#8], .shld .s32 (.reg .edx) .ecx .cl),
    ([0x0F#8, 0xAC#8, 0xCA#8, 0x04#8], .shrd .s32 (.reg .edx) .ecx (.imm 0x04#8)),
    ([0x0F#8, 0xAD#8, 0xCA#8], .shrd .s32 (.reg .edx) .ecx .cl),
    ([0x0F#8, 0xA3#8, 0xC8#8], .bt (.reg .s32 (.reg .eax) .ecx)),
    ([0x0F#8, 0xBB#8, 0xC8#8], .btc (.reg .s32 (.reg .eax) .ecx)),
    ([0x0F#8, 0xB3#8, 0xC8#8], .btr (.reg .s32 (.reg .eax) .ecx)),
    ([0x0F#8, 0xAB#8, 0xC8#8], .bts (.reg .s32 (.reg .eax) .ecx)),
    ([0x0F#8, 0xBA#8, 0xE0#8, 0x05#8], .bt (.imm .s32 (.reg .eax) 0x05#8)),
    ([0x0F#8, 0xBA#8, 0xF8#8, 0x05#8], .btc (.imm .s32 (.reg .eax) 0x05#8)),
    ([0x0F#8, 0xBA#8, 0xF0#8, 0x05#8], .btr (.imm .s32 (.reg .eax) 0x05#8)),
    ([0x0F#8, 0xBA#8, 0xE8#8, 0x05#8], .bts (.imm .s32 (.reg .eax) 0x05#8)),
    ([0x0F#8, 0xBC#8, 0xC3#8], .bsf .s32 .eax (.reg .ebx)),
    ([0x0F#8, 0xBD#8, 0xC3#8], .bsr .s32 .eax (.reg .ebx))] : List (List Byte × Instr)).all (fun p => decodes .s32 p.1 p.2) = true := by decide

theorem test_decode_data : ([
    ([0x88#8, 0xE0#8], .mov (.rmReg .byte (.reg .eax) .esp)),
    ([0x8B#8, 0x4D#8, 0x08#8], .mov (.regRm .dword .ecx (.mem (.ind32 .ebp (.d8 0x08#8))))),
    ([0xA0#8, 0x00#8, 0x10#8, 0x00#8, 0x00#8], .mov (.accMoffs .byte (.o32 0x1000#32))),
    ([0xA3#8, 0x00#8, 0x10#8, 0x00#8, 0x00#8], .mov (.moffsAcc .dword (.o32 0x1000#32))),
    ([0xB4#8, 0x12#8], .mov (.regImm .esp (.i8 0x12#8))),
    ([0xBF#8, 0x04#8, 0x03#8, 0x02#8, 0x01#8], .mov (.regImm .edi (.i32 0x01020304#32))),
    ([0xC6#8, 0x00#8, 0x55#8], .mov (.rmImm (.mem (.ind32 .eax .none)) (.i8 0x55#8))),
    ([0x8C#8, 0xD8#8], .movFromSeg .s32 (.reg .eax) .ds),
    ([0x8E#8, 0xD0#8], .movToSeg .ss (.reg .eax)),
    ([0x0F#8, 0xBE#8, 0xC3#8], .movsx (.byte .s32 .eax (.reg .ebx))),
    ([0x0F#8, 0xBF#8, 0xC3#8], .movsx (.word .s32 .eax (.reg .ebx))),
    ([0x0F#8, 0xB6#8, 0xC3#8], .movzx (.byte .s32 .eax (.reg .ebx))),
    ([0x0F#8, 0xB7#8, 0xC3#8], .movzx (.word .s32 .eax (.reg .ebx))),
    ([0x8D#8, 0x44#8, 0xCA#8, 0x10#8], .lea .s32 .eax (.sib .x8 .ecx .edx (.d8 0x10#8))),
    ([0xD7#8], .xlat .s32),
    ([0x93#8], .xchg (.acc .s32 .ebx)),
    ([0x86#8, 0xE0#8], .xchg (.rm .byte (.reg .eax) .esp)),
    ([0x90#8], .nop),
    ([0x9F#8], .lahf),
    ([0x9E#8], .sahf),
    ([0xE4#8, 0x60#8], .inp (.imm .byte 0x60#8)),
    ([0xED#8], .inp (.dx .dword)),
    ([0xE7#8, 0x80#8], .outp (.imm .dword 0x80#8)),
    ([0xEE#8], .outp (.dx .byte)),
    ([0xC5#8, 0x03#8], .lds .s32 .eax (.ind32 .ebx .none)),
    ([0xC4#8, 0x03#8], .les .s32 .eax (.ind32 .ebx .none)),
    ([0x0F#8, 0xB4#8, 0x03#8], .lfs .s32 .eax (.ind32 .ebx .none)),
    ([0x0F#8, 0xB5#8, 0x03#8], .lgs .s32 .eax (.ind32 .ebx .none)),
    ([0x0F#8, 0xB2#8, 0x03#8], .lss .s32 .eax (.ind32 .ebx .none))] : List (List Byte × Instr)).all (fun p => decodes .s32 p.1 p.2) = true := by decide

theorem test_decode_stack : ([
    ([0x53#8], .push (.reg .s32 .ebx)),
    ([0xFF#8, 0x33#8], .push (.rm .s32 (.mem (.ind32 .ebx .none)))),
    ([0x6A#8, 0x80#8], .push (.imm8 .s32 0x80#8)),
    ([0x68#8, 0x44#8, 0x33#8, 0x22#8, 0x11#8], .push (.imm (.i32 0x11223344#32))),
    ([0x5B#8], .pop (.reg .s32 .ebx)),
    ([0x8F#8, 0x03#8], .pop (.rm .s32 (.mem (.ind32 .ebx .none)))),
    ([0x06#8], .pushSeg .s32 .es),
    ([0x0E#8], .pushSeg .s32 .cs),
    ([0x16#8], .pushSeg .s32 .ss),
    ([0x1E#8], .pushSeg .s32 .ds),
    ([0x0F#8, 0xA0#8], .pushSeg .s32 .fs),
    ([0x0F#8, 0xA8#8], .pushSeg .s32 .gs),
    ([0x07#8], .popSeg .s32 .es),
    ([0x17#8], .popSeg .s32 .ss),
    ([0x1F#8], .popSeg .s32 .ds),
    ([0x0F#8, 0xA1#8], .popSeg .s32 .fs),
    ([0x0F#8, 0xA9#8], .popSeg .s32 .gs),
    ([0x60#8], .pushad),
    ([0x61#8], .popad),
    ([0x9C#8], .pushfd),
    ([0x9D#8], .popfd),
    ([0xC8#8, 0x10#8, 0x00#8, 0x01#8], .enter .s32 0x10#16 0x01#8),
    ([0xC9#8], .leave .s32)] : List (List Byte × Instr)).all (fun p => decodes .s32 p.1 p.2) = true := by decide

theorem test_decode_strings : ([
    ([0xA6#8], .cmpsb .s32),
    ([0xA7#8], .cmpsw .s32 .s32),
    ([0x6C#8], .insb .s32),
    ([0x6D#8], .insw .s32 .s32),
    ([0xAC#8], .lodsb .s32),
    ([0xAD#8], .lodsw .s32 .s32),
    ([0xA4#8], .movsb .s32),
    ([0xA5#8], .movsw .s32 .s32),
    ([0x6E#8], .outsb .s32),
    ([0x6F#8], .outsw .s32 .s32),
    ([0xAE#8], .scasb .s32),
    ([0xAF#8], .scasw .s32 .s32),
    ([0xAA#8], .stosb .s32),
    ([0xAB#8], .stosw .s32 .s32)] : List (List Byte × Instr)).all (fun p => decodes .s32 p.1 p.2) = true := by decide

theorem test_decode_conditions : ([
    ([0x70#8, 0x10#8], .jo (.r8 .s32 0x10#8)),
    ([0x71#8, 0x10#8], .jno (.r8 .s32 0x10#8)),
    ([0x72#8, 0x10#8], .jb (.r8 .s32 0x10#8)),
    ([0x73#8, 0x10#8], .jae (.r8 .s32 0x10#8)),
    ([0x74#8, 0x10#8], .je (.r8 .s32 0x10#8)),
    ([0x75#8, 0x10#8], .jne (.r8 .s32 0x10#8)),
    ([0x76#8, 0x10#8], .jbe (.r8 .s32 0x10#8)),
    ([0x77#8, 0x10#8], .ja (.r8 .s32 0x10#8)),
    ([0x78#8, 0x10#8], .js (.r8 .s32 0x10#8)),
    ([0x79#8, 0x10#8], .jns (.r8 .s32 0x10#8)),
    ([0x7A#8, 0x10#8], .jp (.r8 .s32 0x10#8)),
    ([0x7B#8, 0x10#8], .jnp (.r8 .s32 0x10#8)),
    ([0x7C#8, 0x10#8], .jl (.r8 .s32 0x10#8)),
    ([0x7D#8, 0x10#8], .jge (.r8 .s32 0x10#8)),
    ([0x7E#8, 0x10#8], .jle (.r8 .s32 0x10#8)),
    ([0x7F#8, 0x10#8], .jg (.r8 .s32 0x10#8)),
    ([0x0F#8, 0x80#8, 0x00#8, 0x01#8, 0x00#8, 0x00#8], .jo (.r32 0x100#32)),
    ([0x0F#8, 0x81#8, 0x00#8, 0x01#8, 0x00#8, 0x00#8], .jno (.r32 0x100#32)),
    ([0x0F#8, 0x82#8, 0x00#8, 0x01#8, 0x00#8, 0x00#8], .jb (.r32 0x100#32)),
    ([0x0F#8, 0x83#8, 0x00#8, 0x01#8, 0x00#8, 0x00#8], .jae (.r32 0x100#32)),
    ([0x0F#8, 0x84#8, 0x00#8, 0x01#8, 0x00#8, 0x00#8], .je (.r32 0x100#32)),
    ([0x0F#8, 0x85#8, 0x00#8, 0x01#8, 0x00#8, 0x00#8], .jne (.r32 0x100#32)),
    ([0x0F#8, 0x86#8, 0x00#8, 0x01#8, 0x00#8, 0x00#8], .jbe (.r32 0x100#32)),
    ([0x0F#8, 0x87#8, 0x00#8, 0x01#8, 0x00#8, 0x00#8], .ja (.r32 0x100#32)),
    ([0x0F#8, 0x88#8, 0x00#8, 0x01#8, 0x00#8, 0x00#8], .js (.r32 0x100#32)),
    ([0x0F#8, 0x89#8, 0x00#8, 0x01#8, 0x00#8, 0x00#8], .jns (.r32 0x100#32)),
    ([0x0F#8, 0x8A#8, 0x00#8, 0x01#8, 0x00#8, 0x00#8], .jp (.r32 0x100#32)),
    ([0x0F#8, 0x8B#8, 0x00#8, 0x01#8, 0x00#8, 0x00#8], .jnp (.r32 0x100#32)),
    ([0x0F#8, 0x8C#8, 0x00#8, 0x01#8, 0x00#8, 0x00#8], .jl (.r32 0x100#32)),
    ([0x0F#8, 0x8D#8, 0x00#8, 0x01#8, 0x00#8, 0x00#8], .jge (.r32 0x100#32)),
    ([0x0F#8, 0x8E#8, 0x00#8, 0x01#8, 0x00#8, 0x00#8], .jle (.r32 0x100#32)),
    ([0x0F#8, 0x8F#8, 0x00#8, 0x01#8, 0x00#8, 0x00#8], .jg (.r32 0x100#32)),
    ([0x0F#8, 0x90#8, 0xC3#8], .seto (.reg .ebx)),
    ([0x0F#8, 0x91#8, 0xC3#8], .setno (.reg .ebx)),
    ([0x0F#8, 0x92#8, 0xC3#8], .setb (.reg .ebx)),
    ([0x0F#8, 0x93#8, 0xC3#8], .setae (.reg .ebx)),
    ([0x0F#8, 0x94#8, 0xC3#8], .sete (.reg .ebx)),
    ([0x0F#8, 0x95#8, 0xC3#8], .setne (.reg .ebx)),
    ([0x0F#8, 0x96#8, 0xC3#8], .setbe (.reg .ebx)),
    ([0x0F#8, 0x97#8, 0xC3#8], .seta (.reg .ebx)),
    ([0x0F#8, 0x98#8, 0xC3#8], .sets (.reg .ebx)),
    ([0x0F#8, 0x99#8, 0xC3#8], .setns (.reg .ebx)),
    ([0x0F#8, 0x9A#8, 0xC3#8], .setp (.reg .ebx)),
    ([0x0F#8, 0x9B#8, 0xC3#8], .setnp (.reg .ebx)),
    ([0x0F#8, 0x9C#8, 0xC3#8], .setl (.reg .ebx)),
    ([0x0F#8, 0x9D#8, 0xC3#8], .setge (.reg .ebx)),
    ([0x0F#8, 0x9E#8, 0xC3#8], .setle (.reg .ebx)),
    ([0x0F#8, 0x9F#8, 0xC3#8], .setg (.reg .ebx))] : List (List Byte × Instr)).all (fun p => decodes .s32 p.1 p.2) = true := by decide

theorem test_decode_transfers : ([
    ([0xE3#8, 0x05#8], .jecxz .s32 0x05#8),
    ([0xE0#8, 0xFE#8], .loopne .s32 .s32 0xFE#8),
    ([0xE1#8, 0xFE#8], .loope .s32 .s32 0xFE#8),
    ([0xE2#8, 0xFE#8], .loop .s32 .s32 0xFE#8),
    ([0xEB#8, 0xFE#8], .jmpNear (.rel (.r8 .s32 0xFE#8))),
    ([0xE9#8, 0x00#8, 0x01#8, 0x00#8, 0x00#8], .jmpNear (.rel (.r32 0x100#32))),
    ([0xFF#8, 0xE0#8], .jmpNear (.ind .s32 (.reg .eax))),
    ([0xEA#8, 0x78#8, 0x56#8, 0x34#8, 0x12#8, 0x08#8, 0x00#8], .jmpFar (.ptr (.o32 0x12345678#32) 8#16)),
    ([0xFF#8, 0x2B#8], .jmpFar (.mem .s32 (.ind32 .ebx .none))),
    ([0xE8#8, 0x00#8, 0x01#8, 0x00#8, 0x00#8], .callNear (.rel (.r32 0x100#32))),
    ([0xFF#8, 0xD0#8], .callNear (.ind .s32 (.reg .eax))),
    ([0xFF#8, 0x1B#8], .callFar (.mem .s32 (.ind32 .ebx .none))),
    ([0xC3#8], .retNear (.plain .s32)),
    ([0xC2#8, 0x08#8, 0x00#8], .retNear (.imm .s32 8#16)),
    ([0xCB#8], .retFar (.plain .s32)),
    ([0xCA#8, 0x08#8, 0x00#8], .retFar (.imm .s32 8#16)),
    ([0xCD#8, 0x21#8], .intN 0x21#8),
    ([0xCC#8], .int3),
    ([0xCE#8], .into),
    ([0xCF#8], .iretd),
    ([0x62#8, 0x03#8], .bound .s32 .eax (.ind32 .ebx .none))] : List (List Byte × Instr)).all (fun p => decodes .s32 p.1 p.2) = true := by decide

theorem test_decode_system : ([
    ([0xF8#8], .clc),
    ([0xFC#8], .cld),
    ([0xFA#8], .cli),
    ([0xF5#8], .cmc),
    ([0xF9#8], .stc),
    ([0xFD#8], .std),
    ([0xFB#8], .sti),
    ([0xF4#8], .hlt),
    ([0x9B#8], .wait),
    ([0x0F#8, 0x06#8], .clts),
    ([0x0F#8, 0x08#8], .invd),
    ([0x0F#8, 0x09#8], .wbinvd),
    ([0x0F#8, 0x01#8, 0x3B#8], .invlpg (.ind32 .ebx .none)),
    ([0x63#8, 0xC8#8], .arpl (.reg .eax) .ecx),
    ([0x0F#8, 0x02#8, 0xC3#8], .lar .s32 .eax (.reg .ebx)),
    ([0x0F#8, 0x03#8, 0xC3#8], .lsl .s32 .eax (.reg .ebx)),
    ([0x0F#8, 0x00#8, 0xE3#8], .verr (.reg .ebx)),
    ([0x0F#8, 0x00#8, 0xEB#8], .verw (.reg .ebx)),
    ([0x0F#8, 0x01#8, 0x13#8], .lgdt .s32 (.ind32 .ebx .none)),
    ([0x0F#8, 0x01#8, 0x1B#8], .lidt .s32 (.ind32 .ebx .none)),
    ([0x0F#8, 0x01#8, 0x03#8], .sgdt .s32 (.ind32 .ebx .none)),
    ([0x0F#8, 0x01#8, 0x0B#8], .sidt .s32 (.ind32 .ebx .none)),
    ([0x0F#8, 0x00#8, 0xD3#8], .lldt (.reg .ebx)),
    ([0x0F#8, 0x00#8, 0xDB#8], .ltr (.reg .ebx)),
    ([0x0F#8, 0x00#8, 0xC3#8], .sldt .s32 (.reg .ebx)),
    ([0x0F#8, 0x00#8, 0xCB#8], .str .s32 (.reg .ebx)),
    ([0x0F#8, 0x01#8, 0xF3#8], .lmsw (.reg .ebx)),
    ([0x0F#8, 0x01#8, 0xE3#8], .smsw .s32 (.reg .ebx)),
    ([0x0F#8, 0x20#8, 0xD8#8], .movFromCr .eax .cr3),
    ([0x0F#8, 0x22#8, 0xD1#8], .movToCr .cr2 .ecx),
    ([0x0F#8, 0x21#8, 0xF8#8], .movFromDr .eax .dr7),
    ([0x0F#8, 0x23#8, 0xF1#8], .movToDr .dr6 .ecx),
    ([0x0F#8, 0x24#8, 0xD8#8], .movFromTr .eax .tr3),
    ([0x0F#8, 0x26#8, 0xF9#8], .movToTr .tr7 .ecx)] : List (List Byte × Instr)).all (fun p => decodes .s32 p.1 p.2) = true := by decide

theorem test_decode_fpuArith : ([
    ([0xD8#8, 0x03#8], .fadd (.m32 (.ind32 .ebx .none))),
    ([0xDC#8, 0x03#8], .fadd (.m64 (.ind32 .ebx .none))),
    ([0xD8#8, 0xC2#8], .fadd (.toSt 2)),
    ([0xD8#8, 0x0B#8], .fmul (.m32 (.ind32 .ebx .none))),
    ([0xDC#8, 0x0B#8], .fmul (.m64 (.ind32 .ebx .none))),
    ([0xD8#8, 0xCA#8], .fmul (.toSt 2)),
    ([0xD8#8, 0x13#8], .fcom (.m32 (.ind32 .ebx .none))),
    ([0xDC#8, 0x13#8], .fcom (.m64 (.ind32 .ebx .none))),
    ([0xD8#8, 0xD2#8], .fcom (.st 2)),
    ([0xD8#8, 0x1B#8], .fcomp (.m32 (.ind32 .ebx .none))),
    ([0xDC#8, 0x1B#8], .fcomp (.m64 (.ind32 .ebx .none))),
    ([0xD8#8, 0xDA#8], .fcomp (.st 2)),
    ([0xD8#8, 0x23#8], .fsub (.m32 (.ind32 .ebx .none))),
    ([0xDC#8, 0x23#8], .fsub (.m64 (.ind32 .ebx .none))),
    ([0xD8#8, 0xE2#8], .fsub (.toSt 2)),
    ([0xD8#8, 0x2B#8], .fsubr (.m32 (.ind32 .ebx .none))),
    ([0xDC#8, 0x2B#8], .fsubr (.m64 (.ind32 .ebx .none))),
    ([0xD8#8, 0xEA#8], .fsubr (.toSt 2)),
    ([0xD8#8, 0x33#8], .fdiv (.m32 (.ind32 .ebx .none))),
    ([0xDC#8, 0x33#8], .fdiv (.m64 (.ind32 .ebx .none))),
    ([0xD8#8, 0xF2#8], .fdiv (.toSt 2)),
    ([0xD8#8, 0x3B#8], .fdivr (.m32 (.ind32 .ebx .none))),
    ([0xDC#8, 0x3B#8], .fdivr (.m64 (.ind32 .ebx .none))),
    ([0xD8#8, 0xFA#8], .fdivr (.toSt 2)),
    ([0xDC#8, 0xC3#8], .fadd (.toSti 3)),
    ([0xDE#8, 0xC3#8], .faddp 3),
    ([0xDC#8, 0xCB#8], .fmul (.toSti 3)),
    ([0xDE#8, 0xCB#8], .fmulp 3),
    ([0xDC#8, 0xE3#8], .fsubr (.toSti 3)),
    ([0xDE#8, 0xE3#8], .fsubrp 3),
    ([0xDC#8, 0xEB#8], .fsub (.toSti 3)),
    ([0xDE#8, 0xEB#8], .fsubp 3),
    ([0xDC#8, 0xF3#8], .fdivr (.toSti 3)),
    ([0xDE#8, 0xF3#8], .fdivrp 3),
    ([0xDC#8, 0xFB#8], .fdiv (.toSti 3)),
    ([0xDE#8, 0xFB#8], .fdivp 3),
    ([0xDA#8, 0x03#8], .fiadd (.m32 (.ind32 .ebx .none))),
    ([0xDE#8, 0x03#8], .fiadd (.m16 (.ind32 .ebx .none))),
    ([0xDA#8, 0x0B#8], .fimul (.m32 (.ind32 .ebx .none))),
    ([0xDE#8, 0x0B#8], .fimul (.m16 (.ind32 .ebx .none))),
    ([0xDA#8, 0x13#8], .ficom (.m32 (.ind32 .ebx .none))),
    ([0xDE#8, 0x13#8], .ficom (.m16 (.ind32 .ebx .none))),
    ([0xDA#8, 0x1B#8], .ficomp (.m32 (.ind32 .ebx .none))),
    ([0xDE#8, 0x1B#8], .ficomp (.m16 (.ind32 .ebx .none))),
    ([0xDA#8, 0x23#8], .fisub (.m32 (.ind32 .ebx .none))),
    ([0xDE#8, 0x23#8], .fisub (.m16 (.ind32 .ebx .none))),
    ([0xDA#8, 0x2B#8], .fisubr (.m32 (.ind32 .ebx .none))),
    ([0xDE#8, 0x2B#8], .fisubr (.m16 (.ind32 .ebx .none))),
    ([0xDA#8, 0x33#8], .fidiv (.m32 (.ind32 .ebx .none))),
    ([0xDE#8, 0x33#8], .fidiv (.m16 (.ind32 .ebx .none))),
    ([0xDA#8, 0x3B#8], .fidivr (.m32 (.ind32 .ebx .none))),
    ([0xDE#8, 0x3B#8], .fidivr (.m16 (.ind32 .ebx .none)))] : List (List Byte × Instr)).all (fun p => decodes .s32 p.1 p.2) = true := by decide

theorem test_decode_fpuRest : ([
    ([0xDE#8, 0xD9#8], .fcompp),
    ([0xDD#8, 0xE1#8], .fucom 1),
    ([0xDD#8, 0xE9#8], .fucomp 1),
    ([0xDA#8, 0xE9#8], .fucompp),
    ([0xD9#8, 0xE4#8], .ftst),
    ([0xD9#8, 0xE5#8], .fxam),
    ([0xD9#8, 0xE1#8], .fabs),
    ([0xD9#8, 0xE0#8], .fchs),
    ([0xD9#8, 0xFA#8], .fsqrt),
    ([0xD9#8, 0xFC#8], .frndint),
    ([0xD9#8, 0xFD#8], .fscale),
    ([0xD9#8, 0xF4#8], .fxtract),
    ([0xD9#8, 0xF8#8], .fprem),
    ([0xD9#8, 0xF5#8], .fprem1),
    ([0xD9#8, 0xF0#8], .f2xm1),
    ([0xD9#8, 0xFF#8], .fcos),
    ([0xD9#8, 0xFE#8], .fsin),
    ([0xD9#8, 0xF2#8], .fptan),
    ([0xD9#8, 0xFB#8], .fsincos),
    ([0xD9#8, 0xF3#8], .fpatan),
    ([0xD9#8, 0xF1#8], .fyl2x),
    ([0xD9#8, 0xF9#8], .fyl2xp1),
    ([0xD9#8, 0xE8#8], .fld1),
    ([0xD9#8, 0xEE#8], .fldz),
    ([0xD9#8, 0xEA#8], .fldl2e),
    ([0xD9#8, 0xE9#8], .fldl2t),
    ([0xD9#8, 0xEC#8], .fldlg2),
    ([0xD9#8, 0xED#8], .fldln2),
    ([0xD9#8, 0xEB#8], .fldpi),
    ([0xD9#8, 0x03#8], .fld (.m32 (.ind32 .ebx .none))),
    ([0xDD#8, 0x03#8], .fld (.m64 (.ind32 .ebx .none))),
    ([0xDB#8, 0x2B#8], .fld (.m80 (.ind32 .ebx .none))),
    ([0xD9#8, 0xC2#8], .fld (.st 2)),
    ([0xDF#8, 0x03#8], .fild (.m16 (.ind32 .ebx .none))),
    ([0xDB#8, 0x03#8], .fild (.m32 (.ind32 .ebx .none))),
    ([0xDF#8, 0x2B#8], .fild (.m64 (.ind32 .ebx .none))),
    ([0xDF#8, 0x23#8], .fbld (.ind32 .ebx .none)),
    ([0xDF#8, 0x33#8], .fbstp (.ind32 .ebx .none)),
    ([0xD9#8, 0x13#8], .fst (.m32 (.ind32 .ebx .none))),
    ([0xDD#8, 0x13#8], .fst (.m64 (.ind32 .ebx .none))),
    ([0xDD#8, 0xD2#8], .fst (.st 2)),
    ([0xD9#8, 0x1B#8], .fstp (.m32 (.ind32 .ebx .none))),
    ([0xDD#8, 0x1B#8], .fstp (.m64 (.ind32 .ebx .none))),
    ([0xDB#8, 0x3B#8], .fstp (.m80 (.ind32 .ebx .none))),
    ([0xDD#8, 0xDA#8], .fstp (.st 2)),
    ([0xDF#8, 0x13#8], .fist (.m16 (.ind32 .ebx .none))),
    ([0xDB#8, 0x13#8], .fist (.m32 (.ind32 .ebx .none))),
    ([0xDF#8, 0x1B#8], .fistp (.m16 (.ind32 .ebx .none))),
    ([0xDB#8, 0x1B#8], .fistp (.m32 (.ind32 .ebx .none))),
    ([0xDF#8, 0x3B#8], .fistp (.m64 (.ind32 .ebx .none))),
    ([0xD9#8, 0xCA#8], .fxch 2),
    ([0xD9#8, 0xF6#8], .fdecstp),
    ([0xD9#8, 0xF7#8], .fincstp),
    ([0xDD#8, 0xC2#8], .ffree 2),
    ([0xDB#8, 0xE2#8], .fnclex),
    ([0xDB#8, 0xE3#8], .fninit),
    ([0xD9#8, 0xD0#8], .fnop),
    ([0xDB#8, 0xE0#8], .fpuNop .feni),
    ([0xDB#8, 0xE1#8], .fpuNop .fdisi),
    ([0xDB#8, 0xE4#8], .fpuNop .fsetpm),
    ([0xD9#8, 0x2B#8], .fldcw (.ind32 .ebx .none)),
    ([0xD9#8, 0x3B#8], .fnstcw (.ind32 .ebx .none)),
    ([0xDD#8, 0x3B#8], .fnstsw (.mem (.ind32 .ebx .none))),
    ([0xDF#8, 0xE0#8], .fnstsw .ax),
    ([0xD9#8, 0x33#8], .fnstenv .s32 (.ind32 .ebx .none)),
    ([0xD9#8, 0x23#8], .fldenv .s32 (.ind32 .ebx .none)),
    ([0xDD#8, 0x33#8], .fnsave .s32 (.ind32 .ebx .none)),
    ([0xDD#8, 0x23#8], .frstor .s32 (.ind32 .ebx .none))] : List (List Byte × Instr)).all (fun p => decodes .s32 p.1 p.2) = true := by decide

/-- A second name of a condition or of SHL: the words are those of the first (30 R360). -/
theorem test_decode_synonyms : ([
    ([0x72#8, 1#8], .jc (.r8 .s32 1#8)), ([0x72#8, 1#8], .jnae (.r8 .s32 1#8)), ([0x73#8, 1#8], .jnb (.r8 .s32 1#8)),
    ([0x73#8, 1#8], .jnc (.r8 .s32 1#8)), ([0x74#8, 1#8], .jz (.r8 .s32 1#8)), ([0x75#8, 1#8], .jnz (.r8 .s32 1#8)),
    ([0x76#8, 1#8], .jna (.r8 .s32 1#8)), ([0x77#8, 1#8], .jnbe (.r8 .s32 1#8)), ([0x7A#8, 1#8], .jpe (.r8 .s32 1#8)),
    ([0x7B#8, 1#8], .jpo (.r8 .s32 1#8)), ([0x7C#8, 1#8], .jnge (.r8 .s32 1#8)), ([0x7D#8, 1#8], .jnl (.r8 .s32 1#8)),
    ([0x7E#8, 1#8], .jng (.r8 .s32 1#8)), ([0x7F#8, 1#8], .jnle (.r8 .s32 1#8)), ([0xD1#8, 0xE0#8], .sal .dword (.reg .eax) .one),
    ([0x9B#8], .fwait)] :
    List (List Byte × Instr)).all (fun p => decodes .s32 p.1 p.2.canonical && decide (encode p.2 = p.1)) = true := by decide

/-- A wait form is WAIT and then its no-wait form (46 R708). -/
theorem test_decode_wait_forms : ([
    ([0x9B#8, 0xDB#8, 0xE2#8], .fclex), ([0x9B#8, 0xDB#8, 0xE3#8], .finit), ([0x9B#8, 0xDD#8, 0x33#8], .fsave .s32 (.ind32 .ebx .none)),
    ([0x9B#8, 0xD9#8, 0x3B#8], .fstcw (.ind32 .ebx .none)), ([0x9B#8, 0xD9#8, 0x33#8], .fstenv .s32 (.ind32 .ebx .none)),
    ([0x9B#8, 0xDF#8, 0xE0#8], .fstsw .ax)] : List (List Byte × Instr)).all (fun p =>
      decide (encode p.2 = p.1) && decodes .s32 (p.1.take 1) .wait &&
        (match p.2.noWait with
         | some j => decodes .s32 (p.1.drop 1) j
         | none => false)) = true := by decide

/-- Undefined opcodes are rejected by name, and a prefix of an instruction asks for more bytes. -/
theorem test_decode_rejects :
    (match decodeInstr .s32 [0x0F#8, 0xFF#8] with | .error .undefined _ => true | _ => false) = true ∧
    (match decodeInstr .s32 [0xD9#8, 0xD1#8] with | .error .undefinedEsc _ => true | _ => false) = true ∧
    (match decodeInstr .s32 [0x81#8, 0xC0#8, 1#8] with | .error .truncated _ => true | _ => false) = true := by decide

/-! States to run on. -/

/-- Real Mode at 0:0100h, the stack at 0:1000h, no cache; ST holds 1.5, ST(1) 3. -/
def real : State :=
  { State.reset with
    gpr := { eax := 0x12345678#32, ecx := 3#32, edx := 0#32, ebx := 0x300#32,
             esp := 0x1000#32, ebp := 0x1100#32, esi := 0x400#32, edi := 0x500#32 }
    eip := 0x100#32
    seg := { State.reset.seg with cs := .real 0#16 0#32 }
    fpu := { Fpu.init with
             regs := ((Vector.replicate 8 0#80).set 0 (fpMake false 0x3FFF#15 0xC000000000000000#64)).set 1
               (fpMake false 0x4000#15 0xC000000000000000#64)
             empty := ((Vector.replicate 8 true).set 0 false).set 1 false }
    bufferSpoiled := true
    insn := .idle 0x100#32 }

/-- Protected Mode at level 0 with a GDT at 2000h: data (8), conforming code (10h), a free TSS (18h), an LDT (20h), code (28h). -/
def prot : State :=
  { real with
    cr0 := 0x60000011#32
    gdtr := { base := 0x2000#32, limit := 0x3F#16 }
    mem := [(0x2008, 0xFF#8), (0x2009, 0xFF#8), (0x200D, 0x93#8), (0x200E, 0x40#8), (0x2010, 0xFF#8), (0x2011, 0xFF#8),
             (0x2015, 0x9F#8), (0x2016, 0x40#8), (0x2018, 0x67#8), (0x201B, 0x30#8), (0x201D, 0x89#8), (0x2020, 0x67#8),
             (0x2023, 0x40#8), (0x2025, 0x82#8), (0x2028, 0xFF#8), (0x2029, 0xFF#8), (0x202D, 0x9B#8), (0x202E, 0x40#8)] }

/-- Virtual 8086 Mode at IOPL 3. -/
def v86 : State := { prot with eflags := 0x00023002#32, cpl := 3#2 }

theorem real_fresh : real.Fresh := ⟨rfl, rfl, rfl, rfl, rfl, rfl⟩
theorem prot_fresh : prot.Fresh := ⟨rfl, rfl, rfl, rfl, rfl, rfl⟩
theorem v86_fresh : v86.Fresh := ⟨rfl, rfl, rfl, rfl, rfl, rfl⟩

/-- A memory operand at 200h. -/
abbrev at200 : Mem := .abs16 0x200#16

/-- Does a computation complete? -/
def ok? {α : Type} (m : M α) (s : State) : Bool :=
  match m s with
  | .ok _ _ => true
  | .error _ _ => false

/-- Does a computation answer this value? -/
def okIs {α : Type} [DecidableEq α] (m : M α) (s : State) (a : α) : Bool :=
  match m s with
  | .ok b _ => decide (b = a)
  | .error _ _ => false

/-- Does a computation answer this value and leave this state? -/
def okTo {α : Type} [DecidableEq α] (m : M α) (s : State) (a : α) (t : State) : Bool :=
  match m s with
  | .ok b u => decide (b = a) && decide (u = t)
  | .error _ _ => false

theorem exists_ok {α : Type} {m : M α} {s : State} (h : ok? m s = true) : ∃ v t, m s = .ok v t := by
  unfold ok? at h
  split at h
  · exact ⟨_, _, ‹_›⟩
  · exact absurd h (by decide)

theorem exists_ok2 {α β : Type} {x : M α} {y : M β} {s : State} (h : ok? (x >>= fun _ => y) s = true) :
    ∃ a s1 b s2, x s = .ok a s1 ∧ y s1 = .ok b s2 := by
  obtain ⟨b, t, h⟩ := exists_ok h
  obtain ⟨a, u, h1, h2⟩ := bind_ok_iff.mp h
  exact ⟨a, u, b, t, h1, h2⟩

theorem of_okTo {α : Type} [DecidableEq α] {m : M α} {s t : State} {a : α} (h : okTo m s a t = true) : m s = .ok a t := by
  unfold okTo at h
  split at h
  · rw [Bool.and_eq_true, decide_eq_true_eq, decide_eq_true_eq] at h
    rename_i g
    rw [g, h.1, h.2]
  · exact absurd h (by decide)

/-- Can these pushes be made? -/
def pushesOk (n : Nat) : List Nat → State → Bool
  | [], _ => true
  | v :: l, s => s.pushFits n &&
    match memWrite s.stackSize .ss (s.pushOff n) n n v s with
    | .ok _ u => pushesOk n l (u.moveSp (-BitVec.ofNat 32 n))
    | .error _ _ => false

theorem exists_pushes {n : Nat} {l : List Nat} {s : State} (h : pushesOk n l s = true) : ∃ t, pushesTo n l s t := by
  induction l generalizing s with
  | nil => exact ⟨s, rfl⟩
  | cons v l ih =>
    simp only [pushesOk, Bool.and_eq_true] at h
    obtain ⟨h, g⟩ := h
    split at g
    · obtain ⟨t, ht⟩ := ih g
      exact ⟨t, h, _, ‹_›, ht⟩
    · exact absurd g (by decide)

theorem then_ok {α β : Type} {x : M α} {f : α → M β} {s : State} (h : ok? (x >>= f) s = true) :
    ∃ a t, x s = .ok a t ∧ ok? (f a) t = true := by
  obtain ⟨b, u, h⟩ := exists_ok h
  obtain ⟨a, t, h1, h2⟩ := bind_ok_iff.mp h
  exact ⟨a, t, h1, by simp [ok?, h2]⟩

/-- A push as `pushesTo` has it. -/
def pushOne (n v : Nat) : M Unit := do
  let s ← get
  check (s.pushFits n) excAC
  memWrite s.stackSize .ss (s.pushOff n) n n v
  modify fun u => u.moveSp (-BitVec.ofNat 32 n)

theorem pushOne_ok {n v : Nat} {s t : State} (h : pushOne n v s = .ok () t) : pushesTo n [v] s t := by
  unfold pushOne at h
  rw [get_then] at h
  obtain ⟨_, u, h1, h2⟩ := bind_ok_iff.mp h
  obtain ⟨hf, rfl⟩ := check_ok_iff.mp h1
  obtain ⟨_, w, h3, h4⟩ := bind_ok_iff.mp h2
  cases h4
  exact ⟨hf, w, h3, rfl⟩

/-! Hypotheses that can be met, statement by statement. -/

theorem witness_AluComplete_writers : ∃ p ∈ aluWriters, ∃ (f : AluForm) (s s1 s2 s3 : State) (b a : BitVec f.width.bits),
    s.Fresh ∧ aluSource f s = .ok b s1 ∧ updateRM f.width f.dst s1 = .ok a s2 ∧
    writeRM f.width (p.2 _ a b s.cf).1 f.dst s2 = .ok () s3 :=
  ⟨_, List.mem_of_getElem? (i := 1) rfl, .rmReg .dword (.mem at200) .ebx, real, _, _, _, _, _, real_fresh, rfl, rfl, rfl⟩

theorem witness_AluComplete_compares :
    (∃ (f : AluForm) (s s1 s2 : State) (b a : BitVec f.width.bits), s.Fresh ∧
      aluSource f s = .ok b s1 ∧ readRM f.width f.dst s1 = .ok a s2) ∧
    (∃ (f : TestForm) (s s1 s2 : State) (b a : BitVec f.width.bits), s.Fresh ∧
      testSource f s = .ok b s1 ∧ readRM f.width f.dst s1 = .ok a s2) :=
  ⟨⟨.rmReg .dword (.mem at200) .ebx, real, _, _, _, _, real_fresh, rfl, rfl⟩,
   ⟨.rmReg .dword (.mem at200) .ebx, real, _, _, _, _, real_fresh, rfl, rfl⟩⟩

/-- What `Modifies` asks for, by INC, NEG and a shift; NOT and DEC ask the same. -/
theorem witness_UnaryComplete : ∃ (w : Width) (x : RM) (s s1 s2 : State) (a : BitVec w.bits), s.Fresh ∧
    updateRM w x s = .ok a s1 ∧ writeRM w (incOp a).1 x s1 = .ok () s2 :=
  ⟨.word, .mem at200, real, _, _, _, real_fresh, rfl, rfl⟩

theorem witness_ShiftsComplete : ∃ p ∈ shifters, ∃ (w : Width) (x : RM) (c : Count) (s s1 s2 : State) (a : BitVec w.bits),
    s.Fresh ∧ updateRM w x s = .ok a s1 ∧ writeRM w (p.2 _ a s.cf (s.count c)).1 x s1 = .ok () s2 :=
  ⟨_, List.mem_of_getElem? (i := 2) rfl, .byte, .mem at200, .cl, real, _, _, _, real_fresh, rfl, rfl⟩

theorem witness_DoubleShiftsComplete : ∃ p ∈ doubleShifters, ∃ (os : Size) (x : RM) (r : Reg) (s s1 : State)
    (d : BitVec os.width.bits), s.Fresh ∧ updateRM os.width x s = .ok d s1 ∧
    (s.dcount (.imm 32#8) = 0 ∧ ∃ s2, writeRM os.width d x s1 = .ok () s2) ∧
    (0 < s.dcount (.imm 15#8) ∧ s.dcount (.imm 15#8) < os.bits ∧
      ∃ s2, writeRM os.width (p.2 _ d (s.gpr.read os.width r) (s.dcount (.imm 15#8))).1 x s1 = .ok () s2) ∧
    (os.bits ≤ s.dcount (.imm 16#8) ∧ ∀ v, ∃ s2, writeRM os.width v x { s1 with freeCtr := s1.freeCtr + 1 } = .ok () s2) :=
  ⟨_, List.mem_of_getElem? (i := 0) rfl, .s16, .reg .edx, .ebx, real, _, _, real_fresh, rfl, ⟨rfl, _, rfl⟩,
    ⟨by decide, by decide, _, rfl⟩, by decide, fun _ => ⟨_, rfl⟩⟩

/-- `real` with a bit offset of -1 in EAX. -/
def backwards : State := { real with gpr := { real.gpr with eax := 0xFFFFFFFF#32 } }

theorem witness_BitTestsComplete : ∃ (f f' : BitForm) (m : Mem) (s : State), s.Fresh ∧ bitDst f = .reg .ebx ∧
    bitDst f' = .mem m ∧ (∃ p ∈ bitTests, p.2 = none) ∧ (∃ p ∈ bitTests, p.2.isSome = true) ∧
    (∃ n s1, memRead m.as (s.segOf m) (bitSpot f' s.gpr).1 (bitWidth f').bytes 4 s = .ok n s1) ∧
    (∃ n s1 s2, memReadWrite m.as (s.segOf m) (bitSpot f' s.gpr).1 (bitWidth f').bytes 4 s = .ok n s1 ∧
      memWrite m.as (s.segOf m) (bitSpot f' s.gpr).1 (bitWidth f').bytes 4
        (bitAfter (some (!·)) (BitVec.ofNat (bitWidth f').bits n) (bitSpot f' s.gpr).2).toNat s1 = .ok () s2) :=
  ⟨.imm .s32 (.reg .ebx) 31#8, .reg .s32 (.mem at200) .eax, at200, backwards,
    ⟨rfl, rfl, rfl, rfl, rfl, rfl⟩, rfl, rfl, ⟨_, List.mem_of_getElem? (i := 0) rfl, rfl⟩,
    ⟨_, List.mem_of_getElem? (i := 1) rfl, rfl⟩, ⟨0, backwards, rfl⟩, 0, backwards, _, rfl, rfl⟩

theorem witness_ScansComplete :
    (∃ (os : Size) (x : RM) (s s1 : State) (v : BitVec os.width.bits), s.Fresh ∧ readRM os.width x s = .ok v s1 ∧ v ≠ 0) ∧
    (∃ (os : Size) (x : RM) (s s1 : State) (v : BitVec os.width.bits), s.Fresh ∧ readRM os.width x s = .ok v s1 ∧ v = 0) :=
  ⟨⟨.s32, .reg .eax, real, _, _, real_fresh, rfl, by decide⟩, ⟨.s32, .mem at200, real, _, _, real_fresh, rfl, by decide⟩⟩

theorem witness_SetccComplete : ∃ p ∈ setters, ∃ (x : RM) (s s1 : State), s.Fresh ∧
    writeRM .byte (if s.cond p.2 then 1#8 else 0#8) x s = .ok () s1 :=
  ⟨_, List.mem_of_getElem? (i := 1) rfl, .mem at200, real, _, real_fresh, rfl⟩

theorem witness_ConversionsComplete : real.Fresh := real_fresh

theorem witness_FlagMovesComplete : (∃ s : State, s.Fresh ∧ s.real = true) ∧
    (∃ s : State, s.Fresh ∧ s.real = false ∧ s.cpl.toNat ≤ s.iopl.toNat) :=
  ⟨⟨real, real_fresh, rfl⟩, ⟨v86, v86_fresh, rfl, by decide⟩⟩

theorem witness_DecimalAdjustsComplete : ∃ (s : State) (base : Byte), s.Fresh ∧ base ≠ 0#8 :=
  ⟨real, 10#8, real_fresh, by decide⟩

theorem witness_MultipliesComplete :
    (∃ (w : Width) (x : RM) (s s1 : State) (v : BitVec w.bits), s.Fresh ∧ readRM w x s = .ok v s1) ∧
    (∃ (f : ImulForm) (w : Width) (r : Reg) (x : RM) (b : Int) (s s1 : State) (v : BitVec w.bits), s.Fresh ∧
      readRM w x s = .ok v s1 ∧ ∃ os, w = os.width ∧ (f = .two os r x ∧ b = (s.gpr.read w r).toInt)) ∧
    (∃ (f : ImulForm) (w : Width) (r : Reg) (x : RM) (b : Int) (s s1 : State) (v : BitVec w.bits), s.Fresh ∧
      readRM w x s = .ok v s1 ∧ ∃ i : Imm, w = i.width ∧ f = .three r x i ∧ b = i.val.toInt) :=
  ⟨⟨.dword, .reg .eax, real, _, _, real_fresh, rfl⟩,
   ⟨_, .dword, .ecx, .reg .eax, _, real, _, _, real_fresh, rfl, .s32, rfl, rfl, rfl⟩,
   ⟨_, .dword, .ecx, .reg .eax, _, real, _, _, real_fresh, rfl, .i32 7#32, rfl, rfl, rfl⟩⟩

theorem witness_DividesComplete : ∃ (w : Width) (x : RM) (s s1 : State) (v : BitVec w.bits), s.Fresh ∧
    readRM w x s = .ok v s1 ∧ v ≠ 0 ∧ (s.gpr.wide w).toNat / v.toNat < 2 ^ w.bits ∧
    -(2 ^ (w.bits - 1) : Int) ≤ (s.gpr.wide w).toInt.tdiv v.toInt ∧
    (s.gpr.wide w).toInt.tdiv v.toInt < 2 ^ (w.bits - 1) :=
  ⟨.dword, .reg .ecx, real, _, _, real_fresh, rfl, by decide, by decide, by decide, by decide⟩

theorem witness_ExchangesComplete :
    (∃ (w : Width) (x : RM) (r : Reg) (s s1 s2 : State) (d : BitVec w.bits), s.Fresh ∧ updateRM w x s = .ok d s1 ∧
      s.gpr.read w .eax = d ∧ writeRM w (s.gpr.read w r) x s1 = .ok () s2) ∧
    (∃ (w : Width) (m : Mem) (r : Reg) (s s1 s2 s3 : State) (d : BitVec w.bits), s.Fresh ∧
      updateRM w (.mem m) s = .ok d s1 ∧ s.gpr.read w .eax ≠ d ∧ writeRM w d (.mem m) s1 = .ok () s2 ∧
      writeMem w m (BitVec.ofNat _ (d.toNat + (s.gpr.read w r).toNat)) s1 = .ok () s3) ∧
    (∃ (w : Width) (m : Mem) (r : Reg) (s s1 s2 : State) (d : BitVec w.bits), s.Fresh ∧
      updateMem w m s.locked = .ok d s1 ∧ writeMem w m (s.gpr.read w r) s1 = .ok () s2) :=
  ⟨⟨.byte, .mem at200, .ebx, { real with gpr := { real.gpr with eax := 0#32 } }, _, _, _,
      ⟨rfl, rfl, rfl, rfl, rfl, rfl⟩, rfl, rfl, rfl⟩,
   ⟨.dword, at200, .ebx, real, _, _, _, _, real_fresh, rfl, by decide, rfl, rfl⟩,
   ⟨.dword, at200, .ebx, real, _, _, _, real_fresh, rfl, rfl⟩⟩

theorem witness_MovesComplete : ∃ s : State, s.Fresh ∧
    (∃ w x r s1, writeRM w (s.gpr.read w r) x s = .ok () s1) ∧ (∃ w x v s1, readRM w x s = .ok v s1) ∧
    (∃ (w : Width) (o : Offset) (n : Nat) (s1 : State), memRead o.size (s.segOr .ds) o.val w.bytes w.bytes s = .ok n s1) ∧
    (∃ (w : Width) (o : Offset) (s1 : State),
      memWrite o.size (s.segOr .ds) o.val w.bytes w.bytes (s.gpr.read w .eax).toNat s = .ok () s1) ∧
    (∃ x, ∃ v : Imm, ∃ s1, writeRM v.width v.val x s = .ok () s1) :=
  ⟨real, real_fresh, ⟨.dword, .mem at200, .ebx, _, rfl⟩, ⟨.dword, .mem at200, _, _, rfl⟩, ⟨.word, .o16 0xFFFE#16, _, _, rfl⟩,
    ⟨.word, .o16 0xFFFE#16, _, rfl⟩, .mem at200, .i8 1#8, _, rfl⟩

theorem witness_ExtensionsComplete : ∃ s : State, s.Fresh ∧ (∃ x v s1, readRM .byte x s = .ok v s1) ∧
    (∃ x v s1, readRM .word x s = .ok v s1) ∧
    (∃ (as : Size) (n : Nat) (s1 : State),
      memRead as (s.segOr .ds) (as.trunc (s.gpr.ebx + (s.gpr.read .byte .eax).setWidth 32)) 1 1 s = .ok n s1) ∧
    (∃ r x s1, writeRM .word (s.seg.get r).sel x s = .ok () s1) :=
  ⟨real, real_fresh, ⟨.mem at200, _, _, rfl⟩, ⟨.mem at200, _, _, rfl⟩, ⟨.s16, _, _, rfl⟩, .ds, .mem at200, _, rfl⟩

theorem witness_PortsComplete :
    (∃ (f : IoForm) (s s1 : State) (p : Word16) (w : Width), s.Fresh ∧ (∃ n, f = .imm w n ∧ p = n.setWidth 16) ∧
      ioPermit p w.bytes s = .ok () s1) ∧
    (∃ (f : IoForm) (s s1 : State) (p : Word16) (w : Width), s.Fresh ∧ (f = .dx w ∧ p = s.gpr.edx.setWidth 16) ∧
      ioPermit p w.bytes s = .ok () s1) :=
  ⟨⟨_, real, _, _, .byte, real_fresh, ⟨0x60#8, rfl, rfl⟩, rfl⟩, ⟨_, real, _, _, .byte, real_fresh, ⟨rfl, rfl⟩, rfl⟩⟩

theorem witness_SegmentLoadsComplete : ∃ s : State, s.Fresh ∧
    (∃ r x v s1 s2, r ≠ .cs ∧ readRM .word x s = .ok v s1 ∧ loadSeg r v s1 = .ok () s2) ∧
    (∃ (os : Size) (r : SReg) (v : Nat) (s1 s2 : State), r ≠ .cs ∧ stackRead 0 os.bytes s = .ok v s1 ∧
      loadSeg r (BitVec.ofNat 16 v) (s1.moveSp (BitVec.ofNat 32 os.bytes)) = .ok () s2) ∧
    (∃ p ∈ farLoaders, ∃ os m f s1 s2, readFar os m s = .ok f s1 ∧ loadSeg p.2 f.2 s1 = .ok () s2) :=
  ⟨{ prot with gpr := { prot.gpr with eax := 8#32 } }, ⟨rfl, rfl, rfl, rfl, rfl, rfl⟩,
    ⟨.ss, .reg .eax, _, _, _, by decide, rfl, rfl⟩, ⟨.s16, .ds, _, _, _, by decide, rfl, rfl⟩,
    _, List.mem_of_getElem? (i := 0) rfl, .s16, at200, _, _, _, rfl, rfl⟩

theorem witness_SegmentRegisterRules :
    (∃ r v s t, loadSeg r v s = .ok () t ∧ s.real = true) ∧ (∃ r v s t, loadSeg r v s = .ok () t ∧ s.v86 = true) ∧
    (∃ r v s t, loadSeg r v s = .ok () t ∧ s.prot = true ∧ selNull v = true) ∧
    (∃ v s t, loadSeg .ss v s = .ok () t ∧ s.prot = true ∧ selNull v = false) ∧
    (∃ v s t, loadSeg .ds v s = .ok () t ∧ s.prot = true ∧ selNull v = false) :=
  ⟨⟨.ds, 0x1234#16, real, _, rfl, rfl⟩, ⟨.ds, 0x1234#16, v86, _, rfl, rfl⟩, ⟨.ds, 3#16, prot, _, rfl, rfl, rfl⟩,
    ⟨8#16, prot, _, rfl, rfl, rfl⟩, ⟨0x10#16, prot, _, rfl, rfl, rfl⟩⟩

theorem witness_PushesComplete :
    (∃ (s s1 s2 : State) (n v : Nat) (os : Size) (x : RM) (b : BitVec os.width.bits), s.Fresh ∧ n = os.bytes ∧
      readRM os.width x s = .ok b s1 ∧ v = b.toNat ∧ ¬ (s.v86 = true ∧ s.sp = 1#32) ∧ pushesTo n [v] s1 s2) ∧
    (∃ (s s2 : State) (n v : Nat) (os : Size) (r : SReg), s.Fresh ∧ n = os.bytes ∧ v = (s.seg.get r).sel.toNat ∧
      ¬ (s.v86 = true ∧ s.sp = 1#32) ∧ pushesTo n [v] s s2) :=
  ⟨⟨real, _, _, _, _, .s16, .mem at200, _, real_fresh, rfl, rfl, rfl, by decide, rfl, _, rfl, rfl⟩,
   ⟨v86, _, _, _, .s32, .ds, v86_fresh, rfl, rfl, by decide, rfl, _, rfl, rfl⟩⟩

theorem witness_FlagStackComplete : ∃ s : State, s.Fresh ∧ (s.v86 = true → s.iopl = 3#2) ∧
    (∃ s2, pushesTo 2 [(s.eflags &&& 0xFFFDFFFF#32).toNat % 2 ^ 16] s s2) ∧
    (∃ s2, pushesTo 4 [(s.eflags &&& 0xFFFDFFFF#32).toNat] s s2) ∧
    (∃ v s1, stackRead 0 2 s = .ok v s1) ∧ (∃ v s1, stackRead 0 4 s = .ok v s1) :=
  ⟨v86, v86_fresh, fun _ => rfl, ⟨_, rfl, _, rfl, rfl⟩, ⟨_, rfl, _, rfl, rfl⟩, ⟨_, _, rfl⟩, _, _, rfl⟩

theorem witness_PopsComplete : ∃ (os : Size) (s s1 : State) (v : Nat), s.Fresh ∧ stackRead 0 os.bytes s = .ok v s1 ∧
    ∃ x s2, writeRM os.width (BitVec.ofNat _ v) x (s1.moveSp (BitVec.ofNat 32 os.bytes)) = .ok () s2 :=
  ⟨.s32, real, real, 0, real_fresh, rfl, .mem (.ind32 .esp .none), _, rfl⟩

theorem witness_AllRegistersComplete : ∃ (os : Size) (s : State), s.Fresh ∧
    (∃ s2, pushAllCheck os.bytes s = .ok () s ∧
      pushesTo os.bytes ([Reg.eax, .ecx, .edx, .ebx, .esp, .ebp, .esi, .edi].map fun r => (s.gpr.read os.width r).toNat) s s2) ∧
    (∃ s2 di si bp x bx dx cx ax, s.topOk (8 * os.bytes) = true ∧
      stackItems os.bytes 0 8 s = .ok [di, si, bp, x, bx, dx, cx, ax] s2) :=
  ⟨.s16, real, real_fresh, (exists_pushes (by decide +kernel)).imp fun _ h => ⟨rfl, h⟩, real, 0, 0, 0, 0, 0, 0, 0, 0,
    by decide +kernel, of_okTo (by decide +kernel)⟩

theorem witness_FramesComplete :
    (∃ (os : Size) (s s1 s2 s3 : State) (lev : Byte) (vs : List Nat), s.Fresh ∧ lev.toNat % 32 = vs.length + 1 ∧
      pushesTo os.bytes [(s.gpr.read os.width .ebp).toNat] s s1 ∧ copiesTo os vs s1.commitStores s2 ∧
      pushesTo os.bytes [((s.moveSp (-BitVec.ofNat 32 os.bytes)).sp.setWidth os.width.bits).toNat] s2 s3) ∧
    (∃ (os : Size) (s s1 : State) (lev : Byte), s.Fresh ∧ lev.toNat % 32 = 0 ∧
      pushesTo os.bytes [(s.gpr.read os.width .ebp).toNat] s s1) ∧
    (∃ (os : Size) (s s1 : State) (v : Nat), s.Fresh ∧
      stackRead 0 os.bytes { s with gpr := { s.gpr with esp := s.stackSize.merge s.gpr.esp s.gpr.ebp } } = .ok v s1) :=
  ⟨by
    obtain ⟨_, s1, h1, g⟩ := then_ok (show ok? (do
      pushOne 2 (real.gpr.read .word .ebp).toNat
      modify State.commitStores
      let s ← get
      set (s.setGpr (s.gpr.write .word .ebp (BitVec.setWidth _ (Size.s16.trunc (s.gpr.ebp - 2#32)))))
      let v ← memRead .s16 .ss (Size.s16.trunc (s.gpr.ebp - 2#32)) 2 2
      pushOne 2 v
      modify State.commitStores
      pushOne 2 ((real.moveSp (-2#32)).sp.setWidth 16).toNat) real = true by decide +kernel)
    obtain ⟨_, _, e1, g⟩ := then_ok g
    cases e1
    obtain ⟨_, _, e2, g⟩ := then_ok g
    cases e2
    obtain ⟨_, _, e3, g⟩ := then_ok g
    cases e3
    obtain ⟨v, u, h2, g⟩ := then_ok g
    obtain ⟨_, w, h3, g⟩ := then_ok g
    obtain ⟨_, _, e4, g⟩ := then_ok g
    cases e4
    obtain ⟨_, t, h4⟩ := exists_ok g
    exact ⟨.s16, real, s1, w.commitStores, t, 2#8, [v], real_fresh, rfl, pushOne_ok h1, ⟨u, w, h2, pushOne_ok h3, rfl⟩, pushOne_ok h4⟩,
   ⟨.s16, real, _, 32#8, real_fresh, rfl, rfl, _, rfl, rfl⟩, .s16, real, _, _, real_fresh, rfl⟩

theorem witness_StringsComplete : ∃ (as : Size) (w : Width) (s : State), s.Fresh ∧ s.insn.rep = none ∧
    (∃ i, Sized (.lodsb as) (.lodsw · as) i w) ∧ (∃ i, Sized (.stosb as) (.stosw · as) i w) ∧
    (∃ i, Sized (.movsb as) (.movsw · as) i w) ∧ (∃ i, Sized (.cmpsb as) (.cmpsw · as) i w) ∧
    (∃ i, Sized (.scasb as) (.scasw · as) i w) ∧ (∃ i, Sized (.insb as) (.insw · as) i w) ∧
    (∃ i, Sized (.outsb as) (.outsw · as) i w) ∧
    (∃ n s1, memRead as (s.segOr .ds) (s.srcIndex as) w.bytes w.bytes s = .ok n s1) ∧
    (∃ s1, memWrite as .es (s.dstIndex as) w.bytes w.bytes (s.gpr.read w .eax).toNat s = .ok () s1) ∧
    (∃ n s1 s2, segTypeOk s s.seg.es .write = true ∧ segLimitOk as s.seg.es (s.dstIndex as).toNat w.bytes = true ∧
      memRead as (s.segOr .ds) (s.srcIndex as) w.bytes w.bytes s = .ok n s1 ∧
      memWrite as .es (s.dstIndex as) w.bytes w.bytes n s1 = .ok () s2) ∧
    (∃ a b s1 s2, memRead as (s.segOr .ds) (s.srcIndex as) w.bytes w.bytes s = .ok a s1 ∧
      memRead as .es (s.dstIndex as) w.bytes w.bytes s1 = .ok b s2) ∧
    (∃ b s1, memRead as .es (s.dstIndex as) w.bytes w.bytes s = .ok b s1) ∧
    (∃ s1 s2, ioPermit (s.gpr.edx.setWidth 16) w.bytes s = .ok () s1 ∧
      memProbe as .es (s.dstIndex as) w.bytes w.bytes s1 = .ok () s2 ∧
      ∀ v, ∃ s3, memWrite as .es (s.dstIndex as) w.bytes w.bytes v
        { s2 with freeCtr := s2.freeCtr + 1
                  events := s2.events ++ [.ioRead (s.gpr.edx.setWidth 16) w.bytes] } = .ok () s3) ∧
    (∃ n s1 s2, ioPermit (s.gpr.edx.setWidth 16) w.bytes s = .ok () s1 ∧
      memRead as (s.segOr .ds) (s.srcIndex as) w.bytes w.bytes s1 = .ok n s2) :=
  ⟨.s16, .byte, real, real_fresh, rfl, ⟨_, .inl ⟨rfl, rfl⟩⟩, ⟨_, .inl ⟨rfl, rfl⟩⟩, ⟨_, .inl ⟨rfl, rfl⟩⟩, ⟨_, .inl ⟨rfl, rfl⟩⟩,
    ⟨_, .inl ⟨rfl, rfl⟩⟩, ⟨_, .inl ⟨rfl, rfl⟩⟩, ⟨_, .inl ⟨rfl, rfl⟩⟩, ⟨_, _, rfl⟩, ⟨_, rfl⟩, ⟨_, _, _, rfl, rfl, rfl, rfl⟩,
    ⟨_, _, _, _, rfl, rfl⟩, ⟨_, _, rfl⟩, ⟨_, _, rfl, rfl, fun _ => ⟨_, rfl⟩⟩, _, _, _, rfl, rfl⟩

theorem witness_RepeatsComplete :
    (∃ (i : Instr) (as : Size) (cmp : Bool) (body : M Unit) (s : State) (p : Rep), stringBody i = some (as, cmp, body) ∧
      s.Fresh ∧ s.insn.rep = some p ∧ as.trunc s.gpr.ecx = 0#32) ∧
    (∃ (i : Instr) (as : Size) (cmp : Bool) (body : M Unit) (s u : State) (p : Rep), stringBody i = some (as, cmp, body) ∧
      s.Fresh ∧ s.insn.rep = some p ∧ as.trunc s.gpr.ecx ≠ 0#32 ∧ body s = .ok () u) :=
  ⟨⟨.movsb .s16, _, _, _, { real with gpr := { real.gpr with ecx := 0x10000#32 }, insn := { real.insn with rep := some .repe } },
      _, rfl, ⟨rfl, rfl, rfl, rfl, rfl, rfl⟩, rfl, rfl⟩,
   ⟨.scasb .s16, _, _, _, { real with insn := { real.insn with rep := some .repne } }, _, _, rfl,
      ⟨rfl, rfl, rfl, rfl, rfl, rfl⟩, rfl, by decide, rfl⟩⟩

theorem witness_CondJumpsComplete : ∃ p ∈ condJumps, ∃ (d : Rel) (s : State), s.Fresh ∧ s.cond p.2 = false ∧
    ∃ q ∈ condJumps, s.cond q.2 = true ∧ eipOk s.seg.cs.limit (d.os.trunc (s.eip + d.disp)) = true :=
  ⟨_, List.mem_of_getElem? (i := 0) rfl, .r16 0xFEFF#16, real, real_fresh, rfl, _, List.mem_of_getElem? (i := 1) rfl, rfl, rfl⟩

theorem witness_CountJumpsComplete : ∃ (os : Size) (d : Byte), eipOk real.seg.cs.limit (os.trunc (real.eip + d.signExtend 32)) = true ∧
    (∃ s : State, s.Fresh ∧ Size.s16.trunc s.gpr.ecx ≠ 0#32) ∧ (∃ s : State, s.Fresh ∧ Size.s16.trunc s.gpr.ecx = 0#32) ∧
    (∃ (as : Size) (s : State), s.Fresh ∧ as.trunc (as.merge s.gpr.ecx (s.gpr.ecx - 1#32)) = 0#32) ∧
    (∃ p ∈ loopers, ∃ (as : Size) (s : State), s.Fresh ∧ as.trunc (as.merge s.gpr.ecx (s.gpr.ecx - 1#32)) ≠ 0#32 ∧
      p.2 s.zf = true) :=
  ⟨.s16, 0x80#8, rfl, ⟨real, real_fresh, by decide⟩,
    ⟨{ real with gpr := { real.gpr with ecx := 0x10000#32 } }, ⟨rfl, rfl, rfl, rfl, rfl, rfl⟩, rfl⟩,
    ⟨.s16, { real with gpr := { real.gpr with ecx := 1#32 } }, ⟨rfl, rfl, rfl, rfl, rfl, rfl⟩, rfl⟩,
    _, List.mem_of_getElem? (i := 2) rfl, .s16, real, real_fresh, by decide, rfl⟩

theorem witness_NearTransfersComplete :
    (∃ (s : State) (d : Rel) (s2 : State), s.Fresh ∧ eipOk s.seg.cs.limit (d.os.trunc (s.eip + d.disp)) = true ∧
      pushesTo d.os.bytes [(d.os.trunc s.eip).toNat] s s2) ∧
    (∃ (s s1 s2 : State) (os : Size) (x : RM) (v : BitVec os.width.bits), s.Fresh ∧ readRM os.width x s = .ok v s1 ∧
      eipOk s.seg.cs.limit (v.setWidth 32) = true ∧ pushesTo os.bytes [(os.trunc s.eip).toNat] s1 s2) ∧
    (∃ (s s1 : State) (os : Size) (v : Nat), s.Fresh ∧ stackRead 0 os.bytes s = .ok v s1 ∧
      eipOk s.seg.cs.limit (BitVec.ofNat 32 v) = true) :=
  ⟨⟨real, .r16 0xFEFF#16, _, real_fresh, rfl, rfl, _, rfl, rfl⟩,
   ⟨real, _, _, .s16, .mem at200, _, real_fresh, rfl, rfl, rfl, _, rfl, rfl⟩, real, _, .s16, _, real_fresh, rfl, rfl⟩

theorem witness_FarTransfersComplete :
    (∃ (s s1 s2 : State) (f : FarForm) (off : Word32) (x : Word16) (os : Size), s.Fresh ∧ farPointer f s = .ok (off, x, os) s1 ∧
      s.prot = false ∧ eipOk s.seg.cs.limit off = true ∧
      pushesTo os.bytes [s.seg.cs.sel.toNat, (os.trunc s.eip).toNat] s1 s2) ∧
    (∃ (s s1 s2 s3 s4 : State) (f : FarForm) (off : Word32) (x : Word16) (os : Size) (d : Desc), s.Fresh ∧
      farPointer f s = .ok (off, x, os) s1 ∧ s.prot = true ∧ farDesc x s1 = .ok d s2 ∧ farTarget d = .code ∧
      checkDirect x d s2 = .ok () s3 ∧ eipOk d.limit off = true ∧ markAccessed x d s3 = .ok () s4) ∧
    (∃ (s s1 s2 : State) (os : Size) (ip cs : Nat), s.Fresh ∧ s.prot = false ∧ stackRead 0 os.bytes s = .ok ip s1 ∧
      stackRead os.bytes os.bytes s1 = .ok cs s2 ∧ eipOk s.seg.cs.limit (BitVec.ofNat 32 ip) = true) :=
  ⟨⟨real, _, _, .ptr (.o16 0xFFFF#16) 0x1234#16, _, _, _, real_fresh, rfl, rfl, rfl, rfl, _, rfl, rfl, _, rfl, rfl⟩,
   ⟨prot, prot, prot, prot, prot, .ptr (.o16 0xFFFF#16) 0x28#16, _, _, _, { lo := 0x0000FFFF#32, hi := 0x00409B00#32 }, prot_fresh, rfl, rfl, rfl, rfl, rfl, rfl, rfl⟩,
   v86, v86, v86, .s32, 0, 0, v86_fresh, rfl, rfl, rfl, rfl⟩

theorem witness_InterruptReturnsComplete : ∃ (os : Size) (ip cs fl : Nat) (s s1 s2 s3 : State), s.Fresh ∧ s.prot = false ∧
    (s.v86 = true → s.iopl = 3#2) ∧
    stackRead 0 os.bytes { s with insn := { s.insn with keepRf := true } } = .ok ip s1 ∧
    stackRead os.bytes os.bytes s1 = .ok cs s2 ∧ stackRead (2 * os.bytes) os.bytes s2 = .ok fl s3 ∧
    eipOk s.seg.cs.limit (BitVec.ofNat 32 ip) = true :=
  ⟨.s16, 0, 0, 0, real, { real with insn := { real.insn with keepRf := true } },
    { real with insn := { real.insn with keepRf := true } }, { real with insn := { real.insn with keepRf := true } },
    real_fresh, rfl, by decide, rfl, rfl, rfl, rfl⟩

/-- `real` with the three words of an interrupt pushed. -/
def afterInt : State :=
  { real with gpr := { real.gpr with esp := 0xFFA#32 }
              insn := { real.insn with stores := [(0xFFB, 1#8), (0xFFA, 0#8), (0xFFD, 0#8), (0xFFC, 0#8), (0xFFF, 0#8), (0xFFE, 2#8)] } }

theorem witness_SoftwareInterruptsComplete :
    (∃ (s s1 s2 s3 : State) (v : Byte) (off sel : Nat), s.Fresh ∧ s.real = true ∧ v.toNat * 4 + 3 ≤ s.idtr.limit.toNat ∧
      pushAllSys 2 [s.eflags.toNat % 2 ^ 16, s.seg.cs.sel.toNat, s.eip.toNat % 2 ^ 16] s.atBoundary = .ok () s1 ∧
      sysRead (s.idtr.base + BitVec.ofNat 32 (v.toNat * 4)) 2 s1 = .ok off s2 ∧
      sysRead (s.idtr.base + BitVec.ofNat 32 (v.toNat * 4 + 2)) 2 s2 = .ok sel s3) ∧
    (∃ s : State, s.Fresh ∧ s.real = true ∧ s.of = true) ∧ (∃ s : State, s.Fresh ∧ s.of = false) ∧
    (∃ (s : State) (os : Size) (r : Reg) (m : Mem) (v : Nat) (s1 : State), s.Fresh ∧
      readMemN m (2 * os.bytes) os.bytes s = .ok v s1 ∧
      (BitVec.ofNat os.width.bits v).toInt ≤ (s.gpr.read os.width r).toInt ∧
      (s.gpr.read os.width r).toInt ≤ (BitVec.ofNat os.width.bits (v / 2 ^ os.bits)).toInt) :=
  ⟨⟨real, afterInt, afterInt, afterInt, 0xFF#8, 0, 0, real_fresh, rfl, by decide, rfl, rfl, rfl⟩,
   ⟨{ real with eflags := 0x802#32 }, ⟨rfl, rfl, rfl, rfl, rfl, rfl⟩, rfl, rfl⟩, ⟨real, real_fresh, rfl⟩,
   real, .s16, .edx, at200, 0, real, real_fresh, of_okTo (by decide +kernel), by decide, by decide⟩

theorem witness_DescriptorTablesComplete : ∃ (m : Mem) (s : State), s.Fresh ∧ s.privileged = true ∧
    ok? (readMemN m 6 4) s = true ∧
    (∃ u s1 z s2, memWrite m.as (s.segOf m) (s.gpr.ea m) 2 4 s.idtr.limit.toNat s = .ok u s1 ∧
      memWrite m.as (s.segOf m) (eaPlus m (s.gpr.ea m) 2) 4 1 s.idtr.base.toNat s1 = .ok z s2) :=
  ⟨at200, real, real_fresh, rfl, by decide +kernel, exists_ok2 (by decide +kernel)⟩

theorem witness_DescriptorTablesComplete_registers : prot.Fresh ∧ prot.prot = true ∧ prot.cpl = 0#2 ∧
    okIs (readRM .word (.reg .edx)) prot 0#16 = true ∧ selNull 0x20#16 = false ∧ selTi 0x20#16 = false ∧
    selInTable prot 0x20#16 = true ∧ okIs (readDesc 0x20#16) prot { lo := 0x40000067#32, hi := 0x00008200#32 } = true ∧
    selInTable prot 0x18#16 = true ∧ okIs (readDesc 0x18#16) prot { lo := 0x30000067#32, hi := 0x00008900#32 } = true ∧
    ok? (readDesc 0x18#16 >>= fun _ => setBusy 0x18#16 true) prot = true ∧
    ok? (writeRM .word prot.ldtr.sel (.mem at200)) prot = true :=
  ⟨prot_fresh, rfl, rfl, by decide +kernel, by decide, by decide, by decide +kernel, by decide +kernel, by decide +kernel,
    by decide +kernel, by decide +kernel, by decide +kernel⟩

theorem witness_AccessChecksComplete_examine :
    (selNull 3#16 = true ∧ selInTable prot 0x40#16 = false) ∧
    (selNull 0x10#16 = false ∧ selInTable prot 0x10#16 = true ∧
      ∃ d, readDesc 0x10#16 prot = .ok d prot ∧ d.s = true ∧ markAccessed 0x10#16 d prot = .ok () prot ∧ d.conforming = true) ∧
    (∃ d, readDesc 0x20#16 prot = .ok d prot ∧ d.s = false ∧ d.lslOk = true) :=
  ⟨by decide +kernel, ⟨by decide, by decide +kernel, { lo := 0x0000FFFF#32, hi := 0x00409F00#32 }, of_okTo (by decide +kernel),
      by decide, of_okTo (by decide +kernel), by decide⟩,
    { lo := 0x40000067#32, hi := 0x00008200#32 }, of_okTo (by decide +kernel), by decide, by decide⟩

theorem witness_MachineControlComplete : ∃ s : State, s.Fresh ∧ s.privileged = true ∧
    (∃ x s1, writeRM .word (s.cr0.setWidth 16) x s = .ok () s1) ∧ (∃ x v s1, readRM .word x s = .ok v s1) :=
  ⟨prot, prot_fresh, rfl, ⟨.mem at200, _, rfl⟩, .mem at200, _, _, rfl⟩

theorem witness_AccessChecksComplete : ∃ s : State, s.Fresh ∧ s.prot = true ∧
    (∃ x r d s1, updateRM .word x s = .ok d s1 ∧ ¬ (selRpl d).toNat < (selRpl (s.gpr.read .word r)).toNat) ∧
    (∃ x r d s1 s2, updateRM .word x s = .ok d s1 ∧ (selRpl d).toNat < (selRpl (s.gpr.read .word r)).toNat ∧
      writeRM .word (withRpl d (selRpl (s.gpr.read .word r))) x s1 = .ok () s2) ∧
    (∃ os x v o s1 s2, readSel os x s = .ok v s1 ∧ examine Desc.larOk v s1 = .ok o s2 ∧ o.isSome = true) ∧
    (∃ os x v o s1 s2, readSel os x s = .ok v s1 ∧ examine Desc.lslOk v s1 = .ok o s2 ∧ o = none) ∧
    (∃ x v o s1 s2, readRM .word x s = .ok v s1 ∧ examine Desc.writable v s1 = .ok o s2) :=
  ⟨{ prot with gpr := { prot.gpr with eax := 8#32 } }, ⟨rfl, rfl, rfl, rfl, rfl, rfl⟩, rfl,
    ⟨.reg .eax, .edx, _, _, rfl, by decide⟩, ⟨.reg .eax, .ecx, _, _, _, rfl, by decide, rfl⟩,
    ⟨.s32, .reg .eax, _, some { lo := 0xFFFF#32, hi := 0x00409300#32 }, _, { prot with gpr := { prot.gpr with eax := 8#32 } },
      rfl, rfl, rfl⟩,
    ⟨.s32, .reg .edx, _, none, _, { prot with gpr := { prot.gpr with eax := 8#32 } }, rfl, rfl, rfl⟩,
    .reg .eax, _, some { lo := 0xFFFF#32, hi := 0x00409300#32 }, _, { prot with gpr := { prot.gpr with eax := 8#32 } }, rfl, rfl⟩

theorem witness_SpecialMovesComplete : ∃ s : State, s.Fresh ∧ s.privileged = true ∧ s.dr.dr7.getLsbD 13 = false ∧
    s.test.tr5.extractLsb' 0 2 = 0#2 := ⟨real, real_fresh, rfl, rfl, rfl⟩

/-- Legal and illegal values for CR0, and the values DR6 and DR7 take, at the ends of their ranges. -/
theorem witness_SpecialMovesComplete_bits :
    let legal (v : Word32) : Bool := decide ((v.getLsbD 31 = true → v.getLsbD 0 = true) ∧ (v.getLsbD 29 = true → v.getLsbD 30 = true))
    let keeps (v x : Word32) (l : List Nat) : Bool := (List.range 32).all fun n => x.getLsbD n == (l.contains n && v.getLsbD n)
    [0#32, 0x80000001#32, 0x60000000#32, 0xFFFFFFFF#32].all legal = true ∧
    [0x80000000#32, 0x20000001#32, 0x80000020#32].all (fun v => !legal v) = true ∧
    [0#32, 0xFFFFFFFF#32].all (fun v => keeps v (v &&& 0xE005002F#32) [0, 1, 2, 3, 5, 16, 18, 29, 30, 31] &&
      keeps v (v &&& 0xE00F#32) [0, 1, 2, 3, 13, 14, 15] &&
      keeps v (v &&& 0xFFFF23FF#32) ((List.range 32).filter fun n => decide (n ∉ [10, 11, 12, 14, 15]))) = true :=
  ⟨by decide +kernel, by decide +kernel, by decide +kernel⟩

/-- A lookup by TR6 finds one entry: way 2 of set 1. -/
theorem witness_SpecialMovesComplete_lookup : ∃ (s : State) (v : Word32), s.Fresh ∧ s.privileged = true ∧ v.getLsbD 0 = true ∧
    v.extractLsb' 12 3 = 1#3 ∧ ([Way.w0, .w1, .w2, .w3].filter fun w =>
      ((s.tlbSetAt 1).get w).valid && ((s.tlbSetAt 1).get w).tag == v.extractLsb' 15 17 &&
        (v.getLsbD 10 == v.getLsbD 9 && v.getLsbD 10 || v.getLsbD 10 != v.getLsbD 9 && ((s.tlbSetAt 1).get w).dirty == v.getLsbD 10) &&
        (v.getLsbD 8 == v.getLsbD 7 && v.getLsbD 8 || v.getLsbD 8 != v.getLsbD 7 && ((s.tlbSetAt 1).get w).user == v.getLsbD 8) &&
        (v.getLsbD 6 == v.getLsbD 5 && v.getLsbD 6 || v.getLsbD 6 != v.getLsbD 5 &&
          ((s.tlbSetAt 1).get w).writable == v.getLsbD 6)) = [.w2] :=
  ⟨{ real with tlb := [(1, { (real.tlbSetAt 1) with
        w2 := { valid := true, tag := 3#17, dirty := true, user := true, writable := false, page := 7#20, pcd := false, pwt := true } })] },
    0x00019D21#32, ⟨rfl, rfl, rfl, rfl, rfl, rfl⟩, rfl, by decide, by decide, by decide +kernel⟩

theorem witness_FpuFormsComplete : ∃ s : State, s.Fresh ∧ s.fpuReady = true ∧ (∃ i, fpuRegisterForm i = true) ∧
    (∃ i m n a, fpuMemoryForm i = some (m, n, a) ∧ ∃ v s1, readMemN m n a s = .ok v s1) :=
  ⟨real, real_fresh, rfl, ⟨.fsqrt, rfl⟩, .fld (.m80 at200), at200, 10, 8, rfl, exists_ok (by decide +kernel)⟩

/-- The hypotheses of `FpuArithmeticResults` on an instruction without a memory operand. -/
def arithmeticMet (i : Instr) (s : State) : Prop :=
  ∃ h s1 y, fpuArith i = some h ∧ s.Fresh ∧ s.fpuReady = true ∧ h.source s = .ok (some y) s1 ∧
    s.fpu.isEmpty h.dest = false ∧ fpOrdinary (s.fpu.st h.dest) = true ∧ fpOrdinary y.val = true ∧
    h.op.invalid (s.fpu.st h.dest) y.val = false ∧ h.op.zeroDivide (s.fpu.st h.dest) y.val = false ∧
    h.rev = false ∧ ((FpOperand.ofExt (s.fpu.st h.dest)).denormal || y.denormal) = false

/-- ST(1) is a zero. -/
def zeroBelow : State := { real with fpu := { real.fpu with regs := real.fpu.regs.set 1 0#80 } }

theorem witness_FpuArithmeticResults :
    (arithmeticMet (.fadd (.toSt 1)) real ∧ FpOp.add.special real.fpu.rc (real.fpu.st 0) (real.fpu.st 1) = none ∧
      real.fpu.precisionIs 64 ∧
      ∃ v, (deliverValue (FpFormat.ext 64) real.fpu.rc true true false
        (FpOp.add.exact (real.fpu.st 0) (real.fpu.st 1))).out.ext = some v) ∧
    (arithmeticMet (.fmul (.toSt 1)) zeroBelow ∧
      ∃ v, FpOp.mul.special zeroBelow.fpu.rc (zeroBelow.fpu.st 0) (zeroBelow.fpu.st 1) = some v) :=
  ⟨⟨⟨_, _, _, rfl, real_fresh, rfl, rfl, rfl, by decide, by decide, by decide, by decide, rfl, by decide⟩, by decide,
      .inr (.inr ⟨by decide, rfl⟩), _, rfl⟩,
   ⟨_, _, _, rfl, ⟨rfl, rfl, rfl, rfl, rfl, rfl⟩, rfl, rfl, rfl, by decide, by decide, by decide, by decide, rfl, by decide⟩,
     _, rfl⟩

theorem witness_FpuArithmeticExceptions :
    (∃ i h s s1 y, fpuArith i = some h ∧ s.Fresh ∧ s.fpuReady = true ∧ h.source s = .ok (some y) s1 ∧
      s.fpu.isEmpty h.dest = false ∧ h.rev = false ∧ fpIsNan (s.fpu.st h.dest) = false ∧ fpIsNan y.val = false ∧
      h.op.invalid (s.fpu.st h.dest) y.val = true) ∧
    (∃ i h s s1 y, fpuArith i = some h ∧ s.Fresh ∧ s.fpuReady = true ∧ h.source s = .ok (some y) s1 ∧
      s.fpu.isEmpty h.dest = false ∧ h.rev = false ∧ fpOrdinary (s.fpu.st h.dest) = true ∧ fpOrdinary y.val = true ∧
      h.op.invalid (s.fpu.st h.dest) y.val = false ∧ h.op.zeroDivide (s.fpu.st h.dest) y.val = true ∧
      ((FpOperand.ofExt (s.fpu.st h.dest)).denormal || y.denormal) = false) :=
  ⟨⟨.fdiv (.toSti 1), _, { zeroBelow with fpu := { zeroBelow.fpu with regs := zeroBelow.fpu.regs.set 0 0#80 } }, _, _, rfl,
      ⟨rfl, rfl, rfl, rfl, rfl, rfl⟩, rfl, rfl, rfl, rfl, by decide, by decide, by decide⟩,
   .fdiv (.toSt 1), _, zeroBelow, _, _, rfl, ⟨rfl, rfl, rfl, rfl, rfl, rfl⟩, rfl, rfl, rfl, rfl, by decide, by decide,
      by decide, by decide, by decide⟩

theorem witness_FpuComparisonResults :
    ∃ i m src k y s s1, s.Fresh ∧ s.fpuReady = true ∧ fpuCompares i = some (m, src, k) ∧ src s = .ok (some y) s1 ∧
      s.fpu.isEmpty 0 = false ∧ fpOrdinary (s.fpu.st 0) = true ∧ fpOrdinary y.val = true ∧
      ((FpOperand.ofExt (s.fpu.st 0)).denormal || y.denormal) = false :=
  ⟨.fcompp, _, _, _, _, real, _, real_fresh, rfl, rfl, rfl, rfl, by decide, by decide, by decide⟩

theorem witness_FpuLoadResults : ∃ s : State, s.Fresh ∧ s.fpuReady = true ∧ s.fpu.isEmpty 7 = true ∧
    (∃ i v, fpuConstant s.fpu.rc i = some v) ∧ s.fpu.isEmpty 1 = false ∧ (∃ m v s1, readMemN m 10 8 s = .ok v s1) ∧
    (∃ m, okIs (readRealOp FpFormat.single m) s { val := fpZero false, denormal := false } = true) ∧
    (∃ f v s1, readIntOp (FIntL.bytes f) f.mem s = .ok v s1) ∧
    (∃ m, okIs (readMemN m 10 8) s 0 = true) ∧ fpClass (fpZero false) ≠ .snan ∧ bcdValid 0 18 = true :=
  ⟨real, real_fresh, rfl, rfl, ⟨.fldl2t, _, rfl⟩, rfl, ⟨at200, exists_ok (by decide +kernel)⟩, ⟨at200, by decide +kernel⟩,
    ⟨.m64 at200, exists_ok (by decide +kernel)⟩, ⟨at200, by decide +kernel⟩, by decide, by decide⟩

theorem witness_FpuStoreResults : ∃ s : State, s.Fresh ∧ s.fpuReady = true ∧ s.fpu.isEmpty 0 = false ∧
    memProbe at200.as (s.segOf at200) (s.gpr.ea at200) 4 4 s = .ok () s ∧
    (∀ f k, ∃ s2, memWrite at200.as (s.segOf at200) (s.gpr.ea at200) 4 4 0x3FC00000 { s with fpu := f, freeCtr := k } = .ok () s2) ∧
    fpClass (s.fpu.st 0) = .normal ∧
    FpFormat.single.imageOf
      (deliverValue FpFormat.single s.fpu.rc (s.fpu.masked .oe) (s.fpu.masked .ue) true (fpVal (s.fpu.st 0))).out =
      some 0x3FC00000 ∧
    fpOrdinary (s.fpu.st 0) = true ∧ fpIsInf (s.fpu.st 0) = false ∧
    ((fpToInt s.fpu.rc (s.fpu.st 0)).int (fpSign (s.fpu.st 0))) = 2 :=
  ⟨real, real_fresh, rfl, rfl, rfl, fun _ _ => memWrite_ok (show real.paging = false by decide +kernel)
    (fun _ => show real.real = true from rfl)
    (show real.admits at200.as (real.segOf at200) (real.gpr.ea at200) 4 4 .write = true by decide +kernel), by decide,
    by decide, by decide, by decide, by decide⟩

theorem witness_FpuMoveResults : ∃ (s : State) (k : StIdx), s.Fresh ∧ s.fpuReady = true ∧ s.fpu.isEmpty 0 = false ∧
    s.fpu.isEmpty k = false :=
  ⟨real, 1, real_fresh, rfl, rfl, rfl⟩

theorem witness_FpuNumberResults : ∃ s : State, s.Fresh ∧ s.fpuReady = true ∧ s.fpu.isEmpty 0 = false ∧
    fpClass (s.fpu.st 0) = .normal ∧ fpSign (s.fpu.st 0) = false ∧ s.fpu.precisionIs 64 ∧ s.fpu.isEmpty 1 = false ∧
    fpClass (s.fpu.st 1) = .normal ∧ scaleOf (s.fpu.st 1) ≠ 0 ∧ s.fpu.isEmpty 7 = true ∧
    (fpVal (s.fpu.st 0)).log2 - (fpVal (s.fpu.st 1)).log2 < 64 ∧
    (remainderOf false (shiftUp (fpVal (s.fpu.st 0)).m ((fpVal (s.fpu.st 0)).e - -63))
      (shiftUp (fpVal (s.fpu.st 1)).m ((fpVal (s.fpu.st 1)).e - -63))).2.1 ≠ 0 ∧
    min (fpVal (s.fpu.st 0)).e (fpVal (s.fpu.st 1)).e = -63 :=
  ⟨real, real_fresh, rfl, rfl, by decide, by decide, .inr (.inr ⟨by decide, rfl⟩), rfl, by decide, by decide, rfl, by decide,
    by decide, by decide⟩

/-- ST holds 0.5. -/
def half : State :=
  { real with fpu := { real.fpu with regs := real.fpu.regs.set 0 (fpMake false 0x3FFE#15 0x8000000000000000#64) } }
/-- ST holds 2^63. -/
def big : State :=
  { real with fpu := { real.fpu with regs := real.fpu.regs.set 0 (fpMake false 0x403E#15 0x8000000000000000#64) } }
/-- ST holds 0.25. -/
def quarter : State :=
  { real with fpu := { real.fpu with regs := real.fpu.regs.set 0 (fpMake false 0x3FFD#15 0x8000000000000000#64) } }

theorem witness_TranscendentalResults :
    (half.Fresh ∧ half.fpuReady = true ∧ half.fpu.isEmpty 0 = false ∧ half.fpu.masked .ue = true ∧
      half.fpu.masked .oe = true ∧ fpClass (half.fpu.st 0) = .normal ∧ fpBelowOne (half.fpu.st 0) = true ∧
      fpInTrigRange (half.fpu.st 0) = true ∧ half.fpu.isEmpty 7 = true ∧ half.fpu.isEmpty 1 = false ∧
      fpClass (half.fpu.st 1) = .normal ∧ fpSign (half.fpu.st 0) = false ∧ half.fpu.st 0 ≠ fpOne) ∧
    (big.Fresh ∧ big.fpuReady = true ∧ fpClass (big.fpu.st 0) = .normal ∧ fpInTrigRange (big.fpu.st 0) = false) ∧
    (quarter.Fresh ∧ quarter.fpuReady = true ∧ fpClass (quarter.fpu.st 0) = .normal ∧
      yl2xp1InRange (quarter.fpu.st 0) = true) :=
  ⟨⟨⟨rfl, rfl, rfl, rfl, rfl, rfl⟩, rfl, rfl, by decide, by decide, by decide, by decide, by decide, rfl, rfl, by decide,
      by decide, by decide⟩,
   ⟨⟨rfl, rfl, rfl, rfl, rfl, rfl⟩, rfl, by decide, by decide⟩, ⟨rfl, rfl, rfl, rfl, rfl, rfl⟩, rfl, by decide, by decide⟩

theorem witness_FpuControlComplete : ∃ s : State, s.Fresh ∧ s.escReady = true ∧ s.fpuReady = true ∧
    (∃ m, ok? (memWrite m.as (s.segOf m) (s.gpr.ea m) 2 2 s.fpu.cw.toNat) s = true) ∧
    (∃ m, ok? (memWrite m.as (s.segOf m) (s.gpr.ea m) 2 2 s.fpu.sw.toNat) s = true) ∧
    (∃ os m, ok? (memWrite m.as (s.segOf m) (s.gpr.ea m) (envBytes os) os.bytes (s.fpu.envImage os s.prot)) s = true) ∧
    (∃ os m, ok? (memWrite m.as (s.segOf m) (s.gpr.ea m) (envBytes os + 80) os.bytes (s.fpu.stateImage os s.prot)) s = true) ∧
    (∃ m v s1, readMemN m 2 2 s = .ok v s1) ∧ (∃ os m, ok? (readMemN m (envBytes os) os.bytes) s = true) ∧
    (∃ os m, ok? (readMemN m (envBytes os + 80) os.bytes) s = true) ∧
    (s.cr0Bit 1 && s.cr0Bit 3) = false ∧ s.fpu.error = false :=
  ⟨real, real_fresh, rfl, rfl, ⟨at200, by decide +kernel⟩, ⟨at200, by decide +kernel⟩, ⟨.s16, at200, by decide +kernel⟩,
    ⟨.s16, at200, by decide +kernel⟩, ⟨at200, _, _, rfl⟩, ⟨.s16, at200, by decide +kernel⟩, ⟨.s16, at200, by decide +kernel⟩, rfl, by decide⟩

/-- `real` with NOP at CS:EIP. -/
def atNop : State := { real with mem := [(0x100, 0x90#8)] }

theorem witness_StepRunsDecoded :
    atNop.run = .running ∧ atNop.pendingTrap = none ∧ atNop.instrBreak = none ∧ atNop.nmiReady = false ∧
    atNop.intrReady = false ∧
    decodes atNop.defaultSize ((peekBytes 0 maxLength (atNop.restAt atNop.eip)).take 1) .nop = true :=
  ⟨rfl, rfl, rfl, rfl, rfl, by decide +kernel⟩

theorem witness_DecodeEncode : (∃ os as i, Instr.wf i = true ∧ i.fits os as = true ∧ i.noWait = none) ∧
    (∃ i j, Instr.noWait i = some j) :=
  ⟨⟨.s32, .s32, .lea .s32 .eax (.sib .x8 .esi .esp (.d8 0x80#8)), by decide, by decide, by decide⟩, .finit, .fninit, rfl⟩

theorem witness_StepKeepsInvariant : ∃ s : State, s.Inv ∧ ok? (fetchByte 0) s = true ∧
    (match step s with
     | .next _ => true
     | _ => false) = true :=
  ⟨atNop, ⟨by decide, by decide, by decide, by decide, by decide, fun _ => ⟨rfl, rfl⟩, fun h => absurd h (by decide)⟩,
    by decide +kernel, by decide +kernel⟩

/-- `prot` with an interrupt gate for vector 21h to 28h:500h, and a TSS whose inner stack is 8:1800h. -/
def gated : State :=
  { prot with
    idtr := { base := 0x3000#32, limit := 0x7FF#16 }
    tr := { sel := 0#16, base := 0x5000#32, limit := 0x67#32, format := .tss486 }
    mem := prot.mem ++ [(0x3109, 5#8), (0x310A, 0x28#8), (0x310D, 0x8E#8), (0x5005, 0x18#8), (0x5008, 8#8)] }

/-- An exception with an error code. -/
def anEvent : Event := { vector := 0x21#8, software := false, code := some 5#16, isFault := true, debug := none }
/-- The gate for vector 21h. -/
def theGate : Desc := { lo := 0x00280500#32, hi := 0x00008E00#32 }
/-- The descriptor at 28h. -/
def theCode : Desc := { lo := 0x0000FFFF#32, hi := 0x00409B00#32 }
/-- The descriptor at 8. -/
def theStack : Desc := { lo := 0x0000FFFF#32, hi := 0x00409300#32 }

/-- What both clauses of `ProtectedDelivery` ask for. -/
def gateMet (s : State) : Prop :=
  s.Fresh ∧ s.pe = true ∧ anEvent.vector.toNat * 8 + 7 ≤ s.idtr.limit.toNat ∧
  sysRead (s.idtr.base + BitVec.ofNat 32 (anEvent.vector.toNat * 8)) 4 s = .ok theGate.lo.toNat s ∧
  sysRead (s.idtr.base + BitVec.ofNat 32 (anEvent.vector.toNat * 8) + 4#32) 4 s = .ok theGate.hi.toNat s ∧
  theGate.s = false ∧ theGate.typ ∈ [6#4, 7#4, 14#4, 15#4] ∧ theGate.present = true ∧ selNull theGate.gateSel = false ∧
  selInTable s theGate.gateSel = true ∧ readDesc theGate.gateSel s = .ok theCode s ∧ theCode.isCode = true ∧
  theCode.present = true ∧ eipOk theCode.limit theGate.gateOffset = true

theorem witness_ProtectedDelivery_same : gateMet gated ∧ gated.vm = false ∧ theCode.dpl = gated.cpl ∧ gated.room (4 * (3 + 1)) = true ∧
    markAccessed theGate.gateSel theCode gated = .ok () gated ∧
    ∃ u s5, pushAllSys 4 [(setBit gated.eflags 16 true).toNat, gated.seg.cs.sel.toNat, 0x100, 5] gated = .ok u s5 :=
  ⟨⟨⟨rfl, rfl, rfl, rfl, rfl, rfl⟩, by decide +kernel, by decide +kernel, of_okTo (by decide +kernel),
      of_okTo (by decide +kernel), by decide, by decide, by decide, by decide, by decide +kernel, of_okTo (by decide +kernel),
      by decide, by decide, by decide⟩,
    by decide +kernel, by decide +kernel, by decide +kernel, of_okTo (by decide +kernel), exists_ok (by decide +kernel)⟩

/-- `gated` at level 3. -/
def outer : State := { gated with cpl := 3#2 }

theorem witness_ProtectedDelivery_inner : gateMet outer ∧ outer.vm = false ∧ theCode.conforming = false ∧ theCode.dpl.toNat < outer.cpl.toNat ∧
    innerStack theCode.dpl true outer = .ok (8#16, 0x1800#32, theStack) outer ∧
    roomBelow (theStack.toSeg 8#16) theStack.stackSize 0x1800#32 (4 * (5 + 1)) = true ∧
    markAccessed theGate.gateSel theCode outer = .ok () outer ∧ markAccessed 8#16 theStack outer = .ok () outer ∧
    ∃ u s7, pushAllSys 4 [outer.seg.ss.sel.toNat, outer.gpr.esp.toNat, (setBit outer.eflags 16 true).toNat,
      outer.seg.cs.sel.toNat, 0x100, 5] (outer.enterInner theCode.dpl 8#16 0x1800#32 theStack) = .ok u s7 :=
  ⟨⟨⟨rfl, rfl, rfl, rfl, rfl, rfl⟩, by decide +kernel, by decide +kernel, of_okTo (by decide +kernel),
      of_okTo (by decide +kernel), by decide, by decide, by decide, by decide, by decide +kernel, of_okTo (by decide +kernel),
      by decide, by decide, by decide⟩,
    by decide +kernel, by decide, by decide +kernel, of_okTo (by decide +kernel), by decide +kernel, of_okTo (by decide +kernel),
    of_okTo (by decide +kernel), exists_ok (by decide +kernel)⟩

/-- `real` with an FPU error pending. -/
def pending : State := { real with fpu := { real.fpu with cw := 0x37E#16, status := { real.fpu.status with ie := true } } }

theorem witness_ModeFaults :
    (real.Fresh ∧ real.real = true) ∧ (outer.Fresh ∧ outer.prot = true ∧ outer.cpl ≠ 0#2 ∧
      outer.iopl.toNat < outer.cpl.toNat ∧ outer.real = false) ∧
    (∃ s : State, s.Fresh ∧ s.v86 = true ∧ s.iopl ≠ 3#2) :=
  ⟨⟨real_fresh, rfl⟩, ⟨⟨rfl, rfl, rfl, rfl, rfl, rfl⟩, by decide +kernel, by decide +kernel, by decide +kernel, by decide +kernel⟩,
    { v86 with eflags := 0x22002#32 }, ⟨rfl, rfl, rfl, rfl, rfl, rfl⟩, by decide +kernel, by decide +kernel⟩

theorem witness_FaultsRaised :
    real.Fresh ∧
    (∃ x, okIs (readRM .word x) real 0#16 = true) ∧
    (∃ v : Word16, v ≠ 0 ∧ 2 ^ Width.word.bits ≤ (({ real with gpr := { real.gpr with edx := 9#32 } } : State).gpr.wide .word).toNat /
      v.toNat ∧ readRM .word (.reg .ecx) { real with gpr := { real.gpr with edx := 9#32 } } =
      .ok v { real with gpr := { real.gpr with edx := 9#32 } }) ∧
    (∃ m, readMemN m 4 2 real = .ok 0 real ∧ (0#16).toInt < (real.gpr.read .word .ecx).toInt) ∧
    ((({ real with cr0 := 0x60000014#32 } : State).cr0Bit 2 || ({ real with cr0 := 0x60000014#32 } : State).cr0Bit 3) = true) ∧
    (pending.Fresh ∧ (pending.cr0Bit 2 || pending.cr0Bit 3) = false ∧ pending.fpu.error = true ∧ pending.cr0Bit 5 = false ∧
      pending.pins.ignne = false) ∧
    (∃ u w, deliver (faultEvent 6#8 none 0#32) 0x100#32 ((real.abandon real).restAt 0x100#32) = .ok u w) ∧
    (∃ t2, deliver (faultEvent 13#8 (some 0#16) 0#32) 0x100#32 ((prot.abandon prot).restAt 0x100#32) =
      .error (.exn 13#8 (some 0x6B#16) 0#32) t2) :=
  ⟨real_fresh, ⟨.reg .edx, by decide +kernel⟩, ⟨3#16, by decide, by decide +kernel, of_okTo (by decide +kernel)⟩,
    ⟨at200, of_okTo (by decide +kernel), by decide⟩,
    by decide +kernel, ⟨⟨rfl, rfl, rfl, rfl, rfl, rfl⟩, by decide +kernel, by decide +kernel, by decide +kernel, by decide +kernel⟩,
    exists_ok (by decide +kernel), _, rfl⟩

/-- Single step, general detect, a data breakpoint at the first byte of a word, and a WAIT that TS and MP stop. -/
theorem witness_FaultsRaised_debug :
    (∃ s : State, s.Fresh ∧ s.privileged = true ∧ s.dr.dr7.getLsbD 13 = true) ∧
    (∃ s : State, s.Fresh ∧ s.tf = true ∧ execNop s = Machine.run (pure ()) s) ∧
    (∃ s : State, s.Fresh ∧ s.dr.rw 0 = 3#2 ∧ lenMask (s.dr.len 0) = some 0#32 ∧ s.dr.addr 0 = 0x200#32 ∧ s.dr.enabled 0 = true ∧
      ok? (memRead .s16 .ds 0x200#32 2 2) s = true) ∧
    (∃ s : State, s.Fresh ∧ (s.cr0Bit 1 && s.cr0Bit 3) = true) :=
  ⟨⟨{ real with dr := { real.dr with dr7 := 0x2000#32 } }, ⟨rfl, rfl, rfl, rfl, rfl, rfl⟩, rfl, rfl⟩,
   ⟨{ real with eflags := 0x102#32 }, ⟨rfl, rfl, rfl, rfl, rfl, rfl⟩, rfl, rfl⟩,
   ⟨{ real with dr := { real.dr with dr0 := 0x200#32, dr7 := 0x30001#32 } }, ⟨rfl, rfl, rfl, rfl, rfl, rfl⟩, rfl, rfl, rfl,
     by decide +kernel, by decide +kernel⟩,
   { real with cr0 := 0x6000001A#32 }, ⟨rfl, rfl, rfl, rfl, rfl, rfl⟩, rfl⟩

theorem witness_DataAccesses : real.Fresh ∧ real.paging = false ∧ real.a20Ok ∧
    segTypeOk prot (prot.seg.ds.null 0#16) .write = false ∧ segLimitOk .s32 real.seg.ds 0xFFFE 4 = false ∧
    segLimitOk .s32 real.seg.ds 0xFFFC 4 = true ∧
    (∃ s : State, s.Fresh ∧ s.paging = false ∧ s.alignOn = true ∧ s.seg.ds.base = 0#32) ∧
    (∃ v t, memRead .s32 .ds 0x200#32 4 4 real = .ok v t) ∧ Memory.wf prot.mem = true :=
  ⟨real_fresh, by decide +kernel, fun _ => rfl, by decide +kernel, by decide +kernel, by decide +kernel,
    ⟨{ prot with cr0 := 0x60040011#32, eflags := 0x40002#32, cpl := 3#2 }, ⟨rfl, rfl, rfl, rfl, rfl, rfl⟩, by decide +kernel,
      by decide +kernel, by decide +kernel⟩, exists_ok (by decide +kernel), by decide +kernel⟩

/-- No line of an empty cache is valid, so it holds what memory holds. -/
theorem witness_DataAccesses_coherent : real.Coherent := by
  intro a w h
  cases w <;> exact absurd (show false = true from h) (by decide)

theorem witness_FpuRounding :
    (∃ (p : Nat) (x : Exact) (v : ℚ), 0 < p ∧ 0 < x.m ∧ x.Stands v ∧ x.sticky = false) ∧
    (∃ (p : Nat) (x : Exact) (v : ℚ), 0 < p ∧ 0 < x.m ∧ x.Stands v ∧ x.sticky = true ∧ p ≤ x.m.log2) :=
  ⟨⟨1, { neg := false, m := 3, e := 0, sticky := false }, 3, by decide, by decide, by norm_num [Exact.Stands], rfl⟩,
   ⟨1, { neg := true, m := 2, e := 0, sticky := true }, 5 / 2, by decide, by decide, by norm_num [Exact.Stands], rfl, by decide⟩⟩

theorem witness_FpuExactValues :
    (∃ a b : Exact, a.sticky = false ∧ b.sticky = false ∧ b.m ≠ 0 ∧ 0 < a.m ∧ a.m < 2 ^ 64 ∧ 0 < b.m ∧ b.m < 2 ^ 64 ∧
      a.neg = false) ∧
    (∃ x y : Ext80, fpOrdinary x = true ∧ fpOrdinary y = true ∧ fpIsInf x = false ∧ fpIsInf y = false) ∧
    (∃ x y : Ext80, fpOrdinary x = true ∧ fpOrdinary y = true ∧ fpIsInf x = true) :=
  ⟨⟨{ neg := false, m := 3, e := 0, sticky := false }, { neg := false, m := 3, e := 0, sticky := false }, rfl, rfl, by decide,
      by decide, by decide, by decide, by decide, rfl⟩,
   ⟨fpOne, fpZero true, by decide, by decide, by decide, by decide⟩, fpInf true, fpOne, by decide, by decide, by decide⟩

/-! More clauses of the statements: descriptors, tasks, events, paging, rounding. -/

/-- A state with bytes of memory changed. -/
def patched (s : State) (l : List (Nat × Byte)) : State := { s with mem := l.foldl (fun m p => Memory.write m p.1 p.2) s.mem }

/-- `gated` with a call gate of one parameter at 30h to 28h:500h, a task gate at 38h and a task behind it: EIP 100h, CS 28h, SS 8. -/
def gates : State :=
  patched gated [(0x2031, 5#8), (0x2032, 0x28#8), (0x2034, 1#8), (0x2035, 0xEC#8), (0x203A, 0x18#8), (0x203D, 0xE5#8),
    (0x3021, 1#8), (0x3024, 2#8), (0x304C, 0x28#8), (0x3050, 8#8)]

/-- A jump or call to this selector. -/
abbrev farTo (x : Word16) : FarForm := .ptr (.o16 0x100#16) x

/-- The descriptors that `gates` adds. -/
def callGate : Desc := { lo := 0x00280500#32, hi := 0x0000EC01#32 }
def taskGate : Desc := { lo := 0x00180000#32, hi := 0x0000E500#32 }
def theTss : Desc := { lo := 0x30000067#32, hi := 0x00008900#32 }

theorem gates_fresh : gates.Fresh := ⟨rfl, rfl, rfl, rfl, rfl, rfl⟩

theorem witness_FarTransfersComplete_code : ∃ s4 s5, gates.Fresh ∧ gates.prot = true ∧
    farPointer (farTo 0x28#16) gates = .ok (0x100#32, 0x28#16, .s16) gates ∧ farDesc 0x28#16 gates = .ok theCode gates ∧
    farTarget theCode = .code ∧ checkDirect 0x28#16 theCode gates = .ok () gates ∧ eipOk theCode.limit 0x100#32 = true ∧
    gates.room 4 = true ∧ pushesTo 2 [gates.seg.cs.sel.toNat, gates.eip.toNat] gates s4 ∧
    markAccessed 0x28#16 theCode s4 = .ok () s5 := by
  refine ⟨_, _, gates_fresh, by decide +kernel, of_okTo (by decide +kernel), of_okTo (by decide +kernel), by decide,
    of_okTo (by decide +kernel), by decide, by decide +kernel, ⟨by decide +kernel, _, rfl, by decide +kernel, _, rfl, rfl⟩, rfl⟩


theorem witness_FarTransfersComplete_gate : ∃ s4 s5, gates.Fresh ∧ gates.prot = true ∧
    farPointer (farTo 0x30#16) gates = .ok (0x100#32, 0x30#16, .s16) gates ∧ farDesc 0x30#16 gates = .ok callGate gates ∧
    farTarget callGate = .callGate ∧ checkGate 0x30#16 callGate excGP gates = .ok () gates ∧
    gateTarget callGate true gates = .ok theCode gates ∧ gateTarget callGate false gates = .ok theCode gates ∧
    eipOk theCode.limit callGate.gateOffset = true ∧ markAccessed callGate.gateSel theCode gates = .ok () gates ∧
    ¬ theCode.dpl.toNat < gates.cpl.toNat ∧ gates.room (2 * callGate.gateBytes) = true ∧
    pushesTo callGate.gateBytes [gates.seg.cs.sel.toNat, gates.eip.toNat] gates s4 ∧
    markAccessed callGate.gateSel theCode s4 = .ok () s5 := by
  refine ⟨_, _, gates_fresh, by decide +kernel, of_okTo (by decide +kernel), of_okTo (by decide +kernel), by decide,
    of_okTo (by decide +kernel), of_okTo (by decide +kernel), of_okTo (by decide +kernel), by decide, of_okTo (by decide +kernel),
    by decide +kernel, by decide +kernel, ⟨by decide +kernel, _, rfl, by decide +kernel, _, rfl, rfl⟩, rfl⟩

/-- `gates` at level 3. -/
def outerGates : State := { gates with cpl := 3#2 }

theorem witness_FarTransfersComplete_inner : ∃ ps s8 s9 s10, outerGates.Fresh ∧ outerGates.prot = true ∧
    farPointer (farTo 0x33#16) outerGates = .ok (0x100#32, 0x33#16, .s16) outerGates ∧
    farDesc 0x33#16 outerGates = .ok callGate outerGates ∧ checkGate 0x33#16 callGate excGP outerGates = .ok () outerGates ∧
    gateTarget callGate false outerGates = .ok theCode outerGates ∧ theCode.conforming = false ∧
    theCode.dpl.toNat < outerGates.cpl.toNat ∧
    innerStack theCode.dpl false outerGates = .ok (8#16, 0x1800#32, theStack) outerGates ∧
    roomBelow (theStack.toSeg 8#16) theStack.stackSize 0x1800#32 20 = true ∧ callGate.gateCount = 1 ∧ callGate.gateBytes = 4 ∧
    markAccessed 8#16 theStack outerGates = .ok () outerGates ∧ markAccessed callGate.gateSel theCode outerGates = .ok () outerGates ∧
    pushAllSys 4 [outerGates.seg.ss.sel.toNat, outerGates.gpr.esp.toNat] (outerGates.onStack 8#16 0x1800#32 theStack) = .ok () s8 ∧
    ps.length = 1 ∧ paramsTo 4 outerGates.seg.ss outerGates.gpr.esp ps s8 s9 ∧
    pushAllSys 4 [outerGates.seg.cs.sel.toNat, outerGates.eip.toNat] s9 = .ok () s10 := by
  obtain ⟨_, s8, h8, g⟩ := then_ok (show ok? (pushAllSys 4 [outerGates.seg.ss.sel.toNat, outerGates.gpr.esp.toNat] >>= fun _ =>
    copyParams 4 outerGates.seg.ss outerGates.gpr.esp 1 >>= fun _ =>
      pushAllSys 4 [outerGates.seg.cs.sel.toNat, outerGates.eip.toNat])
    (outerGates.onStack 8#16 0x1800#32 theStack) = true by decide +kernel)
  obtain ⟨_, s9, h9, g⟩ := then_ok g
  obtain ⟨_, s10, h10⟩ := exists_ok g
  obtain ⟨ps, hl, hp⟩ := copyParams_ok_iff.mp h9
  exact ⟨ps, s8, s9, s10, ⟨rfl, rfl, rfl, rfl, rfl, rfl⟩, by decide +kernel, of_okTo (by decide +kernel), of_okTo (by decide +kernel),
    of_okTo (by decide +kernel), of_okTo (by decide +kernel), by decide, by decide +kernel, of_okTo (by decide +kernel),
    by decide +kernel, by decide, by decide, of_okTo (by decide +kernel), of_okTo (by decide +kernel), h8, hl, hp, h10⟩

/-- Does a switch of tasks to the descriptor at 18h of a state complete, with EIP within the code segment? -/
def switches (k : SwitchKind) (s : State) : Bool :=
  match switchTasks k 0x18#16 s.eip false s with
  | .ok _ u => eipOk u.seg.cs.limit u.eip
  | .error _ _ => false

/-- `gates` with the task at 18h busy. -/
def busyTask : State := patched gates [(0x201D, 0x8B#8)]

theorem witness_FarTransfersComplete_tasks :
    farDesc 0x18#16 gates = .ok theTss gates ∧ farTarget theTss = .tss ∧ checkTask 0x18#16 theTss excTS gates = .ok () gates ∧
    switches .jmp gates = true ∧ switches .call gates = true ∧
    farDesc 0x38#16 gates = .ok taskGate gates ∧ farTarget taskGate = .taskGate ∧
    checkGate 0x38#16 taskGate excTS gates = .ok () gates ∧ checkTss taskGate.gateSel false excTS gates = .ok () gates ∧
    (∃ d, farDesc 0x18#16 busyTask = .ok d busyTask ∧ d.isBusyTss = true ∧ checkDpl 0x18#16 d excTS busyTask = .ok () busyTask) :=
  ⟨of_okTo (by decide +kernel), by decide, of_okTo (by decide +kernel), by decide +kernel, by decide +kernel,
    of_okTo (by decide +kernel), by decide, of_okTo (by decide +kernel), of_okTo (by decide +kernel),
    { lo := 0x30000067#32, hi := 0x00008B00#32 }, of_okTo (by decide +kernel), by decide, of_okTo (by decide +kernel)⟩

/-- The words of a far return or IRET on the stack at 1000h; 30h is a data segment of level 3. -/
def returning (l : List Nat) : State :=
  patched prot ((0x2030, 0xFF#8) :: (0x2035, 0xF3#8) :: (List.range l.length).map fun i => (0x1000 + 2 * i, BitVec.ofNat 8 (l.getD i 0)))

/-- The descriptors at 10h and 30h. -/
def conformingCode : Desc := { lo := 0x0000FFFF#32, hi := 0x00409F00#32 }
def userData : Desc := { lo := 0x000000FF#32, hi := 0x0000F300#32 }

theorem witness_FarTransfersComplete_returns :
    (∃ s : State, s.Fresh ∧ s.prot = true ∧ stackRead 2 2 s = .ok 0x28 s ∧ selRpl 0x28#16 = s.cpl ∧
      checkReturnCs 0x28#16 s.cpl s = .ok theCode s ∧ s.topOk 4 = true ∧ stackRead 0 2 s = .ok 5 s ∧
      eipOk theCode.limit 5#32 = true ∧ markAccessed 0x28#16 theCode s = .ok () s) ∧
    (∃ s : State, s.Fresh ∧ s.prot = true ∧ stackRead 2 2 s = .ok 0x13 s ∧ s.cpl.toNat < (selRpl 0x13#16).toNat ∧
      s.topOk 10 = true ∧ checkReturnCs 0x13#16 3#2 s = .ok conformingCode s ∧ stackRead 6 2 s = .ok 0x80 s ∧
      stackRead 8 2 s = .ok 0x33 s ∧ checkReturnSs 0x33#16 3#2 s = .ok userData s ∧ stackRead 0 2 s = .ok 5 s ∧
      eipOk conformingCode.limit 5#32 = true ∧ markAccessed 0x13#16 conformingCode s = .ok () s ∧
      markAccessed 0x33#16 userData s = .ok () s) :=
  ⟨⟨returning [5, 0x28], ⟨rfl, rfl, rfl, rfl, rfl, rfl⟩, by decide +kernel, of_okTo (by decide +kernel), by decide,
      of_okTo (by decide +kernel), by decide +kernel, of_okTo (by decide +kernel), by decide, of_okTo (by decide +kernel)⟩,
   ⟨returning [5, 0x13, 0, 0x80, 0x33], ⟨rfl, rfl, rfl, rfl, rfl, rfl⟩, by decide +kernel, of_okTo (by decide +kernel),
      by decide, by decide +kernel, of_okTo (by decide +kernel), of_okTo (by decide +kernel), of_okTo (by decide +kernel),
      of_okTo (by decide +kernel), of_okTo (by decide +kernel), by decide, of_okTo (by decide +kernel), of_okTo (by decide +kernel)⟩⟩

/-- The clauses on what a load or a return leaves in memory: 30h of `unmarked` is not accessed yet. -/
def unmarked : State :=
  { patched (returning [5, 0x13, 0, 0x80, 0x33]) [(0x2035, 0xF2#8)] with cr0 := 0x40000011#32 }

theorem witness_SegmentLoadsComplete_marks : unmarked.Fresh ∧ unmarked.prot = true ∧ unmarked.paging = false ∧
    unmarked.WritesThrough ∧ unmarked.memOk = true ∧ selNull 0x33#16 = false ∧
    readDesc 0x33#16 unmarked = .ok { userData with hi := 0x0000F200#32 } unmarked ∧
    ok? (loadSeg .ds 0x33#16) unmarked = true ∧ (let s : State := { v86 with cr0 := 0x40000011#32 }
     s.prot = false ∧ s.WritesThrough ∧ ok? (loadSeg .ds 0x33#16) s = true) :=
  ⟨⟨rfl, rfl, rfl, rfl, rfl, rfl⟩, by decide +kernel, by decide +kernel, .inl (by decide +kernel), by decide +kernel, by decide,
    of_okTo (by decide +kernel), by decide +kernel, by decide +kernel, .inl (by decide +kernel), by decide +kernel⟩

/-- Both ways in which stores reach memory: a cache that writes through, and one that is off and empty, as at reset, CD and NW 1. -/
theorem witness_WritesThrough : unmarked.cacheOnly = false ∧ State.reset.Uncached ∧ State.reset.cacheOnly = true :=
  ⟨by decide +kernel, ⟨by decide +kernel, rfl, rfl⟩, by decide +kernel⟩

theorem witness_returns_memory : unmarked.paging = false ∧ unmarked.WritesThrough ∧
    checkReturnSs 0x33#16 3#2 unmarked = .ok { userData with hi := 0x0000F200#32 } unmarked ∧
    ok? (markAccessed 0x33#16 { userData with hi := 0x0000F200#32 }) unmarked = true :=
  ⟨by decide +kernel, .inl (by decide +kernel), of_okTo (by decide +kernel), by decide +kernel⟩

/-- The state IRET reads the stack in. -/
abbrev inIret (s : State) : State := { s with insn := { s.insn with keepRf := true } }

theorem witness_InterruptReturnsComplete_prot :
    (∃ s : State, s.Fresh ∧ s.prot = true ∧ s.nt = false ∧ stackRead 2 2 (inIret s) = .ok 0x28 (inIret s) ∧
      selRpl 0x28#16 = s.cpl ∧ s.topOk 6 = true ∧ checkReturnCs 0x28#16 s.cpl (inIret s) = .ok theCode (inIret s) ∧
      stackRead 0 2 (inIret s) = .ok 5 (inIret s) ∧ stackRead 4 2 (inIret s) = .ok 2 (inIret s) ∧
      markAccessed 0x28#16 theCode (inIret s) = .ok () (inIret s)) ∧
    (∃ s : State, s.Fresh ∧ s.prot = true ∧ s.nt = false ∧ stackRead 2 2 (inIret s) = .ok 0x13 (inIret s) ∧
      s.cpl.toNat < (selRpl 0x13#16).toNat ∧ s.topOk 10 = true ∧
      checkReturnCs 0x13#16 3#2 (inIret s) = .ok conformingCode (inIret s) ∧
      stackRead 8 2 (inIret s) = .ok 0x33 (inIret s) ∧ checkReturnSs 0x33#16 3#2 (inIret s) = .ok userData (inIret s) ∧
      stackRead 0 2 (inIret s) = .ok 5 (inIret s) ∧ stackRead 4 2 (inIret s) = .ok 2 (inIret s) ∧
      stackRead 6 2 (inIret s) = .ok 0x80 (inIret s) ∧ markAccessed 0x13#16 conformingCode (inIret s) = .ok () (inIret s) ∧
      markAccessed 0x33#16 userData (inIret s) = .ok () (inIret s)) ∧
    (∃ s : State, s.Fresh ∧ s.prot = true ∧ s.nt = false ∧ s.cpl = 0#2 ∧ stackRead 8 4 (inIret s) = .ok 0x20002 (inIret s) ∧
      Nat.testBit 0x20002 17 = true ∧ s.topOk 36 = true ∧
      stackItems 4 0 9 (inIret s) = .ok [5, 0x13, 0x20002, 0x80, 0x33, 0, 0, 0, 0] (inIret s)) ∧
    (∃ s : State, s.Fresh ∧ s.prot = true ∧ s.nt = true ∧ sysRead s.tr.base 2 (inIret s) = .ok 0x18 (inIret s) ∧
      (∃ d, readDesc 0x18#16 (inIret s) = .ok d (inIret s) ∧ d.isBusyTss = true ∧ d.present = true) ∧
      selNull 0x18#16 = false ∧ selInTable s 0x18#16 = true ∧ switches .iret (inIret s) = true) :=
  ⟨⟨returning [5, 0x28, 2], ⟨rfl, rfl, rfl, rfl, rfl, rfl⟩, by decide +kernel, by decide +kernel, of_okTo (by decide +kernel),
      by decide, by decide +kernel, of_okTo (by decide +kernel), of_okTo (by decide +kernel), of_okTo (by decide +kernel),
      of_okTo (by decide +kernel)⟩,
   ⟨returning [5, 0x13, 2, 0x80, 0x33], ⟨rfl, rfl, rfl, rfl, rfl, rfl⟩, by decide +kernel, by decide +kernel,
      of_okTo (by decide +kernel), by decide, by decide +kernel, of_okTo (by decide +kernel), of_okTo (by decide +kernel),
      of_okTo (by decide +kernel), of_okTo (by decide +kernel), of_okTo (by decide +kernel), of_okTo (by decide +kernel),
      of_okTo (by decide +kernel), of_okTo (by decide +kernel)⟩,
   ⟨returning [5, 0, 0x13, 0, 2, 2, 0x80, 0, 0x33], ⟨rfl, rfl, rfl, rfl, rfl, rfl⟩, by decide +kernel, by decide +kernel, rfl,
      of_okTo (by decide +kernel), by decide, by decide +kernel, of_okTo (by decide +kernel)⟩,
   { patched busyTask [(0x5000, 0x18#8)] with eflags := 0x4002#32 }, ⟨rfl, rfl, rfl, rfl, rfl, rfl⟩, by decide +kernel,
      by decide +kernel, of_okTo (by decide +kernel),
      ⟨{ lo := 0x30000067#32, hi := 0x00008B00#32 }, of_okTo (by decide +kernel), by decide, by decide⟩, by decide,
      by decide +kernel, by decide +kernel⟩

theorem witness_TaskSwitches :
    (gates.insn.stores = [] ∧ gates.paging = false ∧ readDesc 0x18#16 gates = .ok theTss gates ∧
      ok? (switchTasks .call 0x18#16 0#32 false) gates = true) ∧
    (∃ (s : State) (d : Desc), readDesc 0x18#16 s = .ok d s ∧ d.tssFormat = .tss486 ∧ d.limit.toNat = 0x64) ∧
    gates.Uncached ∧ ok? (readTask 0x3000#32 .tss486) gates = true ∧ ok? (readTask 0x3000#32 .tss286) gates = true :=
  ⟨⟨rfl, by decide +kernel, of_okTo (by decide +kernel), by decide +kernel⟩,
    ⟨patched gates [(0x2018, 0x64#8)], { lo := 0x30000064#32, hi := 0x00008900#32 }, of_okTo (by decide +kernel), rfl, by decide⟩,
    ⟨by decide +kernel, rfl, rfl⟩, by decide +kernel, by decide +kernel⟩


/-- FADD of ST and ST(1) where one is a quiet NaN; FADD with an empty register. -/
theorem witness_FpuArithmeticExceptions_nan :
    (∃ i h s s1 y, fpuArith i = some h ∧ s.Fresh ∧ s.fpuReady = true ∧ h.source s = .ok (some y) s1 ∧
      s.fpu.isEmpty h.dest = false ∧ h.rev = false ∧ fpIsBad (s.fpu.st h.dest) = false ∧ fpIsBad y.val = false ∧
      h.op.invalid (s.fpu.st h.dest) y.val = false ∧ fpIsNan (s.fpu.st h.dest) = true) ∧
    (∃ i h s s1, fpuArith i = some h ∧ s.Fresh ∧ s.fpuReady = true ∧ h.source s = .ok none s1) :=
  ⟨⟨.fadd (.toSt 1), _, { real with fpu := { real.fpu with regs := real.fpu.regs.set 0 fpIndefinite } }, _, _, rfl,
      ⟨rfl, rfl, rfl, rfl, rfl, rfl⟩, rfl, rfl, rfl, rfl, by decide, by decide, by decide, by decide⟩,
   .fadd (.toSt 2), _, real, _, rfl, real_fresh, rfl, rfl⟩

theorem witness_FpuLoadResults_overflow : ∃ s : State, s.Fresh ∧ s.fpuReady = true ∧ s.fpu.isEmpty 7 = false ∧
    fpuPushes s.fpu.rc .fldpi = some none ∧ fpuPushes s.fpu.rc (.fld (.m80 at200)) = some (some (at200, 10, 8)) ∧
    ok? (readMemN at200 10 8) s = true :=
  ⟨{ real with fpu := { real.fpu with empty := Vector.replicate 8 false } }, ⟨rfl, rfl, rfl, rfl, rfl, rfl⟩, rfl, rfl, rfl, rfl,
    by decide +kernel⟩

/-- An event at a boundary as `StepRunsDecoded` writes it. -/
abbrev boundaryEvent (v : Byte) (f : Bool) (d : Option Word32) : Event :=
  { vector := v, software := false, code := none, isFault := f, debug := d }

/-- A single step trap, an instruction breakpoint at CS:EIP, an NMI and a maskable interrupt, each delivered. -/
theorem witness_StepRunsDecoded_events :
    (∃ s : State, s.run = .running ∧ s.traps.bs = true ∧ s.traps.bt = false ∧ s.traps.hits = 0#4 ∧ s.latch.inhibitNext = false ∧
      ok? (deliver (boundaryEvent 1#8 false (some 0x4000#32)) s.eip) { s.restAt s.eip with traps := .none } = true) ∧
    (∃ s : State, s.run = .running ∧ (s.traps.bs || s.traps.bt || s.traps.data) = false ∧ s.rf = false ∧
      s.instrHits.getLsbD 3 = true ∧ s.dr.enabled 3 = true ∧
      s.latch.inhibitNext = true ∧
      ok? (deliver (boundaryEvent 1#8 true (some (s.instrHits.setWidth 32))) s.eip)
        { s.restAt s.eip with latch := { s.latch with inhibitNext := false, stiShadow := false } } = true) ∧
    (∃ s : State, s.run = .running ∧ (s.traps.bs || s.traps.bt || s.traps.data) = false ∧ s.instrBreak = none ∧
      s.latch.nmiPending = true ∧ s.latch.nmiMasked = false ∧ s.latch.inhibitNext = false ∧
      ok? (deliver (boundaryEvent 2#8 false none) s.eip)
        { s.restAt s.eip with latch := { s.latch with nmiPending := false, nmiMasked := true } } = true) ∧
    (∃ s : State, s.run = .running ∧ (s.traps.bs || s.traps.bt || s.traps.data) = false ∧ s.instrBreak = none ∧
      s.latch.nmiPending = false ∧ s.pins.intr = true ∧ s.ifl = true ∧ s.latch.inhibitNext = false ∧ s.latch.stiShadow = false ∧
      ok? (deliver (boundaryEvent s.pins.intVector false none) s.eip)
        { s.restAt s.eip with events := s.events ++ [.intAck s.pins.intVector] } = true) :=
  ⟨⟨{ real with traps := { real.traps with bs := true } }, rfl, rfl, rfl, rfl, rfl, by decide +kernel⟩,
   ⟨{ real with dr := { real.dr with dr3 := 0x100#32, dr7 := 0x40#32 }, latch := { real.latch with inhibitNext := true } },
      rfl, rfl, rfl, by decide +kernel, by decide +kernel, rfl, by decide +kernel⟩,
   ⟨{ real with latch := { real.latch with nmiPending := true } }, rfl, rfl, by decide +kernel, rfl, rfl, rfl, by decide +kernel⟩,
   { real with eflags := 0x202#32, pins := { real.pins with intr := true, intVector := 0xFF#8 } }, rfl, rfl, by decide +kernel,
     rfl, rfl, rfl, rfl, rfl, by decide +kernel⟩

/-- `real` in another run state, with the traps, latches, pins, flags and stack pointer that decide how it is left. -/
def waiting (r : RunState) (bs nmi intr : Bool) (sp : Word32) : State :=
  { real with run := r, eflags := 0x202#32, traps := { real.traps with bs := bs }, latch := { real.latch with nmiPending := nmi },
              pins := { real.pins with intr := intr, intVector := 0x21#8 }, gpr := { real.gpr with esp := sp } }

/-- `waiting` once the NMI is accepted. -/
abbrev accepted (s : State) : State := { s.restAt s.eip with latch := { s.latch with nmiPending := false, nmiMasked := true } }

/-- A halted and a frozen processor with a trap, an NMI, an INTR and nothing due; shutdown without an NMI, with one and a stack of 6 or
of 5 bytes, or an IDT one byte too short, and with one whose delivery in Protected Mode fails; an event left for the next step. -/
theorem witness_MachineControlComplete_runStates :
    (let s := waiting .halted true true true 0x1000#32
     (s.traps.bs && !s.latch.inhibitNext) = true ∧ s.traps.bt = false ∧ s.traps.hits = 0#4 ∧
       ok? (deliver (boundaryEvent 1#8 false (some 0x4000#32)) s.eip) { s.restAt s.eip with traps := .none } = true) ∧
    (let s := waiting .frozen false true true 0x1000#32
     ((s.traps.bs || s.traps.bt || s.traps.data) && !s.latch.inhibitNext) = false ∧
       (s.latch.nmiPending && !s.latch.nmiMasked) = true ∧ ok? (deliver (boundaryEvent 2#8 false none) s.eip) (accepted s) = true) ∧
    (let s := waiting .halted false false true 0x1000#32
     (s.latch.nmiPending && !s.latch.nmiMasked) = false ∧ s.ifl = true ∧ s.latch.stiShadow = false ∧
       ok? (deliver (boundaryEvent s.pins.intVector false none) s.eip)
        { s.restAt s.eip with events := s.events ++ [.intAck s.pins.intVector] } = true) ∧
    (let s := waiting .halted false false false 0x1000#32
     (s.traps.bs || s.traps.bt || s.traps.data) = false ∧ s.latch.nmiPending = false ∧ s.pins.intr = false) ∧
    (let s := waiting .shutdown false true true 6#32
     s.real = true ∧ 0x17 ≤ s.idtr.limit.toNat ∧ 5 < s.gpr.esp.toNat % 2 ^ 16 ∧
       ok? (deliver (boundaryEvent 2#8 false none) s.eip) (accepted s) = true) ∧
    (let s := waiting .shutdown false true true 5#32
     s.real = true ∧ ¬ 5 < s.gpr.esp.toNat % 2 ^ 16) ∧
    (let s : State := { waiting .shutdown false true true 6#32 with idtr := { real.idtr with limit := 0x16#16 } }
     s.real = true ∧ ¬ 0x17 ≤ s.idtr.limit.toNat) ∧
    (let s : State := { prot with run := .shutdown, latch := { prot.latch with nmiPending := true }, idtr := { base := 0#32, limit := 0#16 } }
     s.real = false ∧ (match deliver (boundaryEvent 2#8 false none) s.eip (accepted s) with
       | .error (.exn _ _ _) t => !t.insn.arrived
       | _ => false) = true) ∧
    (let s := waiting (.redeliver (boundaryEvent 13#8 true none)) false false false 0x1000#32
     ok? (deliver (boundaryEvent 13#8 true none) s.eip) { s.restAt s.eip with run := .running } = true) :=
  ⟨⟨by decide, rfl, rfl, by decide +kernel⟩, ⟨by decide, by decide, by decide +kernel⟩, ⟨by decide, by decide, rfl, by decide +kernel⟩,
    ⟨by decide, rfl, rfl⟩, ⟨rfl, by decide, by decide, by decide +kernel⟩, ⟨rfl, by decide⟩, ⟨rfl, by decide⟩, ⟨rfl, by decide +kernel⟩,
    by decide +kernel⟩

/-- A state in V86 Mode with the gates of `gated`. -/
def gatedV86 : State := { gated with eflags := 0x00023002#32, cpl := 3#2 }

theorem witness_ProtectedDelivery_v86 : gateMet gatedV86 ∧ gatedV86.vm = true ∧ theGate.hi.getLsbD 11 = true ∧
    theCode.conforming = false ∧ theCode.dpl = 0#2 ∧ gatedV86.cpl ≠ 0#2 ∧
    innerStack 0#2 true gatedV86 = .ok (8#16, 0x1800#32, theStack) gatedV86 ∧
    roomBelow (theStack.toSeg 8#16) theStack.stackSize 0x1800#32 40 = true ∧
    markAccessed theGate.gateSel theCode gatedV86 = .ok () gatedV86 ∧ markAccessed 8#16 theStack gatedV86 = .ok () gatedV86 ∧
    ∃ s7 s8, pushAllSys 4 [gatedV86.seg.gs.sel.toNat, gatedV86.seg.fs.sel.toNat, gatedV86.seg.ds.sel.toNat,
        gatedV86.seg.es.sel.toNat] (gatedV86.leaveV86 8#16 0x1800#32 theStack) = .ok () s7 ∧
      pushAllSys 4 [gatedV86.seg.ss.sel.toNat, gatedV86.gpr.esp.toNat, (setBit gatedV86.eflags 16 true).toNat,
        gatedV86.seg.cs.sel.toNat, 0x100, 5] s7.nullData = .ok () s8 := by
  refine ⟨⟨⟨rfl, rfl, rfl, rfl, rfl, rfl⟩, by decide +kernel, by decide +kernel, of_okTo (by decide +kernel),
    of_okTo (by decide +kernel), by decide, by decide, by decide, by decide, by decide +kernel, of_okTo (by decide +kernel),
    by decide, by decide, by decide⟩, by decide +kernel, by decide, by decide, by decide, by decide, of_okTo (by decide +kernel),
    by decide +kernel, of_okTo (by decide +kernel), of_okTo (by decide +kernel), ?_⟩
  obtain ⟨_, s7, h, g⟩ := then_ok (show ok? (pushAllSys 4 [gatedV86.seg.gs.sel.toNat, gatedV86.seg.fs.sel.toNat,
    gatedV86.seg.ds.sel.toNat, gatedV86.seg.es.sel.toNat] >>= fun _ => (do modify State.nullData
                                                                           pushAllSys 4 [gatedV86.seg.ss.sel.toNat,
      gatedV86.gpr.esp.toNat, (setBit gatedV86.eflags 16 true).toNat, gatedV86.seg.cs.sel.toNat, 0x100, 5]))
    (gatedV86.leaveV86 8#16 0x1800#32 theStack) = true by decide +kernel)
  obtain ⟨_, _, h1, g⟩ := then_ok g
  obtain ⟨_, s8, g⟩ := exists_ok g
  cases h1
  exact ⟨s7, s8, h, g⟩

/-- `prot` with paging: the directory at 4000h, its first table at 5000h, which maps page 1 (writable) to 7000h. -/
def paged : State :=
  { patched prot [(0x4000, 7#8), (0x4001, 0x50#8), (0x5004, 7#8), (0x5005, 0x70#8)] with cr0 := 0xE0000011#32, cr3 := 0x4000#32 }

/-- `paged` with page 1 in the TLB, clean. -/
def pagedHit : State :=
  let e : TlbEntry := { valid := true, tag := 0#17, dirty := false, user := true, writable := false, page := 7#20, pcd := false,
                        pwt := false }
  { paged with tlb := [(1, { (paged.tlbSetAt 1) with w2 := e })] }

theorem witness_DataAccesses_paging :
    (paged.paging = true ∧ paged.pins.a20m = false ∧ paged.Uncached ∧ paged.memOk = true ∧
      (∀ w, ((paged.tlbSetAt 1).get w).valid = false) ∧ dwordAt paged.mem (paged.pdeAddr 0x1234#32) = 0x5007#32 ∧
      dwordAt (entryMem paged.mem 0x4000#32 0x20#8) (pteAddr 0x5007#32 0x1234#32) = 0x7007#32 ∧
      paged.pageAllows true true true true ∧
      (dwordAt paged.mem (paged.pdeAddr 0xFFFFFFFF#32)).getLsbD 0 = false ∧
      (dwordAt paged.mem (pteAddr 0x5007#32 0x2000#32)).getLsbD 0 = false) ∧
    (pagedHit.paging = true ∧ (∀ w, ((pagedHit.tlbSetAt 1).get w).valid = true ↔ w = .w2) ∧
      ((pagedHit.tlbSetAt 1).get .w2).tag = (0x1234#32).extractLsb' 15 17 ∧ pagedHit.pageAllows true false false true ∧
      ¬ pagedHit.pageAllows true false true true) ∧
    ok? (translate 0x2000#32 true true) paged = false :=
  ⟨⟨by decide +kernel, rfl, ⟨by decide +kernel, rfl, rfl⟩, by decide +kernel, fun w => by cases w <;> decide +kernel,
      by decide +kernel, by decide +kernel, ⟨rfl, fun _ => rfl⟩, by decide +kernel, by decide +kernel⟩,
   ⟨by decide +kernel, fun w => by cases w <;> decide +kernel, by decide +kernel, ⟨rfl, nofun⟩, fun h => absurd (h.2 rfl) (by decide)⟩,
   by decide +kernel⟩

/-- The greatest single doubled overflows; the least denormal of a single is tiny. -/
theorem witness_FpuRounding_delivery :
    let f := FpFormat.single
    (∃ (x : Exact) (v : ℚ), 0 < x.m ∧ x.Stands v ∧ x.sticky = false ∧
      (2 : ℚ) ^ ((f.bias : Int) + 1) ≤ ((roundTo 0#2 f.p x).q : ℚ) * (2 : ℚ) ^ (roundTo 0#2 f.p x).k) ∧
    (∃ (x : Exact) (v : ℚ), 0 < x.m ∧ x.Stands v ∧ x.sticky = false ∧
      ((roundTo 0#2 f.p x).q : ℚ) * (2 : ℚ) ^ (roundTo 0#2 f.p x).k < (2 : ℚ) ^ (1 - (f.bias : Int)) ∧ 0 < f.bias) := by
  refine ⟨⟨{ neg := false, m := 1, e := 128, sticky := false }, 2 ^ (128 : Int), by decide, by norm_num [Exact.Stands], rfl, ?_⟩,
    { neg := true, m := 1, e := -149, sticky := false }, 2 ^ (-149 : Int), by decide, by norm_num [Exact.Stands], rfl, ?_,
    by decide⟩
  · rw [show roundTo 0#2 FpFormat.single.p { neg := false, m := 1, e := 128, sticky := false } =
      { q := 2 ^ 23, k := 105, inexact := false, up := false } by decide]
    norm_num [FpFormat.single]
  · rw [show roundTo 0#2 FpFormat.single.p { neg := true, m := 1, e := -149, sticky := false } =
      { q := 2 ^ 23, k := -172, inexact := false, up := false } by decide]
    norm_num [FpFormat.single]

/-- `gates` with paging: the directory at 8000h, its first table at 9000h, which maps the first eight pages to themselves; the task at
18h has the same directory. -/
def pagedGates : State :=
  { patched gates ((0x8000, 7#8) :: (0x8001, 0x90#8) :: (0x301D, 0x80#8) :: (List.range 8).flatMap fun i =>
      [(0x9000 + 4 * i, 7#8), (0x9001 + 4 * i, BitVec.ofNat 8 (0x10 * i))]) with cr0 := 0xE0000011#32, cr3 := 0x8000#32 }

/-- The clauses on memory with paging on: a store, a call through a gate, a switch of tasks. -/
theorem witness_paging : pagedGates.Fresh ∧ pagedGates.paging = true ∧ pagedGates.memOk = true ∧
    ok? (memWrite .s32 .ds 0x1234#32 4 4 5) pagedGates = true ∧ ok? (translate 0x1234#32 true true) pagedGates = true ∧
    ok? (callFarOp (farTo 0x30#16)) pagedGates = true ∧ ok? (callFarOp (farTo 0x33#16)) { pagedGates with cpl := 3#2 } = true ∧
    ok? (switchTasks .call 0x18#16 0#32 false) pagedGates = true :=
  ⟨⟨rfl, rfl, rfl, rfl, rfl, rfl⟩, by decide +kernel, by decide +kernel, by decide +kernel, by decide +kernel, by decide +kernel,
    by decide +kernel, by decide +kernel⟩

/-- The selectors whose checks are made: null, outside the table, and named in it. -/
theorem witness_SegmentRegisterRules_checks :
    (selNull 3#16 = true ∧ selNull 0x48#16 = false ∧ selInTable gates 0x48#16 = false) ∧
    (selNull 0x28#16 = false ∧ selInTable gates 0x28#16 = true ∧ readDesc 0x28#16 gates = .ok theCode gates ∧
      callGate.gateSel = 0x28#16 ∧ selRpl 0x28#16 ≠ 3#2) ∧
    (selNull 0x18#16 = false ∧ selTi 0x18#16 = false ∧ selInTable gates 0x18#16 = true ∧ readDesc 0x18#16 gates = .ok theTss gates ∧
      selTi 0x1C#16 = true) ∧
    (∃ (x : Word16) (p : Word32), tssStack 0#2 false gates = .ok (x, p) gates ∧ selNull x = false ∧ selInTable gates x = true ∧
      selRpl x = 0#2 ∧ readDesc x gates = .ok theStack gates) ∧
    (∃ (x : Word16) (p : Word32), tssStack 1#2 false gates = .ok (x, p) gates ∧ selNull x = true) ∧
    (∃ s : State, s.tr.format = .tss486 ∧ s.tr.limit.toNat < 4 + 4 + 1) ∧ gates.Uncached ∧ gates.paging = false ∧
    ok? (tssStack 0#2 false) { gates with tr := { gates.tr with format := .tss286 } } = true :=
  ⟨⟨by decide, by decide, by decide +kernel⟩, ⟨by decide, by decide +kernel, of_okTo (by decide +kernel), by decide, by decide⟩,
    ⟨by decide, by decide, by decide +kernel, of_okTo (by decide +kernel), by decide⟩,
    ⟨8#16, 0x1800#32, of_okTo (by decide +kernel), by decide, by decide +kernel, by decide, of_okTo (by decide +kernel)⟩,
    ⟨0#16, 0#32, of_okTo (by decide +kernel), by decide⟩,
    ⟨{ gates with tr := { gates.tr with limit := 8#32 } }, rfl, by decide⟩, ⟨by decide +kernel, rfl, rfl⟩, by decide +kernel,
    by decide +kernel⟩

/-- Gates for vectors 8, 10, 13 and 22h: to 28h:500h, and for 22h a task gate to 18h. -/
def withGates (vs : List Nat) (s : State) : State :=
  patched s (vs.flatMap fun v => if v = 0x22 then [(0x3112, 0x18#8), (0x3115, 0x85#8)] else
    [(0x3001 + 8 * v, 5#8), (0x3002 + 8 * v, 0x28#8), (0x3005 + 8 * v, 0x8E#8)])

/-- The software event of a vector, and the state it is delivered in. -/
abbrev softEvent (v : Byte) : Event := { vector := v, software := true, code := none, isFault := false, debug := none }
abbrev softState (s : State) : State := { s with insn := .idle s.eip, latch := s.retired.latch }

theorem witness_SoftwareInterruptsComplete_modes :
    (gated.Fresh ∧ gated.prot = true ∧ ok? (deliver (softEvent 0x21#8) gated.eip) (softState gated) = true) ∧
    (let s := patched gatedV86 [(0x310D, 0xEE#8)]
     s.Fresh ∧ s.v86 = true ∧ s.iopl = 3#2 ∧ ok? (deliver (softEvent 0x21#8) s.eip) (softState s) = true) ∧
    (let s := withGates [13] gated
     s.Fresh ∧ ∃ v2 c2 d2 t, deliver (softEvent 0x23#8) s.eip (softState s) = .error (.exn v2 c2 d2) t ∧ t.insn.arrived = false ∧
      t.insn.committed = false ∧
      ok? (deliver (faultEvent v2 c2 d2) s.insn.start) (((softState s).abandon t).restAt s.insn.start) = true) :=
  ⟨⟨⟨rfl, rfl, rfl, rfl, rfl, rfl⟩, by decide +kernel, by decide +kernel⟩,
   ⟨⟨rfl, rfl, rfl, rfl, rfl, rfl⟩, by decide +kernel, by decide +kernel, by decide +kernel⟩,
   ⟨rfl, rfl, rfl, rfl, rfl, rfl⟩, 13#8, some 0x11A#16, 0#32, _, rfl, rfl, rfl, by decide +kernel⟩

/-- What a delivery that raises leaves, where it does. -/
def raised (m : M Unit) (s : State) (p : Byte → State → Bool) : Bool :=
  match m s with
  | .error (.exn v _ _) t => p v t
  | _ => false

/-- A table at 6000h with a gate for vector 10 to 28h:500h and a task gate for 22h, and a task whose DS is an LDT. -/
def badTask : State :=
  { patched gates [(0x3054, 0x20#8), (0x3039, 0x10#8), (0x6051, 5#8), (0x6052, 0x28#8), (0x6055, 0x8E#8), (0x6112, 0x18#8),
      (0x6115, 0x85#8)] with idtr := { gates.idtr with base := 0x6000#32 } }

/-- An exception raised in place of another: the double fault and its own failure, one that is delivered itself, and one of the new
task of a task gate. -/
theorem witness_FaultsRaised_delivery :
    raised (deliver (faultEvent 13#8 (some 0#16) 0#32) 0x100#32) ((gated.abandon gated).restAt 0x100#32)
      (fun v t => v == 13#8 && !t.insn.arrived && !t.insn.committed &&
        raised (deliver doubleFault 0x100#32) ((((gated.abandon gated).restAt 0x100#32).abandon t).restAt 0x100#32)
          fun _ u => !u.insn.arrived) = true ∧
    (let s := withGates [8] gated
     raised (deliver (faultEvent 13#8 (some 0#16) 0#32) 0x100#32) ((s.abandon s).restAt 0x100#32)
      (fun v t => v == 13#8 && !t.insn.arrived && !t.insn.committed &&
        ok? (deliver doubleFault 0x100#32) ((((s.abandon s).restAt 0x100#32).abandon t).restAt 0x100#32)) = true) ∧
    (let s := withGates [13] gated
     raised (deliver (faultEvent 6#8 none 0#32) 0x100#32) ((s.abandon s).restAt 0x100#32)
      (fun v t => v == 13#8 && !t.insn.arrived &&
        ok? (deliver (faultEvent 13#8 (some 0x32#16) 0#32) 0x100#32) ((((s.abandon s).restAt 0x100#32).abandon t).restAt 0x100#32)) =
        true) ∧
    raised (deliver (faultEvent 0x22#8 none 0#32) 0x100#32) ((badTask.abandon badTask).restAt 0x100#32)
      (fun v t => v == 10#8 && t.insn.arrived &&
        ok? (deliver (faultEvent 10#8 (some 0x20#16) 0#32) t.eip) (t.commitStores.restAt t.eip)) = true :=
  ⟨by decide +kernel, by decide +kernel, by decide +kernel, by decide +kernel⟩

/-- The task gate at 22h with an error code, to a task with a stack. -/
theorem witness_ProtectedDelivery_task : let s := withGates [0x22] (patched gates [(0x3039, 0x10#8)])
    s.Fresh ∧ s.pe = true ∧ okIs (sysRead (s.idtr.base + 0x110#32) 4) s 0x00180000 = true ∧
    okIs (sysRead (s.idtr.base + 0x114#32) 4) s 0x8500 = true ∧ checkTss 0x18#16 true excTS s = .ok () s ∧
    (match switchTasks .int 0x18#16 0x100#32 true s with
     | .ok _ u => u.room 4 && eipOk u.seg.cs.limit u.eip && decide (u.tr.format = .tss486) &&
        ok? (pushAllSys 4 [5]) { u with insn := { u.insn with arrived := false } }
     | .error _ _ => false) = true :=
  ⟨⟨rfl, rfl, rfl, rfl, rfl, rfl⟩, by decide +kernel, by decide +kernel, by decide +kernel, of_okTo (by decide +kernel),
    by decide +kernel⟩

/-- TR3 with a buffer that no data reference has corrupted. -/
theorem witness_SpecialMovesComplete_buffer : ∃ s : State, s.Fresh ∧ s.privileged = true ∧ s.bufferSpoiled = false ∧
    s.test.tr5.extractLsb' 0 2 = 0#2 := ⟨{ real with bufferSpoiled := false }, ⟨rfl, rfl, rfl, rfl, rfl, rfl⟩, rfl, rfl, rfl⟩

/-- 2^-33 is very small. -/
theorem witness_TranscendentalResults_small : let x := fpMake false 0x3FDE#15 0x8000000000000000#64
    fpClass x = .normal ∧ |(fpVal x).rat| < 2 ^ (-32 : Int) := by
  refine ⟨by decide, ?_⟩
  rw [show fpVal (fpMake false 0x3FDE#15 0x8000000000000000#64) = { neg := false, m := 2 ^ 63, e := -96, sticky := false } by decide]
  norm_num [Exact.rat, abs_of_pos]

/-- Values that single precision holds: 1, its least denormal and its greatest value. -/
theorem witness_FpuStoreResults_images : let f := FpFormat.single
    (∃ v, f.imageOf (.fin false 1 0) = some v ∧ 1 ≤ 2 ^ f.p ∧ (2 : ℚ) ^ (1 - (f.bias : Int)) ≤ (1 : Nat) * 2 ^ (0 : Int) ∧
      ((1 : Nat) : ℚ) * 2 ^ (0 : Int) < 2 ^ ((f.bias : Int) + 1)) ∧
    (∃ v, f.imageOf (.fin false 1 (-149)) = some v ∧ ((1 : Nat) : ℚ) * 2 ^ (-149 : Int) < 2 ^ (1 - (f.bias : Int)) ∧
      2 - (f.bias : Int) - f.p ≤ -149) ∧
    (∃ v, f.imageOf (.inf true) = some v) ∧ fpOrdinary fpOne = true ∧ fpIsInf fpOne = false :=
  ⟨⟨_, rfl, by decide, by norm_num [FpFormat.single], by norm_num [FpFormat.single]⟩,
    ⟨_, rfl, by norm_num [FpFormat.single], by decide⟩, ⟨_, rfl⟩, by decide, by decide⟩

/-- `real` with a control word and with ST and ST(1), each empty or not. -/
def onStack (cw : Word16) (x : Ext80) (e0 : Bool) (y : Ext80) (e1 : Bool) : State :=
  { real with fpu := { real.fpu with cw := cw, regs := (real.fpu.regs.set 0 x).set 1 y, empty := (real.fpu.empty.set 0 e0).set 1 e1 } }

/-- A signaling NaN, a quiet one, an unsupported format and a denormal. -/
def aSnan : Ext80 := fpMake false 0x7FFF#15 0x8000000000000001#64
def aQnan : Ext80 := fpMake true 0x7FFF#15 0xC000000000000001#64
def unsupported : Ext80 := fpMake false 0x3FFF#15 1#64
def aDenormal : Ext80 := fpMake false 0#15 1#64

theorem onStack_fresh (cw : Word16) (x y : Ext80) (e0 e1 : Bool) : (onStack cw x e0 y e1).Fresh := ⟨rfl, rfl, rfl, rfl, rfl, rfl⟩

/-- Comparisons without an order: ST or the source empty; a bad operand; a NaN with and without FUCOM; a denormal unmasked. -/
theorem witness_FpuComparisonResults_unordered :
    (∃ (i : Instr) (m : Option Mem) (k : Nat) (y : FpOperand), fpuCompares i = some (m, stOperand 1, k) ∧
      (let s := onStack 0x37F#16 fpOne true fpOne false
       s.fpuReady = true ∧ s.fpu.isEmpty 0 = true ∧ okIs (stOperand 1) s (some y) = true)) ∧
    (let s := onStack 0x37E#16 fpOne false fpOne true
     s.fpuReady = true ∧ s.fpu.isEmpty 0 = false ∧ s.fpu.masked .ie = false ∧ okIs (stOperand 1) s none = true) ∧
    (∃ x y : Ext80, fpIsBad (FpOperand.ofExt x).val = true ∧ fpIsNan (FpOperand.ofExt y).val = true ∧
      fpIsBad (FpOperand.ofExt y).val = false ∧ (onStack 0x37F#16 x false y false).fpuReady = true ∧
      (onStack 0x37F#16 x false y false).fpu.masked .ie = true) ∧
    (let s := onStack 0x37D#16 aDenormal false fpOne false
     s.fpuReady = true ∧ fpIsNan aDenormal = false ∧ fpIsBad aDenormal = false ∧ (FpOperand.ofExt (s.fpu.st 0)).denormal = true ∧
       s.fpu.masked .de = false) :=
  ⟨⟨.fucomp 1, _, _, FpOperand.ofExt fpOne, rfl, rfl, rfl, by decide⟩, ⟨rfl, rfl, by decide, by decide⟩,
    ⟨aSnan, aQnan, by decide, by decide, by decide, rfl, by decide⟩, rfl, by decide, by decide, by decide, by decide⟩

/-- FLD of an empty register, of a signaling NaN and of a denormal in single precision, where ST(7) is empty. -/
theorem witness_FpuLoadResults_invalid :
    (real.fpuReady = true ∧ real.fpu.isEmpty 7 = true ∧ real.fpu.isEmpty 2 = true ∧ real.fpu.masked .ie = true) ∧
    (let s := patched real [(0x200, 1#8), (0x202, 0x80#8), (0x203, 0x7F#8)]
     ∃ x, readRealOp FpFormat.single at200 s = .ok x s ∧ fpClass x.val = .snan) ∧
    (let s := patched real [(0x200, 1#8)]
     ∃ x, readRealOp FpFormat.single at200 s = .ok x s ∧ x.denormal = true) :=
  ⟨⟨rfl, rfl, rfl, by decide⟩, ⟨FpFormat.single.widen 0x7F800001, of_okTo (by decide +kernel), by decide⟩,
    FpFormat.single.widen 1, of_okTo (by decide +kernel), by decide⟩

/-- Stores of an empty ST, of a signaling NaN, an unsupported format and an unmasked denormal, of a value that overflows unmasked and of
an integer out of range, each with the memory that takes the answer. -/
theorem witness_FpuStoreResults_invalid :
    ([(0x37F#16, fpOne, true), (0x37E#16, fpOne, true), (0x37F#16, aSnan, false), (0x37D#16, aDenormal, false)].all fun p =>
      let s := onStack p.1 p.2.1 p.2.2 fpOne false
      okTo (memProbe at200.as (s.segOf at200) (s.gpr.ea at200) 4 4) s () s) = true ∧
    (∀ (cw : Word16) (x : Ext80) (e : Bool) (v : Nat) (f : Fpu) (k : Nat), let s := onStack cw x e fpOne false
     ∃ s2, memWrite at200.as (s.segOf at200) (s.gpr.ea at200) 4 4 v { s with fpu := f, freeCtr := k } = .ok () s2) ∧
    (let s := onStack 0x37F#16 fpOne true fpOne false
     s.fpuReady = true ∧ s.fpu.isEmpty 0 = true ∧ s.fpu.masked .ie = true) ∧
    (let s := onStack 0x37E#16 fpOne true fpOne false
     s.fpuReady = true ∧ s.fpu.isEmpty 0 = true ∧ s.fpu.masked .ie = false) ∧
    fpClass aSnan = .snan ∧ fpClass unsupported = .unsupported ∧
    (let s := onStack 0x37D#16 aDenormal false fpOne false
     s.fpuReady = true ∧ fpClass (s.fpu.st 0) = .denormal ∧ s.fpu.masked .de = false) ∧
    (let s := onStack 0x377#16 (fpMake false 0x407F#15 0x8000000000000000#64) false fpOne false
     s.fpuReady = true ∧ fpClass (s.fpu.st 0) = .normal ∧
       (deliverValue FpFormat.single s.fpu.rc (s.fpu.masked .oe) (s.fpu.masked .ue) true (fpVal (s.fpu.st 0))).out = .unstated) ∧
    (let x := fpMake false 0x401E#15 0x8000000000000000#64
     fpOrdinary x = true ∧ fpIsInf x = false ∧ ¬ (fpToInt 0#2 x).int (fpSign x) < 2 ^ (8 * 4 - 1)) ∧
    (let x := fpMake true 0x401E#15 0x8000000000000000#64
     fpOrdinary x = true ∧ fpIsInf x = false ∧ -(2 ^ (8 * 4 - 1) : Int) ≤ (fpToInt 0#2 x).int (fpSign x)) :=
  ⟨by decide +kernel, fun _ _ _ _ _ _ => memWrite_ok (show real.paging = false by decide +kernel) (fun _ => show real.real = true from rfl)
      (show real.admits at200.as (real.segOf at200) (real.gpr.ea at200) 4 4 .write = true by decide +kernel),
    ⟨rfl, rfl, by decide⟩, ⟨rfl, rfl, by decide⟩, by decide, by decide, ⟨rfl, by decide, by decide⟩, ⟨rfl, by decide, by decide +kernel⟩, by decide +kernel, by decide +kernel⟩

/-- ST, ST(1) or both empty. -/
theorem witness_FpuMoveResults_empty : (onStack 0x37F#16 fpOne true fpOne false).Fresh ∧
    (∀ p ∈ [(true, false), (false, true), (true, true)], let s := onStack 0x37F#16 fpOne p.1 fpOne p.2
     s.fpuReady = true ∧ s.fpu.isEmpty 0 = p.1 ∧ s.fpu.isEmpty 1 = p.2) := ⟨onStack_fresh _ _ _ _ _, by decide⟩

/-- A scale of 0 and one beyond 2^17, a remainder of zero, and a quotient of 3/2, which lies midway. -/
theorem witness_FpuNumberResults_zero : fpClass (half.fpu.st 0) = .normal ∧ scaleOf (half.fpu.st 0) = 0 ∧
    scaleOf (big.fpu.st 0) = 2 ^ 17 ∧ fpIsReal (big.fpu.st 0) = true ∧
    (let s := onStack 0x37F#16 fpOne false fpOne false
     s.fpuReady = true ∧ fpClass (s.fpu.st 0) = .normal ∧
       (remainderOf false (shiftUp (fpVal (s.fpu.st 0)).m 0) (shiftUp (fpVal (s.fpu.st 1)).m 0)).2.1 = 0) ∧
    2 * (remainderOf true 3 2).2.1 = 2 := by decide

/-- Finite outcomes at the ends of the extended format: its least denormal, 2^-16382 and its greatest value; integers; widened images. -/
theorem witness_FpuExactValues_images :
    (∃ q : Nat, q = 2 ^ 64 - 1 ∧ 2 ^ (q.log2 - 63) ∣ q ∧ (q : ℚ) * 2 ^ (16320 : Int) < 2 ^ (16384 : Int)) ∧
    (∃ q : Nat, q = 1 ∧ 2 ^ (q.log2 - 63) ∣ q ∧ (q : ℚ) * 2 ^ (-16445 : Int) < 2 ^ (16384 : Int)) ∧
    (∀ v ∈ [(0 : Int), 2 ^ 64, -(2 ^ 63)], v.natAbs ≤ 2 ^ 64) ∧
    (FpFormat.single.widen 0x3F800000).val = fpOne ∧ (FpFormat.double.widen 0xBFF0000000000000).val = fpMake true 0x3FFF#15 0x8000000000000000#64 := by
  refine ⟨⟨_, rfl, by decide, ?_⟩, ⟨_, rfl, by decide, ?_⟩, by decide, by decide, by decide⟩
  · calc ((2 ^ 64 - 1 : Nat) : ℚ) * 2 ^ (16320 : Int) < 2 ^ (64 : Int) * 2 ^ (16320 : Int) :=
          mul_lt_mul_of_pos_right (by norm_num) (zpow_pos (by norm_num) _)
      _ = 2 ^ (16384 : Int) := by rw [← zpow_add₀ (by norm_num)]; norm_num
  · rw [Nat.cast_one, one_mul]
    exact zpow_lt_zpow_right₀ (by norm_num) (by norm_num)

/-! Single steps, on the worked examples of 95_test_vectors.md and the rules named. -/

/-- A state with given EAX, EBX, ECX and flags. -/
def acc (s : State) (a b c : Word32) (f : Word32 := 2#32) : State :=
  { s with eflags := f, gpr := { s.gpr with eax := a, ebx := b, ecx := c } }

/-- Place an instruction at CS:EIP of a state, step, and look at the result. -/
def runs (s : State) (l : List Byte) (p : State → Bool) : Bool :=
  match step { s with mem := placeBytes s.mem (s.seg.cs.base + s.eip) l } with
  | .next t => p t
  | _ => false

/-- The flags CF PF AF ZF SF OF. -/
def flags (t : State) : List Bool := [t.cf, t.pf, t.af, t.zf, t.sf, t.of]

theorem test_add_wraps : runs (acc real 0xFF#32 0#32 0#32) [0x04#8, 1#8]
    (fun t => t.gpr.eax == 0#32 && flags t == [true, true, true, true, false, false] && t.eip == 0x102#32) = true := by decide +kernel
theorem test_add_overflows : runs (acc real 0x7F#32 0#32 0#32) [0x04#8, 1#8]
    (fun t => t.gpr.eax == 0x80#32 && flags t == [false, false, true, false, true, true]) = true := by decide +kernel
theorem test_adc_dword : runs (acc real 1#32 0#32 0#32 3#32) [0x66#8, 0x15#8, 0xFF#8, 0xFF#8, 0xFF#8, 0xFF#8]
    (fun t => t.gpr.eax == 1#32 && flags t == [true, false, true, false, false, false]) = true := by decide +kernel
theorem test_sub_keeps_upper_half : runs (acc real 0x50000#32 1#32 0#32) [0x29#8, 0xD8#8]
    (fun t => t.gpr.eax == 0x5FFFF#32 && flags t == [true, true, true, false, true, false]) = true := by decide +kernel
theorem test_cmp_signed_overflow : runs (acc real 0x7F#32 0#32 0#32) [0x3C#8, 0x80#8]
    (fun t => t.gpr.eax == 0x7F#32 && flags t == [true, true, false, false, true, true]) = true := by decide +kernel
theorem test_inc_keeps_carry : runs (acc real 0xFF#32 0#32 0#32 3#32) [0xFE#8, 0xC0#8]
    (fun t => t.gpr.eax == 0#32 && flags t == [true, true, true, true, false, false]) = true := by decide +kernel
theorem test_neg_most_negative : runs (acc real 0x80#32 0#32 0#32) [0xF6#8, 0xD8#8]
    (fun t => t.gpr.eax == 0x80#32 && flags t == [true, false, false, false, true, true]) = true := by decide +kernel
theorem test_imul_negative_immediate : runs (acc real 0#32 5#32 0#32) [0x66#8, 0x6B#8, 0xC3#8, 0xFD#8]
    (fun t => t.gpr.eax == 0xFFFFFFF1#32) = true := by decide +kernel
theorem test_idiv_truncates : runs (acc real 0xFFF9#32 2#32 0#32) [0xF6#8, 0xFB#8]
    (fun t => t.gpr.eax == 0xFFFD#32) = true := by decide +kernel
theorem test_daa : runs (acc real 0xAE#32 0#32 0#32) [0x27#8]
    (fun t => t.gpr.eax == 0x14#32) = true := by decide +kernel
theorem test_aaa : runs (acc real 0xA#32 0#32 0#32) [0x37#8] (fun t => t.gpr.eax == 0x100#32) = true := by
  decide +kernel
theorem test_aam : runs (acc real 0x35#32 0#32 0#32) [0xD4#8, 0xA#8] (fun t => t.gpr.eax == 0x503#32) = true := by
  decide +kernel
theorem test_shl_one : runs (acc real 0xC0#32 0#32 0#32) [0xD0#8, 0xE0#8]
    (fun t => t.gpr.eax == 0x80#32) = true := by decide +kernel
theorem test_shl_masked_count : runs (acc real 0xFF#32 0#32 0#32 0x8D7#32) [0xC0#8, 0xE0#8, 0x20#8]
    (fun t => t.gpr.eax == 0xFF#32 && t.eflags == 0x8D7#32) = true := by decide +kernel
theorem test_sar_cl : runs (acc real 0x80#32 0#32 7#32) [0xD2#8, 0xF8#8]
    (fun t => t.gpr.eax == 0xFF#32) = true := by decide +kernel
theorem test_rcl_four : runs (acc real 1#32 0#32 0#32 3#32) [0xC0#8, 0xD0#8, 4#8]
    (fun t => t.gpr.eax == 0x18#32) = true := by decide +kernel
theorem test_ror_one : runs (acc real 1#32 0#32 0#32) [0xD0#8, 0xC8#8] (fun t => t.gpr.eax == 0x80#32) = true := by
  decide +kernel
theorem test_shld : runs (acc real 0x12345678#32 0x9ABCDEF0#32 0#32) [0x66#8, 0x0F#8, 0xA4#8, 0xD8#8, 4#8]
    (fun t => t.gpr.eax == 0x23456789#32) = true := by decide +kernel
theorem test_bts_negative_offset : runs (acc real 0#32 0x2000#32 0xFFFFFFFF#32 3#32) [0x66#8, 0x67#8, 0x0F#8, 0xAB#8, 0x0B#8]
    (fun t => Memory.read t.mem 0x1FFF == 0x80#8) = true := by decide +kernel
theorem test_bsr : runs (acc real 0#32 0x80000100#32 0#32) [0x66#8, 0x0F#8, 0xBD#8, 0xC3#8]
    (fun t => t.gpr.eax == 31#32) = true := by decide +kernel
theorem test_cmpxchg_unequal : runs (acc real 4#32 9#32 5#32) [0x0F#8, 0xB0#8, 0xD9#8]
    (fun t => t.gpr.ecx == 5#32 && t.gpr.eax == 5#32 && flags t == [true, true, true, false, true, false]) = true := by
  decide +kernel
theorem test_xadd : runs (acc real 1#32 2#32 0#32) [0x66#8, 0x0F#8, 0xC1#8, 0xD8#8]
    (fun t => t.gpr.eax == 3#32 && t.gpr.ebx == 1#32) = true := by decide +kernel
theorem test_movsx : runs (acc real 0#32 0x80#32 0#32) [0x66#8, 0x0F#8, 0xBE#8, 0xC3#8]
    (fun t => t.gpr.eax == 0xFFFFFF80#32) = true := by decide +kernel
theorem test_lea : runs (acc real 0x1000#32 0#32 3#32) [0x66#8, 0x67#8, 0x8D#8, 0x44#8, 0x88#8, 4#8]
    (fun t => t.gpr.eax == 0x1010#32) = true := by decide +kernel
theorem test_mov_bp_uses_ss : runs { real with seg := { real.seg with ss := .real 0x20#16 0x200#32 }, mem := [(0x12FE, 0xEF#8)] }
    [0x8B#8, 0x46#8, 0xFE#8] (fun t => t.gpr.eax == 0x123400EF#32) = true := by decide +kernel
theorem test_push_sp : runs real [0x54#8] (fun t => t.gpr.esp == 0xFFE#32 && Memory.read t.mem 0xFFF == 0x10#8) = true := by
  decide +kernel
theorem test_movsb_backwards : runs { real with eflags := 0x402#32, mem := [(0x400, 0x55#8)] } [0xA4#8]
    (fun t => t.gpr.esi == 0x3FF#32 && t.gpr.edi == 0x4FF#32 && Memory.read t.mem 0x500 == 0x55#8) = true := by decide +kernel
theorem test_rep_stays : runs real [0xF3#8, 0xAA#8]
    (fun t => t.gpr.ecx == 2#32 && t.eip == 0x100#32 && Memory.read t.mem 0x500 == 0x78#8) = true := by decide +kernel
theorem test_je_taken : runs { real with eflags := 0x42#32 } [0x74#8, 0xFE#8] (fun t => t.eip == 0x100#32) = true := by
  decide +kernel
theorem test_loop_word_count : runs { real with gpr := { real.gpr with ecx := 0x10001#32 } } [0xE2#8, 0xF0#8]
    (fun t => t.gpr.ecx == 0x10000#32 && t.eip == 0x102#32) = true := by decide +kernel
theorem test_call_pushes_next : runs real [0xE8#8, 0x10#8, 0#8]
    (fun t => t.eip == 0x113#32 && Memory.read t.mem 0xFFE == 3#8 && Memory.read t.mem 0xFFF == 1#8) = true := by decide +kernel
theorem test_divide_error_enters_handler : runs { acc real 0x200#32 2#32 0#32 with mem := [(1, 0x90#8), (3, 0x50#8)] } [0xF6#8, 0xF3#8]
    (fun t => t.eip == 0x9000#32 && t.seg.cs.sel == 0x5000#16 && t.gpr.eax == 0x200#32 && Memory.read t.mem 0xFFB == 1#8 &&
      Memory.read t.mem 0xFFA == 0#8) = true := by decide +kernel
theorem test_int_through_gate : runs { gated with eflags := 0x202#32 } [0xCD#8, 0x21#8]
    (fun t => t.eip == 0x500#32 && t.seg.cs.sel == 0x28#16 && !t.ifl && t.gpr.esp == 0xFF4#32 &&
      Memory.read t.mem 0xFF4 == 2#8 && Memory.read t.mem 0xFFD == 2#8) = true := by decide +kernel
theorem test_int_through_gate_pushes_rf_clear : runs { gated with eflags := 0x10002#32 } [0xCD#8, 0x21#8]
    (fun t => Memory.read t.mem 0xFFC == 2#8 && Memory.read t.mem 0xFFE == 0#8 && !t.rf) = true := by decide +kernel
theorem test_int_through_task_gate_saves_rf : runs { withGates [0x22] gates with eflags := 0x10002#32 } [0xCD#8, 0x22#8]
    (fun t => t.tr.sel == 0x18#16 && Memory.read t.mem 0x5024 == 2#8 && Memory.read t.mem 0x5026 == 1#8) = true := by decide +kernel

/-- `paged` with the page read-only in memory, and a line of the cache in which its entry still names page 9, writable: what the
second read of the update finds is used (21_segmentation_paging_protection.md R262). -/
def staleEntry : State :=
  { patched paged [(0x5004, 5#8)] with
    cache := [(0, { CacheSet.blank with i0 := { valid := true, tag := 10#21, data := 0x9007#128 <<< 32 } })] }

theorem test_walk_uses_second_read :
    (match translate 0x1234#32 false true staleEntry with
     | .ok p t => p == (0x7234#32, true) && !((t.tlbSetAt 1).get .w0).writable
     | .error _ _ => false) = true := by decide +kernel
theorem test_walk_tests_second_read :
    (match translate 0x1234#32 true true staleEntry with
     | .ok _ _ => false
     | .error e t => (match e with
        | .exn v c _ => v == 14#8 && c.isSome && Memory.read t.mem 0x5004 == 5#8 &&
            ((t.tlbSetAt 1).get .w0).valid == false
        | _ => false)) = true := by decide +kernel
theorem test_call_gate_copies_parameter : runs (patched outerGates [(0x1000, 0x77#8)]) [0x9A#8, 0#8, 1#8, 0x33#8, 0#8]
    (fun t => t.cpl == 0#2 && t.gpr.esp == 0x17EC#32 && t.eip == 0x500#32 && Memory.read t.mem 0x17F4 == 0x77#8 &&
      Memory.read t.mem 0x17F9 == 0x10#8 && Memory.read t.mem 0x17EC == 5#8) = true := by decide +kernel
theorem test_double_fault_task_without_stack : runs (patched gates [(0x3042, 0x18#8), (0x3045, 0x85#8)]) [0xEA#8, 0#8, 1#8, 0#8, 0#8]
    (fun t => t.run == .shutdown && t.tr.sel == 0x18#16) = true := by decide +kernel
theorem test_read_corrupts_buffer : runs { real with bufferSpoiled := false } [0xA0#8, 0#8, 2#8] (fun t => t.bufferSpoiled) = true := by
  decide +kernel
theorem test_nop_keeps_buffer : runs { real with bufferSpoiled := false } [0x90#8] (fun t => !t.bufferSpoiled) = true := by
  decide +kernel
theorem test_lldt : runs { prot with gpr := { prot.gpr with eax := 0x20#32 } } [0x0F#8, 0#8, 0xD0#8]
    (fun t => t.ldtr == { sel := 0x20#16, base := 0x4000#32, limit := 0x67#32, access := 0x82#8, top := 0#4,
                          valid := true }) = true := by decide +kernel
theorem test_lmsw_sets_pe : runs { real with gpr := { real.gpr with eax := 1#32 } } [0x0F#8, 0x01#8, 0xF0#8]
    (fun t => t.prot && t.cr0 == 0x60000011#32) = true := by decide +kernel
theorem test_single_step_trap_pending : runs { real with eflags := 0x102#32 } [0x90#8]
    (fun t => t.traps.bs && t.pendingTrap.isSome) = true := by decide +kernel
theorem test_fadd : runs real [0xD8#8, 0xC1#8]
    (fun t => t.fpu.st 0 == 0x40019000000000000000#80 && t.fpu.st 1 == real.fpu.st 1) = true := by decide +kernel
theorem test_fld_single : runs { real with mem := [(0x301, 0x20#8), (0x302, 0x32#8), (0x303, 0x43#8)] } [0xD9#8, 0x07#8]
    (fun t => t.fpu.st 0 == 0x4006B220000000000000#80 && t.fpu.top == 7) = true := by decide +kernel
theorem test_fistp_rounds_to_even : runs real [0xDB#8, 0x1F#8]
    (fun t => Memory.read t.mem 0x300 == 2#8 && t.fpu.top == 1 && t.fpu.status.pe) = true := by decide +kernel
theorem test_fdiv_by_zero_masked : runs zeroBelow [0xD8#8, 0xF1#8]
    (fun t => t.fpu.st 0 == fpInf false && t.fpu.status.ze) = true := by decide +kernel
theorem test_fprem_quiet_nan_beside_zero : runs { real with fpu := { zeroBelow.fpu with
      regs := zeroBelow.fpu.regs.set 0 (fpMake false 0x7FFF#15 0xC000000000000001#64) } } [0xD9#8, 0xF8#8]
    (fun t => t.fpu.st 0 == fpMake false 0x7FFF#15 0xC000000000000001#64 && t.fpu.status.ie) = true := by decide +kernel
theorem test_fprem_zero_divisor_invalid : runs zeroBelow [0xD9#8, 0xF8#8]
    (fun t => t.fpu.st 0 == fpIndefinite && t.fpu.status.ie) = true := by decide +kernel
theorem test_ffree_fnstsw : runs real [0xDF#8, 0xE0#8] (fun t => t.gpr.eax == 0x12340000#32) = true := by decide +kernel
theorem test_reset_fetches_at_top : ((placeBytes [] (State.reset.seg.cs.base + State.reset.eip) [0x90#8]) == [(0xFFFFFFF0, 0x90#8)]) = true := by
  decide +kernel
theorem test_first_instruction_after_reset :
    (match step (State.reset.withFetchWord 8 0xF8) with
     | .next t => t.eip == 0xFFF1#32 && !t.cf
     | _ => false) = true := by decide +kernel

end Sys2Proof.Tests
end

section
/-! The state after RESET (spec/10_state.md R80). -/
namespace Sys2Proof.Machine
open Sys2Proof

/-- Settles O51: every value of the table is that of the reset state, by computation. -/
theorem resetState : Obligations.ResetState := by
  refine ⟨rfl, rfl, rfl, rfl, rfl, rfl, by decide, ?_, ?_, rfl, rfl, rfl, rfl, rfl, rfl, rfl, rfl, by decide, rfl, rfl, rfl,
    rfl, rfl, rfl, rfl, rfl, rfl, rfl, ?_, rfl, rfl⟩
  · intro r h
    cases r with
    | cs => exact absurd rfl h
    | es | ss | ds | fs | gs => exact ⟨rfl, rfl⟩
  · intro r
    cases r with
    | es | cs | ss | ds | fs | gs => exact ⟨rfl, rfl, rfl, rfl, rfl, rfl, rfl⟩
  · intro a w
    cases w with
    | w0 | w1 | w2 | w3 => rfl

/-- Settles O53: reset leaves memory empty and Real Mode at level 0, and the fixed bits at their values. -/
theorem resetInvariant : Obligations.ResetInvariant := by
  refine ⟨⟨reset_memory_wf, rfl, rfl, rfl, rfl, fun _ => ⟨rfl, rfl⟩, fun h => ?_⟩, rfl⟩
  exact absurd h (by decide)

end Sys2Proof.Machine
end

section
/-!
SUPPORT. What a computation keeps: `Ends` says what both its outcomes leave, `Steady` that a state keeps the fixed bits, the
mode and the level of another, `Calm` that a computation is steady whatever its outcome.
-/
namespace Sys2Proof.Machine
open Sys2Proof

variable {α β : Type}

/-- Both outcomes of a computation leave a state with a property. -/
def Ends (x : M α) (s : State) (p : State → Prop) : Prop :=
  match x s with
  | .ok _ t => p t
  | .error _ t => p t

theorem ends_of_ok {x : M α} {s t : State} {a : α} {p : State → Prop} (h : x s = .ok a t) : Ends x s p ↔ p t := by
  unfold Ends; rw [h]

theorem ends_of_error {x : M α} {s t : State} {e : Exc} {p : State → Prop} (h : x s = .error e t) : Ends x s p ↔ p t := by
  unfold Ends; rw [h]

theorem Ends.mono {x : M α} {s : State} {p q : State → Prop} (h : Ends x s p) (k : ∀ t, p t → q t) : Ends x s q := by
  cases hx : x s with
  | ok a t => rw [ends_of_ok hx] at h ⊢; exact k t h
  | error e t => rw [ends_of_error hx] at h ⊢; exact k t h

/-- A computation, then another from whatever state the first leaves. -/
theorem Ends.bind {x : M α} {f : α → M β} {s : State} {p q : State → Prop} (h : Ends x s p)
    (k : ∀ a t, p t → Ends (f a) t q) (e : ∀ t, p t → q t) : Ends (x >>= f) s q := by
  cases hx : x s with
  | ok a t =>
    have g := k a t ((ends_of_ok hx).mp h)
    unfold Ends at g ⊢
    rw [bind_of_ok hx]
    exact g
  | error c t => exact (ends_of_error (bind_of_error hx)).mpr (e t ((ends_of_error hx).mp h))

/-- What holds between the states before and after everything but a change of mode or level: memory stays canonical, the fixed bits
of EFLAGS and DR7 stay fixed, and VM, CR0 and CPL stay. -/
structure Steady (s t : State) : Prop where
  mem : s.memOk = true → t.memOk = true
  eflags : fixFlags s.eflags = s.eflags → fixFlags t.eflags = t.eflags
  dr7 : s.dr.dr7 &&& 0xFFFF23FF#32 = s.dr.dr7 → t.dr.dr7 &&& 0xFFFF23FF#32 = t.dr.dr7
  vm : t.vm = s.vm
  cr0 : t.cr0 = s.cr0
  cpl : t.cpl = s.cpl

theorem Steady.refl (s : State) : Steady s s := ⟨id, id, id, rfl, rfl, rfl⟩

theorem Steady.trans {s t u : State} (h : Steady s t) (k : Steady t u) : Steady s u :=
  ⟨k.mem ∘ h.mem, k.eflags ∘ h.eflags, k.dr7 ∘ h.dr7, k.vm.trans h.vm, k.cr0.trans h.cr0, k.cpl.trans h.cpl⟩

/-- A change that leaves all but memory alone. -/
theorem Steady.ofMem {s t : State} (mem : s.memOk = true → t.memOk = true)
    (rest : (t.eflags, t.dr, t.cr0, t.cpl) = (s.eflags, s.dr, s.cr0, s.cpl)) : Steady s t := by
  simp only [Prod.mk.injEq] at rest
  obtain ⟨eflags, dr, cr0, cpl⟩ := rest
  exact ⟨mem, by rw [eflags]; exact id, by rw [dr]; exact id, by unfold State.vm; rw [eflags], cr0, cpl⟩

/-- A change of other fields. -/
theorem Steady.same {s t : State} (rest : (t.mem, t.eflags, t.dr, t.cr0, t.cpl) = (s.mem, s.eflags, s.dr, s.cr0, s.cpl)) :
    Steady s t := by
  obtain ⟨mem, rest⟩ := Prod.mk.inj rest
  exact .ofMem (by unfold State.memOk; rw [mem]; exact id) rest

theorem Steady.real {s t : State} (h : Steady s t) : t.real = s.real := by
  unfold State.real State.pe State.cr0Bit; rw [h.cr0]

theorem Steady.pe {s t : State} (h : Steady s t) : t.pe = s.pe := by unfold State.pe State.cr0Bit; rw [h.cr0]

theorem Steady.prot {s t : State} (h : Steady s t) : t.prot = s.prot := by unfold State.prot; rw [h.pe, h.vm]

theorem Steady.v86 {s t : State} (h : Steady s t) : t.v86 = s.v86 := by unfold State.v86; rw [h.pe, h.vm]

/-- The invariant survives. -/
theorem Steady.inv {s t : State} (h : Steady s t) (i : s.Inv) : t.Inv where
  mem := h.mem i.mem
  eflags := h.eflags i.eflags
  cr0 := by rw [h.cr0]; exact i.cr0
  legal := by rw [h.cr0]; exact i.legal
  dr7 := h.dr7 i.dr7
  real := by rw [h.real, h.cpl, h.vm]; exact i.real
  v86 := by rw [h.v86, h.cpl]; exact i.v86

/-- A computation that is steady, whatever its outcome. -/
def Calm (x : M α) : Prop := ∀ s, Ends x s (Steady s)

theorem Calm.pure {a : α} : Calm (pure a : M α) := fun s => .refl s
theorem Calm.get : Calm (get : M State) := fun s => .refl s
theorem Calm.throw {e : Exc} : Calm (throw e : M α) := fun s => .refl s
theorem Calm.modify {f : State → State} (h : ∀ s, Steady s (f s)) : Calm (modify f) := h

theorem Calm.bind {x : M α} {f : α → M β} (hx : Calm x) (hf : ∀ a, Calm (f a)) : Calm (x >>= f) := fun s =>
  (hx s).bind (fun a t h => (hf a t).mono fun _ => h.trans) fun _ h => h

theorem Calm.ite {c : Prop} [Decidable c] {x y : M α} (hx : Calm x) (hy : Calm y) : Calm (if c then x else y) := by
  split
  · exact hx
  · exact hy

/-- A choice, then what follows both branches. -/
theorem Calm.join {c : Prop} [Decidable c] {x y : M α} {k : α → M β} (hx : Calm x) (hy : Calm y) (hk : ∀ a, Calm (k a)) :
    Calm (if c then x >>= k else y >>= k) := .ite (hx.bind hk) (hy.bind hk)

/-- A step made on a condition, then what follows. -/
theorem Calm.joinThen {c : Prop} [Decidable c] {x : M Unit} {k : Unit → M β} (hx : Calm x) (hk : ∀ a, Calm (k a)) :
    Calm (if c then x >>= k else k ()) := .ite (hx.bind hk) (hk ())

/-- The state is read and replaced. -/
theorem Calm.put {f : State → State} {k : State → M β} (h : ∀ s, Steady s (f s)) (hk : ∀ s, Calm (k s)) :
    Calm (MonadState.get >>= fun s => set (f s) >>= fun _ => k s) := fun s => (hk s (f s)).mono fun _ => (h s).trans

theorem check_calm {c : Bool} {e : Exc} : Calm (check c e) := .ite .pure .throw
theorem draw_calm {w : Nat} : Calm (draw w) := .put (fun _ => .same rfl) fun _ => .pure

end Sys2Proof.Machine
end

section
/-! SUPPORT. The memory and paging operations are calm. -/
namespace Sys2Proof.Machine
open Sys2Proof

theorem readPhys_steady (s : State) (a : Word32) (c l : Bool) : Steady s (s.readPhys a c l).2 := by
  rw [readPhys_eqn]
  exact .same rfl

theorem updatePhys_steady (s : State) (a : Word32) (f : Byte → Byte) : Steady s (s.updatePhys a f) := by
  have w := updatePhys_mem_wf s a f
  rw [updatePhys_eqn] at w ⊢
  exact .ofMem w rfl

theorem commitStores_steady (s : State) : Steady s s.commitStores := by
  have w := commitStores_mem_wf s
  rw [commitStores_eqn] at w ⊢
  exact .ofMem w rfl

theorem maskA20_calm {a : Word32} : Calm (maskA20 a) := .bind .get fun _ => .ite .pure (.ite .pure .throw)

/-- A byte is read, and what follows goes by it. -/
theorem Calm.readByte {β : Type} {a : Word32} {c l : Bool} {k : Byte → M β} (hk : ∀ v, Calm (k v)) :
    Calm (MonadState.get >>= fun s => set (s.readPhys a c l).2 >>= fun _ => k (s.readPhys a c l).1) :=
  .put (fun s => readPhys_steady s a c l) fun _ => hk _

theorem physRead_calm {c l : Bool} : ∀ {n : Nat} {a : Word32}, Calm (physRead a c l n)
  | 0, _ => .pure
  | _ + 1, _ => maskA20_calm.bind fun _ => .readByte fun _ => physRead_calm.bind fun _ => .pure

theorem physOr_calm : ∀ {l : List Byte} {a : Word32}, Calm (physOr a l)
  | [], _ => .pure
  | _ :: _, _ => maskA20_calm.bind fun _ => .bind (.modify fun s => updatePhys_steady s _ _) fun _ => physOr_calm

theorem physDword_calm {a c l} : Calm (physDword a c l) := physRead_calm.bind fun _ => .pure

theorem pageFault_calm {α : Type} {lin p w u} : Calm (pageFault lin p w u : M α) :=
  draw_calm.bind fun _ => .bind (.modify fun _ => .same rfl) fun _ => .throw

theorem secondRead_calm {a o b} : Calm (secondRead a o b) := .ite .pure physDword_calm
theorem setEntryBits_calm {a o b} : Calm (setEntryBits a o b) := .ite .pure physOr_calm
theorem checkPde_calm {lin w u pde} : Calm (checkPde lin w u pde) := .ite .pure pageFault_calm
theorem checkPte_calm {lin w u pde pte} : Calm (checkPte lin w u pde pte) :=
  .bind .get fun _ => .ite pageFault_calm (.ite .pure pageFault_calm)

theorem walk_calm {lin w u} : Calm (walk lin w u) :=
  .bind .get fun _ => physDword_calm.bind fun _ => checkPde_calm.bind fun _ => secondRead_calm.bind fun _ =>
    checkPde_calm.bind fun _ => setEntryBits_calm.bind fun _ => physDword_calm.bind fun _ => checkPte_calm.bind fun _ =>
    secondRead_calm.bind fun _ => checkPte_calm.bind fun _ => setEntryBits_calm.bind fun _ => .pure

theorem translate_calm {lin w u} : Calm (translate lin w u) := by
  have fill {e} : Calm (modify fun s => s.fillTlb lin e) := .modify fun _ => .same rfl
  intro s
  unfold translate
  show Ends (if _ then _ else _) s _
  split
  · exact .refl s
  · split
    · dsimp only
      split
      · exact .same rfl
      · exact pageFault_calm s
    · exact (walk_calm.bind fun _ => fill.bind fun _ => .pure) s

theorem translateBytes_calm {w u} : ∀ {n lin}, Calm (translateBytes lin w u n)
  | 0, _ => .pure
  | _ + 1, _ => translate_calm.bind fun _ => maskA20_calm.bind fun _ => translateBytes_calm.bind fun _ => .pure

theorem readBytes_calm {l} : ∀ {ps}, Calm (readBytes l ps)
  | [] => .pure
  | _ :: _ => .readByte fun _ => readBytes_calm.bind fun _ => .pure

theorem storeBytes_calm : ∀ {ps vs}, Calm (storeBytes ps vs)
  | [], _ => .pure
  | _ :: _, [] => .pure
  | _ :: _, _ :: _ => .bind (.modify fun _ => .same rfl) fun _ => storeBytes_calm

theorem writeBytes_calm : ∀ {ps vs}, Calm (writeBytes ps vs)
  | [], _ => .pure
  | _ :: _, [] => .pure
  | _ :: _, _ :: _ => .bind (.modify fun s => updatePhys_steady s _ _) fun _ => writeBytes_calm

theorem updateBytes_calm {f} : ∀ {ps}, Calm (updateBytes f ps)
  | [] => .pure
  | _ :: _ => .bind (.modify fun s => updatePhys_steady s _ _) fun _ => updateBytes_calm

theorem refer_calm : Calm refer := .modify fun _ => .same rfl
theorem sysRead_calm {lin n} : Calm (sysRead lin n) :=
  refer_calm.bind fun _ => translateBytes_calm.bind fun _ => readBytes_calm.bind fun _ => .pure
theorem sysWrite_calm {lin n v} : Calm (sysWrite lin n v) :=
  refer_calm.bind fun _ => translateBytes_calm.bind fun _ => writeBytes_calm
theorem sysUpdate_calm {lin f} : Calm (sysUpdate lin f) :=
  refer_calm.bind fun _ => translateBytes_calm.bind fun _ => updateBytes_calm
theorem sysProbe_calm {lin n w} : Calm (sysProbe lin n w) := translateBytes_calm.bind fun _ => .pure
theorem noteAccess_calm {lin k w} : Calm (noteAccess lin k w) := .modify fun _ => .same rfl

end Sys2Proof.Machine
end

section
/-! SUPPORT. Registers, operands in memory, the stack and descriptors: the operations are calm. -/
namespace Sys2Proof.Machine
open Sys2Proof

theorem getReg_calm {w r} : Calm (getReg w r) := .bind .get fun _ => .pure
theorem setReg_calm {w r v} : Calm (setReg w r v) := .modify fun _ => .same rfl
theorem setSeg_calm {r v} : Calm (setSeg r v) := .modify fun _ => .same rfl
theorem segCheck_calm {z r off n k} : Calm (segCheck z r off n k) :=
  .bind .get fun _ => check_calm.bind fun _ => check_calm.bind fun _ => .pure
theorem alignCheck_calm {lin a} : Calm (alignCheck lin a) := .bind .get fun _ => check_calm
theorem memRead_calm {z r off n a} : Calm (memRead z r off n a) :=
  segCheck_calm.bind fun _ => alignCheck_calm.bind fun _ => noteAccess_calm.bind fun _ => .bind .get fun _ =>
    translateBytes_calm.bind fun _ => readBytes_calm.bind fun _ => .pure
theorem memProbe_calm {z r off n a} : Calm (memProbe z r off n a) :=
  segCheck_calm.bind fun _ => alignCheck_calm.bind fun _ => .bind .get fun _ => translateBytes_calm.bind fun _ => .pure
theorem memWrite_calm {z r off n a v} : Calm (memWrite z r off n a v) :=
  segCheck_calm.bind fun _ => alignCheck_calm.bind fun _ => noteAccess_calm.bind fun _ => .bind .get fun _ =>
    translateBytes_calm.bind fun _ => storeBytes_calm
theorem memReadWrite_calm {z r off n a} : Calm (memReadWrite z r off n a) := memProbe_calm.bind fun _ => memRead_calm

theorem setSp_calm {v} : Calm (setSp v) := .modify fun _ => .same rfl
theorem push_calm {n v} : Calm (push n v) :=
  .bind .get fun _ => .ite .throw (memWrite_calm.bind fun _ => setSp_calm)
theorem stackRead_calm {k n} : Calm (stackRead k n) := .bind .get fun _ => memRead_calm
theorem stackFree_calm {k} : Calm (stackFree k) := .bind .get fun _ => setSp_calm
theorem pop_calm {n} : Calm (pop n) := stackRead_calm.bind fun _ => stackFree_calm.bind fun _ => .pure

theorem readDesc_calm {x} : Calm (readDesc x) :=
  .bind .get fun _ => sysRead_calm.bind fun _ => sysRead_calm.bind fun _ => .pure
theorem markAccessed_calm {x d} : Calm (markAccessed x d) := .bind .get fun _ => .ite .pure sysUpdate_calm

theorem loadDataSeg_calm {r x} : Calm (loadDataSeg r x) :=
  .bind .get fun _ => .ite setSeg_calm (check_calm.bind fun _ => readDesc_calm.bind fun _ => check_calm.bind fun _ =>
    check_calm.bind fun _ => check_calm.bind fun _ => markAccessed_calm.bind fun _ => setSeg_calm)
theorem loadStackSeg_calm {x} : Calm (loadStackSeg x) :=
  .bind .get fun _ => check_calm.bind fun _ => check_calm.bind fun _ => check_calm.bind fun _ => readDesc_calm.bind fun _ =>
    check_calm.bind fun _ => check_calm.bind fun _ => check_calm.bind fun _ => markAccessed_calm.bind fun _ => setSeg_calm
theorem loadSeg_calm {r x} : Calm (loadSeg r x) :=
  .bind .get fun _ => .ite (.ite loadStackSeg_calm loadDataSeg_calm) (.ite setSeg_calm setSeg_calm)

theorem readMemN_calm {m n a} : Calm (readMemN m n a) := .bind .get fun _ => memRead_calm
theorem readMem_calm {w m} : Calm (readMem w m) := readMemN_calm.bind fun _ => .pure
theorem writeMem_calm {w m v} : Calm (writeMem w m v) := .bind .get fun _ => memWrite_calm
theorem updateMem_calm {w m} : Calm (updateMem w m) := .bind .get fun _ => memReadWrite_calm.bind fun _ => .pure
theorem readRM_calm {w} : ∀ {x}, Calm (readRM w x)
  | .reg _ => getReg_calm
  | .mem _ => readMem_calm
theorem writeRM_calm {w v} : ∀ {x}, Calm (writeRM w v x)
  | .reg _ => setReg_calm
  | .mem _ => writeMem_calm
theorem updateRM_calm {w} : ∀ {x}, Calm (updateRM w x)
  | .reg _ => getReg_calm
  | .mem _ => updateMem_calm
theorem aluSource_calm : ∀ {f}, Calm (aluSource f)
  | .acc _ | .rmImm _ _ | .rmImm8 _ _ _ => .pure
  | .rmReg _ _ _ => getReg_calm
  | .regRm _ _ _ => readRM_calm
theorem testSource_calm : ∀ {f}, Calm (testSource f)
  | .acc _ | .rmImm _ _ => .pure
  | .rmReg _ _ _ => getReg_calm
theorem readSel_calm {os x} : Calm (readSel os x) := readRM_calm.bind fun _ => .pure
theorem readFar_calm {os m} : Calm (readFar os m) :=
  .bind .get fun _ => memRead_calm.bind fun _ => memRead_calm.bind fun _ => .pure
theorem readFarOperand_calm {os m} : Calm (readFarOperand os m) := readMemN_calm.bind fun _ => .pure
theorem readCount_calm : ∀ {c}, Calm (readCount c)
  | .one | .imm _ => .pure
  | .cl => .bind .get fun _ => .pure
theorem readDCount_calm : ∀ {c}, Calm (readDCount c)
  | .imm _ => .pure
  | .cl => .bind .get fun _ => .pure
theorem ioPort_calm : ∀ {f}, Calm (ioPort f)
  | .imm _ _ => .pure
  | .dx _ => .bind .get fun _ => .pure
theorem ioIn_calm {p n} : Calm (ioIn p n) := .put (fun _ => .same rfl) fun _ => .pure
theorem ioOut_calm {p n v} : Calm (ioOut p n v) := .modify fun _ => .same rfl
theorem emit_calm {e} : Calm (emit e) := .modify fun _ => .same rfl
theorem stepDst_calm {as n} : Calm (stepDst as n) := .modify fun _ => .same rfl
theorem stepSrc_calm {as n} : Calm (stepSrc as n) := .modify fun _ => .same rfl
theorem needProt_calm : Calm needProt := .bind .get fun _ => check_calm
theorem needCpl0_calm : Calm needCpl0 := .bind .get fun _ => check_calm
theorem needIopl_calm : Calm needIopl := .bind .get fun _ => check_calm
theorem needV86Iopl_calm : Calm needV86Iopl := .bind .get fun _ => check_calm

theorem ioMapAllows_calm {base} : ∀ {n port}, Calm (ioMapAllows base port n)
  | 0, _ => .pure
  | _ + 1, _ => .bind .get fun _ => check_calm.bind fun _ => sysRead_calm.bind fun _ => check_calm.bind fun _ => ioMapAllows_calm
theorem ioPermit_calm {p n} : Calm (ioPermit p n) :=
  .bind .get fun _ => .ite .pure (check_calm.bind fun _ => sysRead_calm.bind fun _ => ioMapAllows_calm)

end Sys2Proof.Machine
end

section
/-! SUPPORT. Words with fixed bits: EFLAGS, CR0 and DR7. What keeps the fixed bits of EFLAGS and VM. -/
namespace Sys2Proof.Machine
open Sys2Proof

theorem fixFlags_idem (v : Word32) : fixFlags (fixFlags v) = fixFlags v := by
  unfold fixFlags
  rw [BitVec.and_or_distrib_right, BitVec.and_assoc, BitVec.or_assoc]
  rfl

/-- Bits of the mask are set in a word whose bits outside a mask are fixed. -/
theorem fixed_or {a b v m : Word32} (h : (v &&& a) ||| b = v) (k : m &&& a = m) : ((v ||| m) &&& a) ||| b = v ||| m := by
  rw [BitVec.and_or_distrib_right, k, BitVec.or_assoc, BitVec.or_comm m, ← BitVec.or_assoc, h]

/-- Bits that are not fixed to 1 are cleared in it. -/
theorem fixed_and {a b v m : Word32} (h : (v &&& a) ||| b = v) (k : b &&& m = b) : ((v &&& m) &&& a) ||| b = v &&& m := by
  calc ((v &&& m) &&& a) ||| b
      = ((v &&& a) &&& m) ||| (b &&& m) := by rw [k, BitVec.and_assoc, BitVec.and_comm m, BitVec.and_assoc]
    _ = v &&& m := by rw [← BitVec.and_or_distrib_right, h]

/-- One EFLAGS after another: the fixed bits stay fixed, and VM stays. -/
structure FlagsKept (v w : Word32) : Prop where
  fixed : fixFlags v = v → fixFlags w = w
  vm : w.getLsbD 17 = v.getLsbD 17

theorem FlagsKept.refl (v : Word32) : FlagsKept v v := ⟨id, rfl⟩
theorem FlagsKept.trans {u v w : Word32} (h : FlagsKept u v) (k : FlagsKept v w) : FlagsKept u w :=
  ⟨k.fixed ∘ h.fixed, k.vm.trans h.vm⟩

/-- Bits that are not fixed, nor VM, are set. -/
theorem FlagsKept.or {v m : Word32} (k : m &&& 0x00057FD5#32 = m) : FlagsKept v (v ||| m) where
  fixed h := fixed_or h (by rw [← k, BitVec.and_assoc]; rfl)
  vm := by rw [← k]; simp

/-- Bits that are not fixed, nor VM, are cleared. -/
theorem FlagsKept.and {v m : Word32} (k : 0x00020002#32 &&& m = 0x00020002#32) : FlagsKept v (v &&& m) where
  fixed h := fixed_and h (by
    rw [show (2#32 : Word32) = 2#32 &&& 0x00020002#32 from rfl, BitVec.and_assoc, k])
  vm := by
    have h : m.getLsbD 17 = true := by simpa using congrArg (BitVec.getLsbD · 17) k
    simp [h]

/-- Clearing part of what a word is clear of anyway. -/
theorem and_not_and {c a : Word32} (h : c &&& ~~~a = c) (m : Word32) : c &&& ~~~(m &&& a) = c := by
  rw [BitVec.not_and, BitVec.and_or_distrib_left, h]
  ext i
  simpa using fun h _ => h

/-- Bits of a mask are taken from another word. -/
theorem FlagsKept.mix {mask new old : Word32} (k : mask &&& 0x00057FD5#32 = mask) : FlagsKept old (mix mask new old) := by
  unfold Machine.mix
  rw [BitVec.or_comm]
  refine .trans (.and ?_) (.or ?_)
  · rw [← k]; exact and_not_and (by decide) mask
  · rw [BitVec.and_assoc, k]

/-- One flag is replaced. -/
theorem FlagsKept.setBit {v : Word32} {i : Nat} {b : Bool} (k : 1#32 <<< i &&& 0x00057FD5#32 = 1#32 <<< i) :
    FlagsKept v (setBit v i b) := by
  unfold Machine.setBit
  split
  · exact .or k
  · rw [← k]; exact .and (and_not_and (by decide) _)

theorem FlagsKept.fixFlags (v : Word32) : FlagsKept v (fixFlags v) where
  fixed _ := fixFlags_idem v
  vm := by simp [Machine.fixFlags]

theorem FlagsKept.clearRf (v : Word32) : FlagsKept v (clearRf v) := .and (by decide)

theorem FlagsKept.handlerFlags (b : Bool) (v : Word32) : FlagsKept v (handlerFlags b v) := by
  cases b <;> exact .and (by decide)

/-- What LoadFlags takes from the image, at most. -/
theorem FlagsKept.loadFlags {image : Word32} {z : Size} {l : BitVec 2} {rf : Bool} {old : Word32} :
    FlagsKept old (loadFlags image z l rf old) := by
  refine .trans (.mix ?_) (.fixFlags _)
  cases z <;> cases rf <;> (repeat' split) <;> rfl

theorem FlagsKept.flagUpd {u : FlagUpd} {i : Nat} {free : Bool} {v : Word32}
    (k : 1#32 <<< i &&& 0x00057FD5#32 = 1#32 <<< i) : FlagsKept v (u.apply i free v) := by
  cases u with
  | keep => exact .refl v
  | set b => exact .setBit k
  | undef => exact .setBit k

theorem FlagsKept.statusUpd (u : StatusUpd) (d : BitVec 6) (v : Word32) : FlagsKept v (u.apply d v) :=
  (((((FlagsKept.flagUpd (by decide)).trans (.flagUpd (by decide))).trans (.flagUpd (by decide))).trans
    (.flagUpd (by decide))).trans (.flagUpd (by decide))).trans (.flagUpd (by decide))

/-- EFLAGS are replaced, the fixed bits and VM kept. -/
theorem Steady.flags {s t : State} (h : FlagsKept s.eflags t.eflags)
    (rest : (t.mem, t.dr, t.cr0, t.cpl) = (s.mem, s.dr, s.cr0, s.cpl)) : Steady s t := by
  simp only [Prod.mk.injEq] at rest
  obtain ⟨mem, dr, cr0, cpl⟩ := rest
  exact ⟨by unfold State.memOk; rw [mem]; exact id, h.fixed, by rw [dr]; exact id, h.vm, cr0, cpl⟩

theorem setStatus_calm {u} : Calm (setStatus u) :=
  .join draw_calm .pure fun _ => .modify fun _ => .flags (.statusUpd _ _ _) rfl

/-- Fewer bits of a word whose bits outside a mask are 0. -/
theorem and_and_of_and {v c : Word32} (h : v &&& c = v) (m : Word32) : v &&& m &&& c = v &&& m := by
  rw [BitVec.and_assoc, BitVec.and_comm m, ← BitVec.and_assoc, h]

end Sys2Proof.Machine
end

section
/-! SUPPORT. The integer instructions are calm: arithmetic, bits, near transfers, data movement, the stack, strings. -/
namespace Sys2Proof.Machine
open Sys2Proof

/-! Arithmetic. -/

theorem binRM_calm {st w x b op} : Calm (binRM st w x b op) :=
  .join updateRM_calm readRM_calm fun _ => .bind .get fun _ => .joinThen writeRM_calm fun _ => setStatus_calm
theorem aluOp_calm {st op f} : Calm (aluOp st op f) := aluSource_calm.bind fun _ => binRM_calm
theorem testOp_calm {f} : Calm (testOp f) := testSource_calm.bind fun _ => binRM_calm
theorem unaryRM_calm {w x op} : Calm (unaryRM w x op) :=
  updateRM_calm.bind fun _ => writeRM_calm.bind fun _ => setStatus_calm
theorem cmpxchgOp_calm {w x r} : Calm (cmpxchgOp w x r) :=
  updateRM_calm.bind fun _ => getReg_calm.bind fun _ => getReg_calm.bind fun _ =>
    .ite (writeRM_calm.bind fun _ => setStatus_calm)
      (writeRM_calm.bind fun _ => setReg_calm.bind fun _ => setStatus_calm)
theorem xaddOp_calm {w r} : ∀ {x}, Calm (xaddOp w x r)
  | .reg _ => updateRM_calm.bind fun _ => getReg_calm.bind fun _ => setReg_calm.bind fun _ => setReg_calm.bind fun _ =>
      setStatus_calm
  | .mem _ => updateRM_calm.bind fun _ => getReg_calm.bind fun _ => writeMem_calm.bind fun _ => setReg_calm.bind fun _ =>
      setStatus_calm
theorem setHalves_calm {w l h} : Calm (setHalves w l h) := setReg_calm.bind fun _ => setReg_calm
theorem setWide_calm {w p} : Calm (setWide w p) := setHalves_calm
theorem divideOp_calm {op w x} : Calm (divideOp op w x) := by
  refine readRM_calm.bind fun _ => .bind .get fun s => ?_
  split
  · exact .throw
  · exact setHalves_calm.bind fun _ => setStatus_calm
theorem multiplyOp_calm {op w x} : Calm (multiplyOp op w x) :=
  readRM_calm.bind fun _ => getReg_calm.bind fun _ => setWide_calm.bind fun _ => setStatus_calm
theorem imulTo_calm {w r x other} (h : Calm other) : Calm (imulTo w r x other) :=
  readRM_calm.bind fun _ => h.bind fun _ => setReg_calm.bind fun _ => setStatus_calm
theorem imulForm_calm : ∀ {f}, Calm (imulForm f)
  | .one _ _ => multiplyOp_calm
  | .two _ _ _ => imulTo_calm getReg_calm
  | .three8 _ _ _ _ => imulTo_calm .pure
  | .three _ _ _ => imulTo_calm .pure
theorem asciiOp_calm {b} : Calm (asciiOp b) :=
  getReg_calm.bind fun _ => getReg_calm.bind fun _ => .bind .get fun _ => setReg_calm.bind fun _ => setReg_calm.bind fun _ =>
    setStatus_calm
theorem aadOp_calm {b} : Calm (aadOp b) :=
  getReg_calm.bind fun _ => getReg_calm.bind fun _ => setReg_calm.bind fun _ => setReg_calm.bind fun _ => setStatus_calm
theorem aamOp_calm {b} : Calm (aamOp b) :=
  getReg_calm.bind fun _ => check_calm.bind fun _ => setReg_calm.bind fun _ => setReg_calm.bind fun _ => setStatus_calm
theorem decimalOp_calm {b} : Calm (decimalOp b) :=
  getReg_calm.bind fun _ => .bind .get fun _ => setReg_calm.bind fun _ => setStatus_calm

/-! Bits. -/

theorem shiftForm_calm {op w x c} : Calm (shiftForm op w x c) :=
  readCount_calm.bind fun _ => updateRM_calm.bind fun _ => .bind .get fun _ => writeRM_calm.bind fun _ => setStatus_calm
theorem doubleShift_calm {op os x r c} : Calm (doubleShift op os x r c) :=
  readDCount_calm.bind fun _ => updateRM_calm.bind fun _ => getReg_calm.bind fun _ => .ite writeRM_calm
    (.ite (writeRM_calm.bind fun _ => setStatus_calm)
      (draw_calm.bind fun _ => writeRM_calm.bind fun _ => setStatus_calm))
theorem bitReg_calm {w r k} : ∀ {f}, Calm (bitReg f w r k)
  | none => getReg_calm.bind fun _ => setStatus_calm
  | some _ => getReg_calm.bind fun _ => setReg_calm.bind fun _ => setStatus_calm
theorem bitMem_calm {w m d k} : ∀ {f}, Calm (bitMem f w m d k)
  | none => .bind .get fun _ => memRead_calm.bind fun _ => setStatus_calm
  | some _ => .bind .get fun _ => memReadWrite_calm.bind fun _ => memWrite_calm.bind fun _ => setStatus_calm
theorem bitForm_calm {f} : ∀ {x}, Calm (bitForm f x)
  | .reg _ (.reg _) _ => getReg_calm.bind fun _ => bitReg_calm
  | .reg _ (.mem _) _ => getReg_calm.bind fun _ => bitMem_calm
  | .imm _ (.reg _) _ => bitReg_calm
  | .imm _ (.mem _) _ => bitMem_calm
theorem scanOp_calm {find os r x} : Calm (scanOp find os r x) :=
  readRM_calm.bind fun _ => .join draw_calm .pure fun _ => setReg_calm.bind fun _ => setStatus_calm
theorem bswapOp_calm {r} : ∀ {os}, Calm (bswapOp os r)
  | .s32 => getReg_calm.bind fun _ => setReg_calm
  | .s16 => draw_calm.bind fun _ => setReg_calm
theorem extendAcc_calm {a b} : Calm (extendAcc a b) := getReg_calm.bind fun _ => setReg_calm
theorem signToDx_calm {w} : Calm (signToDx w) := getReg_calm.bind fun _ => setReg_calm
theorem setccOp_calm {c x} : Calm (setccOp c x) := .bind .get fun _ => writeRM_calm

/-! Near transfers. -/

theorem setEip_calm {v : State → Word32} : Calm (modify fun s => s.setEip (v s)) := .modify fun _ => .same rfl
theorem checkTarget_calm {t} : Calm (checkTarget t) := .bind .get fun _ => check_calm
theorem jumpNear_calm {t} : Calm (jumpNear t) := checkTarget_calm.bind fun _ => setEip_calm
theorem jccOp_calm {c d} : Calm (jccOp c d) := .bind .get fun _ => .ite jumpNear_calm .pure
theorem jcxzOp_calm {as os d} : Calm (jcxzOp as os d) := .bind .get fun _ => .ite jumpNear_calm .pure
theorem loopOp_calm {os as d also} : Calm (loopOp os as d also) :=
  .bind .get fun _ => .joinThen checkTarget_calm fun _ => .bind (.modify fun _ => .same rfl) fun _ => .ite setEip_calm .pure
theorem nearTarget_calm : ∀ {f}, Calm (nearTarget f)
  | .rel _ => .bind .get fun _ => .pure
  | .ind _ _ => readRM_calm.bind fun _ => .pure
theorem jmpNearOp_calm {f} : Calm (jmpNearOp f) := nearTarget_calm.bind fun _ => jumpNear_calm
theorem callNearOp_calm {f} : Calm (callNearOp f) :=
  nearTarget_calm.bind fun _ => checkTarget_calm.bind fun _ => .bind .get fun _ => push_calm.bind fun _ => setEip_calm
theorem retNearOp_calm {f} : Calm (retNearOp f) :=
  pop_calm.bind fun _ => checkTarget_calm.bind fun _ => setEip_calm.bind fun _ => stackFree_calm

/-! Data movement. -/

theorem moffsRead_calm {w o} : Calm (moffsRead w o) := .bind .get fun _ => memRead_calm.bind fun _ => .pure
theorem movOp_calm : ∀ {f}, Calm (movOp f)
  | .rmReg _ _ _ => getReg_calm.bind fun _ => writeRM_calm
  | .regRm _ _ _ => readRM_calm.bind fun _ => setReg_calm
  | .accMoffs _ _ => moffsRead_calm.bind fun _ => setReg_calm
  | .moffsAcc _ _ => getReg_calm.bind fun _ => .bind .get fun _ => memWrite_calm
  | .regImm _ _ => setReg_calm
  | .rmImm _ _ => writeRM_calm
theorem movFromSegOp_calm {x r} : Calm (movFromSegOp x r) := .bind .get fun _ => writeRM_calm
theorem shadowIfSs_calm {r} : Calm (shadowIfSs r) := .ite (.modify fun _ => .same rfl) .pure
theorem movToSegOp_calm {r x} : Calm (movToSegOp r x) :=
  check_calm.bind fun _ => readRM_calm.bind fun _ => loadSeg_calm.bind fun _ => shadowIfSs_calm
theorem loadFar_calm {r os d m} : Calm (loadFar r os d m) :=
  readFar_calm.bind fun _ => loadSeg_calm.bind fun _ => setReg_calm
theorem leaOp_calm {os r m} : Calm (leaOp os r m) := .bind .get fun _ => setReg_calm
theorem extendOp_calm {g : {n : Nat} → BitVec n → (k : Nat) → BitVec k} : ∀ {f}, Calm (extendOp g f)
  | .byte _ _ _ => readRM_calm.bind fun _ => setReg_calm
  | .word _ _ _ => readRM_calm.bind fun _ => setReg_calm
theorem lockBus_calm : Calm lockBus := .modify fun _ => .same rfl
theorem swapRegs_calm {w a b} : Calm (swapRegs w a b) :=
  getReg_calm.bind fun _ => getReg_calm.bind fun _ => setReg_calm.bind fun _ => setReg_calm
theorem xchgOp_calm : ∀ {f}, Calm (xchgOp f)
  | .acc _ _ => swapRegs_calm
  | .rm _ (.reg _) _ => swapRegs_calm
  | .rm _ (.mem _) _ => lockBus_calm.bind fun _ => updateMem_calm.bind fun _ => getReg_calm.bind fun _ =>
      writeMem_calm.bind fun _ => setReg_calm
theorem xlatOp_calm {as} : Calm (xlatOp as) := .bind .get fun _ => memRead_calm.bind fun _ => setReg_calm
theorem inOp_calm {f} : Calm (inOp f) :=
  ioPort_calm.bind fun _ => ioPermit_calm.bind fun _ => ioIn_calm.bind fun _ => setReg_calm
theorem outOp_calm {f} : Calm (outOp f) :=
  ioPort_calm.bind fun _ => ioPermit_calm.bind fun _ => getReg_calm.bind fun _ => ioOut_calm
theorem lahfOp_calm : Calm lahfOp := .bind .get fun _ => setReg_calm
theorem sahfOp_calm : Calm sahfOp := .bind .get fun _ => .modify fun _ => .flags (.mix (by decide)) rfl
theorem putFlag_calm {i b} (h : 1#32 <<< i &&& 0x00057FD5#32 = 1#32 <<< i) : Calm (putFlag i b) :=
  .modify fun _ => .flags (.setBit h) rfl
theorem cliOp_calm : Calm cliOp := needIopl_calm.bind fun _ => putFlag_calm (by decide)
theorem stiOp_calm : Calm stiOp :=
  needIopl_calm.bind fun _ => .bind .get fun _ => (putFlag_calm (by decide)).bind fun _ => .ite .pure (.modify fun _ => .same rfl)

/-! The stack. -/

theorem pushValue_calm {n v} : Calm (pushValue n v) := .bind .get fun _ => .ite .throw push_calm
theorem pushOp_calm : ∀ {f}, Calm (pushOp f)
  | .rm _ _ => readRM_calm.bind fun _ => pushValue_calm
  | .reg _ _ => getReg_calm.bind fun _ => pushValue_calm
  | .imm8 _ _ => pushValue_calm
  | .imm _ => pushValue_calm
theorem pushSegOp_calm {os r} : Calm (pushSegOp os r) := .bind .get fun _ => pushValue_calm
theorem popOp_calm : ∀ {f}, Calm (popOp f)
  | .rm _ _ => pop_calm.bind fun _ => writeRM_calm
  | .reg _ _ => pop_calm.bind fun _ => setReg_calm
theorem popSegOp_calm {os r} : Calm (popSegOp os r) :=
  check_calm.bind fun _ => pop_calm.bind fun _ => loadSeg_calm.bind fun _ => shadowIfSs_calm
theorem stackItems_calm {n} : ∀ {k off}, Calm (stackItems n off k)
  | 0, _ => .pure
  | _ + 1, _ => stackRead_calm.bind fun _ => stackItems_calm.bind fun _ => .pure
theorem popAll_calm {os} : Calm (popAll os) :=
  .bind .get fun _ => check_calm.bind fun _ => stackItems_calm.bind fun _ => stackFree_calm.bind fun _ =>
    setReg_calm.bind fun _ => setReg_calm.bind fun _ => setReg_calm.bind fun _ => setReg_calm.bind fun _ =>
    setReg_calm.bind fun _ => setReg_calm.bind fun _ => setReg_calm
theorem pushAll_calm {n} : ∀ {vs}, Calm (pushAll n vs)
  | [] => .pure
  | _ :: _ => push_calm.bind fun _ => pushAll_calm
theorem pushAllCheck_calm {n} : Calm (pushAllCheck n) := .bind .get fun _ => .ite check_calm (.ite .throw check_calm)
theorem pushAllRegs_calm {os} : Calm (pushAllRegs os) :=
  .bind .get fun _ => pushAllCheck_calm.bind fun _ => pushAll_calm
theorem keepRf_calm : Calm keepRf := .modify fun _ => .same rfl
theorem popFlags_calm {os} : Calm (popFlags os) :=
  needV86Iopl_calm.bind fun _ => pop_calm.bind fun _ => .bind .get fun _ => keepRf_calm.bind fun _ =>
    .modify fun _ => .flags .loadFlags rfl
theorem pushFlags_calm {os} : Calm (pushFlags os) := needV86Iopl_calm.bind fun _ => .bind .get fun _ => push_calm
theorem commitNow_calm : Calm commitNow := .modify commitStores_steady
theorem enterCopies_calm {os} : ∀ {k}, Calm (enterCopies os k)
  | 0 => .pure
  | _ + 1 => .bind .get fun _ => setReg_calm.bind fun _ => memRead_calm.bind fun _ => push_calm.bind fun _ =>
      commitNow_calm.bind fun _ => enterCopies_calm
theorem enterOp_calm {os a l} : Calm (enterOp os a l) :=
  getReg_calm.bind fun _ => push_calm.bind fun _ => commitNow_calm.bind fun _ => .bind .get fun s =>
    have last : Calm (do
        setReg os.width .ebp (s.sp.setWidth os.width.bits)
        let t ← get
        setSp (t.sp - a.setWidth 32)) := setReg_calm.bind fun _ => .bind .get fun _ => setSp_calm
    .ite last (enterCopies_calm.bind fun _ => push_calm.bind fun _ => commitNow_calm.bind fun _ => last)
theorem leaveOp_calm {os} : Calm (leaveOp os) :=
  .bind .get fun _ => setSp_calm.bind fun _ => pop_calm.bind fun _ => setReg_calm

/-! Strings. -/

theorem countDown_calm {as} : Calm (countDown as) := .modify fun _ => .same rfl
theorem repeated_calm {as cmp body} (h : Calm body) : Calm (repeated as cmp body) := by
  refine .bind .get fun s => ?_
  split
  · exact h
  · exact .ite .pure (h.bind fun _ => countDown_calm.bind fun _ => .bind .get fun _ => .ite .pure (.modify fun _ => .same rfl))
theorem cmpsOp_calm {w as} : Calm (cmpsOp w as) :=
  .bind .get fun _ => memRead_calm.bind fun _ => memRead_calm.bind fun _ => stepSrc_calm.bind fun _ => stepDst_calm.bind fun _ =>
    setStatus_calm
theorem insOp_calm {w as} : Calm (insOp w as) :=
  .bind .get fun _ => ioPermit_calm.bind fun _ => memProbe_calm.bind fun _ => ioIn_calm.bind fun _ => memWrite_calm.bind fun _ =>
    stepDst_calm
theorem lodsOp_calm {w as} : Calm (lodsOp w as) :=
  .bind .get fun _ => memRead_calm.bind fun _ => setReg_calm.bind fun _ => stepSrc_calm
theorem movsOp_calm {w as} : Calm (movsOp w as) :=
  .bind .get fun _ => segCheck_calm.bind fun _ => segCheck_calm.bind fun _ => memRead_calm.bind fun _ =>
    memWrite_calm.bind fun _ => stepSrc_calm.bind fun _ => stepDst_calm
theorem outsOp_calm {w as} : Calm (outsOp w as) :=
  .bind .get fun _ => ioPermit_calm.bind fun _ => memRead_calm.bind fun _ => ioOut_calm.bind fun _ => stepSrc_calm
theorem scasOp_calm {w as} : Calm (scasOp w as) :=
  .bind .get fun _ => memRead_calm.bind fun _ => stepDst_calm.bind fun _ => setStatus_calm
theorem stosOp_calm {w as} : Calm (stosOp w as) := .bind .get fun _ => memWrite_calm.bind fun _ => stepDst_calm

end Sys2Proof.Machine
end

section
/-! SUPPORT. The floating-point instructions are calm. -/
namespace Sys2Proof.Machine
open Sys2Proof

/-! The steps every instruction shares. -/

theorem getFpu_calm : Calm getFpu := .bind .get fun _ => .pure
theorem onFpu_calm {g} : Calm (onFpu g) := .modify fun _ => .same rfl
theorem raiseFp_calm {x} : Calm (raiseFp x) := getFpu_calm.bind fun _ => onFpu_calm.bind fun _ => .pure
theorem stackFault_calm {b} : Calm (stackFault b) := onFpu_calm.bind fun _ => raiseFp_calm

/-- A flag is raised, and what follows is done where it is masked. -/
theorem Calm.masked {x : M Bool} {m : M Unit} (hx : Calm x) (hm : Calm m) :
    Calm (x >>= fun b => if b then m else Pure.pure ()) := hx.bind fun _ => .ite hm .pure

theorem startCodes_calm {b} : Calm (startCodes b) := draw_calm.bind fun _ => onFpu_calm
theorem startFlags_calm : Calm startFlags := startCodes_calm
theorem needFpu_calm : Calm needFpu := .bind .get fun _ => check_calm
theorem fpuPending_calm : Calm fpuPending := .bind .get fun _ => .ite .pure (.ite .throw (.ite .pure .throw))
theorem waitOp_calm : Calm waitOp := .bind .get fun _ => check_calm.bind fun _ => fpuPending_calm
theorem notePointers_calm {i} : ∀ {m}, Calm (notePointers i m)
  | some _ => .bind .get fun _ => onFpu_calm
  | none => .bind .get fun _ => draw_calm.bind fun _ => onFpu_calm
theorem fpuOp_calm {α : Type} {i m} {access : M α} {body} (ha : Calm access) (hb : ∀ a, Calm (body a)) :
    Calm (fpuOp i m access body) :=
  needFpu_calm.bind fun _ => fpuPending_calm.bind fun _ => ha.bind fun _ => notePointers_calm.bind fun _ => hb _
theorem fpuReg_calm {i body} (h : Calm body) : Calm (fpuReg i body) := fpuOp_calm .pure fun _ => h
theorem fpProbe_calm {m n a} : Calm (fpProbe m n a) := .bind .get fun _ => memProbe_calm
theorem fpStore_calm {m n a v} : Calm (fpStore m n a v) := .bind .get fun _ => memWrite_calm
theorem readRealOp_calm {f m} : Calm (readRealOp f m) := readMemN_calm.bind fun _ => .pure
theorem readIntOp_calm {n m} : Calm (readIntOp n m) := readMemN_calm.bind fun _ => .pure
theorem stOperand_calm {i} : Calm (stOperand i) := getFpu_calm.bind fun _ => .pure
theorem applyFlags_calm {d} : Calm (applyFlags d) := onFpu_calm
theorem putOut_calm {put} (h : ∀ v, Calm (put v)) : ∀ {o}, Calm (putOut o put)
  | .fin _ _ _ => h _
  | .inf _ => h _
  | .unstated => draw_calm.bind fun _ => h _
theorem deliverTo_calm {p x put} (h : ∀ v, Calm (put v)) : Calm (deliverTo p x put) :=
  getFpu_calm.bind fun _ => applyFlags_calm.bind fun _ => putOut_calm h
theorem precision_calm : Calm precision :=
  getFpu_calm.bind fun _ => .ite .pure (.ite .pure (.ite .pure (draw_calm.bind fun _ => .pure)))

theorem binaryFp_calm {a b inv put go} (hp : ∀ v, Calm (put v)) (hg : ∀ x y, Calm (go x y)) :
    Calm (binaryFp a b inv put go) := by
  have fault : Calm (stackFault false >>= fun b => if b then put fpIndefinite else Pure.pure ()) :=
    .masked stackFault_calm (hp _)
  match a, b with
  | some _, some _ =>
    exact .ite (.masked raiseFp_calm (hp _)) (.ite (hp _) (.ite (.masked raiseFp_calm (hg _ _)) (hg _ _)))
  | none, _ => exact fault
  | some _, none => exact fault

theorem unaryFp_calm {inv put go} (hp : ∀ v, Calm (put v)) (hg : ∀ x, Calm (go x)) : Calm (unaryFp inv put go) :=
  stOperand_calm.bind fun _ => binaryFp_calm hp fun _ _ => hg _
theorem arithOp_calm {o a b put} (hp : ∀ v, Calm (put v)) : Calm (arithOp o a b put) := by
  refine binaryFp_calm hp fun x y => getFpu_calm.bind fun f => .ite (.masked raiseFp_calm (hp _)) ?_
  split
  · exact hp _
  · exact precision_calm.bind fun _ => deliverTo_calm hp
theorem undefinedResult_calm {put} (hp : ∀ v, Calm (put v)) : Calm (undefinedResult put) :=
  draw_calm.bind fun _ => draw_calm.bind fun _ => onFpu_calm.bind fun _ => hp _
theorem putSt_calm {i v} : Calm (putSt i v) := onFpu_calm
theorem putPop_calm {i v} : Calm (putPop i v) := onFpu_calm
theorem compareOp_calm {q n} : ∀ {a b}, Calm (compareOp a b q n)
  | some _, some _ =>
    .ite (raiseFp_calm.bind fun _ => onFpu_calm)
      (.ite onFpu_calm (.join raiseFp_calm .pure fun _ => .ite onFpu_calm .pure))
  | none, _ => stackFault_calm.bind fun _ => onFpu_calm
  | some _, none => stackFault_calm.bind fun _ => onFpu_calm
theorem pushFp_calm {v} : Calm (pushFp v) := getFpu_calm.bind fun _ => .ite onFpu_calm (.masked stackFault_calm onFpu_calm)
theorem pushPairFp_calm {body} (h : Calm body) : Calm (pushPairFp body) :=
  getFpu_calm.bind fun _ => .ite (.masked stackFault_calm onFpu_calm) h

/-! Arithmetic and comparison. -/

theorem arithSource_calm : ∀ {f}, Calm (arithSource f)
  | .m32 _ => readRealOp_calm.bind fun _ => .pure
  | .m64 _ => readRealOp_calm.bind fun _ => .pure
  | .toSt _ => stOperand_calm
  | .toSti _ => stOperand_calm
theorem arithOrdered_calm {o rev d s put} (hp : ∀ v, Calm (put v)) : Calm (arithOrdered o rev d s put) :=
  .ite (arithOp_calm hp) (arithOp_calm hp)
theorem farithOp_calm {i o rev f} : Calm (farithOp i o rev f) :=
  fpuOp_calm arithSource_calm fun _ => startFlags_calm.bind fun _ => stOperand_calm.bind fun _ =>
    arithOrdered_calm fun _ => putSt_calm
theorem farithPopOp_calm {i o rev k} : Calm (farithPopOp i o rev k) :=
  fpuReg_calm (startFlags_calm.bind fun _ => stOperand_calm.bind fun _ => stOperand_calm.bind fun _ =>
    arithOrdered_calm fun _ => putPop_calm)
theorem fiarithOp_calm {i o rev f} : Calm (fiarithOp i o rev f) :=
  fpuOp_calm readIntOp_calm fun _ => startFlags_calm.bind fun _ => stOperand_calm.bind fun _ =>
    arithOrdered_calm fun _ => putSt_calm
theorem compareSource_calm : ∀ {f}, Calm (compareSource f)
  | .m32 _ => readRealOp_calm.bind fun _ => .pure
  | .m64 _ => readRealOp_calm.bind fun _ => .pure
  | .st _ => stOperand_calm
theorem fcomOp_calm {i f n} : Calm (fcomOp i f n) :=
  fpuOp_calm compareSource_calm fun _ => stOperand_calm.bind fun _ => compareOp_calm
theorem fcomRegOp_calm {i k q n} : Calm (fcomRegOp i k q n) :=
  fpuReg_calm (stOperand_calm.bind fun _ => stOperand_calm.bind fun _ => compareOp_calm)
theorem ficomOp_calm {i f n} : Calm (ficomOp i f n) :=
  fpuOp_calm readIntOp_calm fun _ => stOperand_calm.bind fun _ => compareOp_calm
theorem ftstOp_calm : Calm ftstOp := fpuReg_calm (stOperand_calm.bind fun _ => compareOp_calm)
theorem signOp_calm {g} : Calm (signOp g) :=
  startFlags_calm.bind fun _ => getFpu_calm.bind fun _ => .ite (.masked stackFault_calm putSt_calm) putSt_calm
theorem fsqrtOp_calm : Calm fsqrtOp :=
  startFlags_calm.bind fun _ => unaryFp_calm (fun _ => putSt_calm) fun _ =>
    .ite .pure (precision_calm.bind fun _ => deliverTo_calm fun _ => putSt_calm)
theorem noteRounding_calm {r} : Calm (noteRounding r) := onFpu_calm
theorem frndintOp_calm : Calm frndintOp :=
  startFlags_calm.bind fun _ => unaryFp_calm (fun _ => putSt_calm) fun _ =>
    .ite .pure (getFpu_calm.bind fun _ => noteRounding_calm.bind fun _ => putSt_calm)
theorem fscaleOp_calm : Calm fscaleOp :=
  startFlags_calm.bind fun _ => stOperand_calm.bind fun _ => stOperand_calm.bind fun _ =>
    binaryFp_calm (fun _ => putSt_calm) fun _ _ => .ite putSt_calm (.ite .pure (deliverTo_calm fun _ => putSt_calm))
theorem putPair_calm {v w} : Calm (putPair v w) := onFpu_calm
theorem fxtractOp_calm : Calm fxtractOp :=
  startFlags_calm.bind fun _ => pushPairFp_calm (unaryFp_calm (fun _ => putPair_calm) fun _ =>
    .ite (.masked raiseFp_calm putPair_calm) (.ite putPair_calm putPair_calm))
theorem putRemainder_calm {x b m e} : Calm (putRemainder x b m e) := .ite putSt_calm (deliverTo_calm fun _ => putSt_calm)
theorem premGo_calm {n x y} : Calm (premGo n x y) :=
  .ite (putRemainder_calm.bind fun _ => onFpu_calm)
    (draw_calm.bind fun _ => putRemainder_calm.bind fun _ => draw_calm.bind fun _ => onFpu_calm)
theorem premOp_calm {n} : Calm (premOp n) :=
  stOperand_calm.bind fun _ => stOperand_calm.bind fun _ =>
    binaryFp_calm (fun _ => putSt_calm) fun _ _ => .ite onFpu_calm premGo_calm

/-! Loads, stores and the stack. -/

theorem loadReal_calm {x} : Calm (loadReal x) :=
  getFpu_calm.bind fun _ => .ite pushFp_calm (.ite (.masked raiseFp_calm pushFp_calm)
    (.ite (.masked raiseFp_calm pushFp_calm) pushFp_calm))
theorem fldRealOp_calm {i f m} : Calm (fldRealOp i f m) :=
  fpuOp_calm readRealOp_calm fun _ => startFlags_calm.bind fun _ => loadReal_calm
theorem fldStOp_calm {k} : Calm (fldStOp k) :=
  startFlags_calm.bind fun _ => getFpu_calm.bind fun _ => .ite pushFp_calm
    (.ite (.masked stackFault_calm pushFp_calm) pushFp_calm)
theorem fldOp_calm : ∀ {f}, Calm (fldOp f)
  | .m32 _ => fldRealOp_calm
  | .m64 _ => fldRealOp_calm
  | .m80 _ => fpuOp_calm readMemN_calm fun _ => startFlags_calm.bind fun _ => pushFp_calm
  | .st _ => fpuReg_calm fldStOp_calm
theorem fildOp_calm {f} : Calm (fildOp f) := fpuOp_calm readIntOp_calm fun _ => startFlags_calm.bind fun _ => pushFp_calm
theorem pushUndefined_calm : Calm pushUndefined :=
  getFpu_calm.bind fun _ => .ite (undefinedResult_calm fun _ => onFpu_calm) pushFp_calm
theorem fbldOp_calm {m} : Calm (fbldOp m) :=
  fpuOp_calm readMemN_calm fun _ => startFlags_calm.bind fun _ => .ite pushFp_calm pushUndefined_calm
theorem constOp_calm {e a b c d} : Calm (constOp e a b c d) :=
  startFlags_calm.bind fun _ => getFpu_calm.bind fun _ => pushFp_calm
theorem fld1Op_calm : Calm fld1Op := startFlags_calm.bind fun _ => pushFp_calm
theorem fldzOp_calm : Calm fldzOp := startFlags_calm.bind fun _ => pushFp_calm
theorem storePop_calm {m n a v k} : Calm (storePop m n a v k) := fpStore_calm.bind fun _ => onFpu_calm
theorem storeReal_calm {f m n} : Calm (storeReal f m n) := by
  refine startFlags_calm.bind fun _ => getFpu_calm.bind fun p => ?_
  have go : Calm (do
      applyFlags (deliverValue f p.rc (p.masked .oe) (p.masked .ue) true (fpVal (p.st 0)))
      match f.imageOf (deliverValue f p.rc (p.masked .oe) (p.masked .ue) true (fpVal (p.st 0))).out with
      | some v => storePop m f.bytes f.bytes v n
      | none => Pure.pure ()) := by
    refine applyFlags_calm.bind fun _ => ?_
    split
    · exact storePop_calm
    · exact .pure
  exact .ite (.masked stackFault_calm storePop_calm) (.ite (.masked raiseFp_calm storePop_calm)
    (.ite storePop_calm (.ite (.masked raiseFp_calm go) go)))
theorem fstRealOp_calm {i f m n} : Calm (fstRealOp i f m n) := fpuOp_calm fpProbe_calm fun _ => storeReal_calm
theorem fstStOp_calm {k n} : Calm (fstStOp k n) :=
  startFlags_calm.bind fun _ => getFpu_calm.bind fun _ => .ite (.masked stackFault_calm onFpu_calm) onFpu_calm
theorem storeExt_calm {m} : Calm (storeExt m) :=
  startFlags_calm.bind fun _ => getFpu_calm.bind fun _ => .ite (.masked stackFault_calm storePop_calm) storePop_calm
theorem fstOp_calm : ∀ {f}, Calm (fstOp f)
  | .m32 _ => fstRealOp_calm
  | .m64 _ => fstRealOp_calm
  | .st _ => fpuReg_calm fstStOp_calm
theorem fstpOp_calm : ∀ {f}, Calm (fstpOp f)
  | .m32 _ => fstRealOp_calm
  | .m64 _ => fstRealOp_calm
  | .m80 _ => fpuOp_calm fpProbe_calm fun _ => storeExt_calm
  | .st _ => fpuReg_calm fstStOp_calm
theorem storeInteger_calm {fits image bad put} (h : ∀ v, Calm (put v)) : Calm (storeInteger fits image bad put) :=
  startFlags_calm.bind fun _ => getFpu_calm.bind fun _ => .ite (.masked stackFault_calm (h _))
    (.ite (.masked raiseFp_calm (h _)) (noteRounding_calm.bind fun _ => h _))
theorem fistOp_calm {i n m k} : Calm (fistOp i n m k) :=
  fpuOp_calm fpProbe_calm fun _ => storeInteger_calm fun _ => storePop_calm
theorem fbstpOp_calm {m} : Calm (fbstpOp m) := fpuOp_calm fpProbe_calm fun _ => storeInteger_calm fun _ => storePop_calm
theorem fxchOp_calm {k} : Calm (fxchOp k) :=
  startFlags_calm.bind fun _ => getFpu_calm.bind fun _ => .ite (.masked stackFault_calm onFpu_calm) onFpu_calm
theorem fdecstpOp_calm : Calm fdecstpOp := startFlags_calm.bind fun _ => onFpu_calm
theorem fincstpOp_calm : Calm fincstpOp := startFlags_calm.bind fun _ => onFpu_calm

/-! Control. -/

theorem noWait_calm {m} (h : Calm m) : Calm (noWait m) := needFpu_calm.bind fun _ => h
theorem waiting_calm {m} (h : Calm m) : Calm (waiting m) := needFpu_calm.bind fun _ => fpuPending_calm.bind fun _ => h
theorem fnclexOp_calm : Calm fnclexOp := noWait_calm onFpu_calm
theorem fninitOp_calm : Calm fninitOp := noWait_calm onFpu_calm
theorem fnopOp_calm : Calm fnopOp := waiting_calm (.modify fun _ => .same rfl)
theorem fldcwOp_calm {m} : Calm (fldcwOp m) := waiting_calm (readMemN_calm.bind fun _ => onFpu_calm)
theorem fnstcwOp_calm {m} : Calm (fnstcwOp m) := noWait_calm (getFpu_calm.bind fun _ => fpStore_calm)
theorem fnstswOp_calm : ∀ {f}, Calm (fnstswOp f)
  | .mem _ => noWait_calm (getFpu_calm.bind fun _ => fpStore_calm)
  | .ax => noWait_calm (getFpu_calm.bind fun _ => setReg_calm)
theorem fnstenvOp_calm {os m} : Calm (fnstenvOp os m) :=
  noWait_calm (.bind .get fun _ => fpStore_calm.bind fun _ => onFpu_calm)
theorem fnsaveOp_calm {os m} : Calm (fnsaveOp os m) :=
  noWait_calm (.bind .get fun _ => fpStore_calm.bind fun _ => onFpu_calm)
theorem fldenvOp_calm {os m} : Calm (fldenvOp os m) :=
  waiting_calm (.bind .get fun _ => readMemN_calm.bind fun _ => onFpu_calm)
theorem frstorOp_calm {os m} : Calm (frstorOp os m) :=
  waiting_calm (.bind .get fun _ => readMemN_calm.bind fun _ => onFpu_calm)

/-! The transcendental instructions. -/

theorem noteInexact_calm {a b} : Calm (noteInexact a b) := onFpu_calm
theorem deliverTiny_calm {r put} (h : ∀ v, Calm (put v)) : Calm (deliverTiny r put) :=
  getFpu_calm.bind fun _ => .ite (onFpu_calm.bind fun _ => noteInexact_calm.bind fun _ => h _)
    (onFpu_calm.bind fun _ => noteInexact_calm.bind fun _ => .ite (draw_calm.bind fun _ => h _) (h _))
theorem deliverHuge_calm {r put} (h : ∀ v, Calm (put v)) : Calm (deliverHuge r put) :=
  getFpu_calm.bind fun _ => onFpu_calm.bind fun _ => .ite (noteInexact_calm.bind fun _ => putOut_calm h)
    (noteInexact_calm.bind fun _ => draw_calm.bind fun _ => h _)
theorem deliverFunction_calm {r put} (h : ∀ v, Calm (put v)) : Calm (deliverFunction r put) :=
  .ite (deliverTiny_calm h) (.ite (deliverHuge_calm h) (noteInexact_calm.bind fun _ => h _))
theorem f2xm1Op_calm : Calm f2xm1Op :=
  startFlags_calm.bind fun _ => unaryFp_calm (fun _ => putSt_calm) fun _ => getFpu_calm.bind fun _ =>
    .ite .pure (.ite (deliverFunction_calm fun _ => putSt_calm) (undefinedResult_calm fun _ => putSt_calm))
theorem trigDone_calm : Calm trigDone := onFpu_calm
theorem trigOut_calm : Calm trigOut := draw_calm.bind fun _ => onFpu_calm
theorem trigOp_calm {z g} : Calm (trigOp z g) :=
  startCodes_calm.bind fun _ => unaryFp_calm (fun _ => putSt_calm) fun _ =>
    .ite (trigDone_calm.bind fun _ => getFpu_calm.bind fun _ =>
      .ite putSt_calm (deliverFunction_calm fun _ => putSt_calm)) trigOut_calm
theorem trigPairOp_calm {g} (h : ∀ x, Calm (g x)) : Calm (trigPairOp g) :=
  startCodes_calm.bind fun _ => pushPairFp_calm (unaryFp_calm (fun _ => putPair_calm) fun _ =>
    .ite (trigDone_calm.bind fun _ => .ite putPair_calm (h _)) trigOut_calm)
theorem fptanGo_calm {x} : Calm (fptanGo x) := getFpu_calm.bind fun _ => deliverFunction_calm fun _ => putPair_calm
theorem fsincosGo_calm {x} : Calm (fsincosGo x) :=
  getFpu_calm.bind fun _ => (deliverFunction_calm fun _ => putSt_calm).bind fun _ => deliverFunction_calm fun _ => onFpu_calm
theorem fpatanOp_calm : Calm fpatanOp := by
  refine startFlags_calm.bind fun _ => stOperand_calm.bind fun _ => stOperand_calm.bind fun _ =>
    binaryFp_calm (fun _ => putPop_calm) fun x y => getFpu_calm.bind fun _ => ?_
  split
  · exact putPop_calm
  · exact deliverTo_calm fun _ => putPop_calm
  · exact deliverFunction_calm fun _ => putPop_calm
theorem yl2xGo_calm {x y} : Calm (yl2xGo x y) :=
  getFpu_calm.bind fun _ => .ite (.masked raiseFp_calm putPop_calm) (.ite putPop_calm (.ite putPop_calm
    (.ite putPop_calm (deliverFunction_calm fun _ => putPop_calm))))
theorem fyl2xOp_calm : Calm fyl2xOp :=
  startFlags_calm.bind fun _ => stOperand_calm.bind fun _ => stOperand_calm.bind fun _ =>
    binaryFp_calm (fun _ => putPop_calm) fun _ _ => yl2xGo_calm
theorem yl2xp1Go_calm {x y} : Calm (yl2xp1Go x y) :=
  getFpu_calm.bind fun _ => .ite (undefinedResult_calm fun _ => putPop_calm)
    (.ite (draw_calm.bind fun _ => putPop_calm) (deliverFunction_calm fun _ => putPop_calm))
theorem fyl2xp1Op_calm : Calm fyl2xp1Op :=
  startFlags_calm.bind fun _ => stOperand_calm.bind fun _ => stOperand_calm.bind fun _ =>
    binaryFp_calm (fun _ => putPop_calm) fun _ _ => yl2xp1Go_calm

end Sys2Proof.Machine
end

section
/-! SUPPORT. The system instructions, the operations of far transfers and of deliveries that keep mode and level: they are calm. -/
namespace Sys2Proof.Machine
open Sys2Proof

/-! Control, debug and test registers. -/

/-- The debug registers are replaced, the fixed bits of DR7 kept. -/
theorem Steady.debugRegs {s t : State} (h : s.dr.dr7 &&& 0xFFFF23FF#32 = s.dr.dr7 → t.dr.dr7 &&& 0xFFFF23FF#32 = t.dr.dr7)
    (rest : (t.mem, t.eflags, t.cr0, t.cpl) = (s.mem, s.eflags, s.cr0, s.cpl)) : Steady s t := by
  simp only [Prod.mk.injEq] at rest
  obtain ⟨mem, eflags, cr0, cpl⟩ := rest
  exact ⟨by unfold State.memOk; rw [mem]; exact id, by rw [eflags]; exact id, h, by unfold State.vm; rw [eflags], cr0, cpl⟩

theorem putDebug_steady (s : State) (x : DReg) (v : Word32) : Steady s { s with dr := s.dr.put x v } := by
  cases x with
  | dr7 => exact .debugRegs (fun _ => by simp only [DebugRegs.put, BitVec.and_assoc, BitVec.and_self]) rfl
  | dr0 | dr1 | dr2 | dr3 | dr6 => exact .debugRegs id rfl

theorem movFromCrOp_calm {r c} : Calm (movFromCrOp r c) :=
  needCpl0_calm.bind fun _ => .bind .get fun _ => setReg_calm.bind fun _ => setStatus_calm
theorem needNoGd_calm : Calm needNoGd := .bind .get fun _ => check_calm
theorem movFromDrOp_calm {r x} : Calm (movFromDrOp r x) :=
  needCpl0_calm.bind fun _ => needNoGd_calm.bind fun _ => .bind .get fun _ => setReg_calm.bind fun _ => setStatus_calm
theorem movToDrOp_calm {x r} : Calm (movToDrOp x r) :=
  needCpl0_calm.bind fun _ => needNoGd_calm.bind fun _ => getReg_calm.bind fun _ =>
    .bind (.modify fun s => putDebug_steady s _ _) fun _ => setStatus_calm
theorem tlbTestWrite_calm {v} : Calm (tlbTestWrite v) :=
  draw_calm.bind fun _ => .bind .get fun _ => .modify fun _ => .same rfl
theorem tlbTestLookup_calm {v} : Calm (tlbTestLookup v) := by
  refine .bind .get fun s => ?_
  dsimp only
  split
  · exact .modify fun _ => .same rfl
  · exact draw_calm.bind fun _ => .modify fun _ => .same rfl
theorem writeTr6_calm {v} : Calm (writeTr6 v) :=
  .bind (.modify fun _ => .same rfl) fun _ => .ite tlbTestLookup_calm tlbTestWrite_calm
theorem readTr_calm : ∀ {t}, Calm (readTr t)
  | .tr3 => .bind .get fun _ => .ite .pure draw_calm
  | .tr4 | .tr5 | .tr6 | .tr7 => .bind .get fun _ => .pure
theorem writeTr5_steady (s : State) (v : Word32) : Steady s (s.writeTr5 v) := by
  unfold State.writeTr5
  dsimp only
  split <;> exact .same rfl
theorem writeTr_calm {v} : ∀ {t}, Calm (writeTr t v)
  | .tr3 | .tr4 | .tr7 => .modify fun _ => .same rfl
  | .tr5 => .modify fun s => writeTr5_steady s v
  | .tr6 => writeTr6_calm
theorem movFromTrOp_calm {r t} : Calm (movFromTrOp r t) :=
  needCpl0_calm.bind fun _ => readTr_calm.bind fun _ => setReg_calm.bind fun _ => setStatus_calm
theorem movToTrOp_calm {t r} : Calm (movToTrOp t r) :=
  needCpl0_calm.bind fun _ => getReg_calm.bind fun _ => writeTr_calm.bind fun _ => setStatus_calm
theorem loadCr3_calm {v} : Calm (loadCr3 v) := .modify fun _ => .same rfl

/-! The system instructions. -/

theorem setBusy_calm {x b} : Calm (setBusy x b) := .bind .get fun _ => sysUpdate_calm
theorem arplOp_calm {x r} : Calm (arplOp x r) :=
  needProt_calm.bind fun _ => updateRM_calm.bind fun _ => getReg_calm.bind fun _ =>
    .ite (writeRM_calm.bind fun _ => setStatus_calm) setStatus_calm
theorem readBounds_calm {os m} : Calm (readBounds os m) := readMemN_calm.bind fun _ => .pure
theorem boundOp_calm {os r m} : Calm (boundOp os r m) :=
  getReg_calm.bind fun _ => readBounds_calm.bind fun _ => check_calm
theorem storeTable_calm {os m t} : Calm (storeTable os m t) := .bind .get fun _ => memWrite_calm.bind fun _ => memWrite_calm
theorem loadTable_calm {os m} : Calm (loadTable os m) := needCpl0_calm.bind fun _ => readMemN_calm.bind fun _ => .pure
theorem lgdtOp_calm {os m} : Calm (lgdtOp os m) := loadTable_calm.bind fun _ => .modify fun _ => .same rfl
theorem lidtOp_calm {os m} : Calm (lidtOp os m) := loadTable_calm.bind fun _ => .modify fun _ => .same rfl
theorem lldtOp_calm {x} : Calm (lldtOp x) :=
  needProt_calm.bind fun _ => needCpl0_calm.bind fun _ => readRM_calm.bind fun _ => .bind .get fun _ =>
    .ite (.modify fun _ => .same rfl) (check_calm.bind fun _ => readDesc_calm.bind fun _ => check_calm.bind fun _ =>
      check_calm.bind fun _ => .modify fun _ => .same rfl)
theorem ltrOp_calm {x} : Calm (ltrOp x) :=
  needProt_calm.bind fun _ => needCpl0_calm.bind fun _ => readRM_calm.bind fun _ => .bind .get fun _ =>
    check_calm.bind fun _ => check_calm.bind fun _ => readDesc_calm.bind fun _ => check_calm.bind fun _ =>
    check_calm.bind fun _ => setBusy_calm.bind fun _ => .modify fun _ => .same rfl
theorem sldtOp_calm {x} : Calm (sldtOp x) := needProt_calm.bind fun _ => .bind .get fun _ => writeRM_calm
theorem strOp_calm {x} : Calm (strOp x) := needProt_calm.bind fun _ => .bind .get fun _ => writeRM_calm
theorem smswOp_calm {x} : Calm (smswOp x) := .bind .get fun _ => writeRM_calm
theorem examine_calm {p x} : Calm (examine p x) :=
  .bind .get fun _ => .ite .pure (readDesc_calm.bind fun _ => .joinThen markAccessed_calm fun _ => .pure)
theorem larOp_calm {os r x} : Calm (larOp os r x) := by
  refine needProt_calm.bind fun _ => readSel_calm.bind fun _ => examine_calm.bind fun d => ?_
  cases d with
  | none => exact setStatus_calm
  | some d => exact draw_calm.bind fun _ => setReg_calm.bind fun _ => setStatus_calm
theorem lslOp_calm {os r x} : Calm (lslOp os r x) := by
  refine needProt_calm.bind fun _ => readSel_calm.bind fun _ => examine_calm.bind fun d => ?_
  cases d with
  | none => exact setStatus_calm
  | some d => exact setReg_calm.bind fun _ => setStatus_calm
theorem verifyOp_calm {p x} : Calm (verifyOp p x) :=
  needProt_calm.bind fun _ => readRM_calm.bind fun _ => examine_calm.bind fun _ => setStatus_calm
theorem hltOp_calm : Calm hltOp := needCpl0_calm.bind fun _ => emit_calm.bind fun _ => .modify fun _ => .same rfl
theorem flushCache_calm : Calm (modify State.flushCache) := .modify fun _ => .same rfl
theorem invdOp_calm : Calm invdOp := needCpl0_calm.bind fun _ => flushCache_calm.bind fun _ => emit_calm
theorem wbinvdOp_calm : Calm wbinvdOp :=
  needCpl0_calm.bind fun _ => flushCache_calm.bind fun _ => emit_calm.bind fun _ => emit_calm
theorem invlpgOp_calm {m} : Calm (invlpgOp m) := needCpl0_calm.bind fun _ => .modify fun _ => .same rfl

/-! Tasks. -/

theorem tssStack_calm {l e} : Calm (tssStack l e) := by
  refine .bind .get fun s => ?_
  split <;> exact check_calm.bind fun _ => sysRead_calm.bind fun _ => sysRead_calm.bind fun _ => .pure
theorem sysWriteList_calm {n} : ∀ {vs a}, Calm (sysWriteList n a vs)
  | [], _ => .pure
  | _ :: _, _ => sysWrite_calm.bind fun _ => sysWriteList_calm
theorem sysWriteSels_calm {n} : ∀ {vs a}, Calm (sysWriteSels n a vs)
  | [], _ => .pure
  | _ :: _, _ => sysWrite_calm.bind fun _ => sysWriteSels_calm
theorem saveTask_calm {r f} : Calm (saveTask r f) := by
  refine .bind .get fun s => ?_
  dsimp only
  split <;> exact sysWriteList_calm.bind fun _ => sysWriteSels_calm
theorem sysReadList_calm {n} : ∀ {k a}, Calm (sysReadList n a k)
  | 0, _ => .pure
  | _ + 1, _ => sysRead_calm.bind fun _ => sysReadList_calm.bind fun _ => .pure
theorem tssWord_calm {b o} : Calm (tssWord b o) := sysRead_calm.bind fun _ => .pure
theorem readTask_calm {b} : ∀ {f}, Calm (readTask b f)
  | .tss486 => .bind .get fun _ => sysRead_calm.bind fun _ => sysReadList_calm.bind fun _ => tssWord_calm.bind fun _ =>
      tssWord_calm.bind fun _ => tssWord_calm.bind fun _ => tssWord_calm.bind fun _ => tssWord_calm.bind fun _ =>
      tssWord_calm.bind fun _ => tssWord_calm.bind fun _ => tssWord_calm.bind fun _ => .pure
  | .tss286 => .bind .get fun _ => sysReadList_calm.bind fun _ => tssWord_calm.bind fun _ => tssWord_calm.bind fun _ =>
      tssWord_calm.bind fun _ => tssWord_calm.bind fun _ => tssWord_calm.bind fun _ => .pure
theorem taskLdt_calm {x e} : Calm (taskLdt x e) :=
  .ite .pure (.bind .get fun _ => check_calm.bind fun _ => readDesc_calm.bind fun _ => check_calm.bind fun _ =>
    check_calm.bind fun _ => .modify fun _ => .same rfl)
theorem taskSs_calm {x e} : Calm (taskSs x e) :=
  .bind .get fun _ => check_calm.bind fun _ => check_calm.bind fun _ => check_calm.bind fun _ => readDesc_calm.bind fun _ =>
    check_calm.bind fun _ => check_calm.bind fun _ => check_calm.bind fun _ => markAccessed_calm.bind fun _ => setSeg_calm
theorem taskData_calm {r x e} : Calm (taskData r x e) :=
  .bind .get fun _ => .ite .pure (check_calm.bind fun _ => readDesc_calm.bind fun _ => check_calm.bind fun _ =>
    check_calm.bind fun _ => check_calm.bind fun _ => markAccessed_calm.bind fun _ => setSeg_calm)
theorem probeDesc_calm {x c} : Calm (probeDesc x c) :=
  .bind .get fun _ => sysProbe_calm.bind fun _ => .ite sysProbe_calm .pure
theorem probeTasks_calm {k ts b f} : Calm (probeTasks k ts b f) := by
  have descs {s : State} : Calm (if selNull s.tr.sel then probeDesc ts k.takes
      else probeDesc s.tr.sel k.frees >>= fun _ => probeDesc ts k.takes) :=
    .ite probeDesc_calm (probeDesc_calm.bind fun _ => probeDesc_calm)
  have rest {s : State} : Calm (match f with
      | .tss486 => sysProbe b 0x68 false >>= fun _ => if selNull s.tr.sel then probeDesc ts k.takes
          else probeDesc s.tr.sel k.frees >>= fun _ => probeDesc ts k.takes
      | .tss286 => sysProbe b 0x2C false >>= fun _ => if selNull s.tr.sel then probeDesc ts k.takes
          else probeDesc s.tr.sel k.frees >>= fun _ => probeDesc ts k.takes) := by
    cases f <;> exact sysProbe_calm.bind fun _ => descs
  refine .bind .get fun s => ?_
  dsimp only
  cases s.tr.format <;> exact sysProbe_calm.bind fun _ => .joinThen sysProbe_calm fun _ => rest
theorem setArrived_calm {b} : Calm (setArrived b) := .modify fun _ => .same rfl
theorem checkNewEip_calm {e} : Calm (checkNewEip e) := .bind .get fun _ => check_calm
theorem pendTaskTrap_calm {b} : Calm (pendTaskTrap b) := .ite (.modify fun _ => .same rfl) .pure
theorem finishSwitch_calm {b e} : Calm (finishSwitch b e) := checkNewEip_calm.bind fun _ => pendTaskTrap_calm

/-! Far transfers and deliveries. -/

theorem pushSys_calm {n v} : Calm (pushSys n v) :=
  .bind .get fun _ => .ite .throw (segCheck_calm.bind fun _ => noteAccess_calm.bind fun _ => translateBytes_calm.bind fun _ =>
    storeBytes_calm.bind fun _ => setSp_calm)
theorem pushAllSys_calm {n} : ∀ {vs}, Calm (pushAllSys n vs)
  | [] => .pure
  | _ :: _ => pushSys_calm.bind fun _ => pushAllSys_calm
theorem innerStack_calm {l e} : Calm (innerStack l e) :=
  tssStack_calm.bind fun ⟨_, _⟩ => .bind .get fun _ => check_calm.bind fun _ => check_calm.bind fun _ =>
    check_calm.bind fun _ => readDesc_calm.bind fun _ => check_calm.bind fun _ => check_calm.bind fun _ =>
    check_calm.bind fun _ => .pure
theorem deliverReal_calm {ev ret} : Calm (deliverReal ev ret) :=
  .bind .get fun _ => check_calm.bind fun _ => pushAllSys_calm.bind fun _ => sysRead_calm.bind fun _ => sysRead_calm.bind fun _ =>
    .modify fun _ => .flags (.handlerFlags _ _) rfl
theorem deliverSame_calm {ev ret g c} : Calm (deliverSame ev ret g c) :=
  .bind .get fun _ => check_calm.bind fun _ => check_calm.bind fun _ => markAccessed_calm.bind fun _ =>
    pushAllSys_calm.bind fun _ => .modify fun _ => .flags (.handlerFlags _ _) rfl
theorem checkTss_calm {ts e f} : Calm (checkTss ts e f) :=
  .bind .get fun _ => check_calm.bind fun _ => readDesc_calm.bind fun _ => check_calm.bind fun _ => check_calm
theorem loadCs8086_calm {x} : Calm (loadCs8086 x) := .bind .get fun _ => setSeg_calm
theorem iretReal_calm {os} : Calm (iretReal os) :=
  stackRead_calm.bind fun _ => stackRead_calm.bind fun _ => stackRead_calm.bind fun _ => .bind .get fun _ =>
    check_calm.bind fun _ => stackFree_calm.bind fun _ => loadCs8086_calm.bind fun _ => .modify fun _ => .flags .loadFlags rfl
theorem checkReturnCs_calm {x l} : Calm (checkReturnCs x l) :=
  .bind .get fun _ => check_calm.bind fun _ => check_calm.bind fun _ => readDesc_calm.bind fun _ => check_calm.bind fun _ =>
    check_calm.bind fun _ => check_calm.bind fun _ => .pure
theorem checkReturnSs_calm {x l} : Calm (checkReturnSs x l) :=
  .bind .get fun _ => check_calm.bind fun _ => check_calm.bind fun _ => check_calm.bind fun _ => readDesc_calm.bind fun _ =>
    check_calm.bind fun _ => check_calm.bind fun _ => check_calm.bind fun _ => .pure
theorem iretToV86_calm {os} : Calm (iretToV86 os) := .bind .get fun _ => .ite (stackRead_calm.bind fun _ => .pure) .pure
theorem farPointer_calm : ∀ {f}, Calm (farPointer f)
  | .ptr _ _ => .pure
  | .mem _ _ => readFarOperand_calm.bind fun _ => .pure
theorem farDesc_calm {x} : Calm (farDesc x) :=
  .bind .get fun _ => check_calm.bind fun _ => check_calm.bind fun _ => readDesc_calm
theorem checkDirect_calm {x d} : Calm (checkDirect x d) :=
  .bind .get fun _ => .ite (check_calm.bind fun _ => check_calm)
    (check_calm.bind fun _ => check_calm.bind fun _ => check_calm)
theorem checkDpl_calm {x g e} : Calm (checkDpl x g e) := .bind .get fun _ => check_calm.bind fun _ => check_calm
theorem checkGate_calm {x g e} : Calm (checkGate x g e) := checkDpl_calm.bind fun _ => check_calm
theorem checkTask_calm {x d e} : Calm (checkTask x d e) := checkDpl_calm.bind fun _ => check_calm.bind fun _ => check_calm
theorem gateTarget_calm {g j} : Calm (gateTarget g j) :=
  .bind .get fun _ => check_calm.bind fun _ => check_calm.bind fun _ => readDesc_calm.bind fun _ => check_calm.bind fun _ =>
    check_calm.bind fun _ => check_calm.bind fun _ => .pure
theorem enterCode_calm {x c e} : Calm (enterCode x c e) := markAccessed_calm.bind fun _ => .modify fun _ => .same rfl
theorem pushReturn_calm {n} : Calm (pushReturn n) := .bind .get fun _ => push_calm.bind fun _ => push_calm
theorem copyParams_calm {n x e} : ∀ {k}, Calm (copyParams n x e k)
  | 0 => .pure
  | _ + 1 => .bind .get fun _ => .bind (.modify fun _ => .same rfl) fun _ => stackRead_calm.bind fun _ =>
      .bind (.modify fun _ => .same rfl) fun _ => pushSys_calm.bind fun _ => copyParams_calm
theorem callSame_calm {g c} : Calm (callSame g c) :=
  .bind .get fun _ => check_calm.bind fun _ => check_calm.bind fun _ => pushReturn_calm.bind fun _ => enterCode_calm
theorem retReal_calm {os n} : Calm (retReal os n) :=
  stackRead_calm.bind fun _ => stackRead_calm.bind fun _ => checkTarget_calm.bind fun _ => stackFree_calm.bind fun _ =>
    loadCs8086_calm.bind fun _ => setEip_calm
theorem retSame_calm {os n x} : Calm (retSame os n x) :=
  .bind .get fun _ => checkReturnCs_calm.bind fun _ => check_calm.bind fun _ => stackRead_calm.bind fun _ =>
    check_calm.bind fun _ => markAccessed_calm.bind fun _ => stackFree_calm.bind fun _ => .modify fun _ => .same rfl
theorem intOp_calm {v} : Calm (intOp v) := needV86Iopl_calm.bind fun _ => .throw
theorem intoOp_calm : Calm intoOp := .bind .get fun _ => .ite .throw .pure

/-! Fetching. -/

theorem fetchByte_calm {k} : Calm (fetchByte k) :=
  .bind .get fun _ => check_calm.bind fun _ => translate_calm.bind fun _ => maskA20_calm.bind fun _ => .readByte fun _ => .pure
theorem fetchBytes_calm : ∀ {n k}, Calm (fetchBytes k n)
  | 0, _ => .pure
  | _ + 1, _ => fetchByte_calm.bind fun _ => fetchBytes_calm
theorem fetchInstr_calm : Calm fetchInstr := by
  refine .bind .get fun s => ?_
  dsimp only
  split
  · exact fetchBytes_calm.bind fun _ => .pure
  · generalize s.codeLimitOk _ = c
    exact check_calm.bind fun _ => fetchBytes_calm.bind fun _ => .throw
  · exact fetchBytes_calm.bind fun _ => .throw
  · exact fetchBytes_calm.bind fun _ => .throw

end Sys2Proof.Machine
end

section
/-! SUPPORT. Changes of mode and of level: what they need of the state they begin in, and that they keep the invariant. -/
namespace Sys2Proof.Machine
open Sys2Proof

variable {α β : Type} {p q r : State → Prop}

/-- From every state with one property a computation ends, whatever its outcome, in a state with another. -/
def Leads (p q : State → Prop) (x : M α) : Prop := ∀ s, p s → Ends x s q

theorem Leads.bind {x : M α} {f : α → M β} (hx : Leads p q x) (hf : ∀ a, Leads q r (f a)) (e : ∀ t, q t → r t) :
    Leads p r (x >>= f) := fun s h => (hx s h).bind hf e

theorem Leads.chain {x : M α} {f : α → M β} (hx : Leads p q x) (hf : ∀ a, Leads q q (f a)) : Leads p q (x >>= f) :=
  hx.bind hf fun _ h => h

/-- The state is read: what follows may use that it has the property. -/
theorem Leads.get {f : State → M β} (h : ∀ s, p s → Ends (f s) s q) : Leads p q (MonadState.get >>= f) := h

theorem Leads.ite {c : Prop} [Decidable c] {x y : M α} (hx : Leads p q x) (hy : Leads p q y) :
    Leads p q (if c then x else y) := by
  split
  · exact hx
  · exact hy

theorem Leads.modify {f : State → State} (h : ∀ s, p s → q (f s)) : Leads p q (modify f : M Unit) := h

/-- One property of states gives another and survives what is steady: calm computations may come before the change of mode. -/
structure Lasts (p q : State → Prop) : Prop where
  steady : ∀ s t, p s → Steady s t → p t
  weaken : ∀ s, p s → q s

theorem Lasts.calm {x : M α} (l : Lasts p q) (hx : Calm x) : Leads p q x := fun s h =>
  (hx s).mono fun t k => l.weaken t (l.steady s t h k)

theorem Lasts.after {x : M α} {f : α → M β} (l : Lasts p q) (hx : Calm x) (hf : ∀ a, Leads p q (f a)) :
    Leads p q (x >>= f) := fun s h => (hx s).bind (fun a t k => hf a t (l.steady s t h k)) fun t k => l.weaken t (l.steady s t h k)

/-- A calm step made on a condition, then what follows. -/
theorem Lasts.joinThen {c : Prop} [Decidable c] {x : M Unit} {k : Unit → M β} (l : Lasts p q) (hx : Calm x)
    (hk : ∀ a, Leads p q (k a)) : Leads p q (if c then x >>= k else k ()) := .ite (l.after hx hk) (hk ())

/-- Calm computations after the change. -/
theorem Leads.thenCalm {x : M α} {f : α → M β} (hx : Leads p q x) (l : Lasts q q) (hf : ∀ a, Calm (f a)) :
    Leads p q (x >>= f) := hx.chain fun a => l.calm (hf a)

/-! Real Mode left: the invariant in Protected and in V86 Mode. -/

/-- The invariant, with PE set. -/
def State.Guarded (s : State) : Prop := s.Inv ∧ s.pe = true
/-- The invariant in Protected Mode. -/
def State.Plain (s : State) : Prop := s.Inv ∧ s.prot = true
/-- The invariant at level 0 outside V86 Mode. -/
def State.Topmost (s : State) : Prop := s.Inv ∧ s.cpl = 0#2 ∧ s.vm = false

theorem inv_lasts : Lasts State.Inv State.Inv := ⟨fun _ _ i h => h.inv i, fun _ => id⟩
theorem guarded_lasts : Lasts State.Guarded State.Guarded := ⟨fun _ _ ⟨i, g⟩ h => ⟨h.inv i, h.pe.trans g⟩, fun _ => id⟩
theorem plain_lasts : Lasts State.Plain State.Plain := ⟨fun _ _ ⟨i, g⟩ h => ⟨h.inv i, h.prot.trans g⟩, fun _ => id⟩
theorem topmost_lasts : Lasts State.Topmost State.Inv :=
  ⟨fun _ _ ⟨i, c, v⟩ h => ⟨h.inv i, h.cpl.trans c, h.vm.trans v⟩, fun _ => And.left⟩

theorem prot_iff {s : State} : s.prot = true ↔ s.pe = true ∧ s.vm = false := by simp [State.prot]
theorem v86_iff {s : State} : s.v86 = true ↔ s.pe = true ∧ s.vm = true := by simp [State.v86]

theorem State.Plain.guarded {s : State} (h : s.Plain) : s.Guarded := ⟨h.1, (prot_iff.mp h.2).1⟩
theorem State.Guarded.plain {s : State} (h : s.Guarded) (v : s.vm = false) : s.Plain := ⟨h.1, prot_iff.mpr ⟨h.2, v⟩⟩
theorem plain_lasts_guarded : Lasts State.Plain State.Guarded := ⟨plain_lasts.steady, fun _ => State.Plain.guarded⟩
theorem plain_lasts_inv : Lasts State.Plain State.Inv := ⟨plain_lasts.steady, fun _ => And.left⟩
theorem guarded_lasts_inv : Lasts State.Guarded State.Inv := ⟨guarded_lasts.steady, fun _ => And.left⟩

/-- With PE set the mode asks of the level only that V86 Mode runs at 3. -/
theorem State.Guarded.intro {t : State} (mem : t.memOk = true) (eflags : fixFlags t.eflags = t.eflags)
    (cr0 : cr0Value t.cr0 = t.cr0) (legal : cr0Legal t.cr0 = true) (dr7 : t.dr.dr7 &&& 0xFFFF23FF#32 = t.dr.dr7)
    (pe : t.pe = true) (v86 : t.vm = true → t.cpl = 3#2) : t.Guarded :=
  ⟨⟨mem, eflags, cr0, legal, dr7, fun h => by simp [State.real, pe] at h, fun h => v86 (v86_iff.mp h).2⟩, pe⟩

/-- EFLAGS, the level and DR7 change; memory and CR0 do not. -/
theorem State.Guarded.switch {s t : State} (h : s.Guarded) (mem : t.mem = s.mem) (eflags : fixFlags t.eflags = t.eflags)
    (cr0 : t.cr0 = s.cr0) (dr7 : t.dr.dr7 &&& 0xFFFF23FF#32 = t.dr.dr7) (v86 : t.vm = true → t.cpl = 3#2) : t.Guarded := by
  obtain ⟨i, pe⟩ := h
  refine .intro (by unfold State.memOk; rw [mem]; exact i.mem) eflags (by rw [cr0]; exact i.cr0) (by rw [cr0]; exact i.legal)
    dr7 ?_ v86
  unfold State.pe State.cr0Bit at pe ⊢
  rw [cr0, pe]

/-- Outside V86 Mode any level is good. -/
theorem State.Plain.level {s t : State} (h : s.Plain)
    (rest : (t.mem, t.eflags, t.cr0, t.dr) = (s.mem, s.eflags, s.cr0, s.dr)) : t.Plain := by
  simp only [Prod.mk.injEq] at rest
  obtain ⟨mem, eflags, cr0, dr⟩ := rest
  have vm : t.vm = false := by unfold State.vm; rw [eflags]; exact (prot_iff.mp h.2).2
  exact (h.guarded.switch mem (by rw [eflags]; exact h.1.eflags) cr0 (by rw [dr]; exact h.1.dr7) (by simp [vm])).plain vm

/-- Level 3 is good in V86 Mode and out of it. -/
theorem State.Guarded.outermost {s t : State} (h : s.Guarded) (eflags : fixFlags t.eflags = t.eflags) (cpl : t.cpl = 3#2)
    (rest : (t.mem, t.cr0, t.dr) = (s.mem, s.cr0, s.dr)) : t.Guarded := by
  simp only [Prod.mk.injEq] at rest
  obtain ⟨mem, cr0, dr⟩ := rest
  exact h.switch mem eflags cr0 (by rw [dr]; exact h.1.dr7) fun _ => cpl

end Sys2Proof.Machine
end

section
/-! SUPPORT. The task switch keeps the invariant. -/
namespace Sys2Proof.Machine
open Sys2Proof

theorem loadV86Segs_guarded {es cs ss ds fs gs} : Leads State.Guarded State.Guarded (loadV86Segs es cs ss ds fs gs) :=
  .modify fun _ h => h.outermost h.1.eflags rfl rfl

theorem taskCs_plain {x e} : Leads State.Plain State.Plain (taskCs x e) :=
  let l := plain_lasts
  l.after .get fun _ => l.after check_calm fun _ => l.after check_calm fun _ => l.after readDesc_calm fun _ =>
    l.after check_calm fun _ => l.after check_calm fun _ => l.after check_calm fun _ => l.after markAccessed_calm fun _ =>
    .modify fun _ h => h.level rfl

theorem enterTask_guarded {i e} : Leads State.Guarded State.Guarded (enterTask i e) := by
  refine guarded_lasts.after taskLdt_calm fun _ => .get fun s h => ?_
  split
  · exact loadV86Segs_guarded s h
  · next v =>
    have data {i : TaskImage} : Calm (taskSs i.ss e >>= fun _ => taskData .ds i.ds e >>= fun _ => taskData .es i.es e >>= fun _ =>
        taskData .fs i.fs e >>= fun _ => taskData .gs i.gs e) :=
      taskSs_calm.bind fun _ => taskData_calm.bind fun _ => taskData_calm.bind fun _ => taskData_calm.bind fun _ => taskData_calm
    exact taskCs_plain.bind (fun _ => plain_lasts_guarded.calm data) (fun _ => State.Plain.guarded) s (h.plain (by simpa using v))

/-- CR0 with TS set. -/
theorem State.Guarded.setTs {s t : State} (h : s.Guarded) (cr0 : t.cr0 = s.cr0 ||| 8#32)
    (rest : (t.mem, t.eflags, t.dr, t.cpl) = (s.mem, s.eflags, s.dr, s.cpl)) : t.Guarded := by
  simp only [Prod.mk.injEq] at rest
  obtain ⟨mem, eflags, dr, cpl⟩ := rest
  obtain ⟨i, pe⟩ := h
  refine .intro (by unfold State.memOk; rw [mem]; exact i.mem) (by rw [eflags]; exact i.eflags) ?_ ?_ (by rw [dr]; exact i.dr7)
    ?_ fun v => ?_
  · rw [cr0]; exact fixed_or i.cr0 rfl
  · have legal := i.legal
    rw [cr0]
    simpa [cr0Legal] using legal
  · unfold State.pe State.cr0Bit at pe ⊢
    rw [cr0]
    simp [pe]
  · unfold State.vm at v
    rw [eflags] at v
    exact cpl.trans (i.v86 (v86_iff.mpr ⟨pe, v⟩))

theorem leaveTask_guarded {k ts ret e} : Leads State.Guarded State.Guarded (leaveTask k ts ret e) := by
  let l := guarded_lasts
  refine l.after .get fun s => l.after readDesc_calm fun d => ?_
  have last : Leads State.Guarded State.Guarded (modify (fun s : State => { s with
      tr := { sel := ts, base := d.base, limit := d.limit, format := d.tssFormat }
      cr0 := s.cr0 ||| 8#32
      insn := { s.insn with committed := true, arrived := false } }) >>= fun _ => pure d) :=
    Leads.thenCalm (.modify fun s (h : s.Guarded) => h.setTs rfl rfl) l fun _ => .pure
  refine l.after check_calm fun _ => l.after probeTasks_calm fun _ =>
    l.joinThen setBusy_calm fun _ => l.after saveTask_calm fun _ => l.joinThen sysWrite_calm fun _ =>
    l.joinThen setBusy_calm fun _ => last

theorem loadTask_eflags (s : State) (k : SwitchKind) (i : TaskImage) :
    (s.loadTask k i).eflags = fixFlags (if k.nests then setBit i.flags 14 true else i.flags) := by
  unfold State.loadTask
  dsimp only

theorem State.Guarded.loadTask {s : State} (h : s.Guarded) (k : SwitchKind) (i : TaskImage) : (s.loadTask k i).Guarded := by
  refine h.switch ?_ ?_ ?_ ?_ ?_
  · unfold State.loadTask; cases i.cr3 <;> rfl
  · rw [loadTask_eflags]; exact fixFlags_idem _
  · unfold State.loadTask; cases i.cr3 <;> rfl
  · unfold State.loadTask; cases i.cr3 <;> exact and_and_of_and h.1.dr7 _
  · unfold State.vm
    rw [loadTask_eflags]
    exact fun v => if_pos v

theorem switchTasks_guarded {k ts ret e} : Leads State.Guarded State.Guarded (switchTasks k ts ret e) :=
  let l := guarded_lasts
  leaveTask_guarded.chain fun _ => l.after readTask_calm fun _ => (Leads.modify fun _ h => h.loadTask k _).chain fun _ =>
    enterTask_guarded.thenCalm l fun _ => .pure

end Sys2Proof.Machine
end

section
/-! SUPPORT. The delivery of events keeps the invariant. -/
namespace Sys2Proof.Machine
open Sys2Proof

/-- V86 Mode is left for level 0. -/
theorem State.Guarded.leaveV86 {s t : State} (h : s.Guarded) (eflags : t.eflags = setBit s.eflags 17 false)
    (rest : (t.mem, t.cr0, t.dr) = (s.mem, s.cr0, s.dr)) : t.Guarded := by
  simp only [Prod.mk.injEq] at rest
  obtain ⟨mem, cr0, dr⟩ := rest
  refine h.switch mem ?_ cr0 (by rw [dr]; exact h.1.dr7) fun v => ?_
  · rw [eflags]; exact fixed_and h.1.eflags rfl
  · unfold State.vm at v
    rw [eflags] at v
    simp [setBit] at v

/-- Out of V86 Mode the delivery goes to level 0; in Protected Mode to the level of the handler. -/
theorem deliverInner_guarded {ev ret g c} : Leads State.Guarded State.Guarded (deliverInner ev ret g c) := by
  let l := guarded_lasts
  have last : Calm (modify fun t : State =>
      ((t.putSeg .cs (c.toSeg (withRpl g.gateSel c.dpl))).setEip g.gateOffset).setEflags (handlerFlags g.isIntGate t.eflags)) :=
    .modify fun _ => .flags (.handlerFlags _ _) rfl
  have v86 {ns nsp d vs ws} : Leads State.Guarded State.Guarded (do
      modify fun t : State =>
        let u := (t.setEflags (setBit t.eflags 17 false)).enterInner 0#2 ns nsp d
        u.setGpr { u.gpr with esp := nsp }
      pushAllSys 4 vs
      modify fun t =>
        { t with seg := { t.seg with gs := t.seg.gs.null 0#16, fs := t.seg.fs.null 0#16,
                                     ds := t.seg.ds.null 0#16, es := t.seg.es.null 0#16 } }
      pushAllSys 4 ws
      modify fun t =>
        ((t.putSeg .cs (c.toSeg (withRpl g.gateSel c.dpl))).setEip g.gateOffset).setEflags (handlerFlags g.isIntGate t.eflags)) :=
    (Leads.modify fun _ h => h.leaveV86 rfl rfl).thenCalm l fun _ => pushAllSys_calm.bind fun _ =>
      .bind (.modify fun _ => .same rfl) fun _ => pushAllSys_calm.bind fun _ => last
  refine .get fun s h => ?_
  dsimp only
  cases hv : s.vm with
  | true =>
    have hv86 : s.v86 = true := v86_iff.mpr ⟨h.2, hv⟩
    refine (l.after check_calm fun _ => l.after innerStack_calm fun ⟨_, _, _⟩ => l.after check_calm fun _ =>
      l.after check_calm fun _ => l.after markAccessed_calm fun _ => l.after markAccessed_calm fun _ => ?_) s h
    rw [if_pos hv86]
    exact v86
  | false =>
    let m := plain_lasts_guarded
    have hv86 : ¬ s.v86 = true := by simp [State.v86, hv]
    refine (m.after check_calm fun _ => m.after innerStack_calm fun ⟨_, _, _⟩ => m.after check_calm fun _ =>
      m.after check_calm fun _ => m.after markAccessed_calm fun _ => m.after markAccessed_calm fun _ => ?_) s (h.plain hv)
    rw [if_neg hv86]
    exact (Leads.modify fun _ h => h.level rfl).bind (fun _ => m.calm (pushAllSys_calm.bind fun _ => last)) fun _ =>
      State.Plain.guarded

theorem deliverGate_guarded {ev ret g} : Leads State.Guarded State.Guarded (deliverGate ev ret g) :=
  let l := guarded_lasts
  l.after .get fun _ => l.after check_calm fun _ => l.after check_calm fun _ => l.after readDesc_calm fun _ =>
    l.after check_calm fun _ => l.after check_calm fun _ => .ite deliverInner_guarded
    (l.calm (check_calm.bind fun _ => check_calm.bind fun _ => deliverSame_calm))

theorem deliverTask_guarded {ev ret g} : Leads State.Guarded State.Guarded (deliverTask ev ret g) :=
  let l := guarded_lasts
  l.after checkTss_calm fun _ => switchTasks_guarded.thenCalm l fun _ => setArrived_calm.bind fun _ => .bind .get fun _ =>
    check_calm.bind fun _ => setArrived_calm.bind fun _ => checkNewEip_calm.bind fun _ => setArrived_calm.bind fun _ =>
    pushAllSys_calm.bind fun _ => pendTaskTrap_calm

theorem deliverProtected_guarded {ev ret} : Leads State.Guarded State.Guarded (deliverProtected ev ret) :=
  let l := guarded_lasts
  l.after .get fun _ => l.after check_calm fun _ => l.after sysRead_calm fun _ => l.after sysRead_calm fun _ =>
    l.after check_calm fun _ => l.after check_calm fun _ => l.after check_calm fun _ => .ite deliverTask_guarded deliverGate_guarded

theorem startDelivery_steady (s : State) (ev : Event) : Steady s (s.startDelivery ev) := by
  rw [startDelivery_eqn]
  refine .debugRegs ?_ rfl
  cases ev.debug with
  | none => exact id
  | some d => exact fun h => and_and_of_and h _

/-- What must be shown in Real Mode and in the others. -/
theorem State.Inv.mode {s : State} (h : s.Inv) : s.real = true ∨ s.Guarded := by
  cases hp : s.pe with
  | false => exact .inl (by simp [State.real, hp])
  | true => exact .inr ⟨h, hp⟩

theorem deliver_inv {ev ret} : Leads State.Inv State.Inv (deliver ev ret) := by
  refine inv_lasts.after (.modify fun s => startDelivery_steady s ev) fun _ => .get fun s h => ?_
  split
  · exact inv_lasts.calm deliverReal_calm s h
  · next hr =>
    exact (deliverProtected_guarded s (h.mode.resolve_left hr)).mono fun _ => And.left

end Sys2Proof.Machine
end

section
/-! SUPPORT. Far transfers and returns keep the invariant. -/
namespace Sys2Proof.Machine
open Sys2Proof

theorem iretTask_guarded : Leads State.Guarded State.Guarded iretTask :=
  let l := guarded_lasts
  l.after .get fun _ => l.after sysRead_calm fun _ => l.after check_calm fun _ => l.after readDesc_calm fun _ =>
    l.after check_calm fun _ => l.after check_calm fun _ => switchTasks_guarded.thenCalm l fun _ => finishSwitch_calm

/-- The flags come after the segments, at level 3. -/
theorem iretV86_guarded : Leads State.Guarded State.Guarded iretV86 := by
  let l := guarded_lasts
  have last {es cs ss ds fs gs ip fl sp} : Leads State.Guarded State.Guarded
      (loadV86Segs es cs ss ds fs gs >>= fun _ => modify fun t : State =>
        ((t.setEflags (fixFlags fl)).setEip ip).setGpr { t.gpr with esp := sp }) :=
    Leads.bind (q := fun t => t.Guarded ∧ t.cpl = 3#2) (.modify fun _ h => ⟨h.outermost h.1.eflags rfl rfl, rfl⟩)
      (fun _ => .modify fun _ ⟨h, level⟩ => h.outermost (fixFlags_idem _) level rfl) fun _ => And.left
  exact l.after .get fun _ => l.after check_calm fun _ => l.after stackRead_calm fun _ => l.after check_calm fun _ =>
    l.after stackRead_calm fun _ => l.after stackRead_calm fun _ => l.after stackRead_calm fun _ => l.after stackRead_calm fun _ =>
    l.after stackRead_calm fun _ => l.after stackRead_calm fun _ => l.after stackRead_calm fun _ =>
    l.after stackRead_calm fun _ => last

theorem State.Plain.returnOuter {s : State} (h : s.Plain) {os rcs rss c d ip nsp} :
    (s.returnOuter os rcs rss c d ip nsp).Plain := h.level rfl

theorem State.Plain.setFlags {s : State} (h : s.Plain) {v : Word32} (k : FlagsKept s.eflags v) : (s.setEflags v).Plain :=
  plain_lasts.steady s (s.setEflags v) h (.flags k rfl)

/-- The level of a return is that of the code segment returned to. -/
theorem iretStack_plain {os} : Leads State.Plain State.Plain (iretStack os) := by
  let l := plain_lasts
  refine l.after stackRead_calm fun rcs => l.after .get fun s => l.after check_calm fun _ => .ite ?_ ?_
  · exact l.calm (check_calm.bind fun _ => checkReturnCs_calm.bind fun _ => stackRead_calm.bind fun _ => check_calm.bind fun _ =>
      stackRead_calm.bind fun _ => markAccessed_calm.bind fun _ => stackFree_calm.bind fun _ =>
      .modify fun _ => .flags .loadFlags rfl)
  · refine l.after check_calm fun _ => l.after checkReturnCs_calm fun _ => l.after stackRead_calm fun _ =>
      l.after checkReturnSs_calm fun _ => l.after stackRead_calm fun _ => l.after check_calm fun _ =>
      l.after stackRead_calm fun _ => l.after stackRead_calm fun _ => l.after markAccessed_calm fun _ =>
      l.after markAccessed_calm fun _ => .modify fun t h => ?_
    exact h.returnOuter.setFlags .loadFlags

/-- Neither in Real nor in V86 Mode. -/
theorem State.Inv.plain {s : State} (h : s.Inv) (n : ¬ (s.real || s.v86) = true) : s.Plain := by
  simp only [State.real, State.v86, Bool.or_eq_true, not_or, Bool.not_eq_true] at n
  obtain ⟨hr, hv⟩ := n
  refine ⟨h, prot_iff.mpr ?_⟩
  simpa [show s.pe = true by simpa using hr] using hv

theorem iretOp_inv {os} : Leads State.Inv State.Inv (iretOp os) := by
  have last : Calm (modify fun t : State => { t with latch := { t.latch with nmiMasked := false } }) := .modify fun _ => .same rfl
  have guarded {x : M Unit} (h : Leads State.Guarded State.Guarded x) : Leads State.Plain State.Inv (x >>= fun _ =>
      modify fun t : State => { t with latch := { t.latch with nmiMasked := false } }) := fun s hs =>
    h.bind (fun _ => guarded_lasts_inv.calm last) (fun _ => And.left) s hs.guarded
  refine .get fun s h => ?_
  by_cases hm : (s.real || s.v86) = true
  · refine inv_lasts.calm (needV86Iopl_calm.bind fun _ => keepRf_calm.bind fun _ => ?_) s h
    rw [if_pos hm]
    exact iretReal_calm.bind fun _ => last
  · refine (plain_lasts_inv.after needV86Iopl_calm fun _ => plain_lasts_inv.after keepRf_calm fun _ => ?_) s (h.plain hm)
    rw [if_neg hm]
    refine .ite (guarded iretTask_guarded) (plain_lasts_inv.after iretToV86_calm fun _ => .ite (guarded iretV86_guarded) ?_)
    exact iretStack_plain.bind (fun _ => plain_lasts_inv.calm last) fun _ => And.left

theorem callInner_plain {g c} : Leads State.Plain State.Plain (callInner g c) :=
  let l := plain_lasts
  l.after .get fun _ => l.after innerStack_calm fun ⟨_, _, _⟩ => l.after check_calm fun _ => l.after check_calm fun _ =>
    l.after markAccessed_calm fun _ => l.after markAccessed_calm fun _ => l.after (.modify fun _ => .same rfl) fun _ =>
    l.after pushAllSys_calm fun _ => l.after copyParams_calm fun _ => l.after pushAllSys_calm fun _ =>
    .modify fun _ h => h.level rfl

theorem switchTasks_then_finish {k ts ret e f} :
    Leads State.Plain State.Guarded (switchTasks k ts ret e >>= fun t => finishSwitch t f) := fun s h =>
  switchTasks_guarded.thenCalm guarded_lasts (fun _ => finishSwitch_calm) s h.guarded

theorem callProtected_guarded {off x os} : Leads State.Plain State.Guarded (callProtected off x os) := by
  let l := plain_lasts_guarded
  refine l.after farDesc_calm fun d => ?_
  cases farTarget d with
  | code =>
    exact l.calm (checkDirect_calm.bind fun _ => .bind .get fun _ => check_calm.bind fun _ => check_calm.bind fun _ =>
      pushReturn_calm.bind fun _ => enterCode_calm)
  | callGate =>
    exact l.after checkGate_calm fun _ => l.after gateTarget_calm fun _ => l.after .get fun _ =>
      .ite (fun s h => (callInner_plain s h).mono l.weaken) (l.calm callSame_calm)
  | taskGate => exact l.after checkGate_calm fun _ => l.after checkTss_calm fun _ => l.after .get fun _ => switchTasks_then_finish
  | tss => exact l.after checkTask_calm fun _ => l.after .get fun _ => switchTasks_then_finish
  | bad => exact l.calm .throw

theorem callFarOp_inv {f} : Leads State.Inv State.Inv (callFarOp f) := by
  refine inv_lasts.after farPointer_calm fun ⟨_, _, _⟩ => .get fun s h => ?_
  split
  · next hp => exact (callProtected_guarded s ⟨h, hp⟩).mono fun _ => And.left
  · exact inv_lasts.calm (push_calm.bind fun _ => push_calm.bind fun _ => loadCs8086_calm.bind fun _ => setEip_calm) s h

theorem jmpProtected_guarded {off x} : Leads State.Plain State.Guarded (jmpProtected off x) := by
  let l := plain_lasts_guarded
  refine l.after farDesc_calm fun d => ?_
  cases farTarget d with
  | code => exact l.calm (checkDirect_calm.bind fun _ => check_calm.bind fun _ => enterCode_calm)
  | callGate =>
    exact l.calm (checkGate_calm.bind fun _ => gateTarget_calm.bind fun _ => check_calm.bind fun _ => enterCode_calm)
  | taskGate =>
    exact l.after checkGate_calm fun _ => l.after checkTss_calm fun _ => l.after .get fun _ => switchTasks_then_finish
  | tss => exact l.after checkTask_calm fun _ => l.after .get fun _ => switchTasks_then_finish
  | bad => exact l.calm .throw

theorem jmpFarOp_inv {f} : Leads State.Inv State.Inv (jmpFarOp f) := by
  refine inv_lasts.after farPointer_calm fun ⟨_, _, _⟩ => .get fun s h => ?_
  split
  · next hp => exact (jmpProtected_guarded s ⟨h, hp⟩).mono fun _ => And.left
  · exact inv_lasts.calm (checkTarget_calm.bind fun _ => loadCs8086_calm.bind fun _ => setEip_calm) s h

theorem retOuter_plain {os imm rcs} : Leads State.Plain State.Plain (retOuter os imm rcs) :=
  let l := plain_lasts
  l.after .get fun _ => l.after check_calm fun _ => l.after checkReturnCs_calm fun _ => l.after stackRead_calm fun _ =>
    l.after stackRead_calm fun _ => l.after checkReturnSs_calm fun _ => l.after stackRead_calm fun _ => l.after check_calm fun _ =>
    l.after markAccessed_calm fun _ => l.after markAccessed_calm fun _ =>
    (Leads.modify fun _ h => h.returnOuter).thenCalm l fun _ => stackFree_calm

theorem retFarOp_inv {f} : Leads State.Inv State.Inv (retFarOp f) := by
  refine .get fun s h => ?_
  split
  · next hp =>
    let l := plain_lasts
    exact (l.after stackRead_calm fun _ => l.after check_calm fun _ => .ite (l.calm retSame_calm) retOuter_plain :
      Leads State.Plain State.Plain _) s ⟨h, hp⟩ |>.mono fun _ => And.left
  · exact inv_lasts.calm retReal_calm s h

end Sys2Proof.Machine
end

section
/-! SUPPORT. CR0 is written at level 0: the invariant is kept. -/
namespace Sys2Proof.Machine
open Sys2Proof

variable {β : Type}

/-- Past a test. -/
theorem Ends.check {c : Bool} {e : Exc} {f : Unit → M β} {s : State} {q : State → Prop} (hf : c = true → Ends (f ()) s q)
    (h : q s) : Ends (Machine.check c e >>= f) s q := by
  cases c with
  | true => exact hf rfl
  | false => exact h

/-- Past the test of the level. -/
theorem needCpl0_then {f : Unit → M β} (hf : ∀ a, Leads State.Topmost State.Inv (f a)) :
    Leads State.Inv State.Inv (needCpl0 >>= f) := by
  intro s h
  refine Ends.check (f := f) (fun hc => hf () s ⟨h, ?_⟩) h
  rcases Bool.or_eq_true_iff.mp hc with hr | hp
  · exact h.real hr
  · obtain ⟨hp, hl⟩ := Bool.and_eq_true_iff.mp hp
    exact ⟨by simpa using hl, (prot_iff.mp hp).2⟩

/-- CR0 is replaced by a legal value. -/
theorem State.Topmost.setCr0 {s : State} (h : s.Topmost) {v : Word32} (fixed : cr0Value v = v) (legal : cr0Legal v = true) :
    (s.setCr0 v).Inv := by
  obtain ⟨i, cpl, vm⟩ := h
  refine ⟨i.mem, i.eflags, fixed, legal, i.dr7, fun _ => ⟨cpl, vm⟩, fun v86 => ?_⟩
  exact Bool.noConfusion ((v86_iff.mp v86).2.symm.trans vm)

theorem cr0Value_idem (v : Word32) : cr0Value (cr0Value v) = cr0Value v := by
  unfold cr0Value
  rw [BitVec.and_or_distrib_right, BitVec.and_assoc, BitVec.or_assoc]
  rfl

theorem cr0Legal_cr0Value (v : Word32) : cr0Legal (cr0Value v) = cr0Legal v := by
  simp [cr0Legal, cr0Value]

theorem writeCr_topmost : ∀ {c v}, Leads State.Topmost State.Inv (writeCr c v)
  | .cr0, v => fun _ h => Ends.check (f := fun _ => modify (State.setCr0 · (cr0Value v)))
      (fun legal => h.setCr0 (cr0Value_idem v) ((cr0Legal_cr0Value v).trans legal)) h.1
  | .cr2, _ => topmost_lasts.calm (.modify fun _ => .same rfl)
  | .cr3, _ => topmost_lasts.calm loadCr3_calm

theorem movToCrOp_inv {c r} : Leads State.Inv State.Inv (movToCrOp c r) :=
  needCpl0_then fun _ => topmost_lasts.after getReg_calm fun _ => writeCr_topmost.thenCalm inv_lasts fun _ => setStatus_calm

theorem cltsOp_inv : Leads State.Inv State.Inv cltsOp := by
  refine needCpl0_then fun _ => .modify fun s h => h.setCr0 (fixed_and h.1.cr0 rfl) ?_
  have legal := h.1.legal
  simpa [cr0Legal] using legal

/-- LMSW can set PE, not clear it. -/
theorem lmswOp_inv {x} : Leads State.Inv State.Inv (lmswOp x) := by
  refine needCpl0_then fun _ => topmost_lasts.after readRM_calm fun v => .modify fun s h => h.setCr0 ?_ ?_
  · refine fixed_or (m := v.setWidth 32 &&& 1#32) ?_ (by rw [BitVec.and_assoc]; rfl)
    have kept := fixed_and (m := ~~~0xE#32) h.1.cr0 rfl
    unfold mix
    rw [BitVec.or_comm (v.setWidth 32 &&& 0xE#32)]
    exact fixed_or (m := v.setWidth 32 &&& 0xE#32) kept (by rw [BitVec.and_assoc]; rfl)
  · have legal := h.1.legal
    simp [cr0Legal, mix] at legal ⊢
    exact ⟨legal.1.imp_right .inl, legal.2⟩

end Sys2Proof.Machine
end

section
/-! SUPPORT. The end of an instruction and of a delivery: the state has the invariant, and its latch is at rest. -/
namespace Sys2Proof.Machine
open Sys2Proof

/-- The invariant between instructions. -/
def State.Resting (s : State) : Prop := s.Inv ∧ s.insn = .idle s.eip

/-- A next state, where there is one, is between instructions and has the invariant. -/
def Settled (r : Result) : Prop := ∀ t, r = .next t → t.Resting

theorem Settled.next {t : State} (h : t.Resting) : Settled (.next t) := by
  intro u hu
  cases hu
  exact h

theorem Settled.fault {f : Fault} : Settled (.fault f) := fun _ h => nomatch h

theorem restAt_inv {s : State} (h : s.Inv) (a : Word32) : (s.restAt a).Inv := (Steady.same rfl : Steady s (s.restAt a)).inv h

theorem commitStores_inv {s : State} (h : s.Inv) : s.commitStores.Inv := (commitStores_steady s).inv h

theorem restAt_resting {s : State} (h : s.Inv) (a : Word32) : (s.restAt a).Resting := ⟨restAt_inv h a, rfl⟩

/-- An abandoned attempt leaves its memory, and no flags, mode or DR7. -/
theorem abandon_inv {s t : State} (h : s.Inv) (k : t.Inv) : (s.abandon t).Inv :=
  (⟨fun _ => k.mem, id, id, rfl, rfl, rfl⟩ : Steady s (s.abandon t)).inv h

theorem leftBy_inv {p t : State} (h : p.Inv) (k : t.Inv) (a : Word32) : (p.leftBy t a).Inv := by
  unfold State.leftBy
  split
  · exact restAt_inv (commitStores_inv k) _
  · exact restAt_inv (abandon_inv h k) _

theorem shut_resting {s : State} (h : s.Inv) (a : Word32) : (s.shut a).Resting :=
  ⟨(Steady.same rfl : Steady s (s.shut a)).inv h, rfl⟩

theorem shutBy_resting {p t : State} (h : p.Inv) (k : t.Inv) (a : Word32) : (p.shutBy t a).Resting :=
  shut_resting (leftBy_inv h k a) _

theorem settle_resting {t : State} (h : t.Inv) (bs : Bool) : (t.settle bs).Resting :=
  ⟨(Steady.same rfl : Steady t.commitStores (t.settle bs)).inv (commitStores_inv h), rfl⟩

theorem finish_resting {s t : State} (h : t.Inv) : (finish s t).Resting := by
  have kept : FlagsKept t.commitStores.eflags (finish s t).eflags := by
    rw [commitStores_eqn]
    unfold finish
    dsimp only
    split
    · exact .refl _
    · exact .clearRf _
  exact ⟨((commitStores_steady t).trans (.flags kept rfl)).inv h, rfl⟩

theorem deliver_ok_inv {ev : Event} {ret : Word32} {p t : State} (h : p.Inv) (hd : deliver ev ret p = .ok () t) : t.Inv :=
  (ends_of_ok hd).mp (deliver_inv p h)

theorem deliver_error_inv {ev : Event} {ret : Word32} {p t : State} {e : Exc} (h : p.Inv) (hd : deliver ev ret p = .error e t) :
    t.Inv := (ends_of_error hd).mp (deliver_inv p h)

theorem deliverLoop_settled : ∀ {n ev ret fret bs p}, p.Inv → Settled (deliverLoop n ev ret fret bs p)
  | 0, _, _, fret, _, p, h => .next ⟨(Steady.same rfl : Steady p { p.restAt fret with run := _ }).inv h, rfl⟩
  | n + 1, ev, ret, fret, bs, p, h => by
    unfold deliverLoop
    split
    · next t hd => exact .next (settle_resting (deliver_ok_inv h hd) bs)
    · exact .fault
    · next v c d t hd =>
      have k := deliver_error_inv h hd
      split
      · exact deliverLoop_settled (restAt_inv (commitStores_inv k) _)
      · dsimp only
        split
        · exact deliverLoop_settled (leftBy_inv h k _)
        · exact .next (shutBy_resting h k _)
    · next t _ _ hd => exact .next (shutBy_resting h (deliver_error_inv h hd) _)

theorem deliverAt_settled {s : State} (h : s.Inv) (ev : Event) : Settled (s.deliverAt ev) := deliverLoop_settled (restAt_inv h _)

theorem failure_settled {s t : State} (h : s.Inv) (k : t.Inv) (e : Exc) : Settled (failure s e t) := by
  have left := abandon_inv h k
  cases e with
  | exn v c d =>
    unfold failure
    dsimp only
    split
    · exact deliverLoop_settled (restAt_inv (commitStores_inv k) _)
    · exact deliverLoop_settled (restAt_inv left _)
  | soft v => exact deliverLoop_settled (restAt_inv left _)
  | shutdown => exact .next (shut_resting left _)
  | freeze => exact .next ⟨(Steady.same rfl : Steady (s.abandon t) { (s.abandon t).restAt _ with run := _ }).inv left, rfl⟩
  | stop f => exact .fault

theorem run_settled {m : M Unit} {s : State} (h : s.Inv) (hm : Leads State.Inv State.Inv m) : Settled (run m s) := by
  have k := hm s h
  unfold run
  cases hr : m s with
  | ok a t => exact .next (finish_resting ((ends_of_ok hr).mp k))
  | error e t => exact failure_settled h ((ends_of_error hr).mp k) e

theorem run_calm_settled {m : M Unit} {s : State} (h : s.Inv) (hm : Calm m) : Settled (run m s) :=
  run_settled h (inv_lasts.calm hm)

theorem waitThen_settled {m : M Unit} {s : State} (h : s.Inv) (hm : Calm m) : Settled (waitThen m s) := by
  have k := waitOp_calm s
  unfold waitThen
  cases hw : waitOp s with
  | ok a t =>
    exact run_calm_settled (Steady.inv (((ends_of_ok hw).mp k).trans (.same rfl)) h) hm
  | error e t => exact failure_settled h (((ends_of_error hw).mp k).inv h) e

end Sys2Proof.Machine
end

section
/-! SUPPORT. What happens between instructions keeps the invariant. -/
namespace Sys2Proof.Machine
open Sys2Proof

theorem external_settled {s : State} (h : s.Inv) {r : Result} (hr : s.external = some r) : Settled r := by
  unfold State.external at hr
  split at hr
  · cases hr
    exact deliverAt_settled ((Steady.same rfl : Steady s s.takeNmi).inv h) _
  · split at hr
    · cases hr
      exact deliverAt_settled ((Steady.same rfl : Steady s s.takeIntr).inv h) _
    · cases hr

theorem trapNow_settled {s : State} (h : s.Inv) {r : Result} (hr : s.trapNow = some r) : Settled r := by
  obtain ⟨e, -, rfl⟩ := Option.map_eq_some_iff.mp hr
  exact deliverAt_settled ((Steady.same rfl : Steady s { s with traps := .none }).inv h) _

theorem takeBreak_settled {s : State} (h : s.Inv) (ev : Event) : Settled (s.takeBreak ev) :=
  deliverAt_settled (abandon_inv h h) ev

theorem stepWaiting_settled {s : State} (h : s.Resting) : Settled s.stepWaiting := by
  obtain ⟨i, -⟩ := id h
  unfold State.stepWaiting
  split
  · next r hr => exact trapNow_settled i hr
  · cases hr : s.external with
    | some r => exact external_settled i hr
    | none => exact .next h

theorem stepShutdown_settled {s : State} (h : s.Resting) : Settled s.stepShutdown := by
  obtain ⟨i, -⟩ := id h
  have nmi : s.takeNmi.Inv := (Steady.same rfl : Steady s s.takeNmi).inv i
  unfold State.stepShutdown
  dsimp only
  split
  · split
    · split
      · exact deliverAt_settled nmi _
      · exact .next (shut_resting nmi _)
    · have rest := restAt_inv nmi s.takeNmi.eip
      split
      · next u hd => exact .next (settle_resting (deliver_ok_inv rest hd) _)
      · exact .fault
      · next v c d u hd =>
        have k := deliver_error_inv rest hd
        split
        · exact deliverLoop_settled (restAt_inv (commitStores_inv k) _)
        · exact .next (shutBy_resting nmi k _)
      · next u _ _ hd => exact .next (shutBy_resting nmi (deliver_error_inv rest hd) _)
  · exact .next h

end Sys2Proof.Machine
end

section
/-! SUPPORT. The decoder answers prefixes, then an instruction that is none of them. -/
namespace Sys2Proof

/-- Is an instruction one of the prefixes? -/
def Instr.isPrefix : Instr → Bool
  | .lockPrefix | .repnePrefix | .repPrefix | .segEs | .segCs | .segSs | .segDs | .segFs | .segGs
  | .opSizePrefix | .addrSizePrefix => true
  | _ => false

/-- A decoder that answers none of the prefixes. -/
def Bodied (d : Dec Instr) : Prop := ∀ l i t, d l = .ok i t → i.isPrefix = false

@[simp] theorem bodied_pure {i : Instr} : Bodied (pure i) ↔ i.isPrefix = false :=
  ⟨fun h => h [] i [] rfl, fun h l j t hj => by cases hj; exact h⟩

@[simp] theorem bodied_throw {e : DecodeError} : Bodied (throw e) := fun _ _ _ h => nomatch h

theorem Bodied.bind {α : Type} {x : Dec α} {f : α → Dec Instr} (h : ∀ a, Bodied (f a)) : Bodied (x >>= f) := by
  intro l i t hi
  change EStateM.bind x f l = _ at hi
  unfold EStateM.bind at hi
  split at hi
  · next a u hx => exact h a u i t hi
  · cases hi

@[simp] theorem aluInstr_isPrefix (k : BitVec 3) (f : AluForm) : (aluInstr k f).isPrefix = false := by
  unfold aluInstr
  split <;> rfl

@[simp] theorem jccInstr_isPrefix (c : BitVec 4) (d : Rel) : (jccInstr c d).isPrefix = false := by
  unfold jccInstr
  split <;> rfl

@[simp] theorem setccInstr_isPrefix (c : BitVec 4) (rm : RM) : (setccInstr c rm).isPrefix = false := by
  unfold setccInstr
  split <;> rfl

@[simp] theorem farithMem_isPrefix (k : BitVec 3) (wide : Bool) (m : Mem) : (farithMem k wide m).isPrefix = false := by
  unfold farithMem
  dsimp only
  split <;> rfl

@[simp] theorem fiarith_isPrefix (k : BitVec 3) (f : FInt) : (fiarith k f).isPrefix = false := by
  unfold fiarith
  split <;> rfl

@[simp] theorem escD8Reg_isPrefix (b : Byte) : (escD8Reg b).isPrefix = false := by
  unfold escD8Reg
  split <;> rfl

@[simp] theorem shiftInstr_bodied (k : BitVec 3) (w : Width) (rm : RM) (c : Count) : Bodied (shiftInstr k w rm c) := by
  unfold shiftInstr
  repeat' first | split | with_reducible refine .bind fun _ => ?_
  all_goals simp
  all_goals rfl

@[simp] theorem decodeGrp3_bodied (as : Size) (w : Width) : Bodied (decodeGrp3 as w) := by
  unfold decodeGrp3
  repeat' first | split | with_reducible refine .bind fun _ => ?_
  all_goals simp
  all_goals rfl

@[simp] theorem decodeGrp4_bodied (as : Size) : Bodied (decodeGrp4 as) := by
  unfold decodeGrp4
  repeat' first | split | with_reducible refine .bind fun _ => ?_
  all_goals simp
  all_goals rfl

@[simp] theorem decodeGrp5_bodied (os as : Size) : Bodied (decodeGrp5 os as) := by
  unfold decodeGrp5
  repeat' first | split | with_reducible refine .bind fun _ => ?_
  all_goals simp
  all_goals rfl

@[simp] theorem decodeGrp6_bodied (os as : Size) : Bodied (decodeGrp6 os as) := by
  unfold decodeGrp6
  repeat' first | split | with_reducible refine .bind fun _ => ?_
  all_goals simp
  all_goals rfl

@[simp] theorem decodeGrp7_bodied (os as : Size) : Bodied (decodeGrp7 os as) := by
  unfold decodeGrp7
  repeat' first | split | with_reducible refine .bind fun _ => ?_
  all_goals simp
  all_goals rfl

@[simp] theorem decodeGrp8_bodied (os as : Size) : Bodied (decodeGrp8 os as) := by
  unfold decodeGrp8
  repeat' first | split | with_reducible refine .bind fun _ => ?_
  all_goals simp
  all_goals rfl

@[simp] theorem decode0F_02_bodied (os as : Size) (op : Byte) : Bodied (decode0F_02 os as op) := by
  unfold decode0F_02
  repeat' first | split | with_reducible refine .bind fun _ => ?_
  all_goals simp
  all_goals rfl

@[simp] theorem decode0F_A_bodied (os as : Size) (op : Byte) : Bodied (decode0F_A os as op) := by
  unfold decode0F_A
  repeat' first | split | with_reducible refine .bind fun _ => ?_
  all_goals simp
  all_goals rfl

@[simp] theorem decode0F_B_bodied (os as : Size) (op : Byte) : Bodied (decode0F_B os as op) := by
  unfold decode0F_B
  repeat' first | split | with_reducible refine .bind fun _ => ?_
  all_goals simp
  all_goals rfl

@[simp] theorem decode0F_bodied (os as : Size) : Bodied (decode0F os as) := by
  unfold decode0F
  repeat' first | split | with_reducible refine .bind fun _ => ?_
  all_goals simp
  all_goals rfl

@[simp] theorem decodeAlu_bodied (os as : Size) (op : Byte) : Bodied (decodeAlu os as op) := by
  unfold decodeAlu
  repeat' first | split | with_reducible refine .bind fun _ => ?_
  all_goals simp

@[simp] theorem decodeLowMisc_bodied (os as : Size) (op : Byte) : Bodied (decodeLowMisc os as op) := by
  unfold decodeLowMisc
  repeat' first | split | with_reducible refine .bind fun _ => ?_
  all_goals simp
  all_goals rfl

@[simp] theorem decode6_bodied (os as : Size) (op : Byte) : Bodied (decode6 os as op) := by
  unfold decode6
  repeat' first | split | with_reducible refine .bind fun _ => ?_
  all_goals simp
  all_goals rfl

@[simp] theorem decode8_bodied (os as : Size) (op : Byte) : Bodied (decode8 os as op) := by
  unfold decode8
  repeat' first | split | with_reducible refine .bind fun _ => ?_
  all_goals simp
  all_goals rfl

@[simp] theorem decode9_bodied (os : Size) (op : Byte) : Bodied (decode9 os op) := by
  unfold decode9
  repeat' first | split | with_reducible refine .bind fun _ => ?_
  all_goals simp
  all_goals rfl

@[simp] theorem decodeA_bodied (os as : Size) (op : Byte) : Bodied (decodeA os as op) := by
  unfold decodeA
  repeat' first | split | with_reducible refine .bind fun _ => ?_
  all_goals simp
  all_goals rfl

@[simp] theorem decodeC_bodied (os as : Size) (op : Byte) : Bodied (decodeC os as op) := by
  unfold decodeC
  repeat' first | split | with_reducible refine .bind fun _ => ?_
  all_goals simp
  all_goals rfl

@[simp] theorem escD9Mem_bodied (os as : Size) (b : Byte) : Bodied (escD9Mem os as b) := by
  unfold escD9Mem
  repeat' first | split | with_reducible refine .bind fun _ => ?_
  all_goals simp
  all_goals rfl

@[simp] theorem escDBMem_bodied (as : Size) (b : Byte) : Bodied (escDBMem as b) := by
  unfold escDBMem
  repeat' first | split | with_reducible refine .bind fun _ => ?_
  all_goals simp
  all_goals rfl

@[simp] theorem escDDMem_bodied (os as : Size) (b : Byte) : Bodied (escDDMem os as b) := by
  unfold escDDMem
  repeat' first | split | with_reducible refine .bind fun _ => ?_
  all_goals simp
  all_goals rfl

@[simp] theorem escDFMem_bodied (as : Size) (b : Byte) : Bodied (escDFMem as b) := by
  unfold escDFMem
  repeat' first | split | with_reducible refine .bind fun _ => ?_
  all_goals simp
  all_goals rfl

@[simp] theorem escD9Op_bodied (b : Byte) : Bodied (escD9Op b) := by
  unfold escD9Op
  repeat' first | split | with_reducible refine .bind fun _ => ?_
  all_goals simp
  all_goals rfl

@[simp] theorem escD9Reg_bodied (b : Byte) : Bodied (escD9Reg b) := by
  unfold escD9Reg
  repeat' first | split | with_reducible refine .bind fun _ => ?_
  all_goals simp
  all_goals rfl

@[simp] theorem escDBReg_bodied (b : Byte) : Bodied (escDBReg b) := by
  unfold escDBReg
  repeat' first | split | with_reducible refine .bind fun _ => ?_
  all_goals simp
  all_goals rfl

@[simp] theorem escDCReg_bodied (b : Byte) : Bodied (escDCReg b) := by
  unfold escDCReg
  repeat' first | split | with_reducible refine .bind fun _ => ?_
  all_goals simp
  all_goals rfl

@[simp] theorem escDDReg_bodied (b : Byte) : Bodied (escDDReg b) := by
  unfold escDDReg
  repeat' first | split | with_reducible refine .bind fun _ => ?_
  all_goals simp
  all_goals rfl

@[simp] theorem escDEReg_bodied (b : Byte) : Bodied (escDEReg b) := by
  unfold escDEReg
  repeat' first | split | with_reducible refine .bind fun _ => ?_
  all_goals simp
  all_goals rfl

@[simp] theorem decodeEsc_bodied (os as : Size) (op : Byte) : Bodied (decodeEsc os as op) := by
  unfold decodeEsc
  repeat' first | split | with_reducible refine .bind fun _ => ?_
  all_goals simp
  all_goals rfl

@[simp] theorem decodeD_bodied (os as : Size) (op : Byte) : Bodied (decodeD os as op) := by
  unfold decodeD
  repeat' first | split | with_reducible refine .bind fun _ => ?_
  all_goals simp
  all_goals rfl

@[simp] theorem decodeE_bodied (os as : Size) (op : Byte) : Bodied (decodeE os as op) := by
  unfold decodeE
  repeat' first | split | with_reducible refine .bind fun _ => ?_
  all_goals simp
  all_goals rfl

@[simp] theorem decodeF_bodied (os as : Size) (op : Byte) : Bodied (decodeF os as op) := by
  unfold decodeF
  repeat' first | split | with_reducible refine .bind fun _ => ?_
  all_goals simp
  all_goals rfl

@[simp] theorem decodeBody_bodied (os as : Size) : Bodied (decodeBody os as) := by
  unfold decodeBody
  repeat' first | split | with_reducible refine .bind fun _ => ?_
  all_goals simp
  all_goals rfl

/-- The bytes of the prefixes are prefixes. -/
theorem prefixOf_isPrefix {b : Byte} {i : Instr} (h : prefixOf b = some i) : i.isPrefix = true := by
  unfold prefixOf at h
  split at h <;> cases h <;> rfl

theorem splitPrefixes_isPrefix : ∀ {l : List Byte} {i : Instr}, i ∈ (splitPrefixes l).1 → i.isPrefix = true
  | [], _, h => nomatch h
  | b :: t, i, h => by
    unfold splitPrefixes at h
    split at h
    · next p hp =>
      rcases List.mem_cons.mp h with rfl | ht
      · exact prefixOf_isPrefix hp
      · exact splitPrefixes_isPrefix ht
    · exact nomatch h

/-- What the decoder answers: prefixes, then an instruction that is none. -/
theorem decodeInstr_shape {d : Size} {l rest : List Byte} {ps : List Instr} {i : Instr} (h : decodeInstr d l = .ok (ps, i) rest) :
    (∀ p ∈ ps, p.isPrefix = true) ∧ i.isPrefix = false := by
  unfold decodeInstr at h
  dsimp only at h
  split at h
  · next j t hj =>
    cases h
    exact ⟨fun p => splitPrefixes_isPrefix, decodeBody_bodied _ _ _ _ _ hj⟩
  · cases h

end Sys2Proof

namespace Sys2Proof.Machine
open Sys2Proof

/-- What is fetched: prefixes, then an instruction that is none. -/
theorem fetchInstr_shape {s t : State} {ps : List Instr} {i : Instr} {n : Nat} (h : fetchInstr s = .ok (ps, i, n) t) :
    (∀ p ∈ ps, p.isPrefix = true) ∧ i.isPrefix = false := by
  unfold fetchInstr at h
  rw [get_then] at h
  cases hd : decodeInstr s.defaultSize (peekBytes 0 maxLength s) with
  | ok x rest =>
    rw [hd] at h
    obtain ⟨-, u, -, hp⟩ := bind_ok_iff.mp h
    cases hp
    exact decodeInstr_shape hd
  | error e rest =>
    rw [hd] at h
    cases e with
    | truncated =>
      obtain ⟨-, u, -, h⟩ := bind_ok_iff.mp h
      obtain ⟨-, v, -, h⟩ := bind_ok_iff.mp h
      cases h
    | undefined | undefinedEsc =>
      obtain ⟨-, u, -, h⟩ := bind_ok_iff.mp h
      cases h

end Sys2Proof.Machine
end

section
/-! SUPPORT. Every instruction settles; O52. -/
namespace Sys2Proof.Machine
open Sys2Proof

/-- Prefixes change the latch alone. -/
theorem exec_prefix_inv {p : Instr} {s t : State} (hp : p.isPrefix = true) (h : s.Inv) (he : exec p s = .next t) : t.Inv := by
  have latch (j : Insn) : ({ s with insn := j } : State).Inv := (Steady.same rfl : Steady s { s with insn := j }).inv h
  cases p with
  | lockPrefix | repnePrefix | repPrefix | segEs | segCs | segSs | segDs | segFs | segGs | opSizePrefix | addrSizePrefix =>
    cases he
    exact latch _
  | _ => cases hp

/-- Any other instruction completes or fails from the state its prefixes leave. -/
theorem exec_settled {i : Instr} {s : State} (hp : i.isPrefix = false) (h : s.Inv) : Settled (exec i s) := by
  have calm {m : M Unit} (hm : Calm m) : Settled (run m s) := run_calm_settled h hm
  have modal {m : M Unit} (hm : Leads State.Inv State.Inv m) : Settled (run m s) := run_settled h hm
  have waiting {m : M Unit} (hm : Calm m) : Settled (waitThen m s) := waitThen_settled h hm
  cases i with
  | lockPrefix | repnePrefix | repPrefix | segEs | segCs | segSs | segDs | segFs | segGs | opSizePrefix | addrSizePrefix =>
    cases hp
  | aaa | aas => exact calm asciiOp_calm
  | aad => exact calm aadOp_calm
  | aam => exact calm aamOp_calm
  | adc | add | and | cmp | or | sbb | sub | xor => exact calm aluOp_calm
  | arpl => exact calm arplOp_calm
  | bound => exact calm boundOp_calm
  | bsf | bsr => exact calm scanOp_calm
  | bswap => exact calm bswapOp_calm
  | bt | btc | btr | bts => exact calm bitForm_calm
  | callNear => exact calm callNearOp_calm
  | callFar => exact modal callFarOp_inv
  | cbw | cwde => exact calm extendAcc_calm
  | cwd | cdq => exact calm signToDx_calm
  | clc | cld | cmc | stc | std => exact calm (putFlag_calm (by decide))
  | cli => exact calm cliOp_calm
  | clts => exact modal cltsOp_inv
  | cmpsb | cmpsw => exact calm (repeated_calm cmpsOp_calm)
  | cmpxchg => exact calm cmpxchgOp_calm
  | daa | das => exact calm decimalOp_calm
  | dec | inc | neg | not => exact calm unaryRM_calm
  | div | idiv => exact calm divideOp_calm
  | enter => exact calm enterOp_calm
  | hlt => exact calm hltOp_calm
  | imul => exact calm imulForm_calm
  | inp => exact calm inOp_calm
  | insb | insw => exact calm (repeated_calm insOp_calm)
  | intN => exact calm intOp_calm
  | int3 => exact calm (m := throw (.soft 3#8)) .throw
  | into => exact calm intoOp_calm
  | invd => exact calm invdOp_calm
  | invlpg => exact calm invlpgOp_calm
  | iret | iretd => exact modal iretOp_inv
  | jo | jno | jb | jc | jnae | jae | jnb | jnc | je | jz | jne | jnz | jbe | jna | ja | jnbe | js | jns | jp | jpe
    | jnp | jpo | jl | jnge | jge | jnl | jle | jng | jg | jnle => exact calm jccOp_calm
  | jcxz | jecxz => exact calm jcxzOp_calm
  | jmpNear => exact calm jmpNearOp_calm
  | jmpFar => exact modal jmpFarOp_inv
  | lahf => exact calm lahfOp_calm
  | lar => exact calm larOp_calm
  | lds | les | lfs | lgs | lss => exact calm loadFar_calm
  | lea => exact calm leaOp_calm
  | leave => exact calm leaveOp_calm
  | lgdt => exact calm lgdtOp_calm
  | lidt => exact calm lidtOp_calm
  | lldt => exact calm lldtOp_calm
  | lmsw => exact modal lmswOp_inv
  | lodsb | lodsw => exact calm (repeated_calm lodsOp_calm)
  | loop | loope | loopne => exact calm loopOp_calm
  | lsl => exact calm lslOp_calm
  | ltr => exact calm ltrOp_calm
  | mov => exact calm movOp_calm
  | movFromSeg => exact calm movFromSegOp_calm
  | movToSeg => exact calm movToSegOp_calm
  | movFromCr => exact calm movFromCrOp_calm
  | movToCr => exact modal movToCrOp_inv
  | movFromDr => exact calm movFromDrOp_calm
  | movToDr => exact calm movToDrOp_calm
  | movFromTr => exact calm movFromTrOp_calm
  | movToTr => exact calm movToTrOp_calm
  | movsb | movsw => exact calm (repeated_calm movsOp_calm)
  | movsx | movzx => exact calm extendOp_calm
  | mul => exact calm multiplyOp_calm
  | nop => exact calm (m := pure ()) .pure
  | outp => exact calm outOp_calm
  | outsb | outsw => exact calm (repeated_calm outsOp_calm)
  | pop => exact calm popOp_calm
  | popSeg => exact calm popSegOp_calm
  | popa | popad => exact calm popAll_calm
  | popf | popfd => exact calm popFlags_calm
  | push => exact calm pushOp_calm
  | pushSeg => exact calm pushSegOp_calm
  | pusha | pushad => exact calm pushAllRegs_calm
  | pushf | pushfd => exact calm pushFlags_calm
  | rcl | rcr | rol | ror | sal | sar | shl | shr => exact calm shiftForm_calm
  | retNear => exact calm retNearOp_calm
  | retFar => exact modal retFarOp_inv
  | sahf => exact calm sahfOp_calm
  | scasb | scasw => exact calm (repeated_calm scasOp_calm)
  | seto | setno | setb | setae | sete | setne | setbe | seta | sets | setns | setp | setnp | setl | setge | setle
    | setg => exact calm setccOp_calm
  | sgdt | sidt => exact calm storeTable_calm
  | shld | shrd => exact calm doubleShift_calm
  | sldt => exact calm sldtOp_calm
  | smsw => exact calm smswOp_calm
  | sti => exact calm stiOp_calm
  | stosb | stosw => exact calm (repeated_calm stosOp_calm)
  | str => exact calm strOp_calm
  | test => exact calm testOp_calm
  | verr | verw => exact calm verifyOp_calm
  | wait | fwait => exact calm waitOp_calm
  | wbinvd => exact calm wbinvdOp_calm
  | xadd => exact calm xaddOp_calm
  | xchg => exact calm xchgOp_calm
  | xlat => exact calm xlatOp_calm
  | f2xm1 => exact calm (fpuReg_calm f2xm1Op_calm)
  | fabs | fchs => exact calm (fpuReg_calm signOp_calm)
  | fadd | fdiv | fdivr | fmul | fsub | fsubr => exact calm farithOp_calm
  | faddp | fdivp | fdivrp | fmulp | fsubp | fsubrp => exact calm farithPopOp_calm
  | fbld => exact calm fbldOp_calm
  | fbstp => exact calm fbstpOp_calm
  | fclex => exact waiting fnclexOp_calm
  | fcom | fcomp => exact calm fcomOp_calm
  | fcompp | fucom | fucomp | fucompp => exact calm fcomRegOp_calm
  | fcos | fsin => exact calm (fpuReg_calm trigOp_calm)
  | fdecstp => exact calm (fpuReg_calm fdecstpOp_calm)
  | ffree | fxam => exact calm (fpuReg_calm onFpu_calm)
  | fiadd | fimul | fisub | fisubr | fidiv | fidivr => exact calm fiarithOp_calm
  | ficom | ficomp => exact calm ficomOp_calm
  | fild => exact calm fildOp_calm
  | fincstp => exact calm (fpuReg_calm fincstpOp_calm)
  | finit => exact waiting fninitOp_calm
  | fist | fistp => exact calm fistOp_calm
  | fld => exact calm fldOp_calm
  | fld1 => exact calm (fpuReg_calm fld1Op_calm)
  | fldcw => exact calm fldcwOp_calm
  | fldenv => exact calm fldenvOp_calm
  | fldl2e | fldl2t | fldlg2 | fldln2 | fldpi => exact calm (fpuReg_calm constOp_calm)
  | fldz => exact calm (fpuReg_calm fldzOp_calm)
  | fnclex => exact calm fnclexOp_calm
  | fninit => exact calm fninitOp_calm
  | fnop => exact calm fnopOp_calm
  | fnsave => exact calm fnsaveOp_calm
  | fnstcw => exact calm fnstcwOp_calm
  | fnstenv => exact calm fnstenvOp_calm
  | fnstsw => exact calm fnstswOp_calm
  | fpatan => exact calm (fpuReg_calm fpatanOp_calm)
  | fprem | fprem1 => exact calm (fpuReg_calm premOp_calm)
  | fptan => exact calm (fpuReg_calm (trigPairOp_calm fun _ => fptanGo_calm))
  | frndint => exact calm (fpuReg_calm frndintOp_calm)
  | frstor => exact calm frstorOp_calm
  | fsave => exact waiting fnsaveOp_calm
  | fscale => exact calm (fpuReg_calm fscaleOp_calm)
  | fsincos => exact calm (fpuReg_calm (trigPairOp_calm fun _ => fsincosGo_calm))
  | fsqrt => exact calm (fpuReg_calm fsqrtOp_calm)
  | fst => exact calm fstOp_calm
  | fstcw => exact waiting fnstcwOp_calm
  | fstenv => exact waiting fnstenvOp_calm
  | fstp => exact calm fstpOp_calm
  | fstsw => exact waiting fnstswOp_calm
  | ftst => exact calm ftstOp_calm
  | fxch => exact calm (fpuReg_calm fxchOp_calm)
  | fxtract => exact calm (fpuReg_calm fxtractOp_calm)
  | fyl2x => exact calm (fpuReg_calm fyl2xOp_calm)
  | fyl2xp1 => exact calm (fpuReg_calm fyl2xp1Op_calm)
  | fpuNop => exact calm (noWait_calm .pure)

theorem execAll_settled : ∀ {ps : List Instr} {i : Instr} {s : State}, (∀ p ∈ ps, p.isPrefix = true) →
    i.isPrefix = false → s.Inv → Settled (execAll ps i s)
  | [], _, _, _, hi, h => exec_settled hi h
  | p :: ps, i, s, hps, hi, h => by
    unfold execAll
    split
    · next t ht =>
      exact execAll_settled (fun q hq => hps q (List.mem_cons_of_mem p hq)) hi
        (exec_prefix_inv (hps p List.mem_cons_self) h ht)
    · exact .fault
    · exact fun _ e => nomatch e

theorem runNext_settled {s : State} (h : s.Inv) : Settled s.runNext := by
  have k := fetchInstr_calm s
  unfold State.runNext
  split
  · next e t hf => exact failure_settled h (((ends_of_error hf).mp k).inv h) e
  · next ps i n t hf =>
    have ht := ((ends_of_ok hf).mp k).inv h
    obtain ⟨hps, hi⟩ := fetchInstr_shape hf
    split
    · exact failure_settled h ht _
    · exact execAll_settled hps hi (Steady.inv (s := t) (.same rfl) ht)

theorem stepRunning_settled {s : State} (h : s.Inv) : Settled s.stepRunning := by
  unfold State.stepRunning
  split
  · next r hr => exact trapNow_settled h hr
  · split
    · exact takeBreak_settled h _
    · split
      · next r hr => exact external_settled h hr
      · exact runNext_settled h

theorem step_settled {s : State} (h : s.Inv) : Settled (step s) := by
  have rest := restAt_resting h s.eip
  unfold step
  dsimp only
  cases s.run with
  | running => exact stepRunning_settled rest.1
  | halted | frozen => exact stepWaiting_settled rest
  | shutdown => exact stepShutdown_settled rest
  | redeliver e =>
    exact deliverAt_settled ((Steady.same rfl : Steady (s.restAt s.eip) { s.restAt s.eip with run := .running }).inv rest.1) e

/-- Settles O52: every computation of the model is calm, or changes mode and level together, and every way an instruction or a
delivery ends leaves the latch at rest. -/
theorem stepKeepsInvariant : Obligations.StepKeepsInvariant := by
  unfold Obligations.StepKeepsInvariant
  exact fun s t h ht => step_settled h t ht

end Sys2Proof.Machine
end

section
/-! SUPPORT. Tests in their order: how a `Ladder` is built from checks. -/
namespace Sys2Proof.Machine
open Sys2Proof

variable {α β : Type} {c : Bool} {e : Exc} {p q : Prop} {l : List (Prop × Exc)}

theorem check_then {f : Unit → M α} {s : State} (h : c = true) : (check c e >>= f) s = f () s := by rw [h]; rfl

theorem check_fails_then {f : Unit → M α} {s : State} (h : c = false) : (check c e >>= f) s = .error e s := by rw [h]; rfl

/-- A ladder is about the outcome alone. -/
theorem Ladder.of_eq {m n : M α} {s s' t : State} {a : α} (h : m s = n s') : ∀ {l}, Ladder n s' a t l → Ladder m s a t l
  | [], k => h.trans k
  | _ :: _, ⟨fails, rest⟩ => ⟨fun np => h.trans (fails np), fun hp => of_eq h (rest hp)⟩

/-- One test. -/
theorem Ladder.check {s : State} (h : c = true ↔ p) : Ladder (Machine.check c e) s () s [(p, e)] := by
  rw [← h]
  cases c with
  | true => exact ⟨fun n => absurd rfl n, fun _ => rfl⟩
  | false => exact ⟨fun _ => rfl, fun n => nomatch n⟩

/-- What completes, then tests. -/
theorem Ladder.after {m : M β} {f : β → M α} {s t u : State} {a : α} {b : β} (h : m s = .ok b u) (k : Ladder (f b) u a t l) :
    Ladder (m >>= f) s a t l := .of_eq (bind_of_ok h) k

theorem Ladder.get {f : State → M α} {s t : State} {a : α} (k : Ladder (f s) s a t l) : Ladder (MonadState.get >>= f) s a t l :=
  .of_eq (get_then f s) k

/-- A test that passes, then tests. -/
theorem Ladder.pass {f : Unit → M α} {s t : State} {a : α} (h : c = true) (k : Ladder (f ()) s a t l) :
    Ladder (Machine.check c e >>= f) s a t l := .of_eq (check_then h) k

/-- Tests, then more tests. -/
theorem Ladder.bind {m : M β} {f : β → M α} {s t : State} {a : α} {b : β} {l' : List (Prop × Exc)} :
    ∀ {l}, Ladder m s b t l → Ladder (f b) t a t l' → Ladder (m >>= f) s a t (l ++ l')
  | [], h, k => .after h k
  | _ :: _, ⟨fails, rest⟩, k => ⟨fun np => bind_of_error (fails np), fun hp => bind (rest hp) k⟩

/-- A test before others. -/
theorem Ladder.checkThen {f : Unit → M α} {s : State} {a : α} (h : c = true ↔ p) (k : Ladder (f ()) s a s l) :
    Ladder (Machine.check c e >>= f) s a s ((p, e) :: l) := .bind (.check h) k

/-- The same test in other words. -/
theorem Ladder.congr {m : M α} {s t : State} {a : α} (h : p ↔ q) (k : Ladder m s a t ((p, e) :: l)) :
    Ladder m s a t ((q, e) :: l) := by rwa [← propext h]

/-- Two tests in a row that raise the same exception are one. -/
theorem Ladder.both {m : M α} {s t : State} {a : α} (h : Ladder m s a t ((p, e) :: (q, e) :: l)) :
    Ladder m s a t ((p ∧ q, e) :: l) := by
  obtain ⟨hp, hq⟩ := h
  refine ⟨fun n => ?_, fun ⟨cp, cq⟩ => (hq cp).2 cq⟩
  by_cases cp : p
  · exact (hq cp).1 fun cq => n ⟨cp, cq⟩
  · exact hp cp

/-- The tests of a selector before its descriptor is read. -/
theorem named_checks {x : Word16} {s : State} {null outside : Exc} {f : Unit → M α} :
    Named (Machine.check (!selNull x) null >>= fun _ => Machine.check (selInTable s x) outside >>= f) x s null outside := by
  refine ⟨fun h => check_fails_then (by simp [h]), fun h k => ?_⟩
  rw [check_then (by simp [h]), check_fails_then k]

/-- What follows the tests of a selector that pass. -/
theorem Ladder.named {x : Word16} {s t : State} {a : α} {null outside : Exc} {f : Unit → M α} (hn : selNull x = false)
    (ht : selInTable s x = true) (k : Ladder (f ()) s a t l) :
    Ladder (Machine.check (!selNull x) null >>= fun _ => Machine.check (selInTable s x) outside >>= f) s a t l :=
  .pass (by simp [hn]) (.pass ht k)

end Sys2Proof.Machine
end

section
/-! SUPPORT. The kinds of descriptors, and the checks of far transfers. -/
namespace Sys2Proof.Machine
open Sys2Proof

variable {d g c : Desc} {x : Word16} {s t : State} {level : BitVec 2}

theorem Desc.isCode_iff : d.isCode = true ↔ d.hi.getLsbD 12 = true ∧ d.hi.getLsbD 11 = true := by
  unfold Desc.isCode Desc.s
  rw [Bool.and_eq_true]

theorem Desc.conforming_iff : d.conforming = true ↔ d.isCode = true ∧ d.hi.getLsbD 10 = true := by
  unfold Desc.conforming
  rw [Bool.and_eq_true]

/-- A code or data descriptor is a target by itself, or none. -/
theorem farTarget_of_segment (h : d.s = true) : farTarget d = if d.isCode then .code else .bad := by
  unfold farTarget
  rw [h]
  split <;> rfl

/-- What a system descriptor of a type is to a far transfer. -/
def systemTarget (v : BitVec 4) : FarTarget :=
  if v = 4#4 ∨ v = 0xC#4 then .callGate
  else if v = 5#4 then .taskGate
  else if v = 1#4 ∨ v = 9#4 ∨ v = 3#4 ∨ v = 0xB#4 then .tss
  else .bad

theorem farTarget_of_system (h : d.s = false) : farTarget d = systemTarget d.typ := by
  have code : d.isCode = false := by simp [Desc.isCode, h]
  unfold farTarget systemTarget Desc.isFreeTss Desc.isBusyTss
  simp [code, h, or_assoc]

theorem descriptor_kinds (d : Desc) :
    let sys (l : List (BitVec 4)) : Prop := d.hi.getLsbD 12 = false ∧ d.hi.extractLsb' 8 4 ∈ l
    (d.isCode = true ↔ d.hi.getLsbD 12 = true ∧ d.hi.getLsbD 11 = true) ∧
    (d.conforming = true ↔ d.isCode = true ∧ d.hi.getLsbD 10 = true) ∧
    (farTarget d = .code ↔ d.isCode = true) ∧ (farTarget d = .callGate ↔ sys [4#4, 0xC#4]) ∧
    (farTarget d = .taskGate ↔ sys [5#4]) ∧ (farTarget d = .tss ↔ sys [1#4, 3#4, 9#4, 0xB#4]) ∧
    (d.isFreeTss = true ↔ sys [1#4, 9#4]) ∧ (d.isBusyTss = true ↔ sys [3#4, 0xB#4]) := by
  refine ⟨Desc.isCode_iff, Desc.conforming_iff, ?_⟩
  have hs : d.hi.getLsbD 12 = d.s := rfl
  have ht : d.hi.extractLsb' 8 4 = d.typ := rfl
  simp only [hs, ht, Desc.isFreeTss, Desc.isBusyTss]
  cases h : d.s with
  | true =>
    rw [farTarget_of_segment h]
    cases d.isCode <;> simp
  | false =>
    have code : d.isCode = false := by simp [Desc.isCode, h]
    rw [farTarget_of_system h, code]
    generalize d.typ = v
    revert v
    decide

theorem farDesc_rules : Named (farDesc x) x s (excGP 0#16) (excGP (selCode x false)) ∧
    (selNull x = false → selInTable s x = true → farDesc x s = readDesc x s) :=
  ⟨named_checks, fun hn ht => (check_then (by simp [hn])).trans (check_then (f := fun _ => readDesc x) ht)⟩

/-- A conforming code segment is entered from its level or an inner one; any other from its own level, with an RPL that is not
outside it. -/
theorem checkDirect_ladder (d : Desc) : Ladder (checkDirect x d) s () s
    [((d.conforming = true → d.dpl.toNat ≤ s.cpl.toNat) ∧
        (d.conforming = false → (selRpl x).toNat ≤ s.cpl.toNat ∧ d.dpl = s.cpl), excGP (selCode x false)),
      (d.present = true, excNP (selCode x false))] := by
  refine .get ?_
  cases d.conforming with
  | true => exact .checkThen (by simp) (.check Iff.rfl)
  | false =>
    refine .congr (p := (selRpl x).toNat ≤ s.cpl.toNat ∧ d.dpl = s.cpl) (by simp) (.both ?_)
    exact .checkThen decide_eq_true_iff (.checkThen beq_iff_eq (.check Iff.rfl))

theorem checkDpl_ladder (d : Desc) (e : Word16 → Exc) : Ladder (checkDpl x d e) s () s
    [(s.cpl.toNat ≤ d.dpl.toNat ∧ (selRpl x).toNat ≤ d.dpl.toNat, e (selCode x false))] :=
  .both (.get (.checkThen decide_eq_true_iff (.check decide_eq_true_iff)))

theorem checkGate_ladder (d : Desc) (e : Word16 → Exc) : Ladder (checkGate x d e) s () s
    [(s.cpl.toNat ≤ d.dpl.toNat ∧ (selRpl x).toNat ≤ d.dpl.toNat, e (selCode x false)),
      (d.present = true, excNP (selCode x false))] :=
  .bind (checkDpl_ladder d e) (.check Iff.rfl)

/-- A TSS descriptor stands in the GDT and is not busy. -/
theorem checkTask_ladder (d : Desc) (e : Word16 → Exc) : Ladder (checkTask x d e) s () s
    [((s.cpl.toNat ≤ d.dpl.toNat ∧ (selRpl x).toNat ≤ d.dpl.toNat) ∧ selTi x = false ∧ d.isFreeTss = true,
        e (selCode x false)),
      (d.present = true, excNP (selCode x false))] :=
  .both (.bind (checkDpl_ladder d e) (.checkThen (by simp) (.check Iff.rfl)))

theorem checkTss_rules (ext : Bool) (e : Word16 → Exc) :
    (selNull x = true ∨ selTi x = true ∨ selInTable s x = false → checkTss x ext e s = .error (e (selCode x ext)) s) ∧
    (∀ d t, selNull x = false → selTi x = false → selInTable s x = true → readDesc x s = .ok d t →
      Ladder (checkTss x ext e) s () t
        [(d.isFreeTss = true, e (selCode x ext)), (d.present = true, excNP (selCode x ext))]) := by
  refine ⟨fun h => check_fails_then ?_, fun d t hn hti ht hd => ?_⟩
  · rcases h with h | h | h <;> simp [h]
  · exact .get (.pass (by simp [hn, hti, ht]) (.after hd (.checkThen Iff.rfl (.check Iff.rfl))))

theorem gateTarget_rules (jmp : Bool) (hx : g.gateSel = x) :
    Named (gateTarget g jmp) x s (excGP 0#16) (excGP (selCode x false)) ∧
    ∀ c t, selNull x = false → selInTable s x = true → readDesc x s = .ok c t →
      Ladder (gateTarget g jmp) s c t [(c.isCode = true, excGP (selCode x false)),
        ((jmp = true ∧ c.conforming = false → c.dpl = s.cpl) ∧ c.dpl.toNat ≤ s.cpl.toNat, excGP (selCode x false)),
        (c.present = true, excNP (selCode x false))] := by
  subst hx
  refine ⟨named_checks, fun c t hn ht hd => ?_⟩
  refine .get (.named hn ht (.after hd (.checkThen Iff.rfl (.checkThen ?_ (.checkThen Iff.rfl rfl)))))
  have same : c.dpl = s.cpl → c.dpl.toNat ≤ s.cpl.toNat := fun h => by rw [h]
  cases jmp <;> cases c.conforming <;> simp [and_iff_left_of_imp same]

theorem checkReturnCs_rules (level : BitVec 2) :
    Named (checkReturnCs x level) x s (excGP 0#16) (excGP (selCode x false)) ∧
    ∀ c t, selNull x = false → selInTable s x = true → readDesc x s = .ok c t →
      Ladder (checkReturnCs x level) s c t [(c.isCode = true, excGP (selCode x false)),
        ((c.conforming = true → c.dpl.toNat ≤ level.toNat) ∧ (c.conforming = false → c.dpl = level),
          excGP (selCode x false)),
        (c.present = true, excNP (selCode x false))] := by
  refine ⟨named_checks, fun c t hn ht hd => ?_⟩
  refine .get (.named hn ht (.after hd (.checkThen Iff.rfl (.checkThen ?_ (.checkThen Iff.rfl rfl)))))
  cases c.conforming <;> simp

theorem checkReturnSs_rules (level : BitVec 2) :
    Named (checkReturnSs x level) x s (excGP 0#16) (excGP (selCode x false)) ∧
    (selNull x = false → selInTable s x = true → selRpl x ≠ level →
      checkReturnSs x level s = .error (excGP (selCode x false)) s) ∧
    ∀ d t, selNull x = false → selInTable s x = true → selRpl x = level → readDesc x s = .ok d t →
      Ladder (checkReturnSs x level) s d t [(d.writable = true ∧ d.dpl = level, excGP (selCode x false)),
        (d.present = true, excNP (selCode x false))] := by
  refine ⟨named_checks, fun hn ht hr => ?_, fun d t hn ht hr hd => ?_⟩
  · exact (check_then (by simp [hn])).trans ((check_then ht).trans (check_fails_then (by simpa using hr)))
  · exact .get (.named hn ht (.pass (beq_iff_eq.mpr hr) (.after hd
      (.both (.checkThen Iff.rfl (.checkThen beq_iff_eq (.checkThen Iff.rfl rfl)))))))

end Sys2Proof.Machine
end

section
/-! SUPPORT. What is read from memory with the cache off and empty, and the stack of an inner level. -/
namespace Sys2Proof.Machine
open Sys2Proof

/-- A byte read with the cache off and empty is that of memory. -/
theorem readPhys_byte_uncached {s : State} (c : s.Uncached) (a : Word32) (q l : Bool) :
    s.readPhys a q l = (Memory.read s.mem a.toNat, s) := by
  refine Prod.ext ?_ (readPhys_uncached c.off c.empty a q l)
  unfold State.readPhys
  simp [c.stores, pendingByte, hit_of_empty c.empty, State.mayFill, c.off]

theorem readBytes_uncached {s : State} (c : s.Uncached) : ∀ {n : Nat} {lin : Word32} {l : List Byte} {t : State},
    readBytes false (offAddrs s lin n) s = .ok l t → ofBytes l = s.memNat lin n ∧ t = s
  | 0, _, _, _, h => by
    cases h
    exact ⟨rfl, rfl⟩
  | n + 1, lin, l, t, h => by
    simp only [offAddrs, readBytes, get_then, readPhys_byte_uncached c, set_then, bind_ok_iff, pure_run,
      EStateM.Result.ok.injEq] at h
    obtain ⟨rest, u, hrest, rfl, rfl⟩ := h
    obtain ⟨hl, rfl⟩ := readBytes_uncached c hrest
    exact ⟨by rw [ofBytes, hl]; rfl, rfl⟩

theorem memNat_refer (s : State) : ∀ (n : Nat) (lin : Word32), s.refer.memNat lin n = s.memNat lin n
  | 0, _ => rfl
  | n + 1, lin => by rw [State.memNat, State.memNat, memNat_refer s n]; rfl

/-- A system read with the cache off and empty and paging off. -/
theorem sysRead_uncached {s t : State} {lin : Word32} {n v : Nat} (c : s.Uncached) (hp : s.paging = false)
    (h : sysRead lin n s = .ok v t) : v = s.memNat lin n ∧ t = s.refer := by
  simp only [sysRead, refer, modify_then, bind_ok_iff, pure_run, EStateM.Result.ok.injEq] at h
  obtain ⟨ps, u, hps, l, w, hl, rfl, rfl⟩ := h
  obtain ⟨rfl, rfl⟩ := translateBytes_off n (s := s.refer) hp hps
  obtain ⟨hv, rfl⟩ := readBytes_uncached (s := s.refer) ⟨c.off, c.empty, c.stores⟩ hl
  exact ⟨by rw [hv, memNat_refer], rfl⟩

/-- Two system reads in a row, as of the two words of a stack in the TSS. -/
theorem sysRead_pair_uncached {s t : State} {a b : Word32} {m n v w : Nat} (c : s.Uncached) (hp : s.paging = false) {u : State}
    (hv : sysRead a m s = .ok v u) (hw : sysRead b n u = .ok w t) : v = s.memNat a m ∧ w = s.memNat b n := by
  obtain ⟨rfl, rfl⟩ := sysRead_uncached c hp hv
  obtain ⟨rfl, -⟩ := sysRead_uncached (s := s.refer) ⟨c.off, c.empty, c.stores⟩ hp hw
  exact ⟨rfl, memNat_refer s n b⟩

theorem tssStack_rules (level : BitVec 2) (ext : Bool) (s : State) :
    let at' : Nat := match s.tr.format with
      | .tss486 => 4 + 8 * level.toNat
      | .tss286 => 2 + 4 * level.toNat
    let n : Nat := match s.tr.format with
      | .tss486 => 4
      | .tss286 => 2
    (s.tr.limit.toNat < at' + n + 1 → tssStack level ext s = .error (excTS (selCode s.tr.sel ext)) s) ∧
    (∀ x p u, s.Uncached → s.paging = false → tssStack level ext s = .ok (x, p) u →
      p = BitVec.ofNat 32 (s.memNat (s.tr.base + BitVec.ofNat 32 at') n) ∧
      x = BitVec.ofNat 16 (s.memNat (s.tr.base + BitVec.ofNat 32 (at' + n)) 2)) := by
  unfold tssStack
  simp only [get_then]
  cases s.tr.format with
  | tss486 | tss286 =>
    refine ⟨fun h => check_fails_then (decide_eq_false (Nat.not_le.mpr h)), fun x p u c hp h => ?_⟩
    simp only [bind_ok_iff, check_ok_iff, pure_run, EStateM.Result.ok.injEq] at h
    obtain ⟨-, s', ⟨-, hs⟩, sp, v, hsp, ss, w, hss, e, -⟩ := h
    rw [hs] at hsp
    obtain ⟨hx, hp'⟩ := Prod.mk.inj e
    obtain ⟨rfl, rfl⟩ := sysRead_pair_uncached c hp hsp hss
    exact ⟨hp'.symm, hx.symm⟩

theorem innerStack_rules (level : BitVec 2) (ext : Bool) {s u : State} {x : Word16} {p : Word32}
    (h : tssStack level ext s = .ok (x, p) u) :
    (selNull x = true → innerStack level ext s = .error (excTS (extCode ext)) u) ∧
    (selNull x = false → selInTable u x = false ∨ selRpl x ≠ level →
      innerStack level ext s = .error (excTS (selCode x ext)) u) ∧
    (∀ d t, selNull x = false → selInTable u x = true → selRpl x = level → readDesc x u = .ok d t →
      Ladder (innerStack level ext) s (x, p, d) t
        [(d.dpl = level ∧ d.writable = true, excTS (selCode x ext)), (d.present = true, excSS (selCode x ext))]) := by
  refine ⟨fun hn => ?_, fun hn k => ?_, fun d t hn ht hr hd => ?_⟩
  · exact (bind_of_ok h).trans (check_fails_then (by simp [hn]))
  · refine (bind_of_ok h).trans ((check_then (by simp [hn])).trans ?_)
    by_cases ht : selInTable u x = true
    · exact (check_then ht).trans (check_fails_then (beq_eq_false_iff_ne.mpr (k.resolve_left (by simp [ht]))))
    · exact check_fails_then (by simpa using ht)
  · exact .after h (.get (.named hn ht (.pass (beq_iff_eq.mpr hr) (.after hd
      (.both (.checkThen beq_iff_eq (.checkThen Iff.rfl (.checkThen Iff.rfl rfl))))))))

end Sys2Proof.Machine
end

section
/-! What a load leaves in a segment register; O18. -/
namespace Sys2Proof.Machine
open Sys2Proof

theorem updateBytes_eqn (f : Byte → Byte) : ∀ {ps : List (Word32 × Bool)} {s t : State} {u : Unit},
    updateBytes f ps s = .ok u t → t = { s with mem := t.mem, cache := t.cache, insn := { s.insn with stores := t.insn.stores } }
  | [], _, _, _, h => by
    cases h
    rfl
  | p :: ps, s, t, u, h => by
    have rest := updateBytes_eqn f (ps := ps) (s := s.updatePhys p.1 f) h
    rw [updatePhys_eqn] at rest
    exact rest

/-- Marking a descriptor accessed changes memory and what serves the access, no register. -/
theorem markAccessed_eqn {x : Word16} {d : Desc} {s t : State} (h : markAccessed x d s = .ok () t) :
    t = { s with mem := t.mem, cache := t.cache, tlb := t.tlb, bufferSpoiled := t.bufferSpoiled
                 insn := { s.insn with hits := t.insn.hits, stores := t.insn.stores } } := by
  unfold markAccessed at h
  rw [get_then] at h
  split at h
  · cases h
    rfl
  · simp only [sysUpdate, bind_ok_iff] at h
    obtain ⟨_, u, h1, ps, v, h2, h3⟩ := h
    have q := ((refer_reads _ _ _ h1).trans (translateBytes_reads _ _ _ _ _ _ _ h2)).eqn
    have e := updateBytes_eqn _ h3
    rw [q] at e
    rw [e]

/-- The loads of SS and of the data segment registers end alike: a descriptor is read, marked accessed and loaded. -/
theorem descriptor_loaded {r : SReg} {v : Word16} {d : Desc} {s u w t : State} (h1 : readDesc v s = .ok d u)
    (h2 : markAccessed v d u = .ok () w) (h3 : setSeg r (d.toSeg v) w = .ok () t) :
    t.seg = s.seg.put r (d.toSeg v) ∧ t.gpr = s.gpr ∧ t.eip = s.eip ∧ t.eflags = s.eflags ∧ t.cpl = s.cpl := by
  have q := (readDesc_reads v _ _ _ h1).eqn
  have e := markAccessed_eqn h2
  cases h3
  rw [e, q]
  exact ⟨rfl, rfl, rfl, rfl, rfl⟩

/-- What a load of SS has checked. -/
theorem loadStackSeg_ok {v : Word16} {s t : State} (h : loadStackSeg v s = .ok () t) :
    selNull v = false ∧ selInTable s v = true ∧ selRpl v = s.cpl ∧ ∃ d u w, readDesc v s = .ok d u ∧ d.writable = true ∧
      d.dpl = s.cpl ∧ d.present = true ∧ markAccessed v d u = .ok () w ∧ setSeg .ss (d.toSeg v) w = .ok () t := by
  simp only [loadStackSeg, get_then, bind_ok_iff, check_ok_iff, Bool.not_eq_true', beq_iff_eq] at h
  obtain ⟨_, _, ⟨hn, rfl⟩, _, _, ⟨ht, rfl⟩, _, _, ⟨hr, rfl⟩, d, u, hd, _, _, ⟨hw, rfl⟩, _, _, ⟨hl, rfl⟩, _, _, ⟨hp, rfl⟩,
    _, w, hm, hs⟩ := h
  exact ⟨hn, ht, hr, d, _, w, hd, hw, hl, hp, hm, hs⟩

/-- What a load of another register from a descriptor has checked. -/
theorem loadDataSeg_ok {r : SReg} {v : Word16} {s t : State} (hn : selNull v = false) (h : loadDataSeg r v s = .ok () t) :
    selInTable s v = true ∧ ∃ d u w, readDesc v s = .ok d u ∧ d.readable = true ∧
      (d.conforming = true ∨ (s.cpl.toNat ≤ d.dpl.toNat ∧ (selRpl v).toNat ≤ d.dpl.toNat)) ∧ d.present = true ∧
      markAccessed v d u = .ok () w ∧ setSeg r (d.toSeg v) w = .ok () t := by
  simp only [loadDataSeg, get_then, hn, Bool.false_eq_true, if_false, bind_ok_iff, check_ok_iff, Bool.or_eq_true,
    Bool.and_eq_true, decide_eq_true_eq] at h
  obtain ⟨_, _, ⟨ht, rfl⟩, d, u, hd, _, _, ⟨hr, rfl⟩, _, _, ⟨hl, rfl⟩, _, _, ⟨hp, rfl⟩, _, w, hm, hs⟩ := h
  exact ⟨ht, d, _, w, hd, hr, hl.imp_right And.symm, hp, hm, hs⟩

theorem loadSeg_rules (r : SReg) (v : Word16) (s t : State) (h : loadSeg r v s = .ok () t) :
    (s.real = true → t = { s with seg := s.seg.put r { s.seg.get r with
      sel := v, base := v.setWidth 32 <<< 4, usable := true } }) ∧
    (s.v86 = true → t = { s with seg := s.seg.put r (SegReg.v86 v) }) ∧
    (s.prot = true → selNull v = true → r ≠ .ss ∧ t = { s with seg := s.seg.put r ((s.seg.get r).null v) }) ∧
    (s.prot = true → selNull v = false → ∃ d u, readDesc v s = .ok d u ∧ selInTable s v = true ∧ d.present = true ∧
      t.seg = s.seg.put r (d.toSeg v) ∧ t.gpr = s.gpr ∧ t.eip = s.eip ∧ t.eflags = s.eflags ∧ t.cpl = s.cpl ∧
      (r = .ss → d.writable = true ∧ d.dpl = s.cpl ∧ selRpl v = s.cpl) ∧
      (r ≠ .ss → d.readable = true ∧
        (d.conforming = true ∨ (s.cpl.toNat ≤ d.dpl.toNat ∧ (selRpl v).toNat ≤ d.dpl.toNat)))) := by
  unfold loadSeg at h
  rw [get_then] at h
  refine ⟨fun hr => ?_, fun hv => ?_, fun hp hn => ?_, fun hp hn => ?_⟩
  · have pe : s.pe = false := by simpa [State.real] using hr
    rw [if_neg (by simp [State.prot, pe]), if_neg (by simp [State.v86, pe])] at h
    cases h
    rfl
  · have vm := (v86_iff.mp hv).2
    rw [if_neg (by simp [State.prot, vm]), if_pos hv] at h
    cases h
    rfl
  · rw [if_pos hp] at h
    by_cases hs : r = .ss
    · rw [if_pos hs] at h
      exact absurd hn (by simp [(loadStackSeg_ok h).1])
    · rw [if_neg hs] at h
      simp only [loadDataSeg, get_then, hn, if_true] at h
      cases h
      exact ⟨hs, rfl⟩
  · rw [if_pos hp] at h
    by_cases hs : r = .ss
    · rw [if_pos hs] at h
      obtain ⟨-, ht, hr, d, u, w, hd, hw, hl, hpres, hm, hset⟩ := loadStackSeg_ok h
      subst hs
      obtain ⟨hseg, hgpr, heip, hfl, hcpl⟩ := descriptor_loaded hd hm hset
      exact ⟨d, u, hd, ht, hpres, hseg, hgpr, heip, hfl, hcpl, fun _ => ⟨hw, hl, hr⟩, fun n => absurd rfl n⟩
    · rw [if_neg hs] at h
      obtain ⟨ht, d, u, w, hd, hr, hl, hpres, hm, hset⟩ := loadDataSeg_ok hn h
      obtain ⟨hseg, hgpr, heip, hfl, hcpl⟩ := descriptor_loaded hd hm hset
      exact ⟨d, u, hd, ht, hpres, hseg, hgpr, heip, hfl, hcpl, fun e => absurd e hs, fun _ => ⟨hr, hl⟩⟩

/-- Settles O18, part by part: the kinds of descriptors, the ladders of the far transfers, the inner stack, the loads. -/
theorem segmentRegisterRules : Obligations.SegmentRegisterRules := by
  unfold Obligations.SegmentRegisterRules
  refine ⟨descriptor_kinds, fun x s => ⟨farDesc_rules, checkDirect_ladder, fun d e => ?_, checkTss_rules, fun g jmp hx =>
    gateTarget_rules jmp hx, checkReturnCs_rules, checkReturnSs_rules⟩, fun level ext s => ⟨fun x p u h =>
    innerStack_rules level ext h, tssStack_rules level ext s⟩, loadSeg_rules⟩
  exact ⟨checkDpl_ladder d e, checkGate_ladder d e, checkTask_ladder d e⟩

end Sys2Proof.Machine
end

section
/-! Instructions refused by mode or level (spec/21_segmentation_paging_protection.md R220 to R222). -/
namespace Sys2Proof.Machine
open Sys2Proof

variable {α : Type}

/-- An instruction whose meaning begins with a check that fails is refused, in the state it began in. -/
theorem run_refused {x : M α} {f : α → M Unit} {s : State} {e : Exc} (h : x s = .error e s) :
    Machine.run (x >>= f) s = failure s e s := run_of_error (bind_of_error h)

/-! Each check, where it fails. -/

theorem needProt_refuses {s : State} (h : s.prot = false) : needProt s = .error excUD s := by
  unfold needProt
  rw [get_then, h, check_false]

theorem needCpl0_refuses {s : State} (h : s.privileged = false) : needCpl0 s = .error (excGP 0#16) s := by
  unfold needCpl0
  rw [get_then, show (s.real || (s.prot && s.cpl == 0#2)) = false from h, check_false]

theorem needIopl_refuses {s : State} (hr : s.real = false) (h : s.iopl.toNat < s.cpl.toNat) :
    needIopl s = .error (excGP 0#16) s := by
  unfold needIopl
  rw [get_then, hr, decide_eq_false (by omega)]
  rfl

theorem needV86Iopl_refuses {s : State} (hv : s.v86 = true) (h : s.iopl ≠ 3#2) :
    needV86Iopl s = .error (excGP 0#16) s := by
  unfold needV86Iopl
  rw [get_then, hv, beq_eq_false_iff_ne.mpr h]
  rfl

/-! The modes exclude one another. -/

theorem prot_eq_false {s : State} (h : s.real = true ∨ s.v86 = true) : s.prot = false := by
  rcases h with hr | hv
  · have pe : s.pe = false := by simpa [State.real] using hr
    simp [State.prot, pe]
  · simp [State.prot, (v86_iff.mp hv).2]

theorem privileged_eq_false {s : State} (h : (s.prot = true ∧ s.cpl ≠ 0#2) ∨ s.v86 = true) : s.privileged = false := by
  unfold State.privileged
  rcases h with ⟨hp, hc⟩ | hv
  · have hr : s.real = false := by simp [State.real, (prot_iff.mp hp).1]
    rw [hr, beq_eq_false_iff_ne.mpr hc, Bool.and_false, Bool.or_false]
  · have hr : s.real = false := by simp [State.real, (v86_iff.mp hv).1]
    rw [hr, prot_eq_false (.inr hv), Bool.false_and, Bool.or_false]

/-! What is refused. -/

/-- The instructions of Protected Mode outside it (21 R222). -/
theorem protected_refused {s : State} (h : s.prot = false) (os : Size) (x : RM) (r : Reg) :
    ∀ i ∈ [Instr.ltr x, .str os x, .lldt x, .sldt os x, .lar os r x, .lsl os r x, .verr x, .verw x, .arpl x r],
      exec i s = failure s excUD s := by
  have n := needProt_refuses h
  simp only [List.forall_mem_cons]
  exact ⟨run_refused n, run_refused n, run_refused n, run_refused n, run_refused n, run_refused n, run_refused n,
    run_refused n, run_refused n, by simp⟩

/-- LGDT and LIDT make their check within `loadTable`. -/
theorem loadTable_refuses {s : State} (h : s.privileged = false) (os : Size) (m : Mem) :
    loadTable os m s = .error (excGP 0#16) s := bind_of_error (needCpl0_refuses h)

/-- The privileged instructions (21 R220). -/
theorem privileged_refused {s : State} (h : s.privileged = false) (os : Size) (x : RM) (r : Reg) (m : Mem) (c : CReg)
    (d : DReg) (tr : TReg) :
    ∀ i ∈ [Instr.clts, .hlt, .invd, .invlpg m, .lgdt os m, .lidt os m, .lmsw x, .movFromCr r c, .movToCr c r,
        .movFromDr r d, .movToDr d r, .movFromTr r tr, .movToTr tr r, .wbinvd],
      exec i s = failure s (excGP 0#16) s := by
  have n := needCpl0_refuses h
  have l := loadTable_refuses h os m
  simp only [List.forall_mem_cons]
  exact ⟨run_refused n, run_refused n, run_refused n, run_refused n, run_refused l, run_refused l, run_refused n,
    run_refused n, run_refused n, run_refused n, run_refused n, run_refused n, run_refused n, run_refused n, by simp⟩

/-- LLDT and LTR in Protected Mode: the level is checked after the mode. -/
theorem tableLoads_refused {s : State} (hp : s.prot = true) (h : s.privileged = false) (x : RM) :
    ∀ i ∈ [Instr.lldt x, .ltr x], exec i s = failure s (excGP 0#16) s := by
  have n := needCpl0_refuses h
  have mode : needProt s = .ok () s := by
    unfold needProt
    rw [get_then, hp, check_true]
  simp only [List.forall_mem_cons]
  exact ⟨run_of_error ((bind_of_ok mode).trans (bind_of_error n)),
    run_of_error ((bind_of_ok mode).trans (bind_of_error n)), by simp⟩

/-- IRET looks at the state before its check. -/
theorem iretOp_refuses {s : State} {e : Exc} (h : needV86Iopl s = .error e s) (os : Size) : iretOp os s = .error e s := by
  unfold iretOp
  rw [get_then]
  exact bind_of_error h

/-- PUSHF, POPF, INT n and IRET in V86 Mode with IOPL below 3 (21 R221). -/
theorem iopl_refused {s : State} (hv : s.v86 = true) (h : s.iopl ≠ 3#2) (n : Byte) :
    ∀ i ∈ [Instr.pushf, .pushfd, .popf, .popfd, .intN n, .iret, .iretd], exec i s = failure s (excGP 0#16) s := by
  have k := needV86Iopl_refuses hv h
  simp only [List.forall_mem_cons]
  exact ⟨run_refused k, run_refused k, run_refused k, run_refused k, run_refused k, run_of_error (iretOp_refuses k .s16),
    run_of_error (iretOp_refuses k .s32), by simp⟩

/-- Settles O55: the meaning of each of these instructions begins with the check that refuses it. -/
theorem modeFaults : Obligations.ModeFaults := by
  intro s _
  refine ⟨fun h os x r => protected_refused (prot_eq_false h) os x r,
    fun os x r m c d tr i hi h => privileged_refused (privileged_eq_false h) os x r m c d tr i hi,
    fun hp hc x => tableLoads_refused hp (privileged_eq_false (.inl ⟨hp, hc⟩)) x, fun hr h => ?_,
    fun hv h n => iopl_refused hv h n⟩
  have n := needIopl_refuses hr h
  simp only [List.forall_mem_cons]
  exact ⟨run_refused n, run_refused n, by simp⟩

end Sys2Proof.Machine
end

section
/-!
SUPPORT. Bytes of numbers (spec/20_memory.md R123): the bytes of `toBytes` and the digits of `ofBytes`; stores and reads of
consecutive bytes while paging is off.
-/
namespace Sys2Proof.Machine
open Sys2Proof

theorem toBytes_getElem : ∀ {n v i : Nat} (h : i < (toBytes n v).length), (toBytes n v)[i] = BitVec.ofNat 8 (v / 256 ^ i)
  | _ + 1, v, 0, _ => by simp [toBytes]
  | n + 1, v, i + 1, h => by
    simp only [toBytes, List.getElem_cons_succ]
    rw [toBytes_getElem, Nat.div_div_eq_div_mul, Nat.pow_succ']

theorem ofBytes_lt : ∀ l : List Byte, ofBytes l < 256 ^ l.length
  | [] => by simp [ofBytes]
  | b :: l => by
    have ih := ofBytes_lt l
    have hb := b.isLt
    simp only [ofBytes, List.length_cons, Nat.pow_succ]
    omega

theorem ofBytes_digit : ∀ {l : List Byte} {i : Nat} (h : i < l.length), ofBytes l / 256 ^ i % 256 = l[i].toNat
  | b :: l, 0, _ => by
    have hb := b.isLt
    simp only [ofBytes, Nat.pow_zero, Nat.div_one, List.getElem_cons_zero]
    omega
  | b :: l, i + 1, h => by
    have hb := b.isLt
    have shift : ofBytes (b :: l) / 256 = ofBytes l := by simp only [ofBytes]; omega
    rw [Nat.pow_succ', ← Nat.div_div_eq_div_mul, shift, ofBytes_digit (by simpa using h), List.getElem_cons_succ]

/-- The physical addresses of an access, by the offset of each byte. -/
theorem offAddrs_eq (s : State) (n : Nat) : ∀ lin : Word32,
    offAddrs s lin n = (List.range n).map fun i => (s.phys (lin + BitVec.ofNat 32 i), true) := by
  induction n with
  | zero => exact fun _ => rfl
  | succ n ih =>
    intro lin
    rw [List.range_succ_eq_map, offAddrs, ih]
    simp only [List.map_cons, List.map_map, BitVec.add_zero]
    refine congrArg₂ _ rfl (List.map_congr_left fun i _ => ?_)
    simp only [Function.comp_apply, Nat.succ_eq_add_one, BitVec.ofNat_add, BitVec.add_assoc, BitVec.add_comm 1#32]

/-- The low 20 bits of an address are its own, whatever A20M# says. -/
theorem phys_mod (s : State) (a : Word32) : (s.phys a).toNat % 2 ^ 20 = a.toNat % 2 ^ 20 := by
  unfold State.phys
  split
  · rw [BitVec.toNat_and, Nat.and_mod_two_pow, show (0xFFEFFFFF#32).toNat % 2 ^ 20 = 2 ^ 20 - 1 by decide,
      Nat.and_two_pow_sub_one_eq_mod, Nat.mod_mod]
  · rfl

/-- Two bytes less than 2^20 apart lie at different physical addresses. -/
theorem phys_add_ne (s : State) (a : Word32) {k : Nat} (h0 : 0 < k) (h : k < 2 ^ 20) :
    (s.phys (a + BitVec.ofNat 32 k)).toNat ≠ (s.phys a).toNat := by
  intro e
  have e1 := phys_mod s (a + BitVec.ofNat 32 k)
  have e2 := phys_mod s a
  rw [e, e2, BitVec.toNat_add, BitVec.toNat_ofNat] at e1
  omega

/-- A byte no stored byte lies at is left alone. -/
theorem memBytes_frame (s : State) (a : Nat) : ∀ (l : List Byte) (lin : Word32) (m : List Host.Cell), Memory.wf m = true →
    (∀ i < l.length, (s.phys (lin + BitVec.ofNat 32 i)).toNat ≠ a) → Memory.read (s.memBytes lin l m) a = Memory.read m a
  | [], _, _, _, _ => rfl
  | b :: l, lin, m, w, h => by
    have h0 := h 0 (by simp)
    simp only [BitVec.add_zero] at h0
    rw [State.memBytes, memBytes_frame s a l _ _ (Memory.wf_write w b (s.phys lin).isLt) fun i hi => ?_,
      Memory.read_write w, if_neg (Ne.symm h0)]
    have hs := h (i + 1) (by simpa using hi)
    rwa [BitVec.ofNat_add, BitVec.add_comm (BitVec.ofNat 32 i), ← BitVec.add_assoc] at hs

/-- Each stored byte lies at its own address. -/
theorem memBytes_read (s : State) : ∀ (l : List Byte) (lin : Word32) (m : List Host.Cell), Memory.wf m = true →
    l.length < 1024 → ∀ {i : Nat} (h : i < l.length),
      Memory.read (s.memBytes lin l m) (s.phys (lin + BitVec.ofNat 32 i)).toNat = l[i]
  | b :: l, lin, m, w, hl, 0, _ => by
    have w' := Memory.wf_write w b (s.phys lin).isLt
    simp only [BitVec.add_zero, List.getElem_cons_zero, List.length_cons] at hl ⊢
    rw [State.memBytes, memBytes_frame s _ l _ _ w' fun i hi => ?_, Memory.read_write w, if_pos rfl]
    rw [BitVec.add_assoc, show (1#32) + BitVec.ofNat 32 i = BitVec.ofNat 32 (1 + i) from (BitVec.ofNat_add 1 i).symm]
    exact phys_add_ne s lin (by omega) (by omega)
  | b :: l, lin, m, w, hl, i + 1, h => by
    have w' := Memory.wf_write w b (s.phys lin).isLt
    simp only [List.length_cons] at hl h
    have ih := memBytes_read s l (lin + 1#32) _ w' (by omega) (i := i) (by omega)
    rw [State.memBytes, BitVec.ofNat_add, BitVec.add_comm (BitVec.ofNat 32 i), ← BitVec.add_assoc, List.getElem_cons_succ]
    exact ih

/-- The bytes of a store lie at consecutive addresses, the least significant first (20 R123). -/
theorem memAfter_store (s : State) (lin : Word32) {n v i : Nat} {m : List Host.Cell} (w : Memory.wf m = true) (hi : i < n)
    (hn : n < 1024) :
    Memory.read (s.memAfter [(lin, n, v)] m) (s.phys (lin + BitVec.ofNat 32 i)).toNat = BitVec.ofNat 8 (v / 256 ^ i) := by
  have len := toBytes_length n v
  rw [← toBytes_getElem (by omega : i < (toBytes n v).length)]
  exact memBytes_read s _ lin m w (by rw [len]; exact hn) _

end Sys2Proof.Machine
end

section
/-! SUPPORT. Reads through the internal cache: they keep a coherent cache coherent, and give the bytes of memory. -/
namespace Sys2Proof.Machine
open Sys2Proof

/-- What a sparse array gives after an element is set, whatever the order of its list. -/
theorem sparseGet_sparseSet {α : Type} (d v : α) (i j : Nat) : ∀ l : List (Nat × α),
    sparseGet d (sparseSet l i v) j = if i = j then v else sparseGet d l j
  | [] => by
    simp only [sparseSet, sparseGet]
    split <;> simp
  | (k, w) :: t => by
    have ih := sparseGet_sparseSet d v i j t
    simp only [sparseSet]
    split
    · next before => grind [sparseGet]
    · split
      · next found => grind [sparseGet]
      · next after => grind [sparseGet]

theorem cacheSetAt_putCacheSet (s : State) (i : Nat) (c : CacheSet) (a : Word32) :
    (s.putCacheSet i c).cacheSetAt a = if i = cacheIndex a then c else s.cacheSetAt a :=
  sparseGet_sparseSet _ _ _ _ _

theorem CacheSet.get_put (c : CacheSet) (w y : Way) (x : CacheLine) : (c.put w x).get y = if y = w then x else c.get y := by
  cases w <;> cases y <;> rfl

@[simp] theorem CacheSet.get_withLru (c : CacheSet) (l : Lru) (w : Way) : ({ c with lru := l } : CacheSet).get w = c.get w := by
  cases w <;> rfl

/-- The way that answers holds a valid line of the tag. -/
theorem CacheSet.hit_some {c : CacheSet} {tag : BitVec 21} {w : Way} (h : c.hit tag = some w) :
    (c.get w).valid = true ∧ (c.get w).tag = tag := by
  unfold CacheSet.hit at h
  split_ifs at h with w0 w1 w2 w3
  · cases h; simpa [CacheSet.get] using w0
  · cases h; simpa [CacheSet.get] using w1
  · cases h; simpa [CacheSet.get] using w2
  · cases h; simpa [CacheSet.get] using w3

/-- Addresses of one line: the same set and the same tag. -/
theorem line_eq {a b : Word32} (hi : cacheIndex a = cacheIndex b) (ht : cacheTag a = cacheTag b) :
    a.toNat / 16 = b.toNat / 16 := by
  have ht := congrArg BitVec.toNat ht
  simp only [cacheIndex, cacheTag, BitVec.extractLsb'_toNat, Nat.shiftRight_eq_div_pow] at hi ht
  omega

theorem lineByte_ofBytes {l : List Byte} (h : l.length = 16) {i : Nat} (hi : i < l.length) :
    lineByte (BitVec.ofNat 128 (ofBytes l)) i = l[i] := by
  have bound : ofBytes l < 2 ^ 128 := by
    have := ofBytes_lt l
    rwa [h, show 256 ^ 16 = 2 ^ 128 by norm_num] at this
  refine BitVec.eq_of_toNat_eq ?_
  rw [lineByte, BitVec.extractLsb'_toNat, BitVec.toNat_ofNat, Nat.mod_eq_of_lt bound, Nat.shiftRight_eq_div_pow, Nat.pow_mul]
  exact ofBytes_digit hi

/-- A byte of a line filled from memory is the byte of memory, for every address of the line. -/
theorem lineByte_memLine (m : List Host.Cell) {a b : Word32} (h : a.toNat / 16 = b.toNat / 16) :
    lineByte (memLine m a) (b.extractLsb' 0 4).toNat = Memory.read m b.toNat := by
  have place : (b.extractLsb' 0 4).toNat = b.toNat % 16 := by simp
  rw [place, memLine, lineByte_ofBytes (by simp) (by simp; omega)]
  simp only [List.getElem_map, List.getElem_range, h, Nat.div_add_mod']

/-- A set is replaced by one whose valid lines hold what memory holds. -/
theorem State.Coherent.putCacheSet {s : State} (h : s.Coherent) {i : Nat} {c : CacheSet}
    (hc : ∀ a w, i = cacheIndex a → (c.get w).valid = true → (c.get w).tag = cacheTag a →
      lineByte (c.get w).data (a.extractLsb' 0 4).toNat = Memory.read s.mem a.toNat) : (s.putCacheSet i c).Coherent := by
  intro a w
  rw [cacheSetAt_putCacheSet]
  split
  · exact hc a w ‹_›
  · exact h a w

theorem cacheSetAt_congr (s : State) {a b : Word32} (h : cacheIndex a = cacheIndex b) : s.cacheSetAt a = s.cacheSetAt b := by
  unfold State.cacheSetAt
  rw [h]

/-- A read with no store held back gives the byte of memory, and keeps the cache coherent (20 R170). -/
theorem readPhys_coherent {s : State} (hs : s.insn.stores = []) (h : s.Coherent) (a : Word32) (q l : Bool) :
    (s.readPhys a q l).1 = Memory.read s.mem a.toNat ∧ (s.readPhys a q l).2.Coherent := by
  unfold State.readPhys
  rw [hs]
  dsimp only [pendingByte]
  split
  · next w hw =>
    have hit : (s.cacheSetAt a).hit (cacheTag a) = some w := by
      cases l
      · exact hw
      · cases hw
    obtain ⟨hv, ht⟩ := CacheSet.hit_some hit
    refine ⟨h a w hv ht, h.putCacheSet fun b y hb => ?_⟩
    rw [CacheSet.get_withLru, cacheSetAt_congr s hb]
    exact h b y
  · split
    · refine ⟨rfl, h.putCacheSet fun b y hb => ?_⟩
      rw [CacheSet.get_withLru, CacheSet.get_put]
      split
      · exact fun _ ht => lineByte_memLine s.mem (line_eq hb ht)
      · rw [cacheSetAt_congr s hb]
        exact h b y
    · exact ⟨rfl, h⟩

/-- Reads with no store held back give the bytes of memory. -/
theorem readBytes_coherent (l : Bool) : ∀ (ps : List (Word32 × Bool)) {s : State}, s.insn.stores = [] → s.Coherent →
    ∃ t, readBytes l ps s = .ok (ps.map fun p => Memory.read s.mem p.1.toNat) t
  | [], s, _, _ => ⟨s, rfl⟩
  | p :: ps, s, hs, h => by
    obtain ⟨value, coherent⟩ := readPhys_coherent hs h p.1 p.2 l
    have eqn := readPhys_eqn s p.1 p.2 l
    obtain ⟨t, rest⟩ := readBytes_coherent l ps (by rw [eqn]; exact hs) coherent
    refine ⟨t, ?_⟩
    simp only [readBytes, get_then, set_then]
    rw [bind_of_ok rest, pure_run, value, readPhys_mem]
    rfl

end Sys2Proof.Machine
end

section
/-!
SUPPORT. The accesses of data (spec/20_memory.md R123 to R126, spec/21_segmentation_paging_protection.md R200): what each check
lets pass, the order of the checks, and what an access that completes has done.
-/
namespace Sys2Proof.Machine
open Sys2Proof

variable {α : Type}

/-! What the checks let pass. -/

theorem segTypeOk_read_iff {s : State} {x : SegReg} : segTypeOk s x .read = true ↔
    (s.prot = true → x.usable = true ∧ (x.typ.getLsbD 3 = true → x.typ.getLsbD 1 = true)) := by
  simp only [segTypeOk, SegReg.isCode, SegReg.bit1]
  cases s.prot <;> cases x.usable <;> cases x.typ.getLsbD 3 <;> simp

theorem segTypeOk_write_iff {s : State} {x : SegReg} : segTypeOk s x .write = true ↔
    (s.prot = true → x.usable = true ∧ x.typ.getLsbD 3 = false ∧ x.typ.getLsbD 1 = true) := by
  simp only [segTypeOk, SegReg.isCode, SegReg.bit1]
  cases s.prot <;> cases x.usable <;> cases x.typ.getLsbD 3 <;> simp

/-- The last byte lies within the limit, above it for an expand-down segment. -/
theorem segLimitOk_iff {z : Size} {x : SegReg} {off n : Nat} (hn : 0 < n) : segLimitOk z x off n = true ↔
    (z = .s16 → off + n ≤ 0x10000) ∧
      if x.typ.getLsbD 3 = false ∧ x.typ.getLsbD 2 = true then
        x.limit.toNat < off ∧ off + n - 1 ≤ (if x.db then 0xFFFFFFFF else 0xFFFF)
      else off + n - 1 ≤ x.limit.toNat := by
  have size : (z = .s32 ∨ off + n ≤ 0x10000) ↔ (z = .s16 → off + n ≤ 0x10000) := by cases z <;> simp
  simp only [segLimitOk, SegReg.isCode, SegReg.bit2, Bool.and_eq_true, decide_eq_true_eq, size, Bool.not_eq_true']
  refine and_congr_right fun _ => ?_
  split
  · rw [Bool.and_eq_true, decide_eq_true_eq, decide_eq_true_eq]
    split <;> omega
  · rw [decide_eq_true_eq]
    omega

theorem aligned_iff {s : State} {a al : Nat} : (!s.alignOn || decide (a % al = 0)) = true ↔
    (s.cr0Bit 18 = true → s.eflags.getLsbD 18 = true → s.cpl = 3#2 → a % al = 0) := by
  simp only [State.alignOn, Bool.or_eq_true, Bool.not_eq_true', decide_eq_true_eq]
  cases s.cr0Bit 18 <;> cases s.eflags.getLsbD 18 <;> by_cases h : s.cpl = 3#2 <;> simp [h]

/-! The order of the checks. -/

/-- The first check that fails raises its exception and changes nothing; where none fails the access is made. -/
structure Checked (m : M Unit) (s : State) (z : Size) (r : SReg) (off : Word32) (n al : Nat) (k : Access) : Prop where
  type : segTypeOk s (s.seg.get r) k = false → m s = .error (excGP 0#16) s
  limit : segTypeOk s (s.seg.get r) k = true → segLimitOk z (s.seg.get r) off.toNat n = false →
    m s = .error (if r = .ss then excSS 0#16 else excGP 0#16) s
  align : segTypeOk s (s.seg.get r) k = true → segLimitOk z (s.seg.get r) off.toNat n = true →
    (!s.alignOn || decide (((s.seg.get r).base + off).toNat % al = 0)) = false → m s = .error excAC s
  done : s.admits z r off n al k = true → ∃ t, m s = .ok () t

/-- What begins with the checks raises what they raise. -/
theorem checks_fail {z : Size} {r : SReg} {off : Word32} {n al : Nat} {k : Access} {s : State} (f : Word32 → M α) :
    let m := segCheck z r off n k >>= fun lin => alignCheck lin al >>= fun _ => f lin
    (segTypeOk s (s.seg.get r) k = false → m s = .error (excGP 0#16) s) ∧
    (segTypeOk s (s.seg.get r) k = true → segLimitOk z (s.seg.get r) off.toNat n = false →
      m s = .error (if r = .ss then excSS 0#16 else excGP 0#16) s) ∧
    (segTypeOk s (s.seg.get r) k = true → segLimitOk z (s.seg.get r) off.toNat n = true →
      (!s.alignOn || decide (((s.seg.get r).base + off).toNat % al = 0)) = false → m s = .error excAC s) := by
  refine ⟨fun ht => bind_of_error ?_, fun ht hl => bind_of_error ?_, fun ht hl ha => ?_⟩
  · rw [segCheck_run, ht]; rfl
  · rw [segCheck_run, ht, hl]; rfl
  · rw [bind_of_ok (by rw [segCheck_run, ht, hl]; rfl)]
    refine bind_of_error ?_
    rw [alignCheck_run, ha]; rfl

theorem memRead_checked {z : Size} {r : SReg} {off : Word32} {n al : Nat} {s : State} (hp : s.paging = false) (ha : s.a20Ok) :
    Checked (do let _ ← memRead z r off n al) s z r off n al .read := by
  obtain ⟨type, limit, align⟩ := checks_fail (α := Nat) (z := z) (r := r) (off := off) (n := n) (al := al) (k := .read)
    (s := s) _
  refine ⟨fun h => bind_of_error (type h), fun h k => bind_of_error (limit h k), fun h k l => bind_of_error (align h k l),
    fun h => ?_⟩
  obtain ⟨v, t, run⟩ := memRead_ok hp ha h
  exact ⟨t, bind_of_ok run⟩

theorem memWrite_checked {z : Size} {r : SReg} {off : Word32} {n al v : Nat} {s : State} (hp : s.paging = false)
    (ha : s.a20Ok) : Checked (memWrite z r off n al v) s z r off n al .write :=
  have ⟨type, limit, align⟩ := checks_fail _
  ⟨type, limit, align, memWrite_ok hp ha⟩

/-! What an access has done when it completes, and when a translation stops it. -/

/-- The state in which an access that passes its checks translates its bytes. -/
def State.accessed (s : State) (lin : Word32) (n : Nat) (write : Bool) : State :=
  { s.refer with insn := { s.insn with hits := s.insn.hits ||| bits4 (s.dr.dataMatch lin n write) } }

theorem checks_ok {z : Size} {r : SReg} {off : Word32} {n al : Nat} {k : Access} {s : State}
    (h : s.admits z r off n al k = true) (f : Word32 → M α) :
    (segCheck z r off n k >>= fun lin => alignCheck lin al >>= fun _ => f lin) s = f ((s.seg.get r).base + off) s := by
  simp only [State.admits, Bool.and_eq_true] at h
  obtain ⟨⟨type, limit⟩, align⟩ := h
  rw [bind_of_ok (by rw [segCheck_run, type, limit]; rfl), bind_of_ok (by rw [alignCheck_run, align]; rfl)]

theorem memRead_admitted {z : Size} {r : SReg} {off : Word32} {n al : Nat} {s : State}
    (h : s.admits z r off n al .read = true) :
    let lin := (s.seg.get r).base + off
    memRead z r off n al s = (translateBytes lin false s.user n >>= fun ps => readBytes s.insn.lock ps >>= fun l =>
      pure (ofBytes l)) (s.accessed lin n false) := checks_ok h _

theorem memWrite_admitted {z : Size} {r : SReg} {off : Word32} {n al v : Nat} {s : State}
    (h : s.admits z r off n al .write = true) :
    let lin := (s.seg.get r).base + off
    memWrite z r off n al v s = (translateBytes lin true s.user n >>= fun ps => storeBytes ps (toBytes n v))
      (s.accessed lin n true) := checks_ok h _

/-- An access that completes has passed its checks. -/
theorem admits_of_ok {z : Size} {r : SReg} {off : Word32} {n al : Nat} {k : Access} {s t : State} {a : α} {f : Word32 → M α}
    (h : (segCheck z r off n k >>= fun lin => alignCheck lin al >>= fun _ => f lin) s = .ok a t) :
    s.admits z r off n al k = true := by
  obtain ⟨type, limit, align⟩ := checks_fail (z := z) (r := r) (off := off) (n := n) (al := al) (k := k) (s := s) f
  unfold State.admits
  by_contra no
  rw [Bool.and_eq_true, Bool.and_eq_true, not_and_or, not_and_or] at no
  cases ht : segTypeOk s (s.seg.get r) k with
  | false => exact absurd (h.symm.trans (type ht)) (by simp)
  | true =>
    cases hl : segLimitOk z (s.seg.get r) off.toNat n with
    | false => exact absurd (h.symm.trans (limit ht hl)) (by simp)
    | true =>
      rw [ht, hl] at no
      exact absurd (h.symm.trans (align ht hl (by simpa using no))) (by simp)

/-- A fault of the first byte's page stops the translation of all. -/
theorem translateBytes_of_error {lin : Word32} {w us : Bool} {n : Nat} {s t : State} {e : Exc} (hn : 0 < n)
    (h : translate lin w us s = .error e t) : translateBytes lin w us n s = .error e t := by
  obtain ⟨k, rfl⟩ := Nat.exists_eq_succ_of_ne_zero hn.ne'
  exact bind_of_error h

theorem translateBytes_walks (w us : Bool) : ∀ (n : Nat) {lin : Word32} {s t : State} {ps : List (Word32 × Bool)},
    translateBytes lin w us n s = .ok ps t → Walks s t
  | 0, _, _, _, _, h => by
    cases h
    exact .refl _
  | n + 1, lin, s, t, ps, h => by
    simp only [translateBytes, bind_ok_iff, pure_run, EStateM.Result.ok.injEq] at h
    obtain ⟨p, u, first, a, v, mask, rest, x, others, -, rfl⟩ := h
    cases maskA20_state mask
    exact (translate_walks first).trans (translateBytes_walks w us n others)

theorem readBytes_walks (l : Bool) : ∀ (ps : List (Word32 × Bool)) {s t : State} {v : List Byte},
    readBytes l ps s = .ok v t → Walks s t
  | [], _, _, _, h => by
    cases h
    exact .refl _
  | p :: ps, s, t, v, h => by
    simp only [readBytes, get_then, set_then, bind_ok_iff, pure_run, EStateM.Result.ok.injEq] at h
    obtain ⟨r, u, rest, -, rfl⟩ := h
    refine Walks.trans ⟨?_⟩ (readBytes_walks l ps rest)
    rw [readPhys_eqn]

/-- A data access corrupts the cache read buffer (71 R1102; log entry 17). -/
theorem memRead_spoils {z : Size} {r : SReg} {off : Word32} {n al v : Nat} {s t : State}
    (h : memRead z r off n al s = .ok v t) : t.bufferSpoiled = true := by
  rw [memRead_admitted (admits_of_ok h)] at h
  obtain ⟨ps, u, translated, h⟩ := bind_ok_iff.mp h
  obtain ⟨l, w, bytes, h⟩ := bind_ok_iff.mp h
  cases h
  rw [((translateBytes_walks _ _ _ translated).trans (readBytes_walks _ _ bytes)).eqn]
  rfl

theorem memWrite_spoils {z : Size} {r : SReg} {off : Word32} {n al v : Nat} {s t : State}
    (h : memWrite z r off n al v s = .ok () t) : t.bufferSpoiled = true := by
  rw [memWrite_admitted (admits_of_ok h)] at h
  obtain ⟨ps, u, translated, stored⟩ := bind_ok_iff.mp h
  rw [storeBytes_eqn _ _ _ _ _ stored, (translateBytes_walks _ _ _ translated).eqn]
  rfl

/-- With paging off and a coherent cache a read gives the bytes of memory, the lowest address least significant (20 R123). -/
theorem memRead_bytes {z : Size} {r : SReg} {off : Word32} {n al v : Nat} {s t : State} (hs : s.insn.stores = [])
    (hp : s.paging = false) (hc : s.Coherent) (h : memRead z r off n al s = .ok v t) :
    v = ofBytes ((List.range n).map fun i =>
      Memory.read s.mem (s.phys ((s.seg.get r).base + off + BitVec.ofNat 32 i)).toNat) := by
  rw [memRead_admitted (admits_of_ok h)] at h
  obtain ⟨ps, u, translated, h⟩ := bind_ok_iff.mp h
  obtain ⟨rfl, rfl⟩ := translateBytes_off n (by exact hp) translated
  obtain ⟨w, bytes⟩ := readBytes_coherent s.insn.lock _ (s := s.accessed _ n false) hs hc
  rw [bind_of_ok bytes, offAddrs_eq, List.map_map] at h
  cases h
  rfl

theorem memRead_digit {z : Size} {r : SReg} {off : Word32} {n al v i : Nat} {s t : State} (hs : s.insn.stores = [])
    (hp : s.paging = false) (hc : s.Coherent) (h : memRead z r off n al s = .ok v t) (hi : i < n) :
    v / 256 ^ i % 256 = (Memory.read s.mem (s.phys ((s.seg.get r).base + off + BitVec.ofNat 32 i)).toNat).toNat ∧
      v < 256 ^ n := by
  rw [memRead_bytes hs hp hc h]
  refine ⟨?_, by simpa using ofBytes_lt ((List.range n).map _)⟩
  rw [ofBytes_digit (by simpa using hi), List.getElem_map, List.getElem_range]

end Sys2Proof.Machine
end

section
/-! SUPPORT. The TLB (spec/21_segmentation_paging_protection.md R267) and page faults (R266). -/
namespace Sys2Proof.Machine
open Sys2Proof

/-! Which way holds a page. -/

/-- A way holds the page of a tag. -/
def TlbSet.Holds (c : TlbSet) (tag : BitVec 17) (w : Way) : Prop := (c.get w).valid = true ∧ (c.get w).tag = tag

theorem TlbSet.get_put (c : TlbSet) (w y : Way) (x : TlbEntry) : (c.put w x).get y = if y = w then x else c.get y := by
  cases w <;> cases y <;> rfl

@[simp] theorem TlbSet.get_withLru (c : TlbSet) (l : Lru) (w : Way) : ({ c with lru := l } : TlbSet).get w = c.get w := by
  cases w <;> rfl

theorem TlbSet.holds_iff {c : TlbSet} {tag : BitVec 17} {w : Way} :
    ((c.get w).valid && (c.get w).tag == tag) = true ↔ c.Holds tag w := by
  simp [TlbSet.Holds]

theorem TlbSet.mem_matching {c : TlbSet} {tag : BitVec 17} {w : Way} :
    w ∈ c.matching (fun e => e.valid && e.tag == tag) ↔ c.Holds tag w := by
  rw [TlbSet.matching, List.mem_filter, TlbSet.holds_iff]
  cases w <;> simp

/-- A page that one way alone holds hits there. -/
theorem TlbSet.hit_of_unique {c : TlbSet} {tag : BitVec 17} {w : Way} (h : c.Holds tag w)
    (alone : ∀ y, c.Holds tag y → y = w) : c.hit tag = some w := by
  have only : (fun y => (c.get y).valid && (c.get y).tag == tag) = fun y => decide (y = w) := by
    funext y
    rw [Bool.eq_iff_iff, TlbSet.holds_iff, decide_eq_true_eq]
    exact ⟨alone y, fun e => e ▸ h⟩
  unfold TlbSet.hit TlbSet.matching
  rw [only]
  cases w <;> rfl

/-- A page that no way holds does not hit. -/
theorem TlbSet.hit_of_none {c : TlbSet} {tag : BitVec 17} (h : ∀ w, ¬ c.Holds tag w) : c.hit tag = none := by
  have empty : c.matching (fun e => e.valid && e.tag == tag) = [] :=
    List.eq_nil_iff_forall_not_mem.mpr fun w hw => h w (TlbSet.mem_matching.mp hw)
  unfold TlbSet.hit
  rw [empty]

theorem tlbSetAt_putTlbSet (s : State) (i : Nat) (c : TlbSet) : (s.putTlbSet i c).tlbSetAt i = c :=
  (sparseGet_sparseSet _ _ _ _ _).trans (if_pos rfl)

/-! Which access a hit serves. -/

theorem pagePermits_iff {s : State} {us rw write user : Bool} :
    pagePermits s us rw write user = true ↔ s.pageAllows us rw write user := by
  unfold pagePermits State.pageAllows
  cases user <;> cases us <;> cases rw <;> cases write <;> simp

theorem pagePermits_eq_false {s : State} {us rw write user : Bool} (h : ¬ s.pageAllows us rw write user) :
    pagePermits s us rw write user = false := by
  rwa [← pagePermits_iff, Bool.not_eq_true] at h

section Serves
variable {s : State} {lin : Word32} {c : TlbSet} (hc : s.tlbSetAt (tlbIndex lin) = c)
include hc

theorem tlbServes_hit {write user : Bool} {w : Way} (h : c.hit (tlbTag lin) = some w)
    (hd : write = true → (c.get w).dirty = false → ¬ s.pageAllows (c.get w).user (c.get w).writable write user) :
    s.tlbServes lin write user = some w := by
  unfold State.tlbServes
  rw [hc]
  dsimp only
  rw [h]
  refine if_neg fun walks => ?_
  rw [Bool.and_eq_true, Bool.and_eq_true, Bool.not_eq_true', pagePermits_iff] at walks
  obtain ⟨⟨hw, clean⟩, allowed⟩ := walks
  exact hd hw clean allowed

/-- A page that no way holds is walked to. -/
theorem tlbServes_miss {write user : Bool} (h : ∀ w, ¬ c.Holds (tlbTag lin) w) : s.tlbServes lin write user = none := by
  unfold State.tlbServes
  rw [hc]
  dsimp only
  rw [TlbSet.hit_of_none h]

/-- So is one whose entry permits a write but is clean (21 R262). -/
theorem tlbServes_clean {user : Bool} {w : Way} (h : c.hit (tlbTag lin) = some w) (hd : (c.get w).dirty = false)
    (ha : s.pageAllows (c.get w).user (c.get w).writable true user) : s.tlbServes lin true user = none := by
  unfold State.tlbServes
  rw [hc]
  dsimp only
  rw [h]
  dsimp only
  rw [hd, pagePermits_iff.mpr ha]
  rfl

end Serves

/-- The entry that a walk leaves serves the next access, where at most one way held the page (log entry 59). -/
theorem tlbServes_fillTlb {s : State} {lin : Word32} {c : TlbSet} (hc : s.tlbSetAt (tlbIndex lin) = c) {write user : Bool}
    {e : TlbEntry} (hv : e.valid = true) (ht : e.tag = tlbTag lin) (hd : write = true → e.dirty = true)
    (one : ∀ x y, c.Holds (tlbTag lin) x → c.Holds (tlbTag lin) y → y = x) :
    ∃ w, (s.fillTlb lin e).tlbServes lin write user = some w ∧ ((s.fillTlb lin e).tlbSetAt (tlbIndex lin)).get w = e := by
  subst hc
  obtain ⟨w, filled, only⟩ : ∃ w, (∃ l, (s.fillTlb lin e).tlbSetAt (tlbIndex lin) =
      { (s.tlbSetAt (tlbIndex lin)).put w e with lru := l }) ∧
      ∀ y, (s.tlbSetAt (tlbIndex lin)).Holds (tlbTag lin) y → y = w := by
    refine ⟨_, ⟨_, tlbSetAt_putTlbSet _ _ _⟩, fun y hy => ?_⟩
    have found := TlbSet.mem_matching.mpr hy
    rw [ht]
    cases hm : (s.tlbSetAt (tlbIndex lin)).matching (fun x => x.valid && x.tag == tlbTag lin) with
    | nil => rw [hm] at found; cases found
    | cons x l => exact one x y (TlbSet.mem_matching.mp (by rw [hm]; exact List.mem_cons_self)) hy
  obtain ⟨l, filled⟩ := filled
  have ways (y : Way) : ((s.fillTlb lin e).tlbSetAt (tlbIndex lin)).get y =
      if y = w then e else (s.tlbSetAt (tlbIndex lin)).get y := by
    rw [filled, TlbSet.get_withLru, TlbSet.get_put]
  have here := (ways w).trans (if_pos rfl)
  refine ⟨w, tlbServes_hit rfl (TlbSet.hit_of_unique ?_ fun y hy => ?_) ?_, here⟩
  · exact ⟨by rw [here, hv], by rw [here, ht]⟩
  · by_contra no
    refine no (only y ?_)
    unfold TlbSet.Holds at hy ⊢
    rwa [ways, if_neg no] at hy
  · rw [here]
    intro hw clean
    rw [hd hw] at clean
    cases clean

/-! Page faults and hits. -/

/-- A translation ends in a page fault: its code has P, W/R and U/S in bits 0, 1 and 2, CR2 holds the address, and memory reads as
`m` (21 R266). -/
def PageFaults (lin : Word32) (write user : Bool) (s : State) (present : Bool) (m : List Host.Cell) : Prop :=
  ∃ code t, translate lin write user s = .error (excPF code) t ∧
    code.getLsbD 0 = present ∧ code.getLsbD 1 = write ∧ code.getLsbD 2 = user ∧ t.cr2 = lin ∧
    ∀ a, Memory.read t.mem a = Memory.read m a

/-- The three bits of a page fault's code that say what happened. -/
theorem faultCode_bits (u : BitVec 13) (user write present : Bool) :
    let code : Word16 := u ++ BitVec.ofBool user ++ BitVec.ofBool write ++ BitVec.ofBool present
    code.getLsbD 0 = present ∧ code.getLsbD 1 = write ∧ code.getLsbD 2 = user := by
  have bit (b : Bool) : (BitVec.ofBool b).getLsbD 0 = b := by cases b <;> rfl
  simp only [BitVec.getLsbD_append]
  exact ⟨bit present, bit write, bit user⟩

theorem PageFaults.of_pageFault {lin : Word32} {write user present : Bool} {s u : State} {m : List Host.Cell}
    (h : translate lin write user s = (pageFault lin present write user : M (Word32 × Bool)) u)
    (hm : ∀ a, Memory.read u.mem a = Memory.read m a) : PageFaults lin write user s present m :=
  have ⟨p, w, us⟩ := faultCode_bits (Config.freeBits 13 u.freeCtr) user write present
  ⟨_, _, h, p, w, us, rfl, hm⟩

theorem translate_served {s : State} {lin : Word32} {c : TlbSet} (hc : s.tlbSetAt (tlbIndex lin) = c) {write user : Bool}
    {w : Way} (hp : s.paging = true) (h : s.tlbServes lin write user = some w) :
    translate lin write user s = if pagePermits s (c.get w).user (c.get w).writable write user then
      .ok ((c.get w).page ++ lin.extractLsb' 0 12, !(c.get w).pcd) (s.putTlbSet (tlbIndex lin) { c with lru := c.lru.touch w })
      else pageFault lin true write user s := by
  subst hc
  unfold translate
  rw [get_then, if_neg (by simp [hp]), h]
  dsimp only
  split <;> rfl

theorem translate_walked {s : State} {lin : Word32} {write user : Bool} (hp : s.paging = true)
    (h : s.tlbServes lin write user = none) :
    translate lin write user s = (walk lin write user >>= fun e => (modify fun s => s.fillTlb lin e) >>= fun _ =>
      pure (e.page ++ lin.extractLsb' 0 12, !e.pcd)) s := by
  unfold translate
  rw [get_then, if_neg (by simp [hp]), h]

section Hits
variable {s : State} {lin : Word32} {c : TlbSet} (hc : s.tlbSetAt (tlbIndex lin) = c) (hp : s.paging = true)
include hc hp

/-- A hit that does not permit the access faults, and changes nothing. -/
theorem hit_faults {write user : Bool} {w : Way} (h : c.hit (tlbTag lin) = some w)
    (no : ¬ s.pageAllows (c.get w).user (c.get w).writable write user) : PageFaults lin write user s true s.mem := by
  refine .of_pageFault (u := s) ?_ fun _ => rfl
  rw [translate_served hc hp (tlbServes_hit hc h fun _ _ => no), pagePermits_eq_false no]
  rfl

/-- A hit that permits the access gives the frame, and changes the TLB alone. -/
theorem hit_translates {write user : Bool} {w : Way} (h : c.hit (tlbTag lin) = some w)
    (ha : s.pageAllows (c.get w).user (c.get w).writable write user) (hd : write = true → (c.get w).dirty = true) :
    ∃ t, translate lin write user s = .ok ((c.get w).page ++ lin.extractLsb' 0 12, !(c.get w).pcd) t ∧ t.mem = s.mem ∧
      Agree s t := by
  have served : s.tlbServes lin write user = some w := tlbServes_hit hc h fun hw clean => by
    rw [hd hw] at clean
    cases clean
  refine ⟨s.putTlbSet (tlbIndex lin) { c with lru := c.lru.touch w }, ?_, rfl, by constructor <;> rfl⟩
  rw [translate_served hc hp served, pagePermits_iff.mpr ha]
  rfl

end Hits

end Sys2Proof.Machine
end

section
/-!
SUPPORT. The walk of the two tables with the cache off and empty (spec/21_segmentation_paging_protection.md R260 to R266): each
operation on a table entry is one on the doubleword in memory.
-/
namespace Sys2Proof.Machine
open Sys2Proof

/-! Doublewords of memory. -/

theorem dwordAt_congr {m n : List Host.Cell} (h : ∀ a, Memory.read m a = Memory.read n a) (a : Word32) :
    dwordAt m a = dwordAt n a := by
  simp only [dwordAt, h]

theorem entryMem_read {m : List Host.Cell} (w : Memory.wf m = true) (a : Word32) (bits : Byte) (x : Nat) :
    Memory.read (entryMem m a bits) x = if x = a.toNat then Memory.read m a.toNat ||| bits else Memory.read m x :=
  Memory.read_write w _ _ _

theorem entryMem_wf {m : List Host.Cell} (w : Memory.wf m = true) (a : Word32) (bits : Byte) :
    Memory.wf (entryMem m a bits) = true := Memory.wf_write w _ a.isLt

theorem append_byte_toNat {n : Nat} (x : BitVec n) (b : Byte) : (x ++ b).toNat = x.toNat * 256 + b.toNat := by
  rw [BitVec.toNat_append, ← Nat.shiftLeft_add_eq_or_of_lt b.isLt, Nat.shiftLeft_eq]

/-- A doubleword is its four bytes, the lowest address least significant (20 R123). -/
theorem ofBytes_dword (b0 b1 b2 b3 : Byte) : BitVec.ofNat 32 (ofBytes [b0, b1, b2, b3]) = b3 ++ b2 ++ b1 ++ b0 := by
  have h0 := b0.isLt
  have h1 := b1.isLt
  have h2 := b2.isLt
  have h3 := b3.isLt
  refine BitVec.eq_of_toNat_eq ?_
  simp only [append_byte_toNat, BitVec.toNat_ofNat, ofBytes]
  omega

/-- Bits that a doubleword has already, its low byte has. -/
theorem low_or_of_and {m : List Host.Cell} {a : Word32} {bits : Byte}
    (h : dwordAt m a &&& bits.setWidth 32 = bits.setWidth 32) : Memory.read m a.toNat ||| bits = Memory.read m a.toNat := by
  refine BitVec.eq_of_getLsbD_eq fun i hi => ?_
  have hb := congrArg (·.getLsbD i) h
  simp only [dwordAt, BitVec.getLsbD_and, BitVec.getLsbD_append, BitVec.getLsbD_setWidth, hi, if_true,
    show i < 32 by omega, decide_true, Bool.true_and] at hb
  rw [BitVec.getLsbD_or, ← hb]
  cases (Memory.read m a.toNat).getLsbD i <;> simp

/-! One entry. -/

theorem maskA20_off {u : State} (h20 : u.pins.a20m = false) (a : Word32) : maskA20 a u = .ok a u := by
  rw [maskA20_ok fun h => absurd (h20.symm.trans h) (by simp), State.phys, h20]
  rfl

section Entry
variable {u : State} (hu : u.Uncached) (h20 : u.pins.a20m = false)
include hu

theorem readPhys_memory (a : Word32) (c l : Bool) : u.readPhys a c l = (Memory.read u.mem a.toNat, u) := by
  unfold State.readPhys
  rw [hu.stores]
  simp [pendingByte, hit_of_empty hu.empty, State.mayFill, hu.off]

theorem updatePhys_memory (a : Word32) (f : Byte → Byte) :
    u.updatePhys a f = { u with mem := Memory.write u.mem a.toNat (f (Memory.read u.mem a.toNat)) } := by
  unfold State.updatePhys
  rw [hu.stores, writePhys_uncached hu.empty]
  rfl

theorem State.Uncached.withMem (m : List Host.Cell) : State.Uncached { u with mem := m } := ⟨hu.off, hu.empty, hu.stores⟩

include h20

theorem physRead_memory (c l : Bool) (n : Nat) : ∀ a : Word32,
    physRead a c l n u = .ok ((List.range n).map fun i => Memory.read u.mem (a + BitVec.ofNat 32 i).toNat) u := by
  induction n with
  | zero => exact fun _ => rfl
  | succ n ih =>
    intro a
    rw [physRead, bind_of_ok (maskA20_off h20 a), get_then, readPhys_memory hu]
    simp only [set_then]
    rw [bind_of_ok (ih (a + 1#32)), pure_run, List.range_succ_eq_map, List.map_cons, List.map_map, BitVec.add_zero]
    simp only [Function.comp_def, Nat.succ_eq_add_one, BitVec.ofNat_add, BitVec.add_assoc, BitVec.add_comm 1#32]

theorem physDword_memory (a : Word32) (c l : Bool) : physDword a c l u = .ok (dwordAt u.mem a) u := by
  unfold physDword
  rw [bind_of_ok (physRead_memory hu h20 c l 4 a), pure_run, dwordAt, ← ofBytes_dword]
  show EStateM.Result.ok (BitVec.ofNat 32 (ofBytes [Memory.read u.mem (a + 0#32).toNat, _, _, _])) u = _
  rw [BitVec.add_zero]

theorem secondRead_memory (a bits : Word32) : secondRead a (dwordAt u.mem a) bits u = .ok (dwordAt u.mem a) u := by
  unfold secondRead
  split
  · rfl
  · exact physDword_memory hu h20 a false true

omit hu h20 in
/-- Setting no bits leaves every byte as it is. -/
theorem physOr_zeros : ∀ (n : Nat) (a : Word32) {u : State}, u.Uncached → u.pins.a20m = false → Memory.wf u.mem = true →
    ∃ m, physOr a (List.replicate n 0#8) u = .ok () { u with mem := m } ∧ Memory.wf m = true ∧
      ∀ x, Memory.read m x = Memory.read u.mem x
  | 0, _, u, _, _, w => ⟨u.mem, rfl, w, fun _ => rfl⟩
  | n + 1, a, u, hu, h20, w => by
    obtain ⟨m, run, wf, reads⟩ := physOr_zeros n (a + 1#32)
      (hu.withMem (Memory.write u.mem a.toNat (Memory.read u.mem a.toNat ||| 0#8))) h20 (Memory.wf_write w _ a.isLt)
    refine ⟨m, ?_, wf, fun x => ?_⟩
    · rw [List.replicate_succ, physOr, bind_of_ok (maskA20_off h20 a), modify_then, updatePhys_memory hu]
      exact run
    · rw [reads, Memory.read_write w, BitVec.or_zero]
      split
      · next e => rw [e]
      · rfl

/-- Bits of the low byte of an entry are set in memory, where it lacks them (21 R262). -/
theorem setEntryBits_memory (w : Memory.wf u.mem = true) (a : Word32) (bits : Byte) :
    ∃ m, setEntryBits a (dwordAt u.mem a) (bits.setWidth 32) u = .ok () { u with mem := m } ∧ Memory.wf m = true ∧
      ∀ x, Memory.read m x = Memory.read (entryMem u.mem a bits) x := by
  unfold setEntryBits
  split
  · next set =>
    refine ⟨u.mem, rfl, w, fun x => ?_⟩
    rw [entryMem_read w, low_or_of_and set]
    split
    · next e => rw [e]
    · rfl
  · have bytes : toBytes 4 (bits.setWidth 32).toNat = bits :: List.replicate 3 0#8 := by
      have hb := bits.isLt
      simp [toBytes, List.replicate, Nat.mod_eq_of_lt (by omega : bits.toNat < 4294967296), Nat.div_eq_of_lt hb]
    obtain ⟨m, run, wf, reads⟩ := physOr_zeros 3 (a + 1#32) (hu.withMem (entryMem u.mem a bits)) h20 (entryMem_wf w a bits)
    refine ⟨m, ?_, wf, reads⟩
    rw [bytes, physOr, bind_of_ok (maskA20_off h20 a), modify_then, updatePhys_memory hu]
    exact run

end Entry
end Sys2Proof.Machine
end

section
/-! SUPPORT. The walk with the cache off and empty, as a whole: its page faults and the translation it leaves. -/
namespace Sys2Proof.Machine
open Sys2Proof

/-! The two entries of a linear address. -/

/-- The page directory entry of a linear address. -/
def State.pdeOf (s : State) (lin : Word32) : Word32 := dwordAt s.mem (s.pdeAddr lin)

/-- Memory after the accessed bit of the page directory entry is set. -/
def State.dirMarked (s : State) (lin : Word32) : List Host.Cell := entryMem s.mem (s.pdeAddr lin) 0x20#8

/-- The address of the page table entry that the directory entry leads to. -/
def State.pteAddrOf (s : State) (lin : Word32) : Word32 := pteAddr (s.pdeOf lin) lin

/-- The page table entry of a linear address, read once its directory entry is marked. -/
def State.pteOf (s : State) (lin : Word32) : Word32 := dwordAt (s.dirMarked lin) (s.pteAddrOf lin)

/-- The combined attributes of the two entries allow an access (21 R263, R264). -/
def State.tablesAllow (s : State) (lin : Word32) (write user : Bool) : Prop :=
  s.pageAllows (pageRights (s.pdeOf lin) (s.pteOf lin)).1 (pageRights (s.pdeOf lin) (s.pteOf lin)).2 write user

/-- The bits an access sets in the low byte of its page table entry: accessed, and dirty for a write (21 R262). -/
def pageMark (write : Bool) : Byte := if write then 0x60#8 else 0x20#8

/-- The translation that a walk answers. -/
def walkEntry (lin : Word32) (write : Bool) (pde pte : Word32) : TlbEntry :=
  { valid := true, tag := tlbTag lin, dirty := write || pte.getLsbD 6, user := (pageRights pde pte).1
    writable := (pageRights pde pte).2, page := pte.extractLsb' 12 20, pcd := pte.getLsbD 4, pwt := pte.getLsbD 3 }

theorem pdeAddr_eq (s : State) (lin : Word32) : (s.cr3 &&& 0xFFFFF000#32) + ((lin >>> 22) <<< 2) = s.pdeAddr lin := by
  unfold State.pdeAddr
  have h := lin.isLt
  refine congrArg _ (BitVec.eq_of_toNat_eq ?_)
  simp only [BitVec.toNat_shiftLeft, BitVec.toNat_ushiftRight, BitVec.toNat_mul, BitVec.toNat_setWidth,
    BitVec.extractLsb'_toNat, BitVec.toNat_ofNat, Nat.shiftLeft_eq, Nat.shiftRight_eq_div_pow]
  omega

theorem pteAddr_eq (pde lin : Word32) : (pde &&& 0xFFFFF000#32) + (((lin >>> 12) &&& 0x3FF#32) <<< 2) = pteAddr pde lin := by
  unfold pteAddr
  have h := lin.isLt
  refine congrArg _ (BitVec.eq_of_toNat_eq ?_)
  simp only [BitVec.toNat_shiftLeft, BitVec.toNat_ushiftRight, BitVec.toNat_mul, BitVec.toNat_setWidth, BitVec.toNat_and,
    BitVec.extractLsb'_toNat, BitVec.toNat_ofNat, Nat.shiftLeft_eq, Nat.shiftRight_eq_div_pow]
  rw [show 0x3FF % 2 ^ 32 = 2 ^ 10 - 1 from rfl, Nat.and_two_pow_sub_one_eq_mod]
  omega

/-! The tests of the entries. -/

theorem checkPde_present {lin pde : Word32} {write user : Bool} (h : pde.getLsbD 0 = true) (s : State) :
    checkPde lin write user pde s = .ok () s := by
  unfold checkPde
  rw [h]
  rfl

theorem checkPte_run (lin pde pte : Word32) (write user : Bool) (s : State) : checkPte lin write user pde pte s =
    if pte.getLsbD 0 = false then pageFault lin false write user s
    else if pagePermits s (pageRights pde pte).1 (pageRights pde pte).2 write user then .ok () s
    else pageFault lin true write user s := by
  unfold checkPte
  rw [get_then]
  cases pte.getLsbD 0
  · rfl
  · cases pagePermits s (pageRights pde pte).1 (pageRights pde pte).2 write user <;> rfl

theorem pageFault_then {α β : Type} {lin : Word32} {p w u : Bool} (f : α → M β) (s : State) :
    ((pageFault lin p w u : M α) >>= f) s = (pageFault lin p w u : M β) s := rfl

/-! The walk. -/

section Walk
variable {s : State} {lin : Word32} {write user : Bool} (hu : s.Uncached) (h20 : s.pins.a20m = false)
include hu h20

theorem physDword_directory (c l : Bool) : physDword (s.pdeAddr lin) c l s = .ok (s.pdeOf lin) s :=
  physDword_memory hu h20 _ c l

theorem walk_absent_directory (h : (s.pdeOf lin).getLsbD 0 = false) :
    walk lin write user s = (pageFault lin false write user : M TlbEntry) s := by
  unfold walk
  rw [get_then]
  simp only [pdeAddr_eq]
  rw [bind_of_ok (physDword_directory hu h20 _ _), checkPde, if_neg (by rw [h]; decide)]
  exact pageFault_then _ s

/-- Past a present directory entry the walk has marked it, and goes by the page table entry alone: what it reads again is what it
read. -/
theorem walk_directory (hm : Memory.wf s.mem = true) (h : (s.pdeOf lin).getLsbD 0 = true) :
    ∃ m, Memory.wf m = true ∧ (∀ a, Memory.read m a = Memory.read (s.dirMarked lin) a) ∧
      walk lin write user s = (checkPte lin write user (s.pdeOf lin) (s.pteOf lin) >>= fun _ =>
        setEntryBits (s.pteAddrOf lin) (s.pteOf lin) ((pageMark write).setWidth 32) >>= fun _ =>
        pure (walkEntry lin write (s.pdeOf lin) (s.pteOf lin))) { s with mem := m } := by
  obtain ⟨m, marked, wf, reads⟩ := setEntryBits_memory hu h20 hm (s.pdeAddr lin) 0x20#8
  have hu' := hu.withMem m
  have pdeAgain : secondRead (s.pdeAddr lin) (s.pdeOf lin) 0x20#32 s = .ok (s.pdeOf lin) s := secondRead_memory hu h20 _ _
  have pdeMarked : setEntryBits (s.pdeAddr lin) (s.pdeOf lin) 0x20#32 s = .ok () { s with mem := m } := marked
  have pte : s.pteOf lin = dwordAt m (s.pteAddrOf lin) := (dwordAt_congr reads _).symm
  have need : (if write then 0x60#32 else 0x20#32) = (pageMark write).setWidth 32 := by cases write <;> rfl
  refine ⟨m, wf, reads, ?_⟩
  unfold walk
  rw [get_then]
  simp only [pdeAddr_eq]
  rw [bind_of_ok (physDword_directory hu h20 _ _), bind_of_ok (checkPde_present h s), bind_of_ok pdeAgain,
    bind_of_ok (checkPde_present h s), bind_of_ok pdeMarked]
  simp only [pteAddr_eq, need]
  rw [show pteAddr (s.pdeOf lin) lin = s.pteAddrOf lin from rfl, bind_of_ok (physDword_memory hu' h20 _ _ _), ← pte]
  cases hc : checkPte lin write user (s.pdeOf lin) (s.pteOf lin) { s with mem := m } with
  | error e t => rw [bind_of_error hc, bind_of_error hc]
  | ok x t =>
    obtain ⟨rfl, -⟩ := checkPte_ok hc
    rw [bind_of_ok hc, bind_of_ok hc]
    have again := secondRead_memory hu' h20 (s.pteAddrOf lin) ((pageMark write).setWidth 32)
    rw [← pte] at again
    rw [bind_of_ok again, bind_of_ok hc]
    rfl

end Walk

/-! A translation that walks. -/

section Translation
variable {s : State} {lin : Word32} {write user : Bool} (hu : s.Uncached) (h20 : s.pins.a20m = false)
  (hm : Memory.wf s.mem = true) (hp : s.paging = true) (miss : s.tlbServes lin write user = none)
include hu h20 hm hp miss

omit hu h20 hm in
/-- A walk that ends in a page fault. -/
theorem PageFaults.of_walk {u : State} {present : Bool} {m : List Host.Cell}
    (h : walk lin write user s = (pageFault lin present write user : M TlbEntry) u)
    (reads : ∀ a, Memory.read u.mem a = Memory.read m a) : PageFaults lin write user s present m := by
  refine .of_pageFault (u := u) ?_ reads
  rw [translate_walked hp miss, bind_run, h]
  rfl

omit hm in
theorem absent_directory_faults (h : (s.pdeOf lin).getLsbD 0 = false) : PageFaults lin write user s false s.mem :=
  .of_walk hp miss (walk_absent_directory hu h20 h) fun _ => rfl

theorem absent_page_faults (hd : (s.pdeOf lin).getLsbD 0 = true) (h : (s.pteOf lin).getLsbD 0 = false) :
    PageFaults lin write user s false (s.dirMarked lin) := by
  obtain ⟨m, -, reads, walked⟩ := walk_directory (write := write) (user := user) hu h20 hm hd
  refine .of_walk (u := { s with mem := m }) hp miss (walked.trans ?_) reads
  rw [bind_run, checkPte_run, if_pos h]
  rfl

theorem protected_page_faults (hd : (s.pdeOf lin).getLsbD 0 = true) (ht : (s.pteOf lin).getLsbD 0 = true)
    (h : ¬ s.tablesAllow lin write user) :
    PageFaults lin write user s true (s.dirMarked lin) := by
  obtain ⟨m, -, reads, walked⟩ := walk_directory (write := write) (user := user) hu h20 hm hd
  refine .of_walk (u := { s with mem := m }) hp miss (walked.trans ?_) reads
  have refused : pagePermits { s with mem := m } (pageRights (s.pdeOf lin) (s.pteOf lin)).1
      (pageRights (s.pdeOf lin) (s.pteOf lin)).2 write user = false := pagePermits_eq_false h
  rw [bind_run, checkPte_run, if_neg (by simp [ht]), if_neg (by simp [refused])]
  rfl

/-- A walk that the entries allow gives the frame, sets the accessed and dirty bits, and leaves an entry that serves the next
access. -/
theorem walk_translates (one : ∀ x y, (s.tlbSetAt (tlbIndex lin)).Holds (tlbTag lin) x →
      (s.tlbSetAt (tlbIndex lin)).Holds (tlbTag lin) y → y = x)
    (hd : (s.pdeOf lin).getLsbD 0 = true) (ht : (s.pteOf lin).getLsbD 0 = true)
    (h : s.tablesAllow lin write user) :
    ∃ t, translate lin write user s =
        .ok ((s.pteOf lin).extractLsb' 12 20 ++ lin.extractLsb' 0 12, !(s.pteOf lin).getLsbD 4) t ∧ Agree s t ∧
      (∀ a, Memory.read t.mem a =
        Memory.read (entryMem (s.dirMarked lin) (s.pteAddrOf lin) (pageMark write)) a) ∧
      ∃ w, t.tlbServes lin write user = some w ∧
        ((t.tlbSetAt (tlbIndex lin)).get w).page = (s.pteOf lin).extractLsb' 12 20 := by
  obtain ⟨m, wf, reads, walked⟩ := walk_directory (write := write) (user := user) hu h20 hm hd
  have pte : s.pteOf lin = dwordAt m (s.pteAddrOf lin) := (dwordAt_congr reads _).symm
  have permitted : pagePermits { s with mem := m } (pageRights (s.pdeOf lin) (s.pteOf lin)).1
      (pageRights (s.pdeOf lin) (s.pteOf lin)).2 write user = true := pagePermits_iff.mpr h
  obtain ⟨m2, marked, -, reads2⟩ := setEntryBits_memory (hu.withMem m) h20 wf (s.pteAddrOf lin) (pageMark write)
  rw [← pte] at marked
  have answered : walk lin write user s =
      .ok (walkEntry lin write (s.pdeOf lin) (s.pteOf lin)) { s with mem := m2 } := by
    rw [walked, bind_of_ok (by rw [checkPte_run, if_neg (by simp [ht]), if_pos permitted]), bind_of_ok marked, pure_run]
  obtain ⟨w, serves, entry⟩ := tlbServes_fillTlb (s := { s with mem := m2 }) (lin := lin) rfl (write := write) (user := user)
    (e := walkEntry lin write (s.pdeOf lin) (s.pteOf lin)) rfl rfl (fun hw => by simp [walkEntry, hw]) one
  refine ⟨({ s with mem := m2 } : State).fillTlb lin (walkEntry lin write (s.pdeOf lin) (s.pteOf lin)), ?_,
    by constructor <;> rfl, fun a => ?_, w, serves, by rw [entry]; rfl⟩
  · rw [translate_walked hp miss, bind_of_ok answered]
    rfl
  · have same : Memory.read m (s.pteAddrOf lin).toNat = Memory.read (s.dirMarked lin) _ := reads _
    rw [show State.mem _ = m2 from rfl, reads2, entryMem_read wf,
      entryMem_read (m := s.dirMarked lin) (entryMem_wf hm _ _), same, reads]

end Translation

end Sys2Proof.Machine
end

section
/-!
The accesses of data and their translation (spec/20_memory.md R122 to R126, spec/21_segmentation_paging_protection.md R260 to R269).
-/
namespace Sys2Proof.Machine
open Sys2Proof

/-- The checks of an access in their order, by what each lets pass. -/
theorem Checked.ladder {m : M Unit} {s : State} {z : Size} {r : SReg} {off : Word32} {n al : Nat} {k : Access}
    (h : Checked m s z r off n al k) {typeOk limitOk aligned : Prop} (ht : segTypeOk s (s.seg.get r) k = true ↔ typeOk)
    (hl : segLimitOk z (s.seg.get r) off.toNat n = true ↔ limitOk)
    (ha : (!s.alignOn || decide (((s.seg.get r).base + off).toNat % al = 0)) = true ↔ aligned) :
    (¬ typeOk → m s = .error (excGP 0#16) s) ∧
    (typeOk → ¬ limitOk → m s = .error (if r = .ss then excSS 0#16 else excGP 0#16) s) ∧
    (typeOk → limitOk → ¬ aligned → m s = .error excAC s) ∧ (typeOk → limitOk → aligned → ∃ t, m s = .ok () t) := by
  rw [← ht, ← hl, ← ha]
  simp only [Bool.not_eq_true]
  exact ⟨h.type, h.limit, h.align, fun t l a => h.done (by simp only [State.admits, t, l, a, Bool.and_self])⟩

theorem admits_of_checks {s : State} {z : Size} {r : SReg} {off : Word32} {n al : Nat} {k : Access}
    (type : segTypeOk s (s.seg.get r) k = true) (limit : segLimitOk z (s.seg.get r) off.toNat n = true)
    (align : s.alignOn = true → ((s.seg.get r).base + off).toNat % al = 0) : s.admits z r off n al k = true := by
  simp only [State.admits, type, limit, Bool.true_and]
  cases h : s.alignOn
  · rfl
  · exact decide_eq_true (align h)

/-- A fault of the first byte's page is the access's (log entry 62). -/
theorem memRead_faults {z : Size} {r : SReg} {off : Word32} {n al : Nat} {s t : State} {e : Exc} (hn : 0 < n)
    (ha : s.admits z r off n al .read = true)
    (h : translate ((s.seg.get r).base + off) false s.user (s.accessed ((s.seg.get r).base + off) n false) = .error e t) :
    memRead z r off n al s = .error e t := by
  rw [memRead_admitted ha]
  exact bind_of_error (translateBytes_of_error hn h)

theorem memWrite_faults {z : Size} {r : SReg} {off : Word32} {n al v : Nat} {s t : State} {e : Exc} (hn : 0 < n)
    (ha : s.admits z r off n al .write = true)
    (h : translate ((s.seg.get r).base + off) true s.user (s.accessed ((s.seg.get r).base + off) n true) = .error e t) :
    memWrite z r off n al v s = .error e t := by
  rw [memWrite_admitted ha]
  exact bind_of_error (translateBytes_of_error hn h)

/-- What a translation does where its page hits: it goes by the entry. -/
theorem translation_hits {s : State} {lin : Word32} {write user : Bool} (hp : s.paging = true) {w : Way}
    (h : (s.tlbSetAt (tlbIndex lin)).Holds (tlbTag lin) w)
    (alone : ∀ y, (s.tlbSetAt (tlbIndex lin)).Holds (tlbTag lin) y → y = w) :
    let e := (s.tlbSetAt (tlbIndex lin)).get w
    (¬ s.pageAllows e.user e.writable write user → PageFaults lin write user s true s.mem) ∧
    (s.pageAllows e.user e.writable write user → (write = true → e.dirty = true) →
      ∃ t, translate lin write user s = .ok (e.page ++ lin.extractLsb' 0 12, !e.pcd) t ∧ t.mem = s.mem ∧ Agree s t) :=
  have hit := TlbSet.hit_of_unique h alone
  ⟨hit_faults rfl hp hit, hit_translates rfl hp hit⟩

/-- A page that is walked to: no way holds it, or one alone does, clean, and the access is a write that it permits (21 R262). -/
theorem walked_to {s : State} {lin : Word32} {write user : Bool} {c : TlbSet} (hc : s.tlbSetAt (tlbIndex lin) = c)
    (h : (∀ w, ¬ c.Holds (tlbTag lin) w) ∨ ∃ w, c.Holds (tlbTag lin) w ∧ (∀ y, c.Holds (tlbTag lin) y → y = w) ∧
      write = true ∧ (c.get w).dirty = false ∧ s.pageAllows (c.get w).user (c.get w).writable true user) :
    s.tlbServes lin write user = none ∧ ∀ x y, c.Holds (tlbTag lin) x → c.Holds (tlbTag lin) y → y = x := by
  rcases h with none | ⟨w, holds, alone, rfl, clean, allowed⟩
  · exact ⟨tlbServes_miss hc none, fun x _ hx => absurd hx (none x)⟩
  · exact ⟨tlbServes_clean hc (TlbSet.hit_of_unique holds alone) clean allowed,
      fun x y hx hy => (alone y hy).trans (alone x hx).symm⟩

/-- Settles O58, clause by clause: the checks, the bytes of a read and of a store, translation through the TLB and by a walk, the
fault of the first page, the cache read buffer, and what a translation leaves in memory. -/
theorem dataAccesses : Obligations.DataAccesses := by
  refine ⟨fun z r off n al v s _ hp hn h20 => ?_, fun z r off n al v i s t hf hp hc h hi => memRead_digit hf.stores hp hc h hi,
    fun s lin n v i m w hi hn => memAfter_store s lin w hi hn, fun lin write user s hp h20 => ?_,
    fun z r off n al v s hn => ?_, fun z r off n al v s t => ?_,
    fun lin write user p s t hm h a _ => (translate_marks h).alike hm a⟩
  · intro x code limitOk readOk writeOk aligned e m typeOk h
    rcases h with ⟨rfl, rfl⟩ | ⟨rfl, rfl⟩
    · exact (memRead_checked hp h20).ladder segTypeOk_read_iff (segLimitOk_iff hn) aligned_iff
    · exact (memWrite_checked hp h20).ladder segTypeOk_write_iff (segLimitOk_iff hn) aligned_iff
  · refine ⟨fun w hw alone => translation_hits hp hw alone, fun hu hm h => ?_⟩
    obtain ⟨miss, one⟩ := walked_to rfl h
    exact ⟨absent_directory_faults hu h20 hp miss, absent_page_faults hu h20 hm hp miss,
      protected_page_faults hu h20 hm hp miss, walk_translates hu h20 hm hp miss one⟩
  · simp only [List.forall_mem_cons]
    refine ⟨fun type limit align => ?_, fun type limit align => ?_, by simp⟩
    · exact ⟨_, fun e t h => bind_of_error (memRead_faults hn (admits_of_checks type limit align) h)⟩
    · exact ⟨_, fun e t h => memWrite_faults hn (admits_of_checks type limit align) h⟩
  · simp only [List.forall_mem_cons]
    refine ⟨fun h => ?_, fun h => memWrite_spoils h, by simp⟩
    obtain ⟨v, u, read, done⟩ := bind_ok_iff.mp h
    cases done
    exact memRead_spoils read

end Sys2Proof.Machine
end

section
/-! The eleven prefixes, and instructions written out byte by byte. -/
namespace Sys2Proof.Machine
open Sys2Proof

/-- Settles O47: each records itself in the latch, by the definition of its meaning. -/
theorem prefixesComplete : Obligations.PrefixesComplete := by
  intro s
  exact ⟨rfl, rfl, rfl, rfl, rfl, rfl, rfl, rfl, rfl, rfl, rfl⟩

/-- Settles O49: the decoder runs on each of the eight words. -/
theorem decodeWords : Obligations.DecodeWords := by
  unfold Obligations.DecodeWords
  simp only [List.forall_mem_cons]
  exact ⟨rfl, rfl, rfl, rfl, rfl, rfl, rfl, rfl, by simp⟩

end Sys2Proof.Machine
end

section
/-! SUPPORT. What a decoder takes off the front of a byte stream. -/
namespace Sys2Proof

variable {α β : Type}

/-- A decoder takes these bytes, whatever follows them, and answers `a`. -/
def Decodes (d : Dec α) (l : List Byte) (a : α) : Prop := ∀ rest, d (l ++ rest) = .ok a rest

theorem Decodes.pure {a : α} : Decodes (pure a) [] a := fun _ => rfl

theorem Decodes.bind {d : Dec α} {f : α → Dec β} {l m : List Byte} {a : α} {b : β} (h : Decodes d l a)
    (k : Decodes (f a) m b) : Decodes (d >>= f) (l ++ m) b := by
  intro rest
  change EStateM.bind d f _ = _
  rw [EStateM.bind, List.append_assoc, h (m ++ rest)]
  exact k rest

/-- A last field, of which the answer is made. -/
theorem Decodes.map {d : Dec α} {f : α → β} {l : List Byte} {a : α} (h : Decodes d l a) :
    Decodes (d >>= fun x => Pure.pure (f x)) l (f a) := by
  simpa using h.bind (f := fun x => Pure.pure (f x)) .pure

/-- One byte more in front. -/
theorem Decodes.byte {f : Byte → Dec α} {b : Byte} {l : List Byte} {a : α} (h : Decodes (f b) l a) :
    Decodes (nextByte >>= f) (b :: l) a := fun rest => h rest

theorem Decodes.oneByte {b : Byte} : Decodes nextByte [b] b := fun _ => rfl

@[simp] theorem nextByte_then (f : Byte → Dec α) (b : Byte) (l : List Byte) : (nextByte >>= f) (b :: l) = f b l := by rfl

/-! The fields of 30_encoding.md R301 and R317. -/

theorem Decodes.word (v : Word16) : Decodes next16 (le16 v) v := by
  have halves : v.extractLsb' 8 8 ++ v.extractLsb' 0 8 = v :=
    (BitVec.extractLsb'_append_extractLsb'_eq_extractLsb' rfl).trans BitVec.extractLsb'_eq_self
  intro rest
  exact congrArg (EStateM.Result.ok · rest) halves

theorem Decodes.dword (v : Word32) : Decodes next32 (le32 v) v := by
  have halves : v.extractLsb' 16 16 ++ v.extractLsb' 0 16 = v :=
    (BitVec.extractLsb'_append_extractLsb'_eq_extractLsb' rfl).trans BitVec.extractLsb'_eq_self
  have h := (Decodes.word (v.extractLsb' 0 16)).bind
    (f := fun a => next16 >>= fun b => Pure.pure (b ++ a)) (Decodes.word (v.extractLsb' 16 16)).map
  rwa [halves] at h

theorem Decodes.imm {v : Imm} {w : Width} (h : v.width = w) : Decodes (decodeImm w) v.bytes v := by
  subst h
  cases v with
  | i8 v => exact Decodes.oneByte.map
  | i16 v => exact (Decodes.word v).map
  | i32 v => exact (Decodes.dword v).map

theorem Decodes.offset (o : Offset) : Decodes (decodeOffset o.size) o.bytes o := by
  cases o with
  | o16 v => exact (Decodes.word v).map
  | o32 v => exact (Decodes.dword v).map

theorem Decodes.ptr (o : Offset) (x : Word16) : Decodes (decodePtr o.size) (o.bytes ++ le16 x) (.ptr o x) :=
  (Decodes.offset o).bind (Decodes.word x).map

end Sys2Proof
end

section
/-! SUPPORT. The fields of a mod r/m byte and the codes in them (spec/30_encoding.md R310 to R314). -/
namespace Sys2Proof

@[simp] theorem modField_fieldByte (md : BitVec 2) (k c : BitVec 3) : modField (fieldByte md k c) = md := by
  unfold modField fieldByte
  grind

@[simp] theorem regField_fieldByte (md : BitVec 2) (k c : BitVec 3) : regField (fieldByte md k c) = k := by
  unfold regField fieldByte
  grind

@[simp] theorem rmField_fieldByte (md : BitVec 2) (k c : BitVec 3) : rmField (fieldByte md k c) = c :=
  BitVec.extractLsb'_append_eq_right

@[simp] theorem Reg.ofCode_code (r : Reg) : Reg.ofCode r.code = r := by cases r <;> rfl
@[simp] theorem SReg.ofCode_code (r : SReg) : SReg.ofCode r.code = some r := by cases r <;> rfl
@[simp] theorem Base16.ofCode_code (b : Base16) : Base16.ofCode b.code = b := by cases b <;> rfl
@[simp] theorem Scale.ofCode_code (s : Scale) : Scale.ofCode s.code = s := by cases s <;> rfl
@[simp] theorem stOf_stCode : ∀ i : StIdx, stOf (stCode i) = i := by decide

@[simp] theorem Reg.code_eq_four (r : Reg) : r.code = 4#3 ↔ r = .esp := by cases r <;> decide
@[simp] theorem Reg.code_eq_five (r : Reg) : r.code = 5#3 ↔ r = .ebp := by cases r <;> decide
@[simp] theorem Base16.code_eq_six (b : Base16) : b.code = 6#3 ↔ b = .bp := by cases b <;> decide

/-- A memory operand has an encoding, and it is one for this address size. -/
def Mem.Encodable (as : Size) (m : Mem) : Prop := m.wf = true ∧ m.as = as

/-- The same of an r/m operand. -/
def RM.Encodable (as : Size) : RM → Prop
  | .reg _ => True
  | .mem m => m.Encodable as

/-- What follows mod and r/m in 16-bit addressing. -/
theorem decodes_ind16 {b : Base16} {d : Disp 16} (h : (Mem.ind16 b d).wf = true) :
    Decodes (decodeMem16 d.md b.code) d.bytes16 (.ind16 b d) := by
  unfold decodeMem16
  cases d with
  | none =>
    have : b ≠ .bp := by simpa [Mem.wf] using h
    simpa [Disp.md, Disp.bytes16, this] using Decodes.pure
  | d8 d => simpa [Disp.md, Disp.bytes16] using Decodes.oneByte.map (f := fun x => Mem.ind16 b (.d8 x))
  | full d => simpa [Disp.md, Disp.bytes16] using (Decodes.word d).map (f := fun x => Mem.ind16 b (.full x))

/-- What follows mod and r/m in 32-bit addressing without an s-i-b byte. -/
theorem decodes_ind32 {b : Reg} {d : Disp 32} (h : (Mem.ind32 b d).wf = true) :
    Decodes (decodeMem32 d.md b.code) d.bytes32 (.ind32 b d) := by
  unfold decodeMem32
  simp only [Mem.wf, Bool.and_eq_true, decide_eq_true_eq] at h
  obtain ⟨sib, direct⟩ := h
  cases d with
  | none =>
    have : b ≠ .ebp := by simpa using direct
    simpa [Disp.md, Disp.bytes32, sib, this] using Decodes.pure
  | d8 d => simpa [Disp.md, Disp.bytes32, sib] using Decodes.oneByte.map (f := fun x => Mem.ind32 b (.d8 x))
  | full d => simpa [Disp.md, Disp.bytes32, sib] using (Decodes.dword d).map (f := fun x => Mem.ind32 b (.full x))

/-- What follows an s-i-b byte. -/
theorem decodes_sib {s : Scale} {i b : Reg} {d : Disp 32} (h : (Mem.sib s i b d).wf = true) :
    Decodes (decodeSib d.md (fieldByte s.code i.code b.code)) d.bytes32 (.sib s i b d) := by
  unfold decodeSib
  cases d with
  | none =>
    have : b ≠ .ebp := by simpa [Mem.wf] using h
    simpa [Disp.md, Disp.bytes32, this] using Decodes.pure
  | d8 d => simpa [Disp.md, Disp.bytes32] using Decodes.oneByte.map (f := fun x => Mem.sib s i b (.d8 x))
  | full d => simpa [Disp.md, Disp.bytes32] using (Decodes.dword d).map (f := fun x => Mem.sib s i b (.full x))

theorem decodes_sibAbs (s : Scale) (i : Reg) (d : Word32) :
    Decodes (decodeSib 0#2 (fieldByte s.code i.code 5#3)) (le32 d) (.sibAbs s i d) := by
  unfold decodeSib
  simpa using (Decodes.dword d).map (f := fun x => Mem.sibAbs s i x)

theorem Disp.md_ne_three {n : Nat} (d : Disp n) : d.md ≠ 3#2 := by cases d <;> simp [Disp.md]

/-- A memory operand is a mod r/m byte with the given reg field, and what the decoder takes after it. -/
theorem encodeMem_decodes {as : Size} {m : Mem} (h : m.Encodable as) (k : BitVec 3) :
    ∃ b t, encodeMem k m = b :: t ∧ regField b = k ∧ modField b ≠ 3#2 ∧ Decodes (decodeMem as b) t m := by
  obtain ⟨wf, rfl⟩ := h
  cases m with
  | abs16 d =>
    refine ⟨_, _, rfl, by simp, by simp, ?_⟩
    simpa [decodeMem, Mem.as, decodeMem16] using (Decodes.word d).map (f := Mem.abs16)
  | ind16 b d =>
    refine ⟨_, _, rfl, by simp, by simp [d.md_ne_three], ?_⟩
    simpa [decodeMem, Mem.as] using decodes_ind16 wf
  | abs32 d =>
    refine ⟨_, _, rfl, by simp, by simp, ?_⟩
    simpa [decodeMem, Mem.as, decodeMem32] using (Decodes.dword d).map (f := Mem.abs32)
  | ind32 b d =>
    refine ⟨_, _, rfl, by simp, by simp [d.md_ne_three], ?_⟩
    simpa [decodeMem, Mem.as] using decodes_ind32 wf
  | sib s i b d =>
    refine ⟨_, _, rfl, by simp, by simp [d.md_ne_three], ?_⟩
    simpa [decodeMem, Mem.as, decodeMem32] using (decodes_sib wf).byte (f := decodeSib d.md)
  | sibAbs s i d =>
    refine ⟨_, _, rfl, by simp, by simp, ?_⟩
    simpa [decodeMem, Mem.as, decodeMem32] using (decodes_sibAbs s i d).byte (f := decodeSib 0#2)

/-- The same of an r/m operand. -/
theorem encodeRM_decodes {as : Size} {x : RM} (h : x.Encodable as) (k : BitVec 3) :
    ∃ b t, encodeRM k x = b :: t ∧ regField b = k ∧ Decodes (decodeRM as b) t x := by
  cases x with
  | reg r =>
    refine ⟨_, _, rfl, by simp, ?_⟩
    simpa [decodeRM] using Decodes.pure
  | mem m =>
    obtain ⟨b, t, he, hk, hm, hd⟩ := encodeMem_decodes h k
    refine ⟨b, t, he, hk, ?_⟩
    simpa [decodeRM, hm] using hd.map (f := RM.mem)

end Sys2Proof
end

section
/-! SUPPORT. Operands in their decoders: what follows a mod r/m byte once its reg field is known. -/
namespace Sys2Proof

variable {α : Type} {as : Size} {D : Dec α} {k : BitVec 3} {op : Byte} {r : Reg} {x : RM} {m : Mem} {t : List Byte} {a : α}

/-- A decoder that goes on as another one after a byte. -/
theorem Decodes.after {D' : Dec α} (h : Decodes D' t a) (hd : ∀ l, D (op :: l) = D' l) : Decodes D (op :: t) a :=
  fun rest => (hd _).trans (h rest)

/-- An r/m operand under a reg field, then other fields. -/
theorem Decodes.rmThen (g : RM → Dec α) (hx : x.Encodable as) (h : Decodes (g x) t a)
    (hd : ∀ b l, regField b = k → D (b :: l) = (decodeRM as b >>= g) l) : Decodes D (encodeRM k x ++ t) a := by
  obtain ⟨b, u, he, hk, hb⟩ := encodeRM_decodes hx k
  rw [he]
  exact fun rest => (hd b _ hk).trans ((hb.bind h) rest)

/-- An r/m operand under a reg field. -/
theorem Decodes.rm (f : RM → α) (hx : x.Encodable as)
    (hd : ∀ b l, regField b = k → D (b :: l) = (decodeRM as b >>= fun y => Pure.pure (f y)) l) :
    Decodes D (encodeRM k x) (f x) := by
  simpa using Decodes.rmThen (t := []) (fun y => Pure.pure (f y)) hx .pure hd

/-- An r/m operand under a reg field, then a byte. -/
theorem Decodes.rmByte (f : RM → Byte → α) {v : Byte} (hx : x.Encodable as)
    (hd : ∀ b l, regField b = k → D (b :: l) = (decodeRM as b >>= fun y => nextByte >>= fun v => Pure.pure (f y v)) l) :
    Decodes D (encodeRM k x ++ [v]) (f x v) :=
  .rmThen _ hx (Decodes.map .oneByte) hd

/-- An r/m operand under a reg field, then an immediate. -/
theorem Decodes.rmImm (f : RM → Imm → α) {v : Imm} {w : Width} (hw : v.width = w) (hx : x.Encodable as)
    (hd : ∀ b l, regField b = k → D (b :: l) = (decodeRM as b >>= fun y => decodeImm w >>= fun v => Pure.pure (f y v)) l) :
    Decodes D (encodeRM k x ++ v.bytes) (f x v) :=
  .rmThen _ hx (Decodes.map (.imm hw)) hd

/-- A register and an r/m operand. -/
theorem Decodes.regRm (f : Reg → RM → α) (hx : x.Encodable as)
    (hd : ∀ b l, D (b :: l) = (decodeRM as b >>= fun y => Pure.pure (f (.ofCode (regField b)) y)) l) :
    Decodes D (encodeRM r.code x) (f r x) :=
  .rm (f r) hx fun b l hk => by rw [hd, hk, Reg.ofCode_code]

/-- A register and an r/m operand, then a byte. -/
theorem Decodes.regRmByte (f : Reg → RM → Byte → α) {v : Byte} (hx : x.Encodable as)
    (hd : ∀ b l, D (b :: l) =
      (decodeRM as b >>= fun y => nextByte >>= fun v => Pure.pure (f (.ofCode (regField b)) y v)) l) :
    Decodes D (encodeRM r.code x ++ [v]) (f r x v) :=
  .rmByte (f r) hx fun b l hk => by rw [hd, hk, Reg.ofCode_code]

/-- A register and an r/m operand, then an immediate. -/
theorem Decodes.regRmImm (f : Reg → RM → Imm → α) {v : Imm} {w : Width} (hw : v.width = w) (hx : x.Encodable as)
    (hd : ∀ b l, D (b :: l) =
      (decodeRM as b >>= fun y => decodeImm w >>= fun v => Pure.pure (f (.ofCode (regField b)) y v)) l) :
    Decodes D (encodeRM r.code x ++ v.bytes) (f r x v) :=
  .rmImm (f r) hw hx fun b l hk => by rw [hd, hk, Reg.ofCode_code]

/-- A memory operand under a reg field. -/
theorem Decodes.mem (f : Mem → α) (hm : m.Encodable as)
    (hd : ∀ b l, regField b = k → modField b ≠ 3#2 → D (b :: l) = (decodeMem as b >>= fun y => Pure.pure (f y)) l) :
    Decodes D (encodeMem k m) (f m) := by
  obtain ⟨b, u, he, hk, hb, h⟩ := encodeMem_decodes hm k
  rw [he]
  exact fun rest => (hd b _ hk hb).trans (h.map rest)

/-- The same, where a decoder refuses a register. -/
theorem Decodes.memOnly (f : Mem → α) (hm : m.Encodable as)
    (hd : ∀ b l, regField b = k → D (b :: l) = (decodeMemOnly as b >>= fun y => Pure.pure (f y)) l) :
    Decodes D (encodeMem k m) (f m) :=
  .mem f hm fun b l hk hb => by rw [hd b l hk, decodeMemOnly, if_neg hb]

/-- A register and a memory operand. -/
theorem Decodes.regMem (f : Reg → Mem → α) (hm : m.Encodable as)
    (hd : ∀ b l, D (b :: l) = (decodeMemOnly as b >>= fun y => Pure.pure (f (.ofCode (regField b)) y)) l) :
    Decodes D (encodeMem r.code m) (f r m) :=
  .memOnly (f r) hm fun b l hk => by rw [hd, hk, Reg.ofCode_code]

end Sys2Proof
end

section
/-! SUPPORT. What the encoding of an instruction needs, under sizes it is written for. -/
namespace Sys2Proof

/-- The sizes are those the instruction is encoded for, and an encoding exists. -/
structure Needs.Met (os as : Size) (n : Needs) : Prop where
  ok : n.ok = true
  mem : ∀ m, n.mem = some m → m.Encodable as
  os : ∀ z, n.os = some z → z = os
  as : ∀ z, n.as = some z → z = as

theorem needs_met {os as : Size} {i : Instr} (wf : i.wf = true) (fits : i.fits os as = true) : i.needs.Met os as := by
  simp only [Instr.wf, Instr.fits, Needs.asOk, Bool.and_eq_true, Option.all_eq_true, beq_iff_eq] at wf fits
  obtain ⟨ok, wf⟩ := wf
  obtain ⟨hos, has, sizes⟩ := fits
  exact ⟨ok, fun m h => ⟨wf m h, sizes m h⟩, hos, has⟩

variable {os as : Size} {n : Needs}

theorem Needs.Met.rm {x : RM} (h : n.Met os as) (e : n.mem = x.mem?) : x.Encodable as := by
  cases x with
  | reg r => trivial
  | mem m => exact h.mem m e

theorem Needs.Met.width {w : Width} (h : n.Met os as) (e : n.os = w.os) :
    (w.w = 0#1 ∧ w = .byte) ∨ (w.w = 1#1 ∧ w = os.width) := by
  cases w with
  | byte => exact .inl ⟨rfl, rfl⟩
  | word | dword => exact h.os _ e ▸ .inr ⟨rfl, rfl⟩

theorem Needs.Met.imm {v : Imm} (h : n.Met os as) (e : n.os = v.os) :
    (v.w = 0#1 ∧ v.width = .byte) ∨ (v.w = 1#1 ∧ v.width = os.width) := by
  cases v with
  | i8 => exact .inl ⟨rfl, rfl⟩
  | i16 | i32 => exact h.os _ e ▸ .inr ⟨rfl, rfl⟩

/-- An immediate that is no byte has the operand size. -/
theorem Needs.Met.fullImm {v : Imm} (h : n.Met os as) (e : n.os = v.os) (full : v.os.isSome = true) : v.width = os.width := by
  cases v with
  | i8 => cases full
  | i16 | i32 => exact h.os _ e ▸ rfl

end Sys2Proof
end

section
/-! SUPPORT. The integer instructions that share an encoding. -/
namespace Sys2Proof

variable {os as : Size}

/-- The codes of three bits. -/
theorem code_cases : ∀ k : BitVec 3,
    k = 0#3 ∨ k = 1#3 ∨ k = 2#3 ∨ k = 3#3 ∨ k = 4#3 ∨ k = 5#3 ∨ k = 6#3 ∨ k = 7#3 := by decide

theorem decodes_twoByte {l : List Byte} {i : Instr} (h : Decodes (decode0F os as) l i) :
    Decodes (decodeItem os as) (0x0F#8 :: l) i := h.after fun _ => rfl

/-! The opcodes that a code in the reg field completes (30_encoding.md R332). -/

theorem decodes_grp3 {n : Needs} {w : Width} {l : List Byte} {i : Instr} (h : n.Met os as) (hw : n.os = w.os)
    (hi : Decodes (decodeGrp3 as w) l i) : Decodes (decodeItem os as) ((0x7B#7 ++ w.w) :: l) i := by
  rcases h.width hw with ⟨e, rfl⟩ | ⟨e, rfl⟩ <;> rw [e] <;> exact hi.after fun _ => rfl

theorem decodes_grp5 {l : List Byte} {i : Instr} (h : Decodes (decodeGrp5 os as) l i) :
    Decodes (decodeItem os as) (0xFF#8 :: l) i := h.after fun _ => rfl

theorem decodes_grp6 {l : List Byte} {i : Instr} (h : Decodes (decodeGrp6 os as) l i) :
    Decodes (decodeItem os as) (0x0F#8 :: 0x00#8 :: l) i := decodes_twoByte (h.after fun _ => rfl)

theorem decodes_grp7 {l : List Byte} {i : Instr} (h : Decodes (decodeGrp7 os as) l i) :
    Decodes (decodeItem os as) (0x0F#8 :: 0x01#8 :: l) i := decodes_twoByte (h.after fun _ => rfl)

/-! The families of the encoder. -/

theorem alu_decodes {k : BitVec 3} {f : AluForm} (h : f.needs.Met os as) :
    Decodes (decodeItem os as) (encodeAlu k f) (aluInstr k f) := by
  cases f with
  | acc v =>
    rcases h.imm rfl with ⟨e, hv⟩ | ⟨e, hv⟩ <;> rw [encodeAlu, e] <;>
    rcases code_cases k with rfl | rfl | rfl | rfl | rfl | rfl | rfl | rfl <;>
    exact .after (Decodes.map (f := fun v => aluInstr _ (.acc v)) (.imm hv)) fun _ => rfl
  | rmImm x v =>
    rcases h.imm rfl with ⟨e, hv⟩ | ⟨e, hv⟩ <;> rw [encodeAlu, e] <;>
    exact .after (.rmImm (fun y v => aluInstr k (.rmImm y v)) hv (h.rm rfl) fun b l hk => hk ▸ rfl) fun _ => rfl
  | rmImm8 z x v =>
    cases h.os _ rfl
    exact .after (.rmByte (fun y v => aluInstr k (.rmImm8 os y v)) (h.rm rfl) fun b l hk => hk ▸ rfl) fun _ => rfl
  | rmReg w x r =>
    rcases h.width rfl with ⟨e, rfl⟩ | ⟨e, rfl⟩ <;> rw [encodeAlu, e] <;>
    rcases code_cases k with rfl | rfl | rfl | rfl | rfl | rfl | rfl | rfl <;>
    exact .after (.regRm (fun r y => aluInstr _ (.rmReg _ y r)) (h.rm rfl) fun _ _ => rfl) fun _ => rfl
  | regRm w r x =>
    rcases h.width rfl with ⟨e, rfl⟩ | ⟨e, rfl⟩ <;> rw [encodeAlu, e] <;>
    rcases code_cases k with rfl | rfl | rfl | rfl | rfl | rfl | rfl | rfl <;>
    exact .after (.regRm (fun r y => aluInstr _ (.regRm _ r y)) (h.rm rfl) fun _ _ => rfl) fun _ => rfl

/-- A shift or rotate whose code is not the undefined /6. -/
theorem shift_decodes {k : BitVec 3} {w : Width} {x : RM} {c : Count} {n : Needs} {i : Instr} (h : n.Met os as)
    (hx : n.mem = x.mem?) (hw : n.os = w.os) (hk : k ≠ 6#3) (hi : shiftInstr k w x c = pure i) :
    Decodes (decodeItem os as) (encodeShift k w x c) i := by
  have shifted : Decodes (shiftInstr k w x c) [] i := hi ▸ .pure
  rcases h.width hw with ⟨e, rfl⟩ | ⟨e, rfl⟩ <;> cases c <;> rw [encodeShift, e]
  case inl.one | inl.cl | inr.one | inr.cl =>
    rw [← List.append_nil (encodeRM k x)]
    exact .after (.rmThen (fun y => shiftInstr k _ y _) (h.rm hx) shifted
      fun b l hb => by subst hb; exact congrFun (if_neg hk) l) fun _ => rfl
  case inl.imm v | inr.imm v =>
    exact .after (.rmThen (fun y => nextByte >>= fun v => shiftInstr k _ y (.imm v)) (h.rm hx) shifted.byte
      fun b l hb => by subst hb; exact congrFun (if_neg hk) l) fun _ => rfl

/-- BT and its like: a two-byte opcode, or a code of group 8. -/
theorem bit_decodes {op : Byte} {k : BitVec 3} {f : BitForm} (mk : BitForm → Instr) (h : f.needs.Met os as)
    (hr : ∀ b l, decode0F os as (op :: b :: l) = (decodeRM as b >>= fun y => pure (mk (.reg os y (.ofCode (regField b))))) l)
    (hi : ∀ b l, regField b = k →
      decodeGrp8 os as (b :: l) = (decodeRM as b >>= fun y => nextByte >>= fun v => pure (mk (.imm os y v))) l) :
    Decodes (decodeItem os as) (encodeBit op k f) (mk f) := by
  cases f with
  | reg z x r =>
    cases h.os _ rfl
    exact decodes_twoByte (.after (.regRm (fun r y => mk (.reg os y r)) (h.rm rfl) hr) fun _ => rfl)
  | imm z x v =>
    cases h.os _ rfl
    exact decodes_twoByte (.after (.rmByte (fun y v => mk (.imm os y v)) (h.rm rfl) hi) fun _ => rfl)

/-- INC and DEC: a code of groups 4 and 5, or a register in the opcode. -/
theorem inc_decodes {k : BitVec 3} {f : IncForm} (mk : IncForm → Instr) (h : f.needs.Met os as)
    (h4 : ∀ b l, regField b = k → decodeGrp4 as (b :: l) = (decodeRM as b >>= fun y => pure (mk (.rm .byte y))) l)
    (h5 : ∀ b l, regField b = k → decodeGrp5 os as (b :: l) = (decodeRM as b >>= fun y => pure (mk (.rm os.width y))) l)
    (hr : ∀ r l, decodeItem os as ((4#4 ++ k.extractLsb' 0 1 ++ Reg.code r : Byte) :: l) = .ok (mk (.reg os r)) l) :
    Decodes (decodeItem os as) (encodeInc k f) (mk f) := by
  cases f with
  | rm w x =>
    rcases h.width rfl with ⟨e, rfl⟩ | ⟨e, rfl⟩ <;> rw [encodeInc, e]
    · exact .after (.rm (fun y => mk (.rm .byte y)) (h.rm rfl) h4) fun _ => rfl
    · exact .after (.rm (fun y => mk (.rm os.width y)) (h.rm rfl) h5) fun _ => rfl
  | reg z r =>
    cases h.os _ rfl
    exact hr r

/-- SHLD and SHRD. -/
theorem dshift_decodes {op : Byte} {x : RM} {r : Reg} {c : DCount} (mk : RM → Reg → DCount → Instr) (hx : x.Encodable as)
    (hi : ∀ b l, decode0F os as (op :: b :: l) =
      (decodeRM as b >>= fun y => nextByte >>= fun v => pure (mk y (.ofCode (regField b)) (.imm v))) l)
    (hc : ∀ b l, decode0F os as ((op + 1#8) :: b :: l) =
      (decodeRM as b >>= fun y => pure (mk y (.ofCode (regField b)) .cl)) l) :
    Decodes (decodeItem os as) (encodeDShift op x r c) (mk x r c) := by
  cases c with
  | imm v => exact decodes_twoByte (.after (.regRmByte (fun r y v => mk y r (.imm v)) hx hi) fun _ => rfl)
  | cl => exact decodes_twoByte (.after (.regRm (fun r y => mk y r .cl) hx hc) fun _ => rfl)

/-- The codes of the conditional jumps and of SETcc. -/
theorem tttn_opcodes : ∀ c : BitVec 4,
    prefixOf (7#4 ++ c) = none ∧ (7#4 ++ c).toNat / 16 = 7 ∧ (7#4 ++ c).extractLsb' 0 4 = c ∧
    (8#4 ++ c).toNat / 16 = 8 ∧ (8#4 ++ c).extractLsb' 0 4 = c ∧
    (9#4 ++ c).toNat / 16 = 9 ∧ (9#4 ++ c).extractLsb' 0 4 = c := by decide

theorem decodeItem_jccShort (c : BitVec 4) (l : List Byte) : decodeItem os as ((7#4 ++ c) :: l) =
    (decodeRel8 os >>= fun d => pure (jccInstr c d)) l := by
  obtain ⟨hp, hd, hc, -⟩ := tttn_opcodes c
  simp [decodeItem, hp, decodeBody, hd, hc]

theorem decode0F_jcc (c : BitVec 4) (l : List Byte) : decode0F os as ((8#4 ++ c) :: l) =
    (decodeRel os >>= fun d => pure (jccInstr c d)) l := by
  obtain ⟨-, -, -, hd, hc, -⟩ := tttn_opcodes c
  simp [decode0F, hd, hc]

theorem decode0F_setcc (c : BitVec 4) (b : Byte) (l : List Byte) : decode0F os as ((9#4 ++ c) :: b :: l) =
    (decodeRM as b >>= fun y => pure (setccInstr c y)) l := by
  obtain ⟨-, -, -, -, -, hd, hc⟩ := tttn_opcodes c
  simp [decode0F, hd, hc]

theorem jcc_decodes {c : BitVec 4} {d : Rel} (h : d.os = os) :
    Decodes (decodeItem os as) (encodeJcc c d) (jccInstr c d) := by
  subst h
  cases d with
  | r8 z d => exact .after (Decodes.map (f := jccInstr c) (Decodes.map (f := Rel.r8 z) .oneByte)) (decodeItem_jccShort c)
  | r16 d => exact decodes_twoByte (.after (Decodes.map (f := jccInstr c) (Decodes.map (.word d))) (decode0F_jcc c))
  | r32 d => exact decodes_twoByte (.after (Decodes.map (f := jccInstr c) (Decodes.map (.dword d))) (decode0F_jcc c))

theorem setcc_decodes {c : BitVec 4} {x : RM} (h : x.Encodable as) :
    Decodes (decodeItem os as) (encodeSet c x) (setccInstr c x) :=
  decodes_twoByte (.after (.rm (setccInstr c) h fun b l _ => decode0F_setcc c b l) fun _ => rfl)

theorem mov_decodes {f : MovForm} (h : f.needs.Met os as) : Decodes (decodeItem os as) (encodeMov f) (.mov f) := by
  cases f with
  | rmReg w x r =>
    rcases h.width rfl with ⟨e, rfl⟩ | ⟨e, rfl⟩ <;> rw [encodeMov, e] <;>
    exact .after (.regRm (fun r y => Instr.mov (.rmReg _ y r)) (h.rm rfl) fun _ _ => rfl) fun _ => rfl
  | regRm w r x =>
    rcases h.width rfl with ⟨e, rfl⟩ | ⟨e, rfl⟩ <;> rw [encodeMov, e] <;>
    exact .after (.regRm (fun r y => Instr.mov (.regRm _ r y)) (h.rm rfl) fun _ _ => rfl) fun _ => rfl
  | accMoffs w o =>
    cases h.as _ rfl
    rcases h.width rfl with ⟨e, rfl⟩ | ⟨e, rfl⟩ <;> rw [encodeMov, e] <;>
    exact .after (Decodes.map (f := fun o => Instr.mov (.accMoffs _ o)) (.offset o)) fun _ => rfl
  | moffsAcc w o =>
    cases h.as _ rfl
    rcases h.width rfl with ⟨e, rfl⟩ | ⟨e, rfl⟩ <;> rw [encodeMov, e] <;>
    exact .after (Decodes.map (f := fun o => Instr.mov (.moffsAcc _ o)) (.offset o)) fun _ => rfl
  | regImm r v =>
    rcases h.imm rfl with ⟨e, hv⟩ | ⟨e, hv⟩ <;> rw [encodeMov, e] <;> cases r <;>
    exact .after (Decodes.map (f := fun v => Instr.mov (.regImm _ v)) (.imm hv)) fun _ => rfl
  | rmImm x v =>
    rcases h.imm rfl with ⟨e, hv⟩ | ⟨e, hv⟩ <;> rw [encodeMov, e] <;>
    exact .after (.rmImm (fun y v => Instr.mov (.rmImm y v)) hv (h.rm rfl) fun b l hk => congrFun (if_pos hk) l) fun _ => rfl

theorem decodeSeg_code (s : SReg) : decodeSeg s.code = pure s := by simp [decodeSeg]

theorem movFromSeg_opcode (s : SReg) (b : Byte) (l : List Byte) (hk : regField b = s.code) :
    decodeItem os as (0x8C#8 :: b :: l) = (decodeRM as b >>= fun y => pure (.movFromSeg os y s)) l := by
  show (decodeSeg (regField b) >>= fun s => decodeRM as b >>= fun y => pure (Instr.movFromSeg os y s)) l = _
  rw [hk, decodeSeg_code, pure_bind]

/-- MOV to a segment register; CS is none of them. -/
theorem movToSeg_opcode {s : SReg} (h : s ≠ .cs) (b : Byte) (l : List Byte) (hk : regField b = s.code) :
    decodeItem os as (0x8E#8 :: b :: l) = (decodeRM as b >>= fun y => pure (.movToSeg s y)) l := by
  show (decodeSeg (regField b) >>= fun s =>
    if s = .cs then throw .undefined else decodeRM as b >>= fun y => pure (Instr.movToSeg s y)) l = _
  rw [hk, decodeSeg_code, pure_bind, if_neg h]

theorem pushSeg_decodes (s : SReg) : Decodes (decodeItem os as) (encodePushSeg s) (.pushSeg os s) := by
  cases s <;> exact fun _ => rfl

theorem popSeg_decodes {s : SReg} (h : s ≠ .cs) : Decodes (decodeItem os as) (encodePopSeg s) (.popSeg os s) := by
  cases s
  case cs => exact absurd rfl h
  all_goals exact fun _ => rfl

end Sys2Proof
end

section
/-! SUPPORT. The floating-point instructions that share an encoding (spec/45_fpu_common.md R690, R693). -/
namespace Sys2Proof

variable {os as : Size}

/-! What an escape opcode decodes by: mod 11 is a register form, any other a memory form. -/

section
variable {b : Byte} {l : List Byte}

theorem decodeItem_D8_reg (h : modField b = 3#2) : decodeItem os as (0xD8#8 :: b :: l) = (pure (escD8Reg b) : Dec Instr) l :=
  congrFun (if_pos h) l
theorem decodeItem_D9_reg (h : modField b = 3#2) : decodeItem os as (0xD9#8 :: b :: l) = escD9Reg b l :=
  congrFun (if_pos h) l
theorem decodeItem_DC_reg (h : modField b = 3#2) : decodeItem os as (0xDC#8 :: b :: l) = escDCReg b l :=
  congrFun (if_pos h) l
theorem decodeItem_DD_reg (h : modField b = 3#2) : decodeItem os as (0xDD#8 :: b :: l) = escDDReg b l :=
  congrFun (if_pos h) l
theorem decodeItem_DE_reg (h : modField b = 3#2) : decodeItem os as (0xDE#8 :: b :: l) = escDEReg b l :=
  congrFun (if_pos h) l

theorem decodeItem_D8_mem (h : modField b ≠ 3#2) : decodeItem os as (0xD8#8 :: b :: l) =
    (decodeMem as b >>= fun m => pure (farithMem (regField b) false m)) l := congrFun (if_neg h) l
theorem decodeItem_D9_mem (h : modField b ≠ 3#2) : decodeItem os as (0xD9#8 :: b :: l) = escD9Mem os as b l :=
  congrFun (if_neg h) l
theorem decodeItem_DA_mem (h : modField b ≠ 3#2) : decodeItem os as (0xDA#8 :: b :: l) =
    (decodeMem as b >>= fun m => pure (fiarith (regField b) (.m32 m))) l := congrFun (if_neg h) l
theorem decodeItem_DB_mem (h : modField b ≠ 3#2) : decodeItem os as (0xDB#8 :: b :: l) = escDBMem as b l :=
  congrFun (if_neg h) l
theorem decodeItem_DC_mem (h : modField b ≠ 3#2) : decodeItem os as (0xDC#8 :: b :: l) =
    (decodeMem as b >>= fun m => pure (farithMem (regField b) true m)) l := congrFun (if_neg h) l
theorem decodeItem_DD_mem (h : modField b ≠ 3#2) : decodeItem os as (0xDD#8 :: b :: l) = escDDMem os as b l :=
  congrFun (if_neg h) l
theorem decodeItem_DE_mem (h : modField b ≠ 3#2) : decodeItem os as (0xDE#8 :: b :: l) =
    (decodeMem as b >>= fun m => pure (fiarith (regField b) (.m16 m))) l := congrFun (if_neg h) l
theorem decodeItem_DF_mem (h : modField b ≠ 3#2) : decodeItem os as (0xDF#8 :: b :: l) = escDFMem as b l :=
  congrFun (if_neg h) l

end

/-- A register form of an escape opcode: the stack element is in the r/m field. -/
theorem decodes_escReg {op : Byte} {k : BitVec 3} {i : StIdx} {E : Byte → Dec Instr} (f : StIdx → Instr)
    (he : ∀ {b l}, modField b = 3#2 → decodeItem os as (op :: b :: l) = E b l)
    (hd : ∀ b, regField b = k → E b = pure (f (stOf (rmField b)))) :
    Decodes (decodeItem os as) [op, fieldByte 3#2 k (stCode i)] (f i) := by
  intro rest
  have hb := hd (fieldByte 3#2 k (stCode i)) (regField_fieldByte ..)
  rw [rmField_fieldByte, stOf_stCode] at hb
  exact (he (modField_fieldByte ..)).trans (congrFun hb rest)

/-- A memory form of an escape opcode. -/
theorem decodes_escMem {op : Byte} {k : BitVec 3} {m : Mem} {E : Byte → Dec Instr} (f : Mem → Instr) (hm : m.Encodable as)
    (he : ∀ {b l}, modField b ≠ 3#2 → decodeItem os as (op :: b :: l) = E b l)
    (hd : ∀ b, regField b = k → E b = decodeMem as b >>= fun y => pure (f y)) :
    Decodes (decodeItem os as) (op :: encodeMem k m) (f m) :=
  .after (.mem f hm fun b l hk hb => (he hb).trans (congrFun (hd b hk) l)) fun _ => rfl

/-- FADD, FMUL, FSUB, FSUBR, FDIV and FDIVR; the form that writes ST(i) has a code of its own. -/
theorem farith_decodes {k kr : BitVec 3} {f : FArith} (mk : FArith → Instr) (h : f.needs.Met os as)
    (hm : ∀ m, farithMem k false m = mk (.m32 m) ∧ farithMem k true m = mk (.m64 m))
    (h8 : ∀ b, regField b = k → escD8Reg b = mk (.toSt (stOf (rmField b))))
    (hC : ∀ b, regField b = kr → escDCReg b = pure (mk (.toSti (stOf (rmField b))))) :
    Decodes (decodeItem os as) (encodeFArith k kr f) (mk f) := by
  cases f with
  | m32 m =>
    exact decodes_escMem (fun m => mk (.m32 m)) (h.mem _ rfl) decodeItem_D8_mem fun b hk => by simp only [hk, (hm _).1]
  | m64 m =>
    exact decodes_escMem (fun m => mk (.m64 m)) (h.mem _ rfl) decodeItem_DC_mem fun b hk => by simp only [hk, (hm _).2]
  | toSt i => exact decodes_escReg (fun i => mk (.toSt i)) decodeItem_D8_reg fun b hk => by rw [h8 b hk]
  | toSti i => exact decodes_escReg (fun i => mk (.toSti i)) decodeItem_DC_reg hC

/-- FCOM and FCOMP. -/
theorem fcmp_decodes {k : BitVec 3} {f : FCmp} (mk : FCmp → Instr) (h : f.needs.Met os as)
    (hm : ∀ m, farithMem k false m = mk (.m32 m) ∧ farithMem k true m = mk (.m64 m))
    (h8 : ∀ b, regField b = k → escD8Reg b = mk (.st (stOf (rmField b)))) :
    Decodes (decodeItem os as) (encodeFCmp k f) (mk f) := by
  cases f with
  | m32 m =>
    exact decodes_escMem (fun m => mk (.m32 m)) (h.mem _ rfl) decodeItem_D8_mem fun b hk => by simp only [hk, (hm _).1]
  | m64 m =>
    exact decodes_escMem (fun m => mk (.m64 m)) (h.mem _ rfl) decodeItem_DC_mem fun b hk => by simp only [hk, (hm _).2]
  | st i => exact decodes_escReg (fun i => mk (.st i)) decodeItem_D8_reg fun b hk => by rw [h8 b hk]

/-- FIADD and its like. -/
theorem fint_decodes {k : BitVec 3} {f : FInt} (h : f.needs.Met os as) :
    Decodes (decodeItem os as) (encodeFInt k f) (fiarith k f) := by
  cases f with
  | m16 m => exact decodes_escMem (fun m => fiarith k (.m16 m)) (h.mem _ rfl) decodeItem_DE_mem fun b hk => by rw [hk]
  | m32 m => exact decodes_escMem (fun m => fiarith k (.m32 m)) (h.mem _ rfl) decodeItem_DA_mem fun b hk => by rw [hk]

theorem fild_decodes {f : FIntL} (h : f.needs.Met os as) : Decodes (decodeItem os as) (encode (.fild f)) (.fild f) := by
  cases f with
  | m16 m =>
    exact decodes_escMem (fun m => .fild (.m16 m)) (h.mem _ rfl) decodeItem_DF_mem fun b hk => by rw [escDFMem, hk]; rfl
  | m32 m =>
    exact decodes_escMem (fun m => .fild (.m32 m)) (h.mem _ rfl) decodeItem_DB_mem fun b hk => by rw [escDBMem, hk]; rfl
  | m64 m =>
    exact decodes_escMem (fun m => .fild (.m64 m)) (h.mem _ rfl) decodeItem_DF_mem fun b hk => by rw [escDFMem, hk]; rfl

theorem fist_decodes {f : FInt} (h : f.needs.Met os as) : Decodes (decodeItem os as) (encode (.fist f)) (.fist f) := by
  cases f with
  | m16 m =>
    exact decodes_escMem (fun m => .fist (.m16 m)) (h.mem _ rfl) decodeItem_DF_mem fun b hk => by rw [escDFMem, hk]; rfl
  | m32 m =>
    exact decodes_escMem (fun m => .fist (.m32 m)) (h.mem _ rfl) decodeItem_DB_mem fun b hk => by rw [escDBMem, hk]; rfl

theorem fistp_decodes {f : FIntL} (h : f.needs.Met os as) : Decodes (decodeItem os as) (encode (.fistp f)) (.fistp f) := by
  cases f with
  | m16 m =>
    exact decodes_escMem (fun m => .fistp (.m16 m)) (h.mem _ rfl) decodeItem_DF_mem fun b hk => by rw [escDFMem, hk]; rfl
  | m32 m =>
    exact decodes_escMem (fun m => .fistp (.m32 m)) (h.mem _ rfl) decodeItem_DB_mem fun b hk => by rw [escDBMem, hk]; rfl
  | m64 m =>
    exact decodes_escMem (fun m => .fistp (.m64 m)) (h.mem _ rfl) decodeItem_DF_mem fun b hk => by rw [escDFMem, hk]; rfl

theorem fld_decodes {f : FLdSt} (h : f.needs.Met os as) : Decodes (decodeItem os as) (encode (.fld f)) (.fld f) := by
  cases f with
  | m32 m =>
    exact decodes_escMem (fun m => .fld (.m32 m)) (h.mem _ rfl) decodeItem_D9_mem fun b hk => by rw [escD9Mem, hk]; rfl
  | m64 m =>
    exact decodes_escMem (fun m => .fld (.m64 m)) (h.mem _ rfl) decodeItem_DD_mem fun b hk => by rw [escDDMem, hk]; rfl
  | m80 m =>
    exact decodes_escMem (fun m => .fld (.m80 m)) (h.mem _ rfl) decodeItem_DB_mem fun b hk => by rw [escDBMem, hk]; rfl
  | st i => exact decodes_escReg (fun i => .fld (.st i)) decodeItem_D9_reg fun b hk => by rw [escD9Reg, hk]; rfl

theorem fst_decodes {f : FStForm} (h : f.needs.Met os as) : Decodes (decodeItem os as) (encode (.fst f)) (.fst f) := by
  cases f with
  | m32 m =>
    exact decodes_escMem (fun m => .fst (.m32 m)) (h.mem _ rfl) decodeItem_D9_mem fun b hk => by rw [escD9Mem, hk]; rfl
  | m64 m =>
    exact decodes_escMem (fun m => .fst (.m64 m)) (h.mem _ rfl) decodeItem_DD_mem fun b hk => by rw [escDDMem, hk]; rfl
  | st i => exact decodes_escReg (fun i => .fst (.st i)) decodeItem_DD_reg fun b hk => by rw [escDDReg, hk]; rfl

theorem fstp_decodes {f : FLdSt} (h : f.needs.Met os as) : Decodes (decodeItem os as) (encode (.fstp f)) (.fstp f) := by
  cases f with
  | m32 m =>
    exact decodes_escMem (fun m => .fstp (.m32 m)) (h.mem _ rfl) decodeItem_D9_mem fun b hk => by rw [escD9Mem, hk]; rfl
  | m64 m =>
    exact decodes_escMem (fun m => .fstp (.m64 m)) (h.mem _ rfl) decodeItem_DD_mem fun b hk => by rw [escDDMem, hk]; rfl
  | m80 m =>
    exact decodes_escMem (fun m => .fstp (.m80 m)) (h.mem _ rfl) decodeItem_DB_mem fun b hk => by rw [escDBMem, hk]; rfl
  | st i => exact decodes_escReg (fun i => .fstp (.st i)) decodeItem_DD_reg fun b hk => by rw [escDDReg, hk]; rfl

end Sys2Proof
end

section
/-! SUPPORT. The other instructions that have several forms. -/
namespace Sys2Proof

variable {os as : Size}

theorem imul_decodes {f : ImulForm} (h : f.needs.Met os as) : Decodes (decodeItem os as) (encode (.imul f)) (.imul f) := by
  cases f with
  | one w x =>
    exact decodes_grp3 h rfl (.rm (fun y => Instr.imul (.one w y)) (h.rm rfl) fun b l hk => by
      rw [decodeGrp3, nextByte_then, hk]; rfl)
  | two z r x =>
    cases h.os _ rfl
    exact decodes_twoByte (.after (.regRm (fun r y => Instr.imul (.two os r y)) (h.rm rfl) fun _ _ => rfl) fun _ => rfl)
  | three8 z r x v =>
    cases h.os _ rfl
    exact .after (.regRmByte (fun r y v => Instr.imul (.three8 os r y v)) (h.rm rfl) fun _ _ => rfl) fun _ => rfl
  | three r x v =>
    exact .after (.regRmImm (fun r y v => Instr.imul (.three r y v)) (h.fullImm rfl h.ok) (h.rm rfl) fun _ _ => rfl) fun _ => rfl

theorem push_decodes {f : PushForm} (h : f.needs.Met os as) : Decodes (decodeItem os as) (encode (.push f)) (.push f) := by
  cases f with
  | rm z x =>
    cases h.os _ rfl
    exact decodes_grp5 (.rm (fun y => Instr.push (.rm os y)) (h.rm rfl) fun b l hk => by
      rw [decodeGrp5, nextByte_then, hk]; rfl)
  | reg z r =>
    cases h.os _ rfl
    cases r <;> exact fun _ => rfl
  | imm8 z v =>
    cases h.os _ rfl
    exact fun _ => rfl
  | imm v =>
    exact .after (Decodes.map (f := fun v => Instr.push (.imm v)) (.imm (h.fullImm rfl h.ok))) fun _ => rfl

theorem pop_decodes {f : PopForm} (h : f.needs.Met os as) : Decodes (decodeItem os as) (encode (.pop f)) (.pop f) := by
  cases f with
  | rm z x =>
    cases h.os _ rfl
    exact .after (.rm (fun y => Instr.pop (.rm os y)) (h.rm rfl) fun b l hk => congrFun (if_pos hk) l) fun _ => rfl
  | reg z r =>
    cases h.os _ rfl
    cases r <;> exact fun _ => rfl

theorem inp_decodes {f : IoForm} (h : f.needs.Met os as) : Decodes (decodeItem os as) (encode (.inp f)) (.inp f) := by
  cases f with
  | imm w p => rcases h.width rfl with ⟨e, rfl⟩ | ⟨e, rfl⟩ <;> rw [encode, e] <;> exact fun _ => rfl
  | dx w => rcases h.width rfl with ⟨e, rfl⟩ | ⟨e, rfl⟩ <;> rw [encode, e] <;> exact fun _ => rfl

theorem outp_decodes {f : IoForm} (h : f.needs.Met os as) : Decodes (decodeItem os as) (encode (.outp f)) (.outp f) := by
  cases f with
  | imm w p => rcases h.width rfl with ⟨e, rfl⟩ | ⟨e, rfl⟩ <;> rw [encode, e] <;> exact fun _ => rfl
  | dx w => rcases h.width rfl with ⟨e, rfl⟩ | ⟨e, rfl⟩ <;> rw [encode, e] <;> exact fun _ => rfl

theorem test_decodes {f : TestForm} (h : f.needs.Met os as) : Decodes (decodeItem os as) (encode (.test f)) (.test f) := by
  cases f with
  | acc v =>
    rcases h.imm rfl with ⟨e, hv⟩ | ⟨e, hv⟩ <;> rw [encode, e] <;>
    exact .after (Decodes.map (f := fun v => Instr.test (.acc v)) (.imm hv)) fun _ => rfl
  | rmImm x v =>
    have hw : v.w = v.width.w ∧ v.os = v.width.os := by cases v <;> exact ⟨rfl, rfl⟩
    rw [encode, hw.1]
    exact decodes_grp3 h hw.2 (.rmImm (fun y v => Instr.test (.rmImm y v)) rfl (h.rm rfl) fun b l hk => by
      rw [decodeGrp3, nextByte_then, hk]; rfl)
  | rmReg w x r =>
    rcases h.width rfl with ⟨e, rfl⟩ | ⟨e, rfl⟩ <;> rw [encode, e] <;>
    exact .after (.regRm (fun r y => Instr.test (.rmReg _ y r)) (h.rm rfl) fun _ _ => rfl) fun _ => rfl

theorem xchg_decodes {f : XchgForm} (h : f.needs.Met os as) : Decodes (decodeItem os as) (encode (.xchg f)) (.xchg f) := by
  cases f with
  | acc z r =>
    cases h.os _ rfl
    cases r
    case eax => exact nomatch (show false = true from h.ok)
    all_goals exact fun _ => rfl
  | rm w x r =>
    rcases h.width rfl with ⟨e, rfl⟩ | ⟨e, rfl⟩ <;> rw [encode, e] <;>
    exact .after (.regRm (fun r y => Instr.xchg (.rm _ y r)) (h.rm rfl) fun _ _ => rfl) fun _ => rfl

theorem movsx_decodes {f : ExtForm} (h : f.needs.Met os as) : Decodes (decodeItem os as) (encode (.movsx f)) (.movsx f) := by
  cases f with
  | byte z r x =>
    cases h.os _ rfl
    exact decodes_twoByte (.after (.regRm (fun r y => Instr.movsx (.byte os r y)) (h.rm rfl) fun _ _ => rfl) fun _ => rfl)
  | word z r x =>
    cases h.os _ rfl
    exact decodes_twoByte (.after (.regRm (fun r y => Instr.movsx (.word os r y)) (h.rm rfl) fun _ _ => rfl) fun _ => rfl)

theorem movzx_decodes {f : ExtForm} (h : f.needs.Met os as) : Decodes (decodeItem os as) (encode (.movzx f)) (.movzx f) := by
  cases f with
  | byte z r x =>
    cases h.os _ rfl
    exact decodes_twoByte (.after (.regRm (fun r y => Instr.movzx (.byte os r y)) (h.rm rfl) fun _ _ => rfl) fun _ => rfl)
  | word z r x =>
    cases h.os _ rfl
    exact decodes_twoByte (.after (.regRm (fun r y => Instr.movzx (.word os r y)) (h.rm rfl) fun _ _ => rfl) fun _ => rfl)

theorem callNear_decodes {f : NearForm} (h : (Instr.callNear f).needs.Met os as) :
    Decodes (decodeItem os as) (encode (.callNear f)) (.callNear f) := by
  cases f with
  | rel d =>
    cases h.os _ rfl
    cases d with
    | r8 => exact nomatch (show false = true from h.ok)
    | r16 v =>
      exact .after (Decodes.map (f := fun d => Instr.callNear (.rel d)) (Decodes.map (.word v))) fun _ => rfl
    | r32 v =>
      exact .after (Decodes.map (f := fun d => Instr.callNear (.rel d)) (Decodes.map (.dword v))) fun _ => rfl
  | ind z x =>
    cases h.os _ rfl
    exact decodes_grp5 (.rm (fun y => Instr.callNear (.ind os y)) (h.rm rfl) fun b l hk => by
      rw [decodeGrp5, nextByte_then, hk]; rfl)

theorem jmpNear_decodes {f : NearForm} (h : f.needs.Met os as) :
    Decodes (decodeItem os as) (encode (.jmpNear f)) (.jmpNear f) := by
  cases f with
  | rel d =>
    cases h.os _ rfl
    cases d with
    | r8 => exact fun _ => rfl
    | r16 v => exact .after (Decodes.map (f := fun d => Instr.jmpNear (.rel d)) (Decodes.map (.word v))) fun _ => rfl
    | r32 v => exact .after (Decodes.map (f := fun d => Instr.jmpNear (.rel d)) (Decodes.map (.dword v))) fun _ => rfl
  | ind z x =>
    cases h.os _ rfl
    exact decodes_grp5 (.rm (fun y => Instr.jmpNear (.ind os y)) (h.rm rfl) fun b l hk => by
      rw [decodeGrp5, nextByte_then, hk]; rfl)

theorem callFar_decodes {f : FarForm} (h : f.needs.Met os as) :
    Decodes (decodeItem os as) (encode (.callFar f)) (.callFar f) := by
  cases f with
  | ptr o x =>
    cases h.os _ rfl
    exact .after (Decodes.map (f := Instr.callFar) (.ptr o x)) fun _ => rfl
  | mem z m =>
    cases h.os _ rfl
    exact decodes_grp5 (.memOnly (fun m => Instr.callFar (.mem os m)) (h.mem _ rfl) fun b l hk => by
      rw [decodeGrp5, nextByte_then, hk]; rfl)

theorem jmpFar_decodes {f : FarForm} (h : f.needs.Met os as) :
    Decodes (decodeItem os as) (encode (.jmpFar f)) (.jmpFar f) := by
  cases f with
  | ptr o x =>
    cases h.os _ rfl
    exact .after (Decodes.map (f := Instr.jmpFar) (.ptr o x)) fun _ => rfl
  | mem z m =>
    cases h.os _ rfl
    exact decodes_grp5 (.memOnly (fun m => Instr.jmpFar (.mem os m)) (h.mem _ rfl) fun b l hk => by
      rw [decodeGrp5, nextByte_then, hk]; rfl)

theorem retNear_decodes {f : RetForm} (h : f.needs.Met os as) :
    Decodes (decodeItem os as) (encode (.retNear f)) (.retNear f) := by
  cases f with
  | plain z =>
    cases h.os _ rfl
    exact fun _ => rfl
  | imm z n =>
    cases h.os _ rfl
    exact .after (Decodes.map (f := fun n => Instr.retNear (.imm os n)) (.word n)) fun _ => rfl

theorem retFar_decodes {f : RetForm} (h : f.needs.Met os as) :
    Decodes (decodeItem os as) (encode (.retFar f)) (.retFar f) := by
  cases f with
  | plain z =>
    cases h.os _ rfl
    exact fun _ => rfl
  | imm z n =>
    cases h.os _ rfl
    exact .after (Decodes.map (f := fun n => Instr.retFar (.imm os n)) (.word n)) fun _ => rfl

end Sys2Proof
end

section
/-! Decoding the encoding of an instruction; O50. -/
namespace Sys2Proof

variable {os as : Size}

/-- The decoder takes the bytes of an instruction, whatever follows them, and answers its canonical form. -/
theorem encode_decodes {i : Instr} (h : i.needs.Met os as) (hn : i.noWait = none) :
    Decodes (decodeItem os as) (encode i) i.canonical := by
  cases i with
  -- A wait form is no instruction of its own.
  | fclex | finit | fsave | fstcw | fstenv | fstsw => exact nomatch hn
  -- Bytes alone decide.
  | lockPrefix | repnePrefix | repPrefix | segEs | segCs | segSs | segDs | segFs | segGs | opSizePrefix | addrSizePrefix
  | aaa | aad | aam | aas | clc | cld | cli | clts | cmc | daa | das | hlt | intN | int3 | into | invd | lahf | nop | sahf
  | stc | std | sti | wait | wbinvd | f2xm1 | fabs | fchs | fcompp | fcos | fdecstp | fincstp | fld1 | fldl2e | fldl2t
  | fldlg2 | fldln2 | fldpi | fldz | fnclex | fninit | fnop | fpatan | fprem | fprem1 | fptan | frndint | fscale | fsin
  | fsincos | fsqrt | ftst | fucompp | fwait | fxam | fxtract | fyl2x | fyl2xp1 => exact fun _ => rfl
  | fpuNop k => cases k <;> exact fun _ => rfl
  -- Bytes and sizes decide.
  | cbw | cwde | cwd | cdq | iret | iretd | leave | popa | popad | popf | popfd | pusha | pushad | pushf | pushfd =>
    cases h.os _ rfl
    exact fun _ => rfl
  | cmpsb | insb | lodsb | movsb | outsb | scasb | stosb | xlat =>
    cases h.as _ rfl
    exact fun _ => rfl
  | cmpsw | insw | jcxz | jecxz | lodsw | loop | loope | loopne | movsw | outsw | scasw | stosw =>
    cases h.os _ rfl
    cases h.as _ rfl
    exact fun _ => rfl
  -- Registers in the opcode or in a byte of their own.
  | bswap z r =>
    cases h.os _ rfl
    cases r <;> exact fun _ => rfl
  | popSeg z s =>
    cases h.os _ rfl
    exact popSeg_decodes (of_decide_eq_true h.ok)
  | pushSeg z s =>
    cases h.os _ rfl
    exact pushSeg_decodes s
  | enter z n l =>
    cases h.os _ rfl
    exact .after ((Decodes.word n).bind (Decodes.map (f := Instr.enter os n) .oneByte)) fun _ => rfl
  -- Arithmetic, logic, shifts and bits.
  | adc | add | and | cmp | or | sbb | sub | xor => exact alu_decodes h
  | rcl | rcr | rol | ror | sal | sar | shl | shr => exact shift_decodes h rfl rfl (by decide) rfl
  | bt f => exact bit_decodes .bt h (fun _ _ => rfl) fun b l hk => by rw [decodeGrp8, nextByte_then, hk]; rfl
  | btc f => exact bit_decodes .btc h (fun _ _ => rfl) fun b l hk => by rw [decodeGrp8, nextByte_then, hk]; rfl
  | btr f => exact bit_decodes .btr h (fun _ _ => rfl) fun b l hk => by rw [decodeGrp8, nextByte_then, hk]; rfl
  | bts f => exact bit_decodes .bts h (fun _ _ => rfl) fun b l hk => by rw [decodeGrp8, nextByte_then, hk]; rfl
  | inc f =>
    exact inc_decodes .inc h (fun b l hk => by rw [decodeGrp4, nextByte_then, hk]; rfl)
      (fun b l hk => by rw [decodeGrp5, nextByte_then, hk]; rfl) fun r l => by cases r <;> rfl
  | dec f =>
    exact inc_decodes .dec h (fun b l hk => by rw [decodeGrp4, nextByte_then, hk]; rfl)
      (fun b l hk => by rw [decodeGrp5, nextByte_then, hk]; rfl) fun r l => by cases r <;> rfl
  | div | idiv | mul | neg | not =>
    exact decodes_grp3 h rfl (.rm _ (h.rm rfl) fun b l hk => by rw [decodeGrp3, nextByte_then, hk]; rfl)
  | shld z x r c =>
    cases h.os _ rfl
    exact dshift_decodes (.shld os) (h.rm rfl) (fun _ _ => rfl) fun _ _ => rfl
  | shrd z x r c =>
    cases h.os _ rfl
    exact dshift_decodes (.shrd os) (h.rm rfl) (fun _ _ => rfl) fun _ _ => rfl
  | imul => exact imul_decodes h
  | test => exact test_decodes h
  -- A register and an r/m operand.
  | bsf | bsr | lar | lsl =>
    cases h.os _ rfl
    exact decodes_twoByte (.after (.regRm _ (h.rm rfl) fun _ _ => rfl) fun _ => rfl)
  | arpl x r => exact .after (.regRm (fun r y => Instr.arpl y r) (h.rm rfl) fun _ _ => rfl) fun _ => rfl
  | cmpxchg w x r =>
    rcases h.width rfl with ⟨e, rfl⟩ | ⟨e, rfl⟩ <;> rw [encode, e] <;>
    exact decodes_twoByte (.after (.regRm (fun r y => Instr.cmpxchg _ y r) (h.rm rfl) fun _ _ => rfl) fun _ => rfl)
  | xadd w x r =>
    rcases h.width rfl with ⟨e, rfl⟩ | ⟨e, rfl⟩ <;> rw [encode, e] <;>
    exact decodes_twoByte (.after (.regRm (fun r y => Instr.xadd _ y r) (h.rm rfl) fun _ _ => rfl) fun _ => rfl)
  | mov => exact mov_decodes h
  | movsx => exact movsx_decodes h
  | movzx => exact movzx_decodes h
  | xchg => exact xchg_decodes h
  -- A register and a memory operand.
  | bound | lds | lea | les =>
    cases h.os _ rfl
    exact .after (.regMem _ (h.mem _ rfl) fun _ _ => rfl) fun _ => rfl
  | lfs | lgs | lss =>
    cases h.os _ rfl
    exact decodes_twoByte (.after (.regMem _ (h.mem _ rfl) fun _ _ => rfl) fun _ => rfl)
  -- Segment, control, debug and test registers.
  | movFromSeg z x s =>
    cases h.os _ rfl
    exact .after (.rm (fun y => Instr.movFromSeg os y s) (h.rm rfl) (movFromSeg_opcode s)) fun _ => rfl
  | movToSeg s x =>
    exact .after (.rm (Instr.movToSeg s) (h.rm rfl) (movToSeg_opcode (of_decide_eq_true h.ok))) fun _ => rfl
  | movFromCr a b | movToCr a b | movFromDr a b | movToDr a b | movFromTr a b | movToTr a b =>
    cases a <;> cases b <;> exact fun _ => rfl
  -- The system instructions of groups 6 and 7.
  | sldt | str =>
    cases h.os _ rfl
    exact decodes_grp6 (.rm _ (h.rm rfl) fun b l hk => by rw [decodeGrp6, nextByte_then, hk]; rfl)
  | lldt | ltr | verr | verw =>
    exact decodes_grp6 (.rm _ (h.rm rfl) fun b l hk => by rw [decodeGrp6, nextByte_then, hk]; rfl)
  | lgdt | lidt | sgdt | sidt =>
    cases h.os _ rfl
    exact decodes_grp7 (.memOnly _ (h.mem _ rfl) fun b l hk => by rw [decodeGrp7, nextByte_then, hk]; rfl)
  | invlpg => exact decodes_grp7 (.memOnly _ (h.mem _ rfl) fun b l hk => by rw [decodeGrp7, nextByte_then, hk]; rfl)
  | lmsw => exact decodes_grp7 (.rm _ (h.rm rfl) fun b l hk => by rw [decodeGrp7, nextByte_then, hk]; rfl)
  | smsw =>
    cases h.os _ rfl
    exact decodes_grp7 (.rm _ (h.rm rfl) fun b l hk => by rw [decodeGrp7, nextByte_then, hk]; rfl)
  -- The stack and ports.
  | push => exact push_decodes h
  | pop => exact pop_decodes h
  | inp => exact inp_decodes h
  | outp => exact outp_decodes h
  -- Transfers and conditions.
  | jo | jno | jb | jc | jnae | jae | jnb | jnc | je | jz | jne | jnz | jbe | jna | ja | jnbe | js | jns | jp | jpe | jnp | jpo
  | jl | jnge | jge | jnl | jle | jng | jg | jnle => exact jcc_decodes (h.os _ rfl)
  | seto | setno | setb | setae | sete | setne | setbe | seta | sets | setns | setp | setnp | setl | setge | setle | setg =>
    exact setcc_decodes (h.rm rfl)
  | callNear => exact callNear_decodes h
  | jmpNear => exact jmpNear_decodes h
  | callFar => exact callFar_decodes h
  | jmpFar => exact jmpFar_decodes h
  | retNear => exact retNear_decodes h
  | retFar => exact retFar_decodes h
  -- Floating point.
  | fadd | fmul | fsub | fsubr | fdiv | fdivr =>
    exact farith_decodes _ h (fun _ => ⟨rfl, rfl⟩) (fun b hk => by rw [escD8Reg, hk]; rfl) fun b hk => by rw [escDCReg, hk]; rfl
  | fcom | fcomp => exact fcmp_decodes _ h (fun _ => ⟨rfl, rfl⟩) fun b hk => by rw [escD8Reg, hk]; rfl
  | fiadd | fimul | ficom | ficomp | fisub | fisubr | fidiv | fidivr => exact fint_decodes h
  | faddp | fmulp | fsubp | fsubrp | fdivp | fdivrp =>
    exact decodes_escReg _ decodeItem_DE_reg fun b hk => by rw [escDEReg, hk]; rfl
  | ffree | fucom | fucomp => exact decodes_escReg _ decodeItem_DD_reg fun b hk => by rw [escDDReg, hk]; rfl
  | fxch => exact decodes_escReg _ decodeItem_D9_reg fun b hk => by rw [escD9Reg, hk]; rfl
  | fild => exact fild_decodes h
  | fist => exact fist_decodes h
  | fistp => exact fistp_decodes h
  | fld => exact fld_decodes h
  | fst => exact fst_decodes h
  | fstp => exact fstp_decodes h
  | fbld | fbstp => exact decodes_escMem _ (h.mem _ rfl) decodeItem_DF_mem fun b hk => by rw [escDFMem, hk]; rfl
  | fldcw | fnstcw => exact decodes_escMem _ (h.mem _ rfl) decodeItem_D9_mem fun b hk => by rw [escD9Mem, hk]; rfl
  | fldenv | fnstenv =>
    cases h.os _ rfl
    exact decodes_escMem _ (h.mem _ rfl) decodeItem_D9_mem fun b hk => by rw [escD9Mem, hk]; rfl
  | fnsave | frstor =>
    cases h.os _ rfl
    exact decodes_escMem _ (h.mem _ rfl) decodeItem_DD_mem fun b hk => by rw [escDDMem, hk]; rfl
  | fnstsw f =>
    cases f with
    | mem m =>
      exact decodes_escMem (fun m => .fnstsw (.mem m)) (h.mem _ rfl) decodeItem_DD_mem fun b hk => by rw [escDDMem, hk]; rfl
    | ax => exact fun _ => rfl

end Sys2Proof

namespace Sys2Proof.Machine
open Sys2Proof

/-- The wait forms and the no-wait forms that follow WAIT in their words (46 R708). -/
theorem noWait_inv {i j : Instr} (h : i.noWait = some j) :
    encode i = 0x9B#8 :: encode j ∧ i.needs = j.needs ∧ j.noWait = none := by
  unfold Instr.noWait at h
  split at h
  case h_6 f => cases h; cases f <;> exact ⟨rfl, rfl, rfl⟩
  case h_7 => cases h
  all_goals cases h; exact ⟨rfl, rfl, rfl⟩

/-- Settles O50: the decoder runs on every form of the encoder, and a wait form needs what its no-wait form needs. -/
theorem decodeEncode : Obligations.DecodeEncode := by
  unfold Obligations.DecodeEncode
  refine ⟨fun os as i rest wf fits hn => encode_decodes (needs_met wf fits) hn rest, fun i j h => ?_⟩
  obtain ⟨bytes, needs, last⟩ := noWait_inv h
  exact ⟨bytes, by unfold Instr.wf; rw [needs], last, fun os as => by unfold Instr.fits Needs.asOk; rw [needs]⟩

end Sys2Proof.Machine
end

section
/-! SUPPORT. Fetching: the bytes that can be looked at can be fetched, and a fetch leaves the registers alone. -/
namespace Sys2Proof.Machine
open Sys2Proof

/-- A code byte that is fetched lies within CS.limit; memory, cache and TLB alone may change. -/
theorem fetchByte_inv {k : Nat} {v : Byte} {s t : State} (h : fetchByte k s = .ok v t) :
    s.codeLimitOk (k + 1) = true ∧ Walks s t ∧ Marks s t := by
  unfold fetchByte at h
  rw [get_then] at h
  obtain ⟨_, u, limit, h⟩ := bind_ok_iff.mp h
  obtain ⟨within, rfl⟩ := check_ok_iff.mp limit
  obtain ⟨p, w, translated, h⟩ := bind_ok_iff.mp h
  obtain ⟨a, x, masked, h⟩ := bind_ok_iff.mp h
  cases maskA20_state masked
  obtain ⟨-, rfl⟩ : (w.readPhys a p.2 false).1 = v ∧ (w.readPhys a p.2 false).2 = t := EStateM.Result.ok.inj h
  exact ⟨within, (translate_walks translated).trans ⟨by rw [readPhys_eqn]⟩,
    (translate_marks translated).trans (.same (readPhys_mem ..) (by rw [readPhys_eqn]))⟩

/-- The limit, EIP and what else `codeLimitOk` goes by are those of before. -/
theorem Walks.codeLimitOk {s t : State} (h : Walks s t) (n : Nat) : t.codeLimitOk n = s.codeLimitOk n := by
  rw [h.eqn]; rfl

/-- As many bytes as can be looked at can be fetched. -/
theorem fetchBytes_of_peekBytes : ∀ {m k n : Nat} {s : State}, n ≤ (peekBytes k m s).length →
    ∃ t, fetchBytes k n s = .ok () t ∧ Walks s t ∧ Marks s t
  | _, _, 0, s, _ => ⟨s, rfl, .refl s, .refl s⟩
  | 0, _, n + 1, _, h => absurd h (by simp [peekBytes])
  | m + 1, k, n + 1, s, h => by
    unfold peekBytes at h
    split at h
    · next v u first =>
      obtain ⟨-, walks, marks⟩ := fetchByte_inv first
      obtain ⟨t, others, walks', marks'⟩ := fetchBytes_of_peekBytes (Nat.le_of_succ_le_succ h)
      exact ⟨t, (bind_of_ok first).trans others, walks.trans walks', marks.trans marks'⟩
    · simp at h

/-- The bytes that can be looked at lie within CS.limit. -/
theorem codeLimitOk_of_peekBytes : ∀ {m k n : Nat} {s : State}, n < (peekBytes k m s).length →
    s.codeLimitOk (k + n + 1) = true
  | 0, _, _, _, h => absurd h (by simp [peekBytes])
  | m + 1, k, n, s, h => by
    unfold peekBytes at h
    split at h
    · next v u first =>
      obtain ⟨within, walks, -⟩ := fetchByte_inv first
      cases n with
      | zero => exact within
      | succ n =>
        have others := codeLimitOk_of_peekBytes (Nat.lt_of_succ_lt_succ h)
        rwa [walks.codeLimitOk, show k + 1 + n + 1 = k + (n + 1) + 1 by omega] at others
    · simp at h

theorem codeLimitOk_of_le {s : State} {m n : Nat} (h : m ≤ n) (hn : s.codeLimitOk n = true) : s.codeLimitOk m = true := by
  simp only [State.codeLimitOk, decide_eq_true_eq] at hn ⊢
  omega

/-- What the paging unit alone has changed leaves every register alike. -/
theorem Walks.agree {s t : State} (h : Walks s t) : Agree s t := by
  rw [h.eqn]
  constructor <;> rfl

/-- With no store held back, what the paging unit does leaves the latch alone. -/
theorem Walks.insn {s t : State} (h : Walks s t) (m : Marks s t) (idle : s.insn.stores = []) : t.insn = s.insn := by
  have still : t.insn.stores = s.insn.stores := by
    rw [idle]
    refine List.eq_nil_iff_forall_not_mem.mpr fun p hp => ?_
    obtain ⟨q, hq, -⟩ := m.stores p hp
    rw [idle] at hq
    cases hq
  have e := congrArg State.insn h.eqn
  rw [still] at e
  exact e

/-- The bytes of an instruction that decodes, or shows itself undefined, are fetched, and nothing else happens. -/
theorem fetchBytes_agree {s : State} {n : Nat} (idle : s.insn.stores = []) (h : n ≤ (peekBytes 0 maxLength s).length) :
    ∃ t, fetchBytes 0 n s = .ok () t ∧ Agree s t ∧ t.insn = s.insn := by
  obtain ⟨t, fetched, walks, marks⟩ := fetchBytes_of_peekBytes h
  exact ⟨t, fetched, walks.agree, walks.insn marks idle⟩

theorem foldl_min_le (l : List Nat) : ∀ a : Nat, l.foldl min a ≤ a := by
  induction l with
  | nil => exact fun a => Nat.le_refl a
  | cons x l ih => exact fun a => (ih (min a x)).trans (Nat.min_le_left a x)

theorem leastLength_le (z : Size) (l : List Byte) : leastLength z l ≤ maxLength := foldl_min_le _ _

/-! What is fetched, case by case of what the decoder answers. -/

section
variable {s t : State} {l : List Byte} {rest : List Byte}

theorem fetchInstr_of_ok {ps : List Instr} {i : Instr} (hl : peekBytes 0 maxLength s = l)
    (hd : decodeInstr s.defaultSize l = .ok (ps, i) rest) (hf : fetchBytes 0 (l.length - rest.length) s = .ok () t) :
    fetchInstr s = .ok (ps, i, l.length - rest.length) t := by
  subst hl
  unfold fetchInstr
  rw [get_then, hd]
  exact bind_of_ok hf

theorem fetchInstr_of_undefined (hl : peekBytes 0 maxLength s = l)
    (hd : decodeInstr s.defaultSize l = .error .undefined rest) (hf : fetchBytes 0 (l.length - rest.length) s = .ok () t) :
    fetchInstr s = .error excUD t := by
  subst hl
  unfold fetchInstr
  rw [get_then, hd]
  exact bind_of_ok hf

theorem fetchInstr_of_undefinedEsc (hl : peekBytes 0 maxLength s = l)
    (hd : decodeInstr s.defaultSize l = .error .undefinedEsc rest) (hf : fetchBytes 0 (l.length - rest.length) s = .ok () t) :
    fetchInstr s = .error s.escUndefined t := by
  subst hl
  unfold fetchInstr
  rw [get_then, hd]
  exact bind_of_ok hf

/-- Fifteen bytes that are not enough. -/
theorem fetchInstr_of_truncated (hl : peekBytes 0 maxLength s = l) (h15 : l.length = 15)
    (hd : decodeInstr s.defaultSize l = .error .truncated rest) (hf : fetchBytes 0 15 s = .ok () t) :
    fetchInstr s = .error (excGP 0#16) t := by
  subst hl
  have within : s.codeLimitOk (leastLength s.defaultSize (peekBytes 0 maxLength s)) = true :=
    codeLimitOk_of_le (leastLength_le _ _) (codeLimitOk_of_peekBytes (m := maxLength) (k := 0) (n := 14) (by omega))
  unfold fetchInstr
  rw [get_then, hd]
  dsimp only
  rw [within, h15]
  exact (bind_of_ok (check_true ..)).trans (bind_of_ok hf)

end

end Sys2Proof.Machine
end

section
/-! A step at an instruction boundary (spec/60_exceptions.md R903, R906, R907; spec/71_debug_and_test_registers.md R1082, R1087); O48. -/
namespace Sys2Proof.Machine
open Sys2Proof

/-! What is due. -/

theorem pendingTrap_none_iff {s : State} : s.pendingTrap = none ↔ (s.traps.any && !s.latch.inhibitNext) = false := by
  unfold State.pendingTrap
  split <;> simp_all

/-- DR6 of pending traps: the single-step, task-switch and breakpoint bits, and no other. -/
theorem trapBits_eq {d : Word32} {bt bs : Bool} {hits : BitVec 4} (h15 : d.getLsbD 15 = bt) (h14 : d.getLsbD 14 = bs)
    (h0 : d.extractLsb' 0 4 = hits) (hd : d &&& 0xFFFF3FF0#32 = 0#32) :
    (if bt then 0x8000#32 else 0#32) ||| (if bs then 0x4000#32 else 0#32) ||| hits.setWidth 32 = d := by
  subst h15 h14 h0
  have bit (n : Nat) : (if d.getLsbD n then BitVec.twoPow 32 n else 0#32) = d &&& BitVec.twoPow 32 n :=
    (BitVec.and_twoPow d n).symm
  have low : (d.extractLsb' 0 4).setWidth 32 = d &&& 0xF#32 := by
    apply BitVec.eq_of_toNat_eq
    simp [Nat.and_two_pow_sub_one_eq_mod d.toNat 4]
    omega
  calc _ = d &&& 0x8000#32 ||| d &&& 0x4000#32 ||| d &&& 0xF#32 := congrArg₂ _ (congrArg₂ _ (bit 15) (bit 14)) low
    _ = d &&& 0xFFFF3FF0#32 ||| (d &&& 0x8000#32 ||| d &&& 0x4000#32 ||| d &&& 0xF#32) := by rw [hd, BitVec.zero_or]
    _ = d &&& BitVec.allOnes 32 := by simp only [← BitVec.and_or_distrib_left]; rfl
    _ = d := BitVec.and_allOnes

theorem pendingTrap_of_due {s : State} {d : Word32} (due : (s.traps.any && !s.latch.inhibitNext) = true)
    (h15 : d.getLsbD 15 = s.traps.bt) (h14 : d.getLsbD 14 = s.traps.bs) (h0 : d.extractLsb' 0 4 = s.traps.hits)
    (hd : d &&& 0xFFFF3FF0#32 = 0#32) : s.pendingTrap = some { interruptEvent 1#8 with debug := some d } := by
  unfold State.pendingTrap
  rw [if_pos due, trapBits_eq h15 h14 h0 hd]
  rfl

theorem anyEnabled_iff {s : State} {hits : BitVec 4} :
    s.anyEnabled hits = true ↔ ∃ n < 4, hits.getLsbD n = true ∧ s.dr.enabled n = true := by
  simp [State.anyEnabled, List.any_eq_true]

/-- Four bits, from high to low. -/
theorem ofBool_append_getLsbD : ∀ a b c d : Bool,
    let x : BitVec 4 := BitVec.ofBool a ++ BitVec.ofBool b ++ BitVec.ofBool c ++ BitVec.ofBool d
    x.getLsbD 3 = a ∧ x.getLsbD 2 = b ∧ x.getLsbD 1 = c ∧ x.getLsbD 0 = d := by decide

theorem bits4_getLsbD {f : Nat → Bool} {n : Nat} (h : n < 4) : (bits4 f).getLsbD n = f n := by
  obtain ⟨h3, h2, h1, h0⟩ := ofBool_append_getLsbD (f 3) (f 2) (f 1) (f 0)
  interval_cases n
  exacts [h0, h1, h2, h3]

theorem inField_iff {d : DebugRegs} {n : Nat} {a : Word32} :
    d.inField n a = true ↔ ∃ m, lenMask (d.len n) = some m ∧ a &&& ~~~m = d.addr n &&& ~~~m := by
  unfold DebugRegs.inField
  cases lenMask (d.len n) <;> simp

theorem instrHits_iff {s : State} {n : Nat} (h : n < 4) : s.instrHits.getLsbD n = true ↔ s.dr.rw n = 0#2 ∧
    ∃ m, lenMask (s.dr.len n) = some m ∧ (s.seg.cs.base + s.eip) &&& ~~~m = s.dr.addr n &&& ~~~m := by
  unfold State.instrHits DebugRegs.instrMatch
  rw [bits4_getLsbD h, Bool.and_eq_true, beq_iff_eq, inField_iff]

/-! What a step does. -/

theorem step_running {s : State} (h : s.run = .running) : step s = (s.restAt s.eip).stepRunning := by
  unfold step
  rw [h]

theorem deliverAt_of_ok {s u : State} {ev : Event} (h : deliver ev s.eip (s.restAt s.eip) = .ok () u) :
    s.deliverAt ev = .next (u.settle false) := deliverLoop_of_ok h

section
variable {s : State}

theorem stepRunning_of_trap {ev : Event} (h : s.pendingTrap = some ev) :
    s.stepRunning = ({ s with traps := .none } : State).deliverAt ev := by
  unfold State.stepRunning State.trapNow
  rw [h]
  rfl

theorem stepRunning_of_break {ev : Event} (h : s.pendingTrap = none) (hb : s.instrBreak = some ev) :
    s.stepRunning = (s.abandon s).deliverAt ev := by
  unfold State.stepRunning State.trapNow
  rw [h, hb]
  rfl

theorem stepRunning_of_nmi (h : s.pendingTrap = none) (hb : s.instrBreak = none) (hn : s.nmiReady = true) :
    s.stepRunning = s.takeNmi.deliverAt (interruptEvent 2#8) := by
  unfold State.stepRunning State.trapNow State.external
  rw [h, hb, hn]
  rfl

theorem stepRunning_of_intr (h : s.pendingTrap = none) (hb : s.instrBreak = none) (hn : s.nmiReady = false)
    (hi : s.intrReady = true) : s.stepRunning = s.takeIntr.deliverAt (interruptEvent s.pins.intVector) := by
  unfold State.stepRunning State.trapNow State.external
  rw [h, hb, hn, hi]
  rfl

theorem stepRunning_of_none (h : s.pendingTrap = none) (hb : s.instrBreak = none) (hn : s.nmiReady = false)
    (hi : s.intrReady = false) : s.stepRunning = s.runNext := by
  unfold State.stepRunning State.trapNow State.external
  rw [h, hb, hn, hi]
  rfl

end

/-! The clauses of the statement. -/

/-- A pending trap is delivered. -/
theorem step_takes_trap {s u : State} {d : Word32} (run : s.run = .running)
    (due : (s.traps.any && !s.latch.inhibitNext) = true) (h15 : d.getLsbD 15 = s.traps.bt) (h14 : d.getLsbD 14 = s.traps.bs)
    (h0 : d.extractLsb' 0 4 = s.traps.hits) (hd : d &&& 0xFFFF3FF0#32 = 0#32)
    (h : deliver { interruptEvent 1#8 with debug := some d } s.eip { s.restAt s.eip with traps := .none } = .ok () u) :
    step s = .next (u.settle false) := by
  rw [step_running run, stepRunning_of_trap (s := s.restAt s.eip) (pendingTrap_of_due due h15 h14 h0 hd)]
  exact deliverAt_of_ok h

/-- With no trap due, an enabled instruction breakpoint is; as a fault it ends the interrupt shadows. -/
theorem step_takes_break {s u : State} (run : s.run = .running) (noTrap : s.pendingTrap = none)
    (hits : ∃ n < 4, s.instrHits.getLsbD n = true ∧ s.dr.enabled n = true) (rf : s.rf = false)
    (h : deliver { interruptEvent 1#8 with isFault := true, debug := some (s.instrHits.setWidth 32) } s.eip
      { s.restAt s.eip with latch := { s.latch with inhibitNext := false, stiShadow := false } } = .ok () u) :
    step s = .next (u.settle false) := by
  have due : s.instrBreak = some { interruptEvent 1#8 with isFault := true, debug := some (s.instrHits.setWidth 32) } := by
    unfold State.instrBreak
    rw [rf, anyEnabled_iff.mpr hits]
    rfl
  rw [step_running run, stepRunning_of_break (s := s.restAt s.eip) noTrap due]
  exact deliverAt_of_ok h

/-- With neither due, an NMI is taken. -/
theorem step_takes_nmi {s u : State} (run : s.run = .running) (noTrap : s.pendingTrap = none) (noBreak : s.instrBreak = none)
    (pending : s.latch.nmiPending = true) (unmasked : s.latch.nmiMasked = false) (free : s.latch.inhibitNext = false)
    (h : deliver (interruptEvent 2#8) s.eip
      { s.restAt s.eip with latch := { s.latch with nmiPending := false, nmiMasked := true } } = .ok () u) :
    step s = .next (u.settle false) := by
  have due : s.nmiReady = true := by simp [State.nmiReady, pending, unmasked, free]
  rw [step_running run, stepRunning_of_nmi (s := s.restAt s.eip) noTrap noBreak due]
  exact deliverAt_of_ok h

/-- With none of them due, a maskable interrupt is. -/
theorem step_takes_intr {s u : State} (run : s.run = .running) (noTrap : s.pendingTrap = none) (noBreak : s.instrBreak = none)
    (noNmi : s.latch.nmiPending = false ∨ s.latch.nmiMasked = true) (intr : s.pins.intr = true) (ifl : s.ifl = true)
    (free : s.latch.inhibitNext = false) (noShadow : s.latch.stiShadow = false)
    (h : deliver (interruptEvent s.pins.intVector) s.eip
      { s.restAt s.eip with events := s.events ++ [.intAck s.pins.intVector] } = .ok () u) :
    step s = .next (u.settle false) := by
  have quiet : s.nmiReady = false := by rcases noNmi with e | e <;> simp [State.nmiReady, e]
  have due : s.intrReady = true := by simp [State.intrReady, intr, ifl, free, noShadow]
  rw [step_running run, stepRunning_of_intr (s := s.restAt s.eip) noTrap noBreak quiet due]
  exact deliverAt_of_ok h

/-- What holds an event off, and which breakpoints match. -/
theorem events_held_off (s : State) :
    (s.latch.inhibitNext = true → s.pendingTrap = none ∧ s.nmiReady = false ∧ s.intrReady = false) ∧
    (s.latch.stiShadow = true ∨ s.ifl = false ∨ s.pins.intr = false → s.intrReady = false) ∧
    (s.latch.nmiMasked = true ∨ s.latch.nmiPending = false → s.nmiReady = false) ∧
    (s.rf = true → s.instrBreak = none) := by
  refine ⟨fun h => ⟨pendingTrap_none_iff.mpr (by simp [h]), by simp [State.nmiReady, h], by simp [State.intrReady, h]⟩,
    fun h => ?_, fun h => ?_, fun h => by simp [State.instrBreak, h]⟩
  · rcases h with e | e | e <;> simp [State.intrReady, e]
  · rcases h with e | e <;> simp [State.nmiReady, e]

/-- With nothing due, a step is the next instruction. -/
theorem step_runs_next {s : State} (run : s.run = .running) (noTrap : s.pendingTrap = none) (noBreak : s.instrBreak = none)
    (noNmi : s.nmiReady = false) (noIntr : s.intrReady = false) : step s = (s.restAt s.eip).runNext :=
  (step_running run).trans (stepRunning_of_none (s := s.restAt s.eip) noTrap noBreak noNmi noIntr)

theorem runNext_of_error {s t : State} {e : Exc} (h : fetchInstr s = .error e t) : s.runNext = failure s e t := by
  unfold State.runNext
  rw [h]

theorem runNext_of_ok {s t : State} {ps : List Instr} {i : Instr} {n : Nat} {a : Word32}
    (h : fetchInstr s = .ok (ps, i, n) t) (ha : t.eip = a) :
    s.runNext = if lockBad ps i then failure s excUD t else execAll ps i { t with eip := a + BitVec.ofNat 32 n } := by
  subst ha
  unfold State.runNext
  rw [h]
  rfl

/-- Settles O48: the events in their order, what holds them off, and, with none due, the fetch of the bytes that decode and the run of
what they decode to. -/
theorem stepRunsDecoded : Obligations.StepRunsDecoded := by
  refine ⟨fun s u run => ?_, fun s => ?_, fun s run noTrap noBreak noNmi noIntr => ?_⟩
  · exact ⟨fun due _ h15 h14 h0 hd => step_takes_trap run due h15 h14 h0 hd,
      fun due => step_takes_break run (pendingTrap_none_iff.mpr due),
      fun due => step_takes_nmi run (pendingTrap_none_iff.mpr due),
      fun due => step_takes_intr run (pendingTrap_none_iff.mpr due)⟩
  · obtain ⟨shadow, noIntr, noNmi, noBreak⟩ := events_held_off s
    exact ⟨shadow, noIntr, noNmi, noBreak, fun n hn => instrHits_iff hn⟩
  · rw [step_runs_next run noTrap noBreak noNmi noIntr]
    have fetched (n : Nat) (h : n ≤ (peekBytes 0 maxLength (s.restAt s.eip)).length) :=
      fetchBytes_agree (s := s.restAt s.eip) rfl h
    refine ⟨fun ps i rest hd => ?_, fun rest hd => ?_, fun rest hd => ?_, fun rest h15 hd => ?_⟩
    · obtain ⟨t, hf, agree, latch⟩ := fetched _ (Nat.sub_le _ _)
      exact ⟨t, hf, agree, latch, runNext_of_ok (fetchInstr_of_ok rfl hd hf) agree.eip⟩
    · obtain ⟨t, hf, agree, -⟩ := fetched _ (Nat.sub_le _ _)
      exact ⟨t, hf, agree, runNext_of_error (fetchInstr_of_undefined rfl hd hf)⟩
    · obtain ⟨t, hf, agree, -⟩ := fetched _ (Nat.sub_le _ _)
      exact ⟨t, hf, agree, runNext_of_error (fetchInstr_of_undefinedEsc rfl hd hf)⟩
    · obtain ⟨t, hf, agree, -⟩ := fetched 15 h15.ge
      exact ⟨t, hf, agree, runNext_of_error (fetchInstr_of_truncated rfl h15 hd hf)⟩

end Sys2Proof.Machine
end

section
/-!
SUPPORT. How an integer instruction that completes ends: its meaning leaves the general registers, the stores and, last, the status
flags; the end of the instruction does the rest.
-/
namespace Sys2Proof.Machine
open Sys2Proof

variable {m : M Unit} {s u : State} {g : Gprs} {v : Word32} {f : StatusUpd} {l : List Store}

/-- The interrupt shadows that end with an instruction that asked for none. -/
theorem retired_latch (fresh : s.Fresh) :
    s.retired.latch = { s.latch with inhibitNext := s.insn.inhibit, stiShadow := s.insn.stiShadow } := by
  rw [fresh.inhibit, fresh.stiShadow]
  rfl

/-- A meaning that leaves the general registers `g` and EFLAGS `v`. -/
theorem run_completes (fresh : s.Fresh) (hm : m s = .ok () u) (h : Upto ((s.setGpr g).setEflags v) u l) :
    ∃ t, run m s = .next t ∧ Agree { s.retired with gpr := g, eflags := clearRf v } t ∧ Stored s t l :=
  ⟨finish s u, run_of_ok hm, h.agree fresh rfl rfl, h.storedAt fresh⟩

/-- A meaning that leaves the flags alone. -/
theorem run_keeps_flags (fresh : s.Fresh) (hm : m s = .ok () u) (h : Upto (s.setGpr g) u l) :
    ∃ t, run m s = .next t ∧ Agree { s.retired with gpr := g } t ∧ Stored s t l :=
  run_completes (g := g) (v := s.eflags) fresh hm h

/-- A meaning that ends by setting the status flags. -/
theorem run_sets_status (fresh : s.Fresh) (h : Upto (s.setGpr g) u l) (hm : m s = setStatus f u) :
    ∃ t d, run m s = .next t ∧ Agree { s.retired with gpr := g, eflags := clearRf (f.apply d s.eflags) } t ∧ Stored s t l := by
  obtain ⟨d, w, e, k⟩ := h.setStatus f
  obtain ⟨t, ht⟩ := run_completes (g := g) (v := f.apply d s.eflags) fresh (hm.trans e) k
  exact ⟨t, d, ht⟩

/-- A meaning that reads and sets the status flags alone. -/
theorem run_sets_status_only (fresh : s.Fresh) (h : Upto s u []) (hm : m s = setStatus f u) :
    ∃ t d, run m s = .next t ∧ Agree { s.retired with eflags := clearRf (f.apply d s.eflags) } t ∧ Stored s t [] :=
  run_sets_status (g := s.gpr) fresh h hm

end Sys2Proof.Machine
end

section
/-! SUPPORT. The status flags, bit by bit: what an update of EFLAGS leaves in each bit. -/
namespace Sys2Proof.Machine
open Sys2Proof

theorem getLsbD_setBit (v : Word32) {i : Nat} (h : i < 32) (b : Bool) (j : Nat) :
    (setBit v i b).getLsbD j = if j = i then b else v.getLsbD j := by
  have one : (1#32 <<< i).getLsbD j = decide (j = i) := by
    rw [← BitVec.twoPow_eq, BitVec.getLsbD_twoPow]
    simp only [h, decide_true, Bool.true_and, eq_comm]
  cases b <;> unfold setBit <;> by_cases e : j = i <;> simp [one, e, h]
  intro k
  exact BitVec.lt_of_getLsbD k

/-- The bit an update leaves in a flag that was `old`; an undefined one becomes `free`. -/
def FlagUpd.bit (u : FlagUpd) (free old : Bool) : Bool :=
  match u with
  | .keep => old
  | .set b => b
  | .undef => free

theorem FlagUpd.getLsbD_apply (u : FlagUpd) {i : Nat} (h : i < 32) (free : Bool) (v : Word32) (j : Nat) :
    (u.apply i free v).getLsbD j = if j = i then u.bit free (v.getLsbD i) else v.getLsbD j := by
  cases u
  case keep => simp only [FlagUpd.apply, FlagUpd.bit]; split <;> simp_all
  all_goals exact getLsbD_setBit v h _ j

/-- Every bit of EFLAGS after an update of the status flags. -/
theorem StatusUpd.getLsbD_apply (u : StatusUpd) (d : BitVec 6) (v : Word32) (j : Nat) : (u.apply d v).getLsbD j =
    if j = 11 then u.of.bit (d.getLsbD 5) (v.getLsbD 11) else if j = 7 then u.sf.bit (d.getLsbD 4) (v.getLsbD 7)
    else if j = 6 then u.zf.bit (d.getLsbD 3) (v.getLsbD 6) else if j = 4 then u.af.bit (d.getLsbD 2) (v.getLsbD 4)
    else if j = 2 then u.pf.bit (d.getLsbD 1) (v.getLsbD 2) else if j = 0 then u.cf.bit (d.getLsbD 0) (v.getLsbD 0)
    else v.getLsbD j := by
  unfold StatusUpd.apply
  repeat rw [FlagUpd.getLsbD_apply _ (by decide)]
  simp

/-- No bit outside the six status flags changes. -/
theorem StatusUpd.getLsbD_apply_of_notMem (u : StatusUpd) (d : BitVec 6) (v : Word32) {i : Nat} (h : i ∉ [0, 2, 4, 6, 7, 11]) :
    (u.apply d v).getLsbD i = v.getLsbD i := by
  simp only [List.mem_cons, List.not_mem_nil, or_false, not_or] at h
  obtain ⟨h0, h2, h4, h6, h7, h11⟩ := h
  rw [getLsbD_apply, if_neg h11, if_neg h7, if_neg h6, if_neg h4, if_neg h2, if_neg h0]

/-- An update that keeps CF does to the other flags what it does without keeping it. -/
theorem StatusUpd.getLsbD_apply_keepCf (u : StatusUpd) (d : BitVec 6) (v : Word32) (i : Nat) :
    (StatusUpd.apply { u with cf := .keep } d v).getLsbD i = if i = 0 then v.getLsbD 0 else (u.apply d v).getLsbD i := by
  simp only [getLsbD_apply]
  by_cases h : i = 0
  · subst h; simp [FlagUpd.bit]
  · simp only [if_neg h]

/-- Parity is even where the number of bits set is (10_state.md R26). -/
theorem evenParity_eq (b : Byte) : evenParity b = decide (((List.range 8).filter fun i => b.getLsbD i).length % 2 = 0) := by
  revert b; decide +kernel

/-- SF, ZF and PF as R402 sets them by a result. -/
theorem signZeroParity_withSzp {n : Nat} (r : BitVec n) (u : StatusUpd) (d : BitVec 6) (v : Word32) :
    SignZeroParity r ((withSzp r u).apply d v) v := by
  refine ⟨?_, ?_, ?_, fun i hi => StatusUpd.getLsbD_apply_of_notMem _ d v hi⟩ <;> rw [StatusUpd.getLsbD_apply]
  · exact BitVec.msb_eq_getLsbD_last r
  · show (r == 0#n) = _
    rw [Bool.eq_iff_iff, beq_iff_eq, decide_eq_true_iff, ← BitVec.toNat_inj, BitVec.toNat_ofNat, Nat.zero_mod]
  · show evenParity (r.setWidth 8) = _
    have bits : ∀ i ∈ List.range 8, (r.setWidth 8).getLsbD i = r.getLsbD i := fun i hi => by
      rw [BitVec.getLsbD_setWidth, decide_eq_true (List.mem_range.mp hi), Bool.true_and]
    rw [evenParity_eq, List.filter_congr bits]

end Sys2Proof.Machine
end

section
/-! SUPPORT. Carries and signed overflow of additions and subtractions (spec/40_int_a_to_c.md R402), and what INC and DEC change; O57. -/
namespace Sys2Proof.Machine
open Sys2Proof

/-- A number of n bits is signed where its sign bit is set. -/
theorem toInt_eq_of_half {n h : Nat} (hh : 2 ^ n = 2 * h) (x : BitVec n) :
    x.toInt = if x.msb then (x.toNat : Int) - 2 * h else x.toNat := by
  rw [BitVec.toInt_eq_msb_cond, hh]
  push_cast
  rfl

theorem msb_iff_of_half {n h : Nat} (hh : 2 ^ n = 2 * h) (x : BitVec n) : x.msb = true ↔ h ≤ x.toNat := by
  rw [BitVec.msb_eq_true_iff_two_mul_ge, hh]
  omega

/-- Less than twice a modulus leaves itself or what exceeds the modulus. -/
theorem mod_of_lt_two_mul {a m : Nat} (h : a < 2 * m) : a % m = if a < m then a else a - m := by
  split
  · next k => exact Nat.mod_eq_of_lt k
  · next k => rw [Nat.mod_eq_sub_mod (by omega), Nat.mod_eq_of_lt (by omega)]

theorem two_pow_eq_two_mul {n : Nat} (hn : 0 < n) : 2 ^ n = 2 * 2 ^ (n - 1) := by
  rw [← Nat.pow_succ', Nat.succ_eq_add_one, Nat.sub_add_cancel hn]

/-- A number fits in n bits with sign. -/
def FitsSigned (n : Nat) (x : Int) : Prop := -(2 ^ (n - 1) : Int) ≤ x ∧ x < 2 ^ (n - 1)

theorem fitsSigned_iff {n h : Nat} (hh : 2 ^ (n - 1) = h) (x : Int) : FitsSigned n x ↔ -(h : Int) ≤ x ∧ x < h := by
  unfold FitsSigned
  have : (2 : Int) ^ (n - 1) = h := by exact_mod_cast hh
  rw [this]

variable {n : Nat} (hn : 0 < n) (a b : BitVec n) (c : Bool)
include hn

/-- A sum of two numbers of one sign that has the other sign does not fit. -/
theorem add_overflow_iff : (a.msb == b.msb && (addFlags a b c).1.msb != a.msb) = true ↔
    ¬ FitsSigned n (a.toInt + b.toInt + c.toNat) := by
  have hh := two_pow_eq_two_mul hn
  rw [fitsSigned_iff rfl]
  generalize 2 ^ (n - 1) = h at hh
  have ha := a.isLt
  have hb := b.isLt
  have hc : c.toNat ≤ 1 := c.toNat_le
  have hr : (addFlags a b c).1.toNat = if a.toNat + b.toNat + c.toNat < 2 * h then a.toNat + b.toNat + c.toNat
      else a.toNat + b.toNat + c.toNat - 2 * h := by
    rw [← mod_of_lt_two_mul (by omega), ← hh]
    exact BitVec.toNat_ofNat _ _
  have ma := msb_iff_of_half hh a
  have mb := msb_iff_of_half hh b
  have mr := msb_iff_of_half hh (addFlags a b c).1
  rw [toInt_eq_of_half hh a, toInt_eq_of_half hh b]
  cases ea : a.msb <;> cases eb : b.msb <;> cases er : (addFlags a b c).1.msb <;>
    simp only [ea, eb, er, true_iff, false_iff, Bool.false_eq_true, not_le] at ma mb mr <;>
    split at hr <;> simp <;> omega

/-- The difference, with what a borrow adds. -/
theorem subFlags_toNat : (subFlags a b c).1.toNat =
    if a.toNat < b.toNat + c.toNat then a.toNat + 2 ^ n - b.toNat - c.toNat else a.toNat - b.toNat - c.toNat := by
  have hh := two_pow_eq_two_mul hn
  have h0 : 0 < 2 ^ (n - 1) := Nat.two_pow_pos _
  have ha := a.isLt
  have hb := b.isLt
  have hc : c.toNat ≤ 1 := c.toNat_le
  have ec : (BitVec.ofNat n c.toNat).toNat = c.toNat := by
    rw [BitVec.toNat_ofNat]
    exact Nat.mod_eq_of_lt (by omega)
  show (a - b - BitVec.ofNat n c.toNat).toNat = _
  rw [BitVec.toNat_sub, BitVec.toNat_sub, ec, mod_of_lt_two_mul (a := 2 ^ n - b.toNat + a.toNat) (by omega)]
  by_cases hab : 2 ^ n - b.toNat + a.toNat < 2 ^ n
  · rw [if_pos hab, mod_of_lt_two_mul (by omega)]
    split <;> split <;> omega
  · rw [if_neg hab, mod_of_lt_two_mul (by omega)]
    split <;> split <;> omega

theorem subFlags_emod : ((subFlags a b c).1.toNat : Int) = ((a.toNat : Int) - b.toNat - c.toNat) % 2 ^ n := by
  have e := subFlags_toNat hn a b c
  have lt := (subFlags a b c).1.isLt
  have hb := b.isLt
  have hc : c.toNat ≤ 1 := c.toNat_le
  rw [show (2 : Int) ^ n = ((2 ^ n : Nat) : Int) by push_cast; rfl]
  by_cases h : a.toNat < b.toNat + c.toNat
  · rw [if_pos h] at e
    rw [← Int.add_emod_right, Int.emod_eq_of_lt (by omega) (by omega)]
    omega
  · rw [if_neg h] at e
    rw [Int.emod_eq_of_lt (by omega) (by omega)]
    omega

theorem toInt_not : (~~~b).toInt = -b.toInt - 1 := by
  have hh := two_pow_eq_two_mul hn
  have hb := b.isLt
  rw [toInt_eq_of_half hh, toInt_eq_of_half hh, BitVec.msb_not, BitVec.toNat_not, decide_eq_true hn, Bool.true_and]
  cases b.msb
  · simp only [Bool.not_false, if_true, Bool.false_eq_true, if_false]; omega
  · simp only [Bool.not_true, if_true, Bool.false_eq_true, if_false]; omega

/-- A difference is a sum with the complement, the borrow turned over. -/
theorem subFlags_eq_addFlags_not : (subFlags a b c).1 = (addFlags a (~~~b) (!c)).1 := by
  have hb := b.isLt
  have ha := a.isLt
  have hc : c.toNat + (!c).toNat = 1 := by cases c <;> rfl
  apply BitVec.eq_of_toNat_eq
  rw [subFlags_toNat hn]
  show _ = (BitVec.ofNat n (a.toNat + (~~~b).toNat + (!c).toNat)).toNat
  rw [BitVec.toNat_ofNat, BitVec.toNat_not, mod_of_lt_two_mul (by omega)]
  split <;> split <;> omega

/-- The difference of two numbers of different signs that has the sign of the second does not fit. -/
theorem sub_overflow_iff : (a.msb != b.msb && (subFlags a b c).1.msb != a.msb) = true ↔
    ¬ FitsSigned n (a.toInt - b.toInt - c.toNat) := by
  have hc : ((!c).toNat : Int) = 1 - c.toNat := by cases c <;> rfl
  have sum : a.toInt - b.toInt - c.toNat = a.toInt + (~~~b).toInt + (!c).toNat := by rw [toInt_not hn]; omega
  have signs : (a.msb != b.msb) = (a.msb == (~~~b).msb) := by
    rw [BitVec.msb_not, decide_eq_true hn, Bool.true_and]
    cases b.msb <;> simp
  rw [sum, signs, subFlags_eq_addFlags_not hn]
  exact add_overflow_iff hn a (~~~b) (!c)

end Sys2Proof.Machine

namespace Sys2Proof
open Machine

theorem Width.bits_pos (w : Width) : 0 < w.bits := by cases w <;> decide

/-- Settles O57: the flags are those R402 lists, the carries and the overflow as the lemmas above say. -/
theorem integerFlags : Obligations.IntegerFlags := by
  intro w a b c d v
  have hn := w.bits_pos
  refine ⟨⟨BitVec.toNat_ofNat _ _, signZeroParity_withSzp _ _ d v, ?_, ?_, ?_⟩,
    ⟨subFlags_emod hn a b c, signZeroParity_withSzp _ _ d v, ?_, ?_, ?_⟩,
    ⟨rfl, signZeroParity_withSzp a _ d v, ?_, ?_, ?_⟩,
    rfl, rfl, StatusUpd.getLsbD_apply_keepCf _ d v, StatusUpd.getLsbD_apply_keepCf _ d v⟩ <;>
    rw [StatusUpd.getLsbD_apply]
  · exact decide_eq_true_iff
  · exact decide_eq_true_iff
  · exact add_overflow_iff hn a b c
  · exact decide_eq_true_iff
  · exact decide_eq_true_iff
  · exact sub_overflow_iff hn a b c
  all_goals rfl

end Sys2Proof
end

section
/-! SUPPORT. The two-operand instructions: the operands read, the result written, the flags set; O1. -/
namespace Sys2Proof.Machine
open Sys2Proof

section
variable {w : Width} {x : RM} {a b : BitVec w.bits} {op : AluOp} {s t u : State}

theorem binRM_true (h : updateRM w x s = .ok a t) (k : writeRM w (op w.bits a b t.cf).1 x t = .ok () u) :
    binRM true w x b op s = setStatus (op w.bits a b t.cf).2 u := by
  unfold binRM
  simp only [if_true]
  rw [bind_of_ok h, get_then, bind_of_ok k]

theorem binRM_false (h : readRM w x s = .ok a t) : binRM false w x b op s = setStatus (op w.bits a b t.cf).2 t := by
  unfold binRM
  simp only [Bool.false_eq_true, if_false]
  rw [bind_of_ok h, get_then]

end

/-- The instructions that write their destination run `aluOp`. -/
theorem exec_aluWriter {p : (AluForm → Instr) × AluOp} (hp : p ∈ aluWriters) (f : AluForm) (s : State) :
    exec (p.1 f) s = run (aluOp true p.2 f) s := by
  simp only [aluWriters, List.mem_cons, List.not_mem_nil, or_false] at hp
  rcases hp with rfl | rfl | rfl | rfl | rfl | rfl | rfl <;> rfl

/-- Settles O1: what is read leaves the registers and CF alone, so the result and the flags are those of the operands of before. -/
theorem aluComplete : Obligations.AluComplete := by
  refine ⟨fun p hp f s s1 s2 s3 b a fresh hb ha hw => ?_, fun f s s1 s2 b a fresh hb ha => ?_, fun f s s1 s2 b a fresh hb ha => ?_⟩
  · have read : Upto s s2 [] := ((Upto.refl s).reads (aluSource_reads f) hb).reads (updateRM_reads _ _) ha
    rw [exec_aluWriter hp, ← read.cf] at *
    exact run_sets_status fresh (read.writeRM hw) ((bind_of_ok hb).trans (binRM_true ha hw))
  · have read : Upto s s2 [] := ((Upto.refl s).reads (aluSource_reads f) hb).reads (readRM_reads _ _) ha
    exact run_sets_status_only fresh read ((bind_of_ok hb).trans (binRM_false (op := fun _ a b _ => subFlags a b false) ha))
  · have read : Upto s s2 [] := ((Upto.refl s).reads (testSource_reads f) hb).reads (readRM_reads _ _) ha
    exact run_sets_status_only fresh read ((bind_of_ok hb).trans (binRM_false (op := fun _ a b _ => logicFlags (a &&& b)) ha))

end Sys2Proof.Machine
end

section
/-! SUPPORT. The bit tests, on a register and on memory, where `bitSpot` says (spec/40_int_a_to_c.md R422); O5. -/
namespace Sys2Proof.Machine
open Sys2Proof

/-- The bit tests run `bitForm`. -/
theorem exec_bitTest {p : (BitForm → Instr) × Option (Bool → Bool)} (hp : p ∈ bitTests) (f : BitForm) (s : State) :
    exec (p.1 f) s = run (bitForm p.2 f) s := by
  simp only [bitTests, List.mem_cons, List.not_mem_nil, or_false] at hp
  rcases hp with rfl | rfl | rfl | rfl <;> rfl

section
variable {f : BitForm} {b : Reg} {m : Mem}

theorem bitForm_reg (h : bitDst f = .reg b) (g : Option (Bool → Bool)) (s : State) :
    bitForm g f s = bitReg g (bitWidth f) b (bitSpot f s.gpr).2 s := by
  cases f with
  | reg os x r =>
    cases h
    exact bind_of_ok (getReg_run os.width r s)
  | imm os x v =>
    cases h
    rfl

/-- A bit string in memory is looked at where `bitSpot` says. -/
theorem bitForm_mem (h : bitDst f = .mem m) (g : Option (Bool → Bool)) (s : State) : ∃ d,
    m.as.trunc (s.gpr.ea m + d) = (bitSpot f s.gpr).1 ∧ bitForm g f s = bitMem g (bitWidth f) m d (bitSpot f s.gpr).2 s := by
  cases f with
  | reg os x r =>
    cases h
    exact ⟨_, rfl, bind_of_ok (getReg_run os.width r s)⟩
  | imm os x v => cases h; exact ⟨0#32, by rw [BitVec.add_zero]; rfl, rfl⟩

/-- The number of the bit is one of the operand's. -/
theorem bitSpot_lt (f : BitForm) (g : Gprs) : (bitSpot f g).2 < (bitWidth f).bits := by
  have place (os : Size) (o : BitVec os.width.bits) : (bitPlace os o).2 < os.width.bits := by
    have pos : (0 : Int) < os.bits := by cases os <;> decide
    have lt : o.toInt % os.bits < os.bits := Int.emod_lt_of_pos _ pos
    have le : 0 ≤ o.toInt % os.bits := Int.emod_nonneg _ (by omega)
    have e : os.width.bits = os.bits := by cases os <;> rfl
    have eq : (bitPlace os o).2 = (o.toInt % os.bits).toNat := rfl
    omega
  have mod (os : Size) (k : Nat) : k % os.bits < os.width.bits := by cases os <;> exact Nat.mod_lt _ (by decide)
  cases f with
  | reg os x r => cases x with
    | reg b => exact mod _ _
    | mem m => exact place _ _
  | imm os x v => cases x <;> exact mod _ _

end

section
variable {g : Option (Bool → Bool)} {w : Width} {m : Mem} {d : Word32} {k n : Nat} {s t u : State}

theorem bitReg_run (r : Reg) : bitReg g w r k s = setStatus (bitFlags ((s.gpr.read w r).getLsbD k))
    (s.setGpr (if g.isNone then s.gpr else s.gpr.write w r (bitAfter g (s.gpr.read w r) k))) := by
  cases g <;> rfl

theorem bitMem_none (h : memRead m.as (s.segOf m) (m.as.trunc (s.gpr.ea m + d)) w.bytes 4 s = .ok n t) :
    bitMem none w m d k s = setStatus (bitFlags ((BitVec.ofNat w.bits n).getLsbD k)) t := by
  unfold bitMem
  rw [get_then]
  exact bind_of_ok h

theorem bitMem_some {f : Bool → Bool} (h : memReadWrite m.as (s.segOf m) (m.as.trunc (s.gpr.ea m + d)) w.bytes 4 s = .ok n t)
    (j : memWrite m.as (s.segOf m) (m.as.trunc (s.gpr.ea m + d)) w.bytes 4 (bitAfter (some f) (BitVec.ofNat w.bits n) k).toNat t =
      .ok () u) : bitMem (some f) w m d k s = setStatus (bitFlags ((BitVec.ofNat w.bits n).getLsbD k)) u := by
  unfold bitMem
  rw [get_then]
  exact (bind_of_ok h).trans (bind_of_ok j)

theorem getLsbD_ofNat_of_lt (h : k < w.bits) : (BitVec.ofNat w.bits n).getLsbD k = n.testBit k := by
  rw [BitVec.getLsbD_ofNat, decide_eq_true h, Bool.true_and]

end

/-- Settles O5: a register, memory that is read, and memory that is written back. -/
theorem bitTestsComplete : Obligations.BitTestsComplete := by
  intro p hp f s fresh
  rw [exec_bitTest hp]
  refine ⟨fun b hb => ?_, fun m n s1 hm hg hr => ?_, fun m n g s1 s2 hm hg hr hw => ?_⟩
  · exact run_sets_status fresh ((Upto.refl s).setGpr _) ((bitForm_reg hb p.2 s).trans (bitReg_run b))
  · obtain ⟨d, spot, e⟩ := bitForm_mem hm p.2 s
    rw [← spot] at hr
    have ends := bitMem_none (w := bitWidth f) (k := (bitSpot f s.gpr).2) hr
    rw [getLsbD_ofNat_of_lt (bitSpot_lt f s.gpr)] at ends
    rw [hg] at e ⊢
    exact run_sets_status_only fresh ((Upto.refl s).reads (memRead_reads _ _ _ _ _) hr) (e.trans ends)
  · obtain ⟨d, spot, e⟩ := bitForm_mem hm p.2 s
    rw [← spot] at hr hw ⊢
    have ends := bitMem_some hr hw
    rw [getLsbD_ofNat_of_lt (bitSpot_lt f s.gpr)] at ends
    rw [hg] at e ⊢
    exact run_sets_status (g := s.gpr) fresh (((Upto.refl s).reads (memReadWrite_reads _ _ _ _ _) hr).memWrite hw) (e.trans ends)

end Sys2Proof.Machine
end

section
/-! SUPPORT. The bit scans find the lowest and the highest bit set; O6. -/
namespace Sys2Proof.Machine
open Sys2Proof

section
variable {n : Nat} {v : BitVec n}

/-- A search upwards stops at the first bit set. -/
theorem lowestFrom_spec : ∀ {k i j : Nat}, i ≤ j → j < i + k → v.getLsbD j = true →
    v.getLsbD (lowestFrom v i k) = true ∧ ∀ x, i ≤ x → x < lowestFrom v i k → v.getLsbD x = false
  | 0, _, _, hij, hjk, _ => absurd hjk (by omega)
  | k + 1, i, j, hij, hjk, hj => by
    unfold lowestFrom
    by_cases hi : v.getLsbD i = true
    · rw [if_pos hi]
      exact ⟨hi, fun x h1 h2 => absurd h1 (by omega)⟩
    · rw [if_neg hi]
      have ne : i ≠ j := fun e => hi (e ▸ hj)
      obtain ⟨found, below⟩ := lowestFrom_spec (k := k) (i := i + 1) (j := j) (by omega) (by omega) hj
      refine ⟨found, fun x h1 h2 => ?_⟩
      rcases Nat.eq_or_lt_of_le h1 with rfl | h1
      · exact Bool.eq_false_iff.mpr hi
      · exact below x h1 h2

/-- A search downwards stops at the first bit set. -/
theorem highestBelow_spec : ∀ {i j : Nat}, j < i → v.getLsbD j = true →
    v.getLsbD (highestBelow v i) = true ∧ ∀ x, highestBelow v i < x → x < i → v.getLsbD x = false
  | 0, _, hj, _ => absurd hj (by omega)
  | i + 1, j, hji, hj => by
    unfold highestBelow
    by_cases hi : v.getLsbD i = true
    · rw [if_pos hi]
      exact ⟨hi, fun x h1 h2 => absurd h1 (by omega)⟩
    · rw [if_neg hi]
      have ne : j ≠ i := fun e => hi (e ▸ hj)
      obtain ⟨found, above⟩ := highestBelow_spec (i := i) (j := j) (by omega) hj
      refine ⟨found, fun x h1 h2 => ?_⟩
      rcases Nat.eq_or_lt_of_le (Nat.le_of_lt_succ h2) with rfl | h2
      · exact Bool.eq_false_iff.mpr hi
      · exact above x h1 h2

theorem exists_bit_of_ne_zero (h : v ≠ 0) : ∃ j < n, v.getLsbD j = true := by
  by_contra none
  refine h (BitVec.eq_of_getLsbD_eq fun j hj => ?_)
  rw [show (0 : BitVec n) = 0#n from rfl, BitVec.getLsbD_zero]
  exact Bool.eq_false_iff.mpr fun k => none ⟨j, hj, k⟩

theorem lowest_bit (h : v ≠ 0) : v.getLsbD (lowestFrom v 0 n) = true ∧ ∀ j, j < lowestFrom v 0 n → v.getLsbD j = false := by
  obtain ⟨j, hj, set⟩ := exists_bit_of_ne_zero h
  obtain ⟨found, below⟩ := lowestFrom_spec (Nat.zero_le j) (by omega : j < 0 + n) set
  exact ⟨found, fun x => below x (Nat.zero_le x)⟩

theorem highest_bit (h : v ≠ 0) : v.getLsbD (highestBelow v n) = true ∧ ∀ j, highestBelow v n < j → v.getLsbD j = false := by
  obtain ⟨j, hj, set⟩ := exists_bit_of_ne_zero h
  obtain ⟨found, above⟩ := highestBelow_spec hj set
  refine ⟨found, fun x hx => ?_⟩
  by_cases hn : x < n
  · exact above x hx hn
  · exact BitVec.getLsbD_of_ge v x (by omega)

end

section
variable {find : (n : Nat) → BitVec n → Nat} {os : Size} {x : RM} {v : BitVec os.width.bits} {s t : State}

theorem scanOp_of_ne_zero (r : Reg) (h : readRM os.width x s = .ok v t) (hv : v ≠ 0) : scanOp find os r x s =
    setStatus (scanFlags false) (t.setGpr (t.gpr.write os.width r (BitVec.ofNat _ (find _ v)))) := by
  unfold scanOp
  rw [bind_of_ok h, if_neg (show ¬ v = 0#os.width.bits from hv), beq_eq_false_iff_ne.mpr (show v ≠ 0#os.width.bits from hv)]
  rfl

/-- A source of 0 leaves a free value. -/
theorem scanOp_of_zero (r : Reg) (h : readRM os.width x s = .ok 0 t) : scanOp find os r x s =
    setStatus (scanFlags true) (({ t with freeCtr := t.freeCtr + 1 } : State).setGpr
      (t.gpr.write os.width r (Config.freeBits _ t.freeCtr))) := by
  unfold scanOp
  rw [bind_of_ok h]
  rfl

end

/-- Settles O6: the place that is searched for, and a source of 0. -/
theorem scansComplete : Obligations.ScansComplete := by
  intro os r x s s1 v fresh hr
  have read : Upto s s1 [] := (Upto.refl s).reads (readRM_reads _ _) hr
  have found {find : (n : Nat) → BitVec n → Nat} (hv : v ≠ 0) :=
    run_sets_status (m := scanOp find os r x) fresh (read.setGpr (s.gpr.write os.width r (BitVec.ofNat _ (find _ v))))
      (by rw [scanOp_of_ne_zero (find := find) r hr hv, read.gpr])
  refine ⟨fun hv => ?_, fun hv => ?_, fun hv i hi => ?_⟩
  · obtain ⟨t, d, e, agree, stored⟩ := found (find := fun n v => lowestFrom v 0 n) hv
    exact ⟨t, d, _, e, (lowest_bit hv).1, (lowest_bit hv).2, agree, stored⟩
  · obtain ⟨t, d, e, agree, stored⟩ := found (find := fun n v => highestBelow v n) hv
    exact ⟨t, d, _, e, (highest_bit hv).1, (highest_bit hv).2, agree, stored⟩
  · subst hv
    have free {find : (n : Nat) → BitVec n → Nat} :=
      run_sets_status (m := scanOp find os r x) fresh
        ((read.setCtr (s1.freeCtr + 1)).setGpr (s.gpr.write os.width r (Config.freeBits _ s1.freeCtr)))
        (by rw [scanOp_of_zero (find := find) r hr, read.gpr])
    simp only [List.mem_cons, List.not_mem_nil, or_false] at hi
    rcases hi with rfl | rfl
    · obtain ⟨t, d, e, agree, stored⟩ := free (find := fun n v => lowestFrom v 0 n)
      exact ⟨t, d, _, e, agree, stored⟩
    · obtain ⟨t, d, e, agree, stored⟩ := free (find := fun n v => highestBelow v n)
      exact ⟨t, d, _, e, agree, stored⟩

end Sys2Proof.Machine
end

section
/-! SUPPORT. The conversions: the sign of the accumulator extended, and BSWAP; O8. -/
namespace Sys2Proof.Machine
open Sys2Proof

theorem swapBytes_byte (v : Word32) : ∀ i < 4, (swapBytes v).extractLsb' (8 * i) 8 = v.extractLsb' (24 - 8 * i) 8 := by
  intro i hi
  apply BitVec.eq_of_getLsbD_eq
  intro j hj
  simp only [swapBytes, BitVec.getLsbD_extractLsb', BitVec.getLsbD_append]
  interval_cases i
  · simp [hj]
  · simp [hj, show ¬ 8 + j < 8 by omega]
  · simp [hj, show ¬ 16 + j < 8 by omega, show 16 + j - 8 = 8 + j by omega]
  · simp [hj, show ¬ 24 + j < 8 by omega, show 24 + j - 8 = 8 + (8 + j) by omega]

variable {s : State}

/-- An instruction that writes one register and ends. -/
theorem run_writes_gpr {m : M Unit} {g : Gprs} (fresh : s.Fresh) (hm : m s = .ok () (s.setGpr g)) :
    ∃ t, run m s = .next t ∧ Stored s t [] ∧ Agree { s.retired with gpr := g } t :=
  (run_keeps_flags fresh hm ((Upto.refl s).setGpr g)).imp fun _ => .imp_right .symm

theorem bswap32_completes (fresh : s.Fresh) (r : Reg) : ∃ t v, exec (.bswap .s32 r) s = .next t ∧ Stored s t [] ∧
    (∀ i < 4, v.extractLsb' (8 * i) 8 = (s.gpr.get r).extractLsb' (24 - 8 * i) 8) ∧
    Agree { s.retired with gpr := s.gpr.put r v } t := by
  obtain ⟨t, e, stored, agree⟩ := run_writes_gpr (m := bswapOp .s32 r) fresh rfl
  exact ⟨t, _, e, stored, swapBytes_byte _, agree⟩

theorem bswap16_completes (fresh : s.Fresh) (r : Reg) : ∃ t v, exec (.bswap .s16 r) s = .next t ∧ Stored s t [] ∧
    Agree { s.retired with gpr := s.gpr.write .word r v } t := by
  obtain ⟨t, e, agree, stored⟩ := run_keeps_flags (m := bswapOp .s16 r) fresh rfl
    (((Upto.refl s).setCtr (s.freeCtr + 1)).setGpr (s.gpr.write .word r (Config.freeBits 16 s.freeCtr)))
  exact ⟨t, _, e, stored, agree⟩

theorem signFill_word (v : Word32) :
    (if (v.setWidth 16).msb then BitVec.allOnes 16 else 0#16) = if v.getLsbD 15 then 0xFFFF#16 else 0#16 := by
  rw [BitVec.msb_setWidth]
  rfl

theorem signFill_dword (v : Word32) :
    (if v.msb then BitVec.allOnes 32 else 0#32) = if v.getLsbD 31 then 0xFFFFFFFF#32 else 0#32 := by
  rw [BitVec.msb_eq_getLsbD_last]
  rfl

/-- Settles O8. -/
theorem conversionsComplete : Obligations.ConversionsComplete := by
  intro s fresh
  refine ⟨fun r => ⟨bswap32_completes fresh r, bswap16_completes fresh r⟩, run_writes_gpr (m := extendAcc .byte .word) fresh rfl,
    run_writes_gpr (m := extendAcc .word .dword) fresh rfl, ?_, ?_⟩
  · rw [← signFill_word]
    exact run_writes_gpr (m := signToDx .word) fresh rfl
  · rw [← signFill_dword]
    exact run_writes_gpr (m := signToDx .dword) fresh rfl

end Sys2Proof.Machine
end

section
/-! SUPPORT. The decimal adjusts by numbers of AL and AH (spec/40_int_a_to_c.md R410 to R413, spec/41_int_d_to_i.md R450, R451); O10. -/
namespace Sys2Proof.Machine
open Sys2Proof

theorem low_digit_toNat (al : Byte) : (al &&& 0x0F#8).toNat = al.toNat % 16 := by
  rw [BitVec.toNat_and]
  exact Nat.and_two_pow_sub_one_eq_mod al.toNat 4

/-- One step of an adjustment: a byte goes up by `k`, or down, where it is made. -/
theorem adjusted_eq (made sub : Bool) (x k : Byte) : (if made then (if sub then x - k else x + k) else x) =
    BitVec.ofNat 8 (x.toNat + if made then (if sub then 256 - k.toNat else k.toNat) else 0) := by
  apply BitVec.eq_of_toNat_eq
  cases made
  · simp
  · cases sub
    · simp
    · simp only [if_true, BitVec.toNat_sub, BitVec.toNat_ofNat]
      rw [Nat.add_comm]

/-- Is the low digit of AL adjusted? -/
def digitAdjusts (al : Byte) (af : Bool) : Bool := decide (9 < al.toNat % 16) || af

theorem digitAdjusts_eq (al : Byte) (af : Bool) : (decide (9 < (al &&& 0x0F#8).toNat) || af) = digitAdjusts al af := by
  rw [low_digit_toNat]
  rfl

/-- AAA and AAS: AL and AH go up by 6 and 1, or down, and AL keeps its low digit. -/
theorem asciiAdjust_eq (sub : Bool) (al ah : Byte) (af : Bool) : asciiAdjust sub al ah af =
    (BitVec.ofNat 8 ((al.toNat + if digitAdjusts al af then (if sub then 250 else 6) else 0) % 16),
     BitVec.ofNat 8 (ah.toNat + if digitAdjusts al af then (if sub then 255 else 1) else 0),
     { cf := .set (digitAdjusts al af), af := .set (digitAdjusts al af), of := .undef, sf := .undef, zf := .undef, pf := .undef }) := by
  unfold asciiAdjust
  simp only [digitAdjusts_eq]
  rw [adjusted_eq, adjusted_eq]
  refine Prod.ext (BitVec.eq_of_toNat_eq ?_) rfl
  rw [low_digit_toNat, BitVec.toNat_ofNat, BitVec.toNat_ofNat]
  show _ = (BitVec.ofNat 8 ((al.toNat + if digitAdjusts al af then (if sub then 250 else 6) else 0) % 16)).toNat
  rw [BitVec.toNat_ofNat]
  show (al.toNat + if digitAdjusts al af then (if sub then 250 else 6) else 0) % 256 % 16 = _
  omega

/-- AL after the first step of DAA or DAS: up by 6, or down. -/
def lowAdjusted (sub : Bool) (al : Byte) (af : Bool) : Nat :=
  al.toNat + if digitAdjusts al af then (if sub then 250 else 6) else 0

/-- AL after both steps: the high digit goes up by 6, or down, above 9Fh or with CF. -/
def bothAdjusted (sub : Bool) (al : Byte) (af cf : Bool) : Byte :=
  BitVec.ofNat 8 (lowAdjusted sub al af +
    if 0x9F < lowAdjusted sub al af % 256 ∨ cf = true then (if sub then 0xA0 else 0x60) else 0)

theorem decimalAdjust_eq (sub : Bool) (al : Byte) (af cf : Bool) : decimalAdjust sub al af cf =
    (bothAdjusted sub al af cf, withSzp (bothAdjusted sub al af cf)
      { cf := .set (decide (0x9F < lowAdjusted sub al af % 256) || cf), af := .set (digitAdjusts al af), of := .undef }) := by
  have low : (if digitAdjusts al af then (if sub then al - 6#8 else al + 6#8) else al) = BitVec.ofNat 8 (lowAdjusted sub al af) :=
    adjusted_eq _ sub al 6#8
  have both : (if decide (0x9F < lowAdjusted sub al af % 256) || cf then
      (if sub then BitVec.ofNat 8 (lowAdjusted sub al af) - 0x60#8 else BitVec.ofNat 8 (lowAdjusted sub al af) + 0x60#8)
      else BitVec.ofNat 8 (lowAdjusted sub al af)) = bothAdjusted sub al af cf := by
    rw [adjusted_eq]
    apply BitVec.eq_of_toNat_eq
    simp [bothAdjusted]
  unfold decimalAdjust
  simp only [digitAdjusts_eq, low, BitVec.toNat_ofNat, both]

/-- AL and AH may be written in either order. -/
theorem Gprs.write_high_low (g : Gprs) (low high : Byte) :
    (g.write .byte .esp high).write .byte .eax low = g.halves .byte low high := by
  have word (o : Word32) : (o.extractLsb' 16 16 ++ high ++ o.extractLsb' 0 8).extractLsb' 8 24 ++ low =
      (o.extractLsb' 8 24 ++ low).extractLsb' 16 16 ++ high ++ (o.extractLsb' 8 24 ++ low).extractLsb' 0 8 := by
    apply BitVec.eq_of_getLsbD_eq
    intro i hi
    simp only [BitVec.getLsbD_append, BitVec.getLsbD_extractLsb']
    by_cases h8 : i < 8
    · simp [h8]
    · have e : 8 + (i - 8) = i := by omega
      by_cases h16 : i < 16
      · simp [h8, show i - 8 < 8 by omega, show i - 8 < 24 by omega, e]
      · simp [h8, e, show ¬ i - 8 < 8 by omega, show i - 8 - 8 < 16 by omega, show i - 8 < 24 by omega,
          show 16 + (i - 8 - 8) = i by omega]
  show (g.put .eax _).put .eax (((g.put .eax _).get .eax).extractLsb' 8 24 ++ low) =
    (g.put .eax _).put .eax (((g.put .eax _).get .eax).extractLsb' 16 16 ++ high ++ ((g.put .eax _).get .eax).extractLsb' 0 8)
  simp only [Gprs.get_put, Gprs.put_put]
  exact congrArg (g.put .eax) (word (g.get .eax))

section
variable {s : State}

/-- An adjustment that writes AL and AH, then sets the flags. -/
theorem run_writes_halves {m : M Unit} {low high : Byte} {f : StatusUpd} (fresh : s.Fresh)
    (hm : m s = setStatus f (s.setGpr (s.gpr.halves .byte low high))) :
    ∃ t d, run m s = .next t ∧ Stored s t [] ∧
      Agree { s.retired with gpr := s.gpr.halves .byte low high, eflags := clearRf (f.apply d s.eflags) } t :=
  (run_sets_status fresh ((Upto.refl s).setGpr _) hm).imp fun _ => .imp fun _ => .imp_right .symm

theorem asciiOp_run (sub : Bool) (s : State) :
    let r := asciiAdjust sub (s.gpr.read .byte .eax) (s.gpr.read .byte .esp) s.af
    asciiOp sub s = setStatus r.2.2 (s.setGpr (s.gpr.halves .byte r.1 r.2.1)) := rfl

theorem aadOp_run (base : Byte) (s : State) :
    let r := BitVec.ofNat 8 ((s.gpr.read .byte .esp).toNat * base.toNat + (s.gpr.read .byte .eax).toNat)
    aadOp base s = setStatus (asciiFlags r) (s.setGpr (s.gpr.halves .byte r 0#8)) := by
  have e : s.gpr.read .byte .esp * base + s.gpr.read .byte .eax =
      BitVec.ofNat 8 ((s.gpr.read .byte .esp).toNat * base.toNat + (s.gpr.read .byte .eax).toNat) := by
    apply BitVec.eq_of_toNat_eq
    simp [BitVec.toNat_add, BitVec.toNat_mul]
  rw [← e]
  rfl

theorem aamOp_run {base : Byte} (hb : base ≠ 0#8) (s : State) :
    let al := s.gpr.read .byte .eax
    aamOp base s = setStatus (asciiFlags (BitVec.ofNat 8 (al.toNat % base.toNat)))
      (s.setGpr (s.gpr.halves .byte (BitVec.ofNat 8 (al.toNat % base.toNat)) (BitVec.ofNat 8 (al.toNat / base.toNat)))) := by
  intro al
  have rem : al % base = BitVec.ofNat 8 (al.toNat % base.toNat) := by
    rw [← BitVec.toNat_umod, BitVec.ofNat_toNat, BitVec.setWidth_eq]
  have quo : al / base = BitVec.ofNat 8 (al.toNat / base.toNat) := by
    rw [← BitVec.toNat_udiv, BitVec.ofNat_toNat, BitVec.setWidth_eq]
  rw [← rem, ← quo, ← Gprs.write_high_low]
  unfold aamOp
  rw [getReg_then, check_then (by simpa using hb)]
  rfl

theorem decimalOp_run (sub : Bool) (s : State) :
    let r := decimalAdjust sub (s.gpr.read .byte .eax) s.af s.cf
    decimalOp sub s = setStatus r.2 (s.setGpr (s.gpr.write .byte .eax r.1)) := rfl

/-- DAA or DAS. -/
theorem decimalOp_completes (fresh : s.Fresh) (sub : Bool) : ∃ t d r, run (decimalOp sub) s = .next t ∧ Stored s t [] ∧
    r = bothAdjusted sub (s.gpr.read .byte .eax) s.af s.cf ∧
    Agree { s.retired with
      gpr := s.gpr.write .byte .eax r
      eflags := clearRf ((withSzp r
        { cf := .set (decide (0x9F < lowAdjusted sub (s.gpr.read .byte .eax) s.af % 256) || s.cf),
          af := .set (digitAdjusts (s.gpr.read .byte .eax) s.af), of := .undef }).apply d s.eflags) } t := by
  have ends := decimalOp_run sub s
  rw [decimalAdjust_eq] at ends
  obtain ⟨t, d, e, agree, stored⟩ := run_sets_status fresh ((Upto.refl s).setGpr _) ends
  exact ⟨t, d, _, e, stored, rfl, agree⟩

end

/-- Settles O10. -/
theorem decimalAdjustsComplete : Obligations.DecimalAdjustsComplete := by
  intro s fresh
  have ascii (sub : Bool) := asciiOp_run sub s
  simp only [asciiAdjust_eq] at ascii
  exact ⟨run_writes_halves fresh (ascii false), run_writes_halves fresh (ascii true),
    fun base => run_writes_halves fresh (aadOp_run base s), fun base hb => run_writes_halves fresh (aamOp_run hb s),
    decimalOp_completes fresh false, decimalOp_completes fresh true⟩

end Sys2Proof.Machine
end

section
/-! SUPPORT. CMPXCHG, XADD and XCHG (spec/40_int_a_to_c.md R437, spec/44_int_s_to_x.md R626, R627); O13. -/
namespace Sys2Proof.Machine
open Sys2Proof

section
variable {w : Width} {x : RM} {m : Mem} {r : Reg} {d : BitVec w.bits} {s t u : State}

/-- The destination equals the accumulator: it takes the register. -/
theorem cmpxchgOp_equal (h : updateRM w x s = .ok d t) (e : t.gpr.read w .eax = d)
    (k : writeRM w (t.gpr.read w r) x t = .ok () u) :
    cmpxchgOp w x r s = setStatus (subFlags (t.gpr.read w .eax) d false).2 u := by
  unfold cmpxchgOp
  rw [bind_of_ok h, getReg_then, getReg_then, if_pos e]
  exact bind_of_ok k

/-- It does not: it is written back, and the accumulator takes it. -/
theorem cmpxchgOp_unequal (h : updateRM w x s = .ok d t) (e : t.gpr.read w .eax ≠ d) (k : writeRM w d x t = .ok () u) :
    cmpxchgOp w x r s = setStatus (subFlags (t.gpr.read w .eax) d false).2 (u.setGpr (u.gpr.write w .eax d)) := by
  unfold cmpxchgOp
  rw [bind_of_ok h, getReg_then, getReg_then, if_neg e]
  exact bind_of_ok k

theorem xaddOp_reg {y : Reg} (h : updateRM w (.reg y) s = .ok d t) : xaddOp w (.reg y) r s =
    setStatus (addFlags d (t.gpr.read w r) false).2
      (t.setGpr ((t.gpr.write w r d).write w y (BitVec.ofNat _ (d.toNat + (t.gpr.read w r).toNat)))) :=
  bind_of_ok h

theorem xaddOp_mem (h : updateRM w (.mem m) s = .ok d t)
    (k : writeMem w m (BitVec.ofNat _ (d.toNat + (t.gpr.read w r).toNat)) t = .ok () u) : xaddOp w (.mem m) r s =
    setStatus (addFlags d (t.gpr.read w r) false).2 (u.setGpr (u.gpr.write w r d)) :=
  (bind_of_ok h).trans (bind_of_ok k)

theorem xchgOp_mem (h : updateMem w m s.locked = .ok d t) (k : writeMem w m (t.gpr.read w r) t = .ok () u) :
    xchgOp (.rm w (.mem m) r) s = .ok () (u.setGpr (u.gpr.write w r d)) :=
  (bind_of_ok h).trans (bind_of_ok k)

end

section
variable {w : Width} {x : RM} {m : Mem} {r : Reg} {d : BitVec w.bits} {s s1 s2 : State}

theorem updateMem_reads (w : Width) (m : Mem) : Reads (updateMem w m) := updateRM_reads w (.mem m)

/-- What is read of the operand of CMPXCHG, XADD or XCHG leaves the registers alone. -/
theorem upto_of_update (h : updateRM w x s = .ok d s1) : Upto s s1 [] := (Upto.refl s).reads (updateRM_reads w x) h

/-- A locked access ends as any other. -/
theorem run_locked {m : M Unit} {g : Gprs} {l : List Store} {u : State} (fresh : s.Fresh) (hm : m s = .ok () u)
    (h : Upto (s.locked.setGpr g) u l) : ∃ t, run m s = .next t ∧ Agree { s.retired with gpr := g } t ∧ Stored s t l := by
  have ends := h.finish s fresh.again fresh.keepRf
  exact ⟨finish s u, run_of_ok hm, ends.congr ⟨rfl, rfl, rfl, rfl, rfl, rfl, rfl, rfl, rfl, rfl, rfl, rfl, rfl, rfl, rfl, rfl,
    retired_latch fresh, rfl, rfl⟩, h.storedAt fresh⟩

theorem cmpxchg_equal_completes (fresh : s.Fresh) (h : updateRM w x s = .ok d s1) (e : s.gpr.read w .eax = d)
    (k : writeRM w (s.gpr.read w r) x s1 = .ok () s2) : ∃ t f, exec (.cmpxchg w x r) s = .next t ∧
      Agree { s.retired with gpr := s.gpr.writeRM w x (s.gpr.read w r)
                             eflags := clearRf ((subFlags (s.gpr.read w .eax) d false).2.apply f s.eflags) } t ∧
      Stored s t (s.storeRM w x (s.gpr.read w r)) := by
  have read := upto_of_update h
  rw [← read.gpr] at e k
  have ends := cmpxchgOp_equal h e k
  have done := read.writeRM k
  rw [read.gpr] at ends done
  exact run_sets_status fresh done ends

theorem cmpxchg_unequal_completes (fresh : s.Fresh) (h : updateRM w x s = .ok d s1) (e : s.gpr.read w .eax ≠ d)
    (k : writeRM w d x s1 = .ok () s2) : ∃ t f, exec (.cmpxchg w x r) s = .next t ∧
      Agree { s.retired with gpr := (s.gpr.writeRM w x d).write w .eax d
                             eflags := clearRf ((subFlags (s.gpr.read w .eax) d false).2.apply f s.eflags) } t ∧
      Stored s t (s.storeRM w x d) := by
  have read := upto_of_update h
  rw [← read.gpr] at e
  have ends := cmpxchgOp_unequal (r := r) h e k
  have done := read.writeRM k
  rw [read.gpr, done.gpr] at ends
  exact run_sets_status fresh (done.setGpr _) ends

theorem xadd_reg_completes (fresh : s.Fresh) {y : Reg} (h : updateRM w (.reg y) s = .ok d s1) :
    ∃ t f, exec (.xadd w (.reg y) r) s = .next t ∧ Stored s t [] ∧ Agree { s.retired with
      gpr := (s.gpr.write w r d).write w y (BitVec.ofNat _ (d.toNat + (s.gpr.read w r).toNat))
      eflags := clearRf ((addFlags d (s.gpr.read w r) false).2.apply f s.eflags) } t := by
  have read := upto_of_update h
  have ends := xaddOp_reg (r := r) h
  rw [read.gpr] at ends
  exact (run_sets_status fresh (read.setGpr _) ends).imp fun _ => .imp fun _ => .imp_right .symm

theorem xadd_mem_completes (fresh : s.Fresh) (h : updateRM w (.mem m) s = .ok d s1)
    (k : writeMem w m (BitVec.ofNat _ (d.toNat + (s.gpr.read w r).toNat)) s1 = .ok () s2) :
    ∃ t f, exec (.xadd w (.mem m) r) s = .next t ∧ Agree { s.retired with
        gpr := s.gpr.write w r d
        eflags := clearRf ((addFlags d (s.gpr.read w r) false).2.apply f s.eflags) } t ∧
      Stored s t (s.storeRM w (.mem m) (BitVec.ofNat _ (d.toNat + (s.gpr.read w r).toNat))) := by
  have read := upto_of_update h
  have done := read.writeMem k
  rw [← read.gpr] at k
  have ends := xaddOp_mem h k
  rw [read.gpr, done.gpr] at ends
  exact run_sets_status fresh (done.setGpr _) ends

theorem xchg_mem_completes (fresh : s.Fresh) (h : updateMem w m s.locked = .ok d s1)
    (k : writeMem w m (s.gpr.read w r) s1 = .ok () s2) : ∃ t, exec (.xchg (.rm w (.mem m) r)) s = .next t ∧
      Agree { s.retired with gpr := s.gpr.write w r d } t ∧ Stored s t (s.storeRM w (.mem m) (s.gpr.read w r)) := by
  have read : Upto s.locked s1 [] := (Upto.refl _).reads (updateMem_reads w m) h
  have done := read.writeMem k
  have ends := xchgOp_mem (r := r) h (by rw [read.gpr]; exact k)
  rw [done.gpr] at ends
  exact run_locked fresh ends (done.setGpr _)

end

/-- Settles O13: each exchange on a register and on memory. -/
theorem exchangesComplete : Obligations.ExchangesComplete := by
  refine ⟨fun w x r s s1 d fresh h => ⟨fun e s2 k => cmpxchg_equal_completes fresh h e k,
    fun e s2 k => cmpxchg_unequal_completes fresh h e k, ?_, ?_⟩, fun s fresh => ⟨fun os r => ?_, fun w a r => ?_, ?_⟩⟩
  · rintro y rfl
    exact xadd_reg_completes fresh h
  · rintro m s2 rfl k
    exact xadd_mem_completes fresh h k
  · exact run_writes_gpr (m := swapRegs os.width .eax r) fresh rfl
  · exact run_writes_gpr (m := swapRegs w a r) fresh rfl
  · exact fun w m r d s1 s2 h k => xchg_mem_completes fresh h k

end Sys2Proof.Machine
end

section
/-! SUPPORT. Which selectors pass the access checks (spec/21_segmentation_paging_protection.md R240), and the types they take. -/
namespace Sys2Proof.Machine
open Sys2Proof

section
variable {p : Desc → Bool} {v : Word16} {d : Desc} {s s1 s2 : State}

/-- No descriptor is read for a null selector or one outside its table. -/
theorem examine_unnamed (h : selNull v = true ∨ selInTable s v = false) : examine p v s = .ok none s := by
  unfold examine
  rw [get_then, if_pos]
  · rfl
  · rcases h with h | h <;> simp [h]

theorem examine_named (hn : selNull v = false) (ht : selInTable s v = true) (hd : readDesc v s = .ok d s1)
    (hm : if d.s then markAccessed v d s1 = .ok () s2 else s2 = s1) :
    examine p v s = .ok (if d.visible s.cpl v && p d then some d else none) s2 := by
  unfold examine
  rw [get_then, if_neg (by simp [hn, ht]), bind_of_ok hd]
  cases hs : d.s <;> simp only [hs, Bool.false_eq_true, if_false, if_true] at hm ⊢
  · rw [hm]
    rfl
  · exact bind_of_ok hm

theorem Desc.visible_iff {l : BitVec 2} : d.visible l v = true ↔
    d.conforming = true ∨ (l.toNat ≤ d.dpl.toNat ∧ (selRpl v).toNat ≤ d.dpl.toNat) := by
  simp [Desc.visible]

/-- What a named selector has to pass. -/
theorem Desc.passes_iff {l : BitVec 2} : (d.visible l v && p d) = true ↔
    (d.conforming = true ∨ (l.toNat ≤ d.dpl.toNat ∧ (selRpl v).toNat ≤ d.dpl.toNat)) ∧ p d = true := by
  rw [Bool.and_eq_true, Desc.visible_iff]

end

section
variable (d : Desc)

theorem Desc.larOk_iff : d.larOk = true ↔ d.s = true ∨
    d.typ ∈ [1#4, 2#4, 3#4, 4#4, 5#4, 6#4, 7#4, 9#4, 0xB#4, 0xC#4, 0xE#4, 0xF#4] := by
  unfold Desc.larOk
  generalize d.typ = t
  cases d.s
  · revert t
    decide
  · simp

theorem Desc.lslOk_iff : d.lslOk = true ↔ d.s = true ∨ d.typ ∈ [1#4, 2#4, 3#4, 9#4, 0xB#4] := by
  simp [Desc.lslOk, or_assoc]

theorem Desc.typ_bit3 : d.typ.getLsbD 3 = d.hi.getLsbD 11 := by
  unfold Desc.typ
  rw [BitVec.getLsbD_extractLsb']
  rfl

theorem Desc.typ_bit1 : d.typ.getLsbD 1 = d.hi.getLsbD 9 := by
  unfold Desc.typ
  rw [BitVec.getLsbD_extractLsb']
  rfl

theorem Desc.readable_iff : d.readable = true ↔ d.s = true ∧ (d.typ.getLsbD 3 = false ∨ d.typ.getLsbD 1 = true) := by
  rw [d.typ_bit3, d.typ_bit1]
  unfold Desc.readable Desc.isData Desc.isCode
  cases d.s <;> cases d.hi.getLsbD 11 <;> simp

theorem Desc.writable_iff : d.writable = true ↔ d.s = true ∧ d.typ.getLsbD 3 = false ∧ d.typ.getLsbD 1 = true := by
  rw [d.typ_bit3, d.typ_bit1]
  simp [Desc.writable, Desc.isData, and_assoc]

end

end Sys2Proof.Machine
end

section
/-!
SUPPORT. What examining a descriptor changes: with paging off its accessed byte alone, with paging on what one locked
read-modify-write of that byte changes (R199).
-/
namespace Sys2Proof.Machine
open Sys2Proof

/-- From one state to another nothing has happened but reads and at most one setting of the accessed bit of a descriptor. -/
structure Marked (v : Word16) (s t : State) : Prop where
  eqn : t = { s with mem := t.mem, cache := t.cache, tlb := t.tlb, bufferSpoiled := t.bufferSpoiled
                     insn := { s.insn with hits := t.insn.hits, stores := t.insn.stores } }
  frame : s.memOk = true → s.paging = false → ∀ a, a ≠ (s.phys (descAddr s v + 5#32)).toNat →
    Memory.read t.mem a = Memory.read s.mem a
  stores : s.paging = false → s.insn.stores = [] → t.insn.stores = []
  via : ∀ s0 ps, Via s0 [] [] ps s → ∃ k qs, (k = [] ∨ k = [s.accessMark v]) ∧ Via s0 [] k qs t

section
variable {v : Word16} {s t u : State}

theorem Quiet.marked (h : Quiet s t) : Marked v s t where
  eqn := h.eqn
  frame _ hp _ _ := by rw [h.mem hp]
  stores hp hs := by rw [h.stores hp, hs]
  via s0 ps w := ⟨[], ps, .inl rfl, h.via _ _ _ _ w⟩

theorem Quiet.descAddr (h : Quiet s t) (v : Word16) : Machine.descAddr t v = Machine.descAddr s v := by
  unfold Machine.descAddr
  rw [h.eqn]

theorem Quiet.phys (h : Quiet s t) (a : Word32) : t.phys a = s.phys a := by
  unfold State.phys
  rw [h.eqn]

theorem Marked.after_quiet (h : Quiet s t) (k : Marked v t u) : Marked v s u where
  eqn := by
    have e := k.eqn
    rw [h.eqn] at e
    rw [e]
  frame hw hp a ha := by
    have hm := h.mem hp
    rw [k.frame (by unfold State.memOk; rw [hm]; exact hw) (by rw [h.paging]; exact hp) a (by rw [h.phys, h.descAddr]; exact ha), hm]
  stores hp hs := k.stores (by rw [h.paging]; exact hp) (by rw [h.stores hp, hs])
  via s0 ps w := by
    have e : t.accessMark v = s.accessMark v := by unfold State.accessMark; rw [h.descAddr]
    rw [← e]
    exact k.via s0 ps (h.via _ _ _ _ w)

/-- One byte is changed at once. -/
theorem updateBytes_marked {qs : List (Word32 × Bool)}
    (ht : translateBytes (Machine.descAddr s v + 5#32) true false 1 s = .ok qs t) (hu : updateBytes (· ||| 1#8) qs t = .ok () u) :
    Marked v s u where
  eqn := by
    rw [updateBytes_eqn _ hu, (translateBytes_reads _ _ _ _ _ _ _ ht).eqn]
  frame hw hp a ha := by
    obtain ⟨rfl, rfl⟩ := translateBytes_off _ hp ht
    refine (updateBytes_pokes _ _ _ _ _ hu).frame hw a fun q hq => ?_
    simp only [offAddrs, List.mem_singleton] at hq
    rw [hq]
    exact ha.symm
  stores hp hs := by
    obtain ⟨-, rfl⟩ := translateBytes_off _ hp ht
    refine List.eq_nil_iff_forall_not_mem.mpr fun q hq => ?_
    obtain ⟨r, hr, -⟩ := (updateBytes_pokes _ _ _ _ _ hu).stores q hq
    rw [hs] at hr
    cases hr
  via s0 ps w := ⟨_, _, .inr rfl, w.update ht hu⟩

theorem markAccessed_marked {d : Desc} (h : markAccessed v d s = .ok () t) : Marked v s t := by
  unfold markAccessed at h
  rw [get_then] at h
  split at h
  · exact (Reads.pure () _ _ _ h).marked
  · simp only [sysUpdate, bind_ok_iff] at h
    obtain ⟨_, u, hr, qs, w, ht, hu⟩ := h
    have q := refer_reads _ _ _ hr
    rw [← q.descAddr] at ht
    exact .after_quiet q (updateBytes_marked ht hu)

/-- Whatever a test of a selector answers, it has only marked the descriptor. -/
theorem examine_marked {p : Desc → Bool} {o : Option Desc} (h : examine p v s = .ok o t) : Marked v s t := by
  unfold examine at h
  rw [get_then] at h
  split at h
  · exact (Reads.pure none _ _ _ h).marked
  · rw [bind_ok_iff] at h
    obtain ⟨d, u, hd, h⟩ := h
    refine .after_quiet (readDesc_reads v _ _ _ hd) ?_
    cases hs : d.s <;> simp only [hs, Bool.false_eq_true, if_false, if_true] at h
    · exact (Reads.pure _ _ _ _ h).marked
    · rw [bind_ok_iff] at h
      obtain ⟨_, w, hm, h⟩ := h
      cases h
      exact markAccessed_marked hm

theorem Marked.gpr (h : Marked v s t) : t.gpr = s.gpr := by rw [h.eqn]
theorem Marked.eflags (h : Marked v s t) : t.eflags = s.eflags := by rw [h.eqn]

/-- What a completed access check has changed in memory. -/
def MarksAlone (v : Word16) (s t : State) : Prop :=
  (s.memOk = true → s.paging = false → ∀ a, a ≠ (s.phys (Machine.descAddr s v + 5#32)).toNat →
    Memory.read t.mem a = Memory.read s.mem a) ∧
  ∃ k, (k = [] ∨ k = [s.accessMark v]) ∧ Reaches s t [] k

/-- Registers, flags and the draw counter after a test of a selector, then the end of the instruction. -/
theorem run_marked {m : M Unit} {g : Gprs} {fl : Word32} {n : Nat} (fresh : s.Fresh) (h : Marked v s u)
    (hm : m s = .ok () { u with gpr := g, eflags := fl, freeCtr := n }) :
    ∃ t, run m s = .next t ∧ MarksAlone v s t ∧ Agree { s.retired with gpr := g, eflags := clearRf fl } t := by
  refine ⟨_, run_of_ok hm, ⟨fun hw hp a ha => ?_, ?_⟩, ?_⟩
  · rw [← h.frame hw hp a ha]
    show Memory.read (State.commitList _ u.insn.stores).mem a = _
    rw [h.stores hp fresh.stores]
    rfl
  · obtain ⟨k, ps, one, w⟩ := h.via s [] .start
    have w := (w.elsewhere (v := { u with gpr := g, eflags := fl, freeCtr := n }) ⟨rfl, rfl, rfl, rfl, rfl, rfl, rfl⟩).commit
    exact ⟨k, one, fun _ => ⟨ps, _, w, rfl, rfl, fun hw => w.alike hw fresh.stores⟩⟩
  · have e : ∃ mem cache tlb spoiled hits stores, u = { s with
        mem := mem, cache := cache, tlb := tlb, bufferSpoiled := spoiled
        insn := { s.insn with hits := hits, stores := stores } } := ⟨_, _, _, _, _, _, h.eqn⟩
    obtain ⟨mem, cache, tlb, spoiled, hits, stores, rfl⟩ := e
    refine Agree.congr (finish_eqn s _ ?_ ?_) ?_
    · exact fresh.again
    · exact fresh.keepRf
    · exact ⟨rfl, rfl, rfl, rfl, rfl, rfl, rfl, rfl, rfl, rfl, rfl, rfl, rfl, rfl, rfl, rfl, retired_latch fresh, rfl, rfl⟩

end

end Sys2Proof.Machine
end

section
/-! SUPPORT. ARPL, LAR, LSL, VERR and VERW in Protected Mode; O35. -/
namespace Sys2Proof.Machine
open Sys2Proof

section
variable {p : Desc → Bool} {x : RM} {r : Reg} {os : Size} {v d : Word16} {o : Option Desc} {s s1 s2 : State}

theorem needProt_passes (h : s.prot = true) : needProt s = .ok () s := by
  unfold needProt
  rw [get_then, h]
  rfl

theorem setStatus_zf (b : Bool) (s : State) : setStatus { zf := .set b } s = .ok () (s.setEflags (setBit s.eflags 6 b)) := rfl

theorem readSel_reads (os : Size) (x : RM) : Reads (readSel os x) := (readRM_reads _ x).bind fun _ => .pure _

theorem arpl_keeps (fresh : s.Fresh) (hp : s.prot = true) (h : updateRM .word x s = .ok d s1)
    (e : ¬ (selRpl d).toNat < (selRpl (s.gpr.read .word r)).toNat) : ∃ t, exec (.arpl x r) s = .next t ∧ Stored s t [] ∧
      Agree { s.retired with eflags := clearRf (setBit s.eflags 6 false) } t := by
  have read := upto_of_update h
  have ends : arplOp x r s = .ok () (s1.setEflags (setBit s.eflags 6 false)) := by
    rw [← read.gpr] at e
    unfold arplOp
    rw [bind_of_ok (needProt_passes hp), bind_of_ok h, getReg_then, if_neg e, setStatus_zf, read.eflags]
  exact (run_completes (g := s.gpr) fresh ends (read.setEflags _)).imp fun _ => .imp_right .symm

theorem arpl_raises (fresh : s.Fresh) (hp : s.prot = true) (h : updateRM .word x s = .ok d s1)
    (e : (selRpl d).toNat < (selRpl (s.gpr.read .word r)).toNat)
    (k : writeRM .word (withRpl d (selRpl (s.gpr.read .word r))) x s1 = .ok () s2) : ∃ t, exec (.arpl x r) s = .next t ∧
      Agree { s.retired with gpr := s.gpr.writeRM .word x (withRpl d (selRpl (s.gpr.read .word r)))
                             eflags := clearRf (setBit s.eflags 6 true) } t ∧
      Stored s t (s.storeRM .word x (withRpl d (selRpl (s.gpr.read .word r)))) := by
  have read := upto_of_update h
  have done := read.writeRM k
  have ends : arplOp x r s = .ok () (s2.setEflags (setBit s.eflags 6 true)) := by
    rw [← read.gpr] at e k
    unfold arplOp
    rw [bind_of_ok (needProt_passes hp), bind_of_ok h, getReg_then, if_pos e, bind_of_ok k, setStatus_zf, done.eflags]
    rfl
  exact run_completes fresh ends (done.setEflags _)

/-- A selector read, then tested. -/
theorem marked_of_examine {m : M Word16} (hm : Reads m) (hv : m s = .ok v s1) (he : examine p v s1 = .ok o s2) : Marked v s s2 :=
  .after_quiet (hm _ _ _ hv) (examine_marked he)

/-- The access rights as LAR loads them (42_int_j_to_l.md R535), bits 19 to 16 free. -/
def accessRights (d : Desc) (free : BitVec 4) : Word32 := (d.hi &&& 0x00F0FF00#32) ||| (free.setWidth 32 <<< 16)

theorem accessRights_masked (d : Desc) (free : BitVec 4) : accessRights d free &&& 0xFFF0FFFF#32 = d.hi &&& 0x00F0FF00#32 := by
  have zero : ∀ free : BitVec 4, (free.setWidth 32 <<< 16 : Word32) &&& 0xFFF0FFFF#32 = 0#32 := by decide
  unfold accessRights
  rw [BitVec.and_comm, BitVec.and_or_distrib_left, BitVec.and_comm _ (free.setWidth 32 <<< 16), zero, BitVec.or_zero,
    BitVec.and_comm, BitVec.and_assoc]
  rfl

theorem larOp_none (hp : s.prot = true) (hv : readSel os x s = .ok v s1) (he : examine Desc.larOk v s1 = .ok none s2) :
    larOp os r x s = .ok () (s2.setEflags (setBit s2.eflags 6 false)) := by
  unfold larOp
  rw [bind_of_ok (needProt_passes hp), bind_of_ok hv, bind_of_ok he]
  rfl

theorem larOp_some {d : Desc} (hp : s.prot = true) (hv : readSel os x s = .ok v s1)
    (he : examine Desc.larOk v s1 = .ok (some d) s2) : larOp os r x s = .ok () { s2 with
      gpr := s2.gpr.write os.width r ((accessRights d (Config.freeBits 4 s2.freeCtr)).setWidth _)
      eflags := setBit s2.eflags 6 true, freeCtr := s2.freeCtr + 1 } := by
  unfold larOp
  rw [bind_of_ok (needProt_passes hp), bind_of_ok hv, bind_of_ok he]
  rfl

theorem lar_completes (fresh : s.Fresh) (hp : s.prot = true) (hv : readSel os x s = .ok v s1)
    (he : examine Desc.larOk v s1 = .ok o s2) : ∃ t g, exec (.lar os r x) s = .next t ∧ MarksAlone v s t ∧
      Agree { s.retired with gpr := g, eflags := clearRf (setBit s.eflags 6 o.isSome) } t ∧ (o = none → g = s.gpr) ∧
      ∀ d, o = some d → ∃ u : Word32, u &&& 0xFFF0FFFF#32 = d.hi &&& 0x00F0FF00#32 ∧
        g = s.gpr.write os.width r (u.setWidth _) := by
  have marked := marked_of_examine (readSel_reads os x) hv he
  cases o with
  | none =>
    have ends := larOp_none (r := r) hp hv he
    rw [marked.eflags] at ends
    obtain ⟨t, e, alone, agree⟩ := run_marked (g := s2.gpr) (n := s2.freeCtr) fresh marked ends
    exact ⟨t, _, e, alone, agree, fun _ => marked.gpr, nofun⟩
  | some d =>
    have ends := larOp_some (r := r) hp hv he
    rw [marked.eflags, marked.gpr] at ends
    obtain ⟨t, e, alone, agree⟩ := run_marked fresh marked ends
    exact ⟨t, _, e, alone, agree, nofun, fun _ h => by cases h; exact ⟨_, accessRights_masked d _, rfl⟩⟩

theorem lslOp_none (hp : s.prot = true) (hv : readSel os x s = .ok v s1) (he : examine Desc.lslOk v s1 = .ok none s2) :
    lslOp os r x s = .ok () (s2.setEflags (setBit s2.eflags 6 false)) := by
  unfold lslOp
  rw [bind_of_ok (needProt_passes hp), bind_of_ok hv, bind_of_ok he]
  rfl

theorem lslOp_some {d : Desc} (hp : s.prot = true) (hv : readSel os x s = .ok v s1)
    (he : examine Desc.lslOk v s1 = .ok (some d) s2) : lslOp os r x s = .ok () { s2 with
      gpr := s2.gpr.write os.width r (d.limit.setWidth _), eflags := setBit s2.eflags 6 true } := by
  unfold lslOp
  rw [bind_of_ok (needProt_passes hp), bind_of_ok hv, bind_of_ok he]
  rfl

theorem lsl_completes (fresh : s.Fresh) (hp : s.prot = true) (hv : readSel os x s = .ok v s1)
    (he : examine Desc.lslOk v s1 = .ok o s2) : ∃ t g, exec (.lsl os r x) s = .next t ∧ MarksAlone v s t ∧
      Agree { s.retired with gpr := g, eflags := clearRf (setBit s.eflags 6 o.isSome) } t ∧ (o = none → g = s.gpr) ∧
      ∀ d, o = some d → g = s.gpr.write os.width r (d.limit.setWidth _) := by
  have marked := marked_of_examine (readSel_reads os x) hv he
  cases o with
  | none =>
    have ends := lslOp_none (r := r) hp hv he
    rw [marked.eflags] at ends
    obtain ⟨t, e, alone, agree⟩ := run_marked (g := s2.gpr) (n := s2.freeCtr) fresh marked ends
    exact ⟨t, _, e, alone, agree, fun _ => marked.gpr, nofun⟩
  | some d =>
    have ends := lslOp_some (r := r) hp hv he
    rw [marked.eflags, marked.gpr] at ends
    obtain ⟨t, e, alone, agree⟩ := run_marked (n := s2.freeCtr) fresh marked ends
    exact ⟨t, _, e, alone, agree, nofun, fun _ h => by cases h; rfl⟩

theorem verify_completes (fresh : s.Fresh) (hp : s.prot = true) (hv : readRM .word x s = .ok v s1)
    (he : examine p v s1 = .ok o s2) : ∃ t, run (verifyOp p x) s = .next t ∧ MarksAlone v s t ∧
      Agree { s.retired with eflags := clearRf (setBit s.eflags 6 o.isSome) } t := by
  have marked := marked_of_examine (readRM_reads .word x) hv he
  have ends : verifyOp p x s = .ok () { s2 with gpr := s.gpr, eflags := setBit s.eflags 6 o.isSome, freeCtr := s2.freeCtr } := by
    unfold verifyOp
    rw [bind_of_ok (needProt_passes hp), bind_of_ok hv, bind_of_ok he, setStatus_zf, ← marked.eflags, ← marked.gpr]
    rfl
  exact run_marked fresh marked ends

end

/-- Settles O35: the selectors that pass, the types taken, and the five instructions. -/
theorem accessChecksComplete : Obligations.AccessChecksComplete := by
  refine ⟨fun p v s => ⟨examine_unnamed, fun d s1 s2 hn ht hd hm => ?_⟩,
    fun d => ⟨d.larOk_iff, d.lslOk_iff, d.readable_iff, d.writable_iff⟩, fun x r s s1 fresh hp => ⟨fun d h =>
    ⟨fun e => arpl_keeps fresh hp h e, fun s2 e k => arpl_raises fresh hp h e k⟩, fun os v o s2 hv =>
    ⟨fun he => lar_completes fresh hp hv he, fun he => lsl_completes fresh hp hv he⟩, fun v o s2 hv q hq he => ?_⟩⟩
  · have named := examine_named (p := p) hn ht hd hm
    exact ⟨fun h => by rw [named, if_pos (Desc.passes_iff.mpr h)], fun h => by rw [named, if_neg (h ∘ Desc.passes_iff.mp)]⟩
  · simp only [List.mem_cons, List.not_mem_nil, or_false] at hq
    rcases hq with rfl | rfl
    · exact verify_completes fresh hp hv he
    · exact verify_completes fresh hp hv he

end Sys2Proof.Machine
end

section
/-! SUPPORT. The end of an instruction whose meaning is followed as far as any state; near targets. -/
namespace Sys2Proof.Machine
open Sys2Proof

variable {m : M Unit} {s t u X : State} {l : List Store} {off : Word32}

/-- A meaning followed to a state of the same memory and latches: RF and the interrupt shadows end. -/
theorem run_upto (fresh : s.Fresh) (hm : m s = .ok () u) (h : Upto X u l)
    (same : SameMemory s X := by exact ⟨rfl, rfl, rfl, rfl, rfl, rfl, rfl⟩) (insn : X.insn = s.insn := by rfl)
    (latch : X.latch = s.latch := by rfl) : ∃ t, run m s = .next t ∧ Stored s t l ∧
      Agree { X with eflags := clearRf X.eflags, latch := s.retired.latch } t :=
  ⟨finish s u, run_of_ok hm, h.storedAt fresh same.cr0 same.pins same.mem same.stores same.cr3 same.tlb same.cache,
    h.agree fresh insn latch⟩

theorem checkTarget_passes (h : eipOk s.seg.cs.limit off = true) : checkTarget off s = .ok () s := by
  unfold checkTarget
  rw [get_then, h]
  rfl

theorem jumpNear_run (h : eipOk s.seg.cs.limit off = true) : jumpNear off s = .ok () (s.setEip off) :=
  bind_of_ok (checkTarget_passes h)

end Sys2Proof.Machine
end

section
/-! SUPPORT. The flag moves (spec/40_int_a_to_c.md R430 to R434, spec/42_int_j_to_l.md R534, spec/44_int_s_to_x.md R600, R615 to
R617); O9. -/
namespace Sys2Proof.Machine
open Sys2Proof

variable {s : State}

theorem run_putFlag (fresh : s.Fresh) (i : Nat) (b : Bool) : ∃ t, run (putFlag i b) s = .next t ∧ Stored s t [] ∧
    Agree { s.retired with eflags := clearRf (setBit s.eflags i b) } t :=
  run_upto (X := s.setEflags (setBit s.eflags i b)) fresh rfl (.refl _)

theorem needIopl_passes (h : s.real = true ∨ s.cpl.toNat ≤ s.iopl.toNat) : needIopl s = .ok () s := by
  unfold needIopl
  rw [get_then, check_ok_iff]
  exact ⟨by simpa using h, rfl⟩

/-- STI leaves its shadow in the instruction latch, from which the end of the instruction takes it. -/
theorem stiOp_run (h : s.real = true ∨ s.cpl.toNat ≤ s.iopl.toNat) (fresh : s.Fresh) : stiOp s = .ok ()
    { s.setEflags (setBit s.eflags 9 true) with insn := { s.insn with stiShadow := !s.ifl } } := by
  unfold stiOp putFlag
  rw [bind_of_ok (needIopl_passes h), get_then, modify_then]
  cases s.ifl with
  | true =>
    have e : s.insn = { s.insn with stiShadow := false } := by rw [← fresh.stiShadow]
    exact congrArg (fun j : Insn => EStateM.Result.ok () { s.setEflags (setBit s.eflags 9 true) with insn := j }) e
  | false => rfl

theorem sti_completes (h : s.real = true ∨ s.cpl.toNat ≤ s.iopl.toNat) (fresh : s.Fresh) :
    ∃ t, exec .sti s = .next t ∧ Stored s t [] ∧ Agree { s.retired with
      eflags := clearRf (setBit s.eflags 9 true), latch := { s.retired.latch with stiShadow := !s.ifl } } t := by
  refine ⟨_, run_of_ok (stiOp_run h fresh), (Upto.refl _).storedAt fresh, .congr (finish_eqn s _ ?_ ?_) ?_⟩
  · exact fresh.again
  · exact fresh.keepRf
  · exact ⟨rfl, rfl, rfl, rfl, rfl, rfl, rfl, rfl, rfl, rfl, rfl, rfl, rfl, rfl, rfl, rfl,
      congrArg (fun x : IntLatches => { x with stiShadow := !s.ifl }) (retired_latch fresh), rfl, rfl⟩

theorem setBit_zero_not (v : Word32) : setBit v 0 (!v.getLsbD 0) = v ^^^ 1#32 := by
  apply BitVec.eq_of_getLsbD_eq
  intro i hi
  rw [getLsbD_setBit v (by decide), BitVec.getLsbD_xor]
  by_cases h : i = 0
  · subst h
    simp
  · simp [h, BitVec.getLsbD_one]

/-- The flags SAHF loads are bits of EAX eight places up. -/
theorem mix_ah (v a : Word32) : mix 0xD5#32 ((a.extractLsb' 8 8).setWidth 32) v = (v &&& 0xFFFFFF2A#32) ||| ((a >>> 8) &&& 0xD5#32) := by
  have ah : (a.extractLsb' 8 8).setWidth 32 &&& 0xD5#32 = (a >>> 8) &&& 0xD5#32 := by
    apply BitVec.eq_of_getLsbD_eq
    intro i hi
    have high : ∀ i < 32, ¬ i < 8 → (0xD5#32).getLsbD i = false := by decide
    simp only [BitVec.getLsbD_and, BitVec.getLsbD_setWidth, BitVec.getLsbD_extractLsb', BitVec.getLsbD_ushiftRight]
    by_cases h : i < 8
    · simp [h, hi]
    · rw [high i hi h, Bool.and_false, Bool.and_false]
  unfold mix
  rw [ah, BitVec.or_comm]
  rfl

/-- Settles O9: no access is made, each instruction is one change of EFLAGS or AH. -/
theorem flagMovesComplete : Obligations.FlagMovesComplete := by
  intro s fresh
  refine ⟨fun allowed => ⟨?_, sti_completes allowed fresh⟩, ?_, ?_, run_putFlag fresh 0 false, run_putFlag fresh 0 true, ?_,
    run_putFlag fresh 10 false, run_putFlag fresh 10 true, ?_⟩
  · exact run_upto (m := cliOp) (X := s.setEflags (setBit s.eflags 9 false)) fresh (bind_of_ok (needIopl_passes allowed)) (.refl _)
  · exact run_writes_gpr (m := lahfOp) fresh rfl
  · rw [← mix_ah]
    exact run_upto (m := sahfOp) (X := s.setEflags (mix 0xD5#32 ((s.gpr.eax.extractLsb' 8 8).setWidth 32) s.eflags)) fresh rfl (.refl _)
  · rw [← setBit_zero_not]
    exact run_putFlag fresh 0 (!s.cf)
  · exact run_upto (m := pure ()) (X := s) fresh rfl (.refl _)

end Sys2Proof.Machine
end

section
/-! SUPPORT. The jumps on a condition and on the count register (spec/42_int_j_to_l.md R500, R506, R508, R548); O26, O27. -/
namespace Sys2Proof.Machine
open Sys2Proof

section
variable {s : State} {c : Cond} {d : Rel} {os as : Size} {e : Byte} {also : State → Bool}

/-- The conditional jumps run `jccOp`. -/
theorem exec_condJump {p : (Rel → Instr) × Cond} (hp : p ∈ condJumps) (d : Rel) (s : State) :
    exec (p.1 d) s = run (jccOp p.2 d) s := by
  simp only [condJumps, List.mem_cons, List.not_mem_nil, or_false] at hp
  rcases hp with rfl | rfl | rfl | rfl | rfl | rfl | rfl | rfl | rfl | rfl | rfl | rfl | rfl | rfl | rfl | rfl | rfl | rfl |
    rfl | rfl | rfl | rfl | rfl | rfl | rfl | rfl | rfl | rfl | rfl | rfl <;> rfl

theorem jccOp_stays (h : s.cond c = false) : jccOp c d s = .ok () s := by
  unfold jccOp
  rw [get_then, h]
  rfl

theorem jccOp_jumps (h : s.cond c = true) (k : eipOk s.seg.cs.limit (d.os.trunc (s.eip + d.disp)) = true) :
    jccOp c d s = .ok () (s.setEip (d.os.trunc (s.eip + d.disp))) := by
  unfold jccOp
  rw [get_then, h]
  exact jumpNear_run k

theorem jcxzOp_stays (h : as.trunc s.gpr.ecx ≠ 0#32) : jcxzOp as os e s = .ok () s := by
  unfold jcxzOp
  rw [get_then, if_neg h]
  rfl

theorem jcxzOp_jumps (h : as.trunc s.gpr.ecx = 0#32) (k : eipOk s.seg.cs.limit (os.trunc (s.eip + e.signExtend 32)) = true) :
    jcxzOp as os e s = .ok () (s.setEip (os.trunc (s.eip + e.signExtend 32))) := by
  unfold jcxzOp
  rw [get_then, if_pos h]
  exact jumpNear_run k

/-- The loops run `loopOp`. -/
theorem exec_looper {p : (Size → Size → Byte → Instr) × (Bool → Bool)} (hp : p ∈ loopers) (os as : Size) (e : Byte) (s : State) :
    exec (p.1 os as e) s = run (loopOp os as e fun t => p.2 t.zf) s := by
  simp only [loopers, List.mem_cons, List.not_mem_nil, or_false] at hp
  rcases hp with rfl | rfl | rfl <;> rfl

theorem trunc_merge (z : Size) (o v : Word32) : z.trunc (z.merge o v) = z.trunc v := by
  cases z with
  | s16 =>
    apply BitVec.eq_of_getLsbD_eq
    intro i hi
    simp only [Size.trunc, Size.merge, BitVec.getLsbD_setWidth, BitVec.getLsbD_append]
    by_cases h : i < 16 <;> simp [h]
  | s32 => rfl

theorem loopOp_stays (h : as.trunc (s.gpr.ecx - 1#32) = 0#32 ∨ also s = false) : loopOp os as e also s =
    .ok () (s.setGpr { s.gpr with ecx := as.merge s.gpr.ecx (s.gpr.ecx - 1#32) }) := by
  have stays : (as.trunc (s.gpr.ecx - 1#32) != 0#32 && also s) = false := by
    rcases h with h | h <;> simp [h]
  unfold loopOp
  rw [get_then]
  simp only [stays]
  rfl

/-- The target is checked before the count is written. -/
theorem loopOp_jumps (h : as.trunc (s.gpr.ecx - 1#32) ≠ 0#32) (ha : also s = true)
    (k : eipOk s.seg.cs.limit (os.trunc (s.eip + e.signExtend 32)) = true) : loopOp os as e also s =
    .ok () ((s.setGpr { s.gpr with ecx := as.merge s.gpr.ecx (s.gpr.ecx - 1#32) }).setEip (os.trunc (s.eip + e.signExtend 32))) := by
  have taken : (as.trunc (s.gpr.ecx - 1#32) != 0#32 && also s) = true := by simp [h, ha]
  unfold loopOp
  rw [get_then]
  simp only [taken, if_true]
  exact bind_of_ok (checkTarget_passes k)

end

/-- Settles O26, by whether the condition holds. -/
theorem condJumpsComplete : Obligations.CondJumpsComplete := by
  intro p hp d s fresh
  rw [exec_condJump hp]
  refine ⟨fun h => ?_, fun h k => ?_⟩
  · exact (run_upto (X := s) fresh (jccOp_stays h) (.refl _)).imp fun _ => .imp_right .symm
  · exact (run_upto fresh (jccOp_jumps h k) (.refl _)).imp fun _ => .imp_right .symm

/-- Settles O27: what is left of the count in its size is the count less one. -/
theorem countJumpsComplete : Obligations.CountJumpsComplete := by
  intro os e s fresh
  refine ⟨fun p hp => ?_, fun p hp as => ?_⟩
  · have runs : exec p.1 s = run (jcxzOp p.2 os e) s := by
      simp only [List.mem_cons, List.not_mem_nil, or_false] at hp
      rcases hp with rfl | rfl <;> rfl
    rw [runs]
    refine ⟨fun h => ?_, fun h k => ?_⟩
    · exact (run_upto (X := s) fresh (jcxzOp_stays h) (.refl _)).imp fun _ => .imp_right .symm
    · exact (run_upto fresh (jcxzOp_jumps h k) (.refl _)).imp fun _ => .imp_right .symm
  · rw [exec_looper hp]
    simp only [trunc_merge]
    exact ⟨fun h => run_upto fresh (loopOp_stays h) (.refl _), fun h ha k => run_upto fresh (loopOp_jumps h ha k) (.refl _)⟩

end Sys2Proof.Machine
end

section
/-! SUPPORT. The stack pointer and the pushes of an instruction (spec/20_memory.md R140 to R142). -/
namespace Sys2Proof.Machine
open Sys2Proof

theorem merge_merge (z : Size) (o u v : Word32) : z.merge (z.merge o u) v = z.merge o v := by
  cases z with
  | s16 =>
    apply BitVec.eq_of_getLsbD_eq
    intro i hi
    simp only [Size.merge, BitVec.getLsbD_append, BitVec.getLsbD_extractLsb']
    by_cases h : i < 16
    · simp [h]
    · simp [h, show 16 + (i - 16) = i by omega]
  | s32 => rfl

/-- Where a number ends up in a register does not depend on the bits above the size, before an addition or after. -/
theorem merge_trunc_add (z : Size) (o u v : Word32) : z.merge o (z.trunc u + v) = z.merge o (u + v) := by
  cases z with
  | s16 =>
    have low : ((u.setWidth 16).setWidth 32 + v).setWidth 16 = (u + v).setWidth 16 := by
      apply BitVec.eq_of_toNat_eq
      simp only [BitVec.toNat_setWidth, BitVec.toNat_add]
      omega
    exact congrArg (o.extractLsb' 16 16 ++ ·) low
  | s32 => rfl

section
variable {s t u X : State} {n : Nat} {l : List Store}

theorem State.sp_moveSp (s : State) (k : Word32) : (s.moveSp k).sp = s.stackSize.trunc (s.sp + k) := trunc_merge _ _ _

theorem State.espPlus_moveSp (s : State) (j k : Word32) : (s.moveSp j).espPlus k = s.espPlus (j + k) := by
  have size : (s.moveSp j).stackSize = s.stackSize := rfl
  have esp : (s.moveSp j).gpr.esp = s.stackSize.merge s.gpr.esp (s.sp + j) := rfl
  unfold State.espPlus
  rw [State.sp_moveSp, size, esp, merge_trunc_add, merge_merge, BitVec.add_assoc]
  rfl

/-- Moves of the stack pointer add up. -/
theorem State.moveSp_moveSp (s : State) (j k : Word32) : (s.moveSp j).moveSp k = s.moveSp (j + k) :=
  congrArg (fun g => { s with gpr := g }) (s.espPlus_moveSp j k)

theorem merge_sp (s : State) : s.stackSize.merge s.gpr.esp s.sp = s.gpr.esp := by
  unfold State.sp
  rw [merge_trunc]
  generalize s.stackSize = z
  cases z with
  | s16 =>
    apply BitVec.eq_of_getLsbD_eq
    intro i hi
    simp only [Size.merge, BitVec.getLsbD_append, BitVec.getLsbD_extractLsb', BitVec.getLsbD_setWidth]
    by_cases h : i < 16
    · simp [h]
    · simp [h, show 16 + (i - 16) = i by omega, show i - 16 < 16 by omega]
  | s32 => rfl

theorem State.moveSp_zero (s : State) : s.moveSp 0#32 = s := by
  unfold State.moveSp State.espPlus
  rw [BitVec.add_zero, merge_sp]

theorem Upto.stackSize (h : Upto X t l) : t.stackSize = X.stackSize := by
  unfold State.stackSize State.prot State.pe State.vm State.cr0Bit
  rw [h.cr0, h.eflags, h.seg]

theorem Upto.sp (h : Upto X t l) : t.sp = X.sp := by
  unfold State.sp
  rw [h.stackSize, h.gpr]

theorem Upto.espPlus (h : Upto X t l) (k : Word32) : t.espPlus k = X.espPlus k := by
  unfold State.espPlus
  rw [h.stackSize, h.sp, h.gpr]

theorem Upto.moveSp (h : Upto X t l) (k : Word32) : Upto (X.moveSp k) (t.moveSp k) l := by
  show Upto (X.setGpr (X.espPlus k)) (t.setGpr (t.espPlus k)) l
  rw [h.espPlus]
  exact h.setGpr _

theorem stackFree_run (k : Nat) (s : State) : stackFree k s = .ok () (s.moveSp (BitVec.ofNat 32 k)) := rfl

/-- A push whose store can be made. -/
theorem push_run {v : Nat} (fits : s.pushFits n = true) (h : memWrite s.stackSize .ss (s.pushOff n) n n v s = .ok () u) :
    push n v s = .ok () (u.moveSp (-BitVec.ofNat 32 n)) := by
  have stays : (s.real && decide (0 < s.sp.toNat) && decide (s.sp.toNat < n)) = false :=
    (Bool.not_eq_true' _).mp fits
  have e := (memWrite_holds h).eqn
  have size : u.stackSize = s.stackSize := by
    rw [e]
    rfl
  have gpr : u.gpr = s.gpr := by rw [e]
  unfold push
  rw [get_then]
  simp only [stays, Bool.false_eq_true, if_false]
  refine (bind_of_ok h).trans (congrArg (fun g => EStateM.Result.ok () (u.setGpr g)) ?_)
  unfold State.espPlus State.sp
  rw [size, gpr, merge_trunc, BitVec.sub_eq_add_neg]

/-- The first of pushes that can be made, and the others. -/
theorem push_of_pushesTo {v : Nat} {vs : List Nat} (h : pushesTo n (v :: vs) s t) :
    ∃ u, push n v s = .ok () u ∧ pushesTo n vs u t := by
  obtain ⟨fits, u, hw, rest⟩ := h
  exact ⟨_, push_run fits hw, rest⟩

/-- One move down and `k` more. -/
theorem neg_add_neg_mul (k n : Nat) :
    -BitVec.ofNat 32 n + -BitVec.ofNat 32 (k * n) = -BitVec.ofNat 32 ((k + 1) * n) := by
  rw [Nat.add_mul, Nat.one_mul, BitVec.ofNat_add, BitVec.neg_add, BitVec.add_comm, ← BitVec.sub_eq_add_neg]

/-- Pushes move the stack pointer by each and hold back a store for each. -/
theorem Upto.pushes : ∀ {vs : List Nat} {Y t : State} {l : List Store}, Upto Y t l → pushesTo n vs t u →
    Upto (Y.moveSp (-BitVec.ofNat 32 (vs.length * n))) u (l ++ Y.pushStores n vs)
  | [], Y, t, l, h, k => by
    have e : -BitVec.ofNat 32 (0 * n) = 0#32 := by simp
    rw [show u = t from k, List.length_nil, e, State.moveSp_zero]
    simpa [State.pushStores] using h
  | v :: vs, Y, t, l, h, k => by
    obtain ⟨-, w, hw, rest⟩ := k
    have step := h.memWrite hw
    rw [show t.pushOff n = Y.pushOff n by unfold State.pushOff; rw [h.stackSize, h.sp]] at step
    have done := (step.moveSp (-BitVec.ofNat 32 n)).pushes rest
    rw [State.moveSp_moveSp] at done
    rw [neg_add_neg_mul, List.append_assoc] at done
    exact done

end

end Sys2Proof.Machine
end

section
/-! SUPPORT. Near JMP, CALL and RET (spec/40_int_a_to_c.md R427, spec/42_int_j_to_l.md R513, spec/43_int_m_to_r.md R585); O28. -/
namespace Sys2Proof.Machine
open Sys2Proof

section
variable {f : NearForm} {os : Size} {target : Word32} {s s1 s2 t : State}

/-- Finding the target of a near transfer reads and does no more. -/
theorem nearTarget_run (h : (∃ d : Rel, f = .rel d ∧ os = d.os ∧ target = os.trunc (s.eip + d.disp) ∧ s1 = s) ∨
      (∃ x v, f = .ind os x ∧ readRM os.width x s = .ok v s1 ∧ target = v.setWidth 32)) :
    nearTarget f s = .ok (target, os) s1 ∧ Upto s s1 [] := by
  rcases h with ⟨d, rfl, rfl, rfl, rfl⟩ | ⟨x, v, rfl, hv, rfl⟩
  · exact ⟨rfl, .refl _⟩
  · exact ⟨bind_of_ok hv, (Upto.refl s).reads (readRM_reads _ x) hv⟩

theorem jmpNear_completes (fresh : s.Fresh) (h : nearTarget f s = .ok (target, os) s1) (read : Upto s s1 [])
    (inside : eipOk s.seg.cs.limit target = true) : ∃ t, exec (.jmpNear f) s = .next t ∧ Stored s t [] ∧
      Agree { s.retired with eip := target } t := by
  have ends : jmpNearOp f s = .ok () (s1.setEip target) :=
    (bind_of_ok h).trans (jumpNear_run (by rw [read.seg]; exact inside))
  exact run_upto fresh ends (read.setEip target)

theorem callNear_completes (fresh : s.Fresh) (h : nearTarget f s = .ok (target, os) s1) (read : Upto s s1 [])
    (inside : eipOk s.seg.cs.limit target = true) (room : pushesTo os.bytes [(os.trunc s.eip).toNat] s1 s2) :
    ∃ t, exec (.callNear f) s = .next t ∧ Stored s t (s.pushStores os.bytes [(os.trunc s.eip).toNat]) ∧
      Agree { s.retired with eip := target, gpr := s.espPlus (-BitVec.ofNat 32 os.bytes) } t := by
  have pushed := read.pushes room
  rw [List.length_singleton, Nat.one_mul] at pushed
  obtain ⟨u, hu, rfl⟩ := push_of_pushesTo room
  have ends : callNearOp f s = .ok () (s2.setEip target) := by
    rw [← read.eip] at hu
    rw [← read.seg] at inside
    exact (bind_of_ok h).trans ((bind_of_ok (checkTarget_passes inside)).trans (bind_of_ok hu))
  exact run_upto fresh ends (pushed.setEip target)

theorem pop_run {n v : Nat} (h : stackRead 0 n s = .ok v t) : pop n s = .ok v (t.moveSp (BitVec.ofNat 32 n)) :=
  bind_of_ok h

theorem retParts_eq {f : RetForm} {k : Nat} (h : (f = .plain os ∧ k = 0) ∨ ∃ n, f = .imm os n ∧ k = n.toNat) :
    retParts f = (os, k) := by
  rcases h with ⟨rfl, rfl⟩ | ⟨n, rfl, rfl⟩ <;> rfl

theorem retNear_completes {f : RetForm} {k v : Nat} (fresh : s.Fresh) (h : retParts f = (os, k))
    (hv : stackRead 0 os.bytes s = .ok v s1) (inside : eipOk s.seg.cs.limit (BitVec.ofNat 32 v) = true) :
    ∃ t, exec (.retNear f) s = .next t ∧ Stored s t [] ∧
      Agree { s.retired with eip := BitVec.ofNat 32 v, gpr := s.espPlus (BitVec.ofNat 32 (os.bytes + k)) } t := by
  have read : Upto s s1 [] := (Upto.refl s).reads (stackRead_reads _ _) hv
  have freed := ((read.moveSp (BitVec.ofNat 32 os.bytes)).setEip (BitVec.ofNat 32 v)).moveSp (BitVec.ofNat 32 k)
  have sum : ((s.moveSp (BitVec.ofNat 32 os.bytes)).setEip (BitVec.ofNat 32 v)).moveSp (BitVec.ofNat 32 k) =
      (s.moveSp (BitVec.ofNat 32 (os.bytes + k))).setEip (BitVec.ofNat 32 v) := by
    rw [BitVec.ofNat_add, ← State.moveSp_moveSp]
    rfl
  have ends : retNearOp f s = .ok () (((s1.moveSp (BitVec.ofNat 32 os.bytes)).setEip (BitVec.ofNat 32 v)).moveSp
      (BitVec.ofNat 32 k)) := by
    rw [← read.seg] at inside
    unfold retNearOp
    rw [h]
    exact (bind_of_ok (pop_run hv)).trans (bind_of_ok (checkTarget_passes inside))
  rw [sum] at freed
  exact run_upto fresh ends freed

end

/-- Settles O28: the target is found by reading, then the return address is pushed or popped. -/
theorem nearTransfersComplete : Obligations.NearTransfersComplete := by
  intro s s1 fresh
  refine ⟨fun f target os h inside => ?_, fun f os k v h hv inside => retNear_completes fresh (retParts_eq h) hv inside⟩
  obtain ⟨found, read⟩ := nearTarget_run h
  refine ⟨?_, fun s2 room => ?_⟩
  · exact (jmpNear_completes fresh found read inside).imp fun _ => .imp_right .symm
  · exact (callNear_completes fresh found read inside room).imp fun _ => .imp_right .symm

end Sys2Proof.Machine
end

section
/-! SUPPORT. The string instructions run once, not repeated (spec/42_int_j_to_l.md R547 and the like); O24. -/
namespace Sys2Proof.Machine
open Sys2Proof

section
variable {as : Size} {w : Width} {i : Instr} {s s1 s2 t X : State} {l : List Store} {n : Nat}

/-- An instruction that is not repeated is its one iteration. -/
theorem exec_string {b : Instr} {f : Size → Instr} {c : Bool} {op : Width → M Unit} (h : Sized b f i w) (once : s.insn.rep = none)
    (hb : exec b s = run (repeated as c (op .byte)) s) (hf : ∀ os, exec (f os) s = run (repeated as c (op os.width)) s) :
    exec i s = run (op w) s := by
  have alone (body : M Unit) : run (repeated as c body) s = run body s := by
    unfold run repeated
    rw [get_then, once]
  rcases h with ⟨rfl, rfl⟩ | ⟨os, rfl, rfl⟩
  · rw [hb, alone]
  · rw [hf, alone]

/-- The source index stepped. -/
def State.srcStepped (s : State) (as : Size) (n : Nat) : State := s.setGpr { s.gpr with esi := s.stepIndex as s.gpr.esi n }
/-- The destination index stepped. -/
def State.dstStepped (s : State) (as : Size) (n : Nat) : State := s.setGpr { s.gpr with edi := s.stepIndex as s.gpr.edi n }

theorem stepSrc_run (as : Size) (n : Nat) (s : State) : stepSrc as n s = .ok () (s.srcStepped as n) := rfl
theorem stepDst_run (as : Size) (n : Nat) (s : State) : stepDst as n s = .ok () (s.dstStepped as n) := rfl

theorem Upto.stepIndex (h : Upto X t l) (v : Word32) : t.stepIndex as v n = X.stepIndex as v n := by
  unfold State.stepIndex State.df
  rw [h.eflags]

theorem Upto.stepSrc (h : Upto X t l) (as : Size) (n : Nat) : Upto (X.srcStepped as n) (t.srcStepped as n) l := by
  unfold State.srcStepped
  rw [h.gpr, h.stepIndex]
  exact h.setGpr _

theorem Upto.stepDst (h : Upto X t l) (as : Size) (n : Nat) : Upto (X.dstStepped as n) (t.dstStepped as n) l := by
  unfold State.dstStepped
  rw [h.gpr, h.stepIndex]
  exact h.setGpr _

/-- What the platform has seen changes. -/
theorem Upto.setEvents (h : Upto X t l) (e : List BusEvent) : Upto { X with events := e } { t with events := e } l := by
  refine h.elsewhere ?_ ⟨rfl, rfl, rfl, rfl, rfl, rfl, rfl⟩ ⟨rfl, rfl, rfl, rfl, rfl, rfl, rfl⟩
  have e := h.eqn
  rw [e]

/-- What can be read passes its segment check, which changes nothing. -/
theorem segCheck_of_memRead {z : Size} {r : SReg} {off : Word32} {a v : Nat} (h : memRead z r off n a s = .ok v t) :
    ∃ lin, segCheck z r off n .read s = .ok lin s := by
  unfold memRead at h
  rw [bind_ok_iff] at h
  obtain ⟨lin, u, hc, -⟩ := h
  have e := hc
  rw [segCheck_run] at e
  split at e
  · split at e
    · cases e
      exact ⟨_, hc⟩
    · cases e
  · cases e

theorem lods_completes (fresh : s.Fresh) (h : memRead as (s.segOr .ds) (s.srcIndex as) w.bytes w.bytes s = .ok n s1) :
    ∃ t, run (lodsOp w as) s = .next t ∧ Stored s t [] ∧ Agree { s.retired with
      gpr := { s.gpr.write w .eax (BitVec.ofNat _ n) with esi := s.stepIndex as s.gpr.esi w.bytes } } t := by
  have read : Upto s s1 [] := (Upto.refl s).reads (memRead_reads _ _ _ _ _) h
  have esi : (s.gpr.write w .eax (BitVec.ofNat _ n)).esi = s.gpr.esi := by cases w <;> rfl
  have done := (read.setGpr (s.gpr.write w .eax (BitVec.ofNat _ n))).stepSrc as w.bytes
  rw [State.srcStepped, State.setGpr_gpr, esi] at done
  have ends : lodsOp w as s = .ok () ((s1.setGpr (s.gpr.write w .eax (BitVec.ofNat _ n))).srcStepped as w.bytes) := by
    rw [← read.gpr]
    exact bind_of_ok h
  exact run_upto fresh ends done

theorem stos_completes (fresh : s.Fresh)
    (h : memWrite as .es (s.dstIndex as) w.bytes w.bytes (s.gpr.read w .eax).toNat s = .ok () s1) :
    ∃ t, run (stosOp w as) s = .next t ∧
      Stored s t [(s.seg.es.base + s.dstIndex as, w.bytes, (s.gpr.read w .eax).toNat)] ∧
      Agree { s.retired with gpr := { s.gpr with edi := s.stepIndex as s.gpr.edi w.bytes } } t :=
  run_upto (m := stosOp w as) fresh (bind_of_ok h) (((Upto.refl s).memWrite h).stepDst as w.bytes)

/-- Both segment checks come before the read: they pass. -/
theorem movs_completes (fresh : s.Fresh) (type : segTypeOk s s.seg.es .write = true)
    (limit : segLimitOk as s.seg.es (s.dstIndex as).toNat w.bytes = true)
    (h : memRead as (s.segOr .ds) (s.srcIndex as) w.bytes w.bytes s = .ok n s1)
    (k : memWrite as .es (s.dstIndex as) w.bytes w.bytes n s1 = .ok () s2) :
    ∃ t, run (movsOp w as) s = .next t ∧ Stored s t [(s.seg.es.base + s.dstIndex as, w.bytes, n)] ∧
      Agree { s.retired with gpr := { s.gpr with esi := s.stepIndex as s.gpr.esi w.bytes
                                                 edi := s.stepIndex as s.gpr.edi w.bytes } } t := by
  have read : Upto s s1 [] := (Upto.refl s).reads (memRead_reads _ _ _ _ _) h
  have done := ((read.memWrite k).stepSrc as w.bytes).stepDst as w.bytes
  obtain ⟨lin, source⟩ := segCheck_of_memRead h
  have dest : segCheck as .es (s.dstIndex as) w.bytes .write s = .ok (s.seg.es.base + s.dstIndex as) s := by
    rw [segCheck_run, if_pos (show segTypeOk s (s.seg.get .es) .write = true from type),
      if_pos (show segLimitOk as (s.seg.get .es) _ _ = true from limit)]
    rfl
  exact run_upto (m := movsOp w as) fresh ((bind_of_ok source).trans ((bind_of_ok dest).trans ((bind_of_ok h).trans (bind_of_ok k)))) done

theorem cmps_completes {a b : Nat} (fresh : s.Fresh)
    (h : memRead as (s.segOr .ds) (s.srcIndex as) w.bytes w.bytes s = .ok a s1)
    (k : memRead as .es (s.dstIndex as) w.bytes w.bytes s1 = .ok b s2) :
    ∃ t d, run (cmpsOp w as) s = .next t ∧ Stored s t [] ∧ Agree { s.retired with
      gpr := { s.gpr with esi := s.stepIndex as s.gpr.esi w.bytes, edi := s.stepIndex as s.gpr.edi w.bytes }
      eflags := clearRf ((subFlags (BitVec.ofNat w.bits a) (BitVec.ofNat w.bits b) false).2.apply d s.eflags) } t := by
  have read : Upto s s2 [] := ((Upto.refl s).reads (memRead_reads _ _ _ _ _) h).reads (memRead_reads _ _ _ _ _) k
  have ends : cmpsOp w as s = setStatus (subFlags (BitVec.ofNat w.bits a) (BitVec.ofNat w.bits b) false).2
      ((s2.srcStepped as w.bytes).dstStepped as w.bytes) := (bind_of_ok h).trans (bind_of_ok k)
  obtain ⟨t, d, e, agree, stored⟩ := run_sets_status fresh ((read.stepSrc as w.bytes).stepDst as w.bytes) ends
  exact ⟨t, d, e, stored, agree⟩

theorem scas_completes {b : Nat} (fresh : s.Fresh) (h : memRead as .es (s.dstIndex as) w.bytes w.bytes s = .ok b s1) :
    ∃ t d, run (scasOp w as) s = .next t ∧ Stored s t [] ∧ Agree { s.retired with
      gpr := { s.gpr with edi := s.stepIndex as s.gpr.edi w.bytes }
      eflags := clearRf ((subFlags (s.gpr.read w .eax) (BitVec.ofNat w.bits b) false).2.apply d s.eflags) } t := by
  have read : Upto s s1 [] := (Upto.refl s).reads (memRead_reads _ _ _ _ _) h
  have ends : scasOp w as s = setStatus (subFlags (s.gpr.read w .eax) (BitVec.ofNat w.bits b) false).2
      (s1.dstStepped as w.bytes) := bind_of_ok h
  obtain ⟨t, d, e, agree, stored⟩ := run_sets_status fresh (read.stepDst as w.bytes) ends
  exact ⟨t, d, e, stored, agree⟩

/-- The value is the platform's, whatever it is. -/
theorem ins_completes (fresh : s.Fresh) (h : ioPermit (s.gpr.edx.setWidth 16) w.bytes s = .ok () s1)
    (k : memProbe as .es (s.dstIndex as) w.bytes w.bytes s1 = .ok () s2)
    (store : ∀ v, ∃ s3, memWrite as .es (s.dstIndex as) w.bytes w.bytes v
      { s2 with freeCtr := s2.freeCtr + 1
                events := s2.events ++ [.ioRead (s.gpr.edx.setWidth 16) w.bytes] } = .ok () s3) :
    ∃ t v, run (insOp w as) s = .next t ∧ Stored s t [(s.seg.es.base + s.dstIndex as, w.bytes, v)] ∧
      Agree { s.retired with gpr := { s.gpr with edi := s.stepIndex as s.gpr.edi w.bytes }
                             events := s.events ++ [.ioRead (s.gpr.edx.setWidth 16) w.bytes] } t := by
  have probed : Upto s s2 [] := ((Upto.refl s).reads (ioPermit_reads _ _) h).reads (memProbe_reads _ _ _ _ _) k
  have asked := (probed.setEvents (s.events ++ [.ioRead (s.gpr.edx.setWidth 16) w.bytes])).setCtr (s2.freeCtr + 1)
  rw [probed.events] at store
  obtain ⟨s3, hw⟩ := store ((Config.ioRead (s.gpr.edx.setWidth 16) w.bytes s2.freeCtr).toNat % 2 ^ (8 * w.bytes))
  have port : ioIn (s.gpr.edx.setWidth 16) w.bytes s2 = .ok _ _ := rfl
  rw [probed.events] at port
  obtain ⟨t, done⟩ := run_upto (m := insOp w as) fresh
    ((bind_of_ok h).trans ((bind_of_ok k).trans ((bind_of_ok port).trans (bind_of_ok hw)))) ((asked.memWrite hw).stepDst as w.bytes)
  exact ⟨t, _, done⟩

theorem outs_completes (fresh : s.Fresh) (h : ioPermit (s.gpr.edx.setWidth 16) w.bytes s = .ok () s1)
    (k : memRead as (s.segOr .ds) (s.srcIndex as) w.bytes w.bytes s1 = .ok n s2) :
    ∃ t, run (outsOp w as) s = .next t ∧ Stored s t [] ∧
      Agree { s.retired with gpr := { s.gpr with esi := s.stepIndex as s.gpr.esi w.bytes }
                             events := s.events ++ [.ioWrite (s.gpr.edx.setWidth 16) w.bytes (BitVec.ofNat 32 n)] } t := by
  have read : Upto s s2 [] := ((Upto.refl s).reads (ioPermit_reads _ _) h).reads (memRead_reads _ _ _ _ _) k
  have done := (read.setEvents (s2.events ++ [.ioWrite (s.gpr.edx.setWidth 16) w.bytes (BitVec.ofNat 32 n)])).stepSrc as w.bytes
  rw [← read.events]
  exact run_upto (m := outsOp w as) fresh ((bind_of_ok h).trans (bind_of_ok k)) done

end

/-- Settles O24, primitive by primitive: its accesses, then the step of its index registers. -/
theorem stringsComplete : Obligations.StringsComplete := by
  intro as w s i fresh once
  refine ⟨fun h n s1 hr => ?_, fun h s1 hw => ?_, fun h n s1 s2 ht hl hr hw => ?_, fun h a b s1 s2 ha hb => ?_,
    fun h b s1 hb => ?_, fun h s1 s2 hp hq hw => ?_, fun h n s1 s2 hp hr => ?_⟩
  · rw [exec_string h once (op := fun w => lodsOp w as) rfl fun _ => rfl]
    exact lods_completes fresh hr
  · rw [exec_string h once (op := fun w => stosOp w as) rfl fun _ => rfl]
    exact stos_completes fresh hw
  · rw [exec_string h once (op := fun w => movsOp w as) rfl fun _ => rfl]
    exact movs_completes fresh ht hl hr hw
  · rw [exec_string h once (op := fun w => cmpsOp w as) rfl fun _ => rfl]
    exact cmps_completes fresh ha hb
  · rw [exec_string h once (op := fun w => scasOp w as) rfl fun _ => rfl]
    exact scas_completes fresh hb
  · rw [exec_string h once (op := fun w => insOp w as) rfl fun _ => rfl]
    exact ins_completes fresh hp hq hw
  · rw [exec_string h once (op := fun w => outsOp w as) rfl fun _ => rfl]
    exact outs_completes fresh hp hr

end Sys2Proof.Machine
end

section
/-! SUPPORT. What memory is after stores and changes of bytes depends on the state by its pins alone; ways that follow one another. -/
namespace Sys2Proof.Machine
open Sys2Proof

/-- Memory after locked read-modify-writes, the first made first, while paging is off. -/
def State.memChanges (s : State) : List Change → List Host.Cell → List Host.Cell
  | [], m => m
  | p :: k, m => s.memChanges k (s.memUpdate p.1 p.2 m)

section
variable {s t u : State} {l l' : List Store} {k k' : List Change} {ps qs : List (Word32 × Bool)}

theorem memChanges_append (s : State) : ∀ (k k' : List Change) (m : List Host.Cell),
    s.memChanges (k ++ k') m = s.memChanges k' (s.memChanges k m)
  | [], _, _ => rfl
  | p :: k, k', m => memChanges_append s k k' (s.memUpdate p.1 p.2 m)

theorem memChanges_marking (s : State) (x : Word16) (d : Desc) (m : List Host.Cell) :
    s.memChanges (s.marking x d) m = s.memMark x d m := by
  unfold State.marking State.memMark
  split <;> rfl

theorem phys_congr (h : t.pins = s.pins) (a : Word32) : t.phys a = s.phys a := by
  unfold State.phys
  rw [h]

theorem memBytes_congr (h : t.pins = s.pins) : ∀ (b : List Byte) (lin : Word32) (m : List Host.Cell),
    t.memBytes lin b m = s.memBytes lin b m
  | [], _, _ => rfl
  | v :: b, lin, m => by
    simp only [State.memBytes]
    rw [phys_congr h, memBytes_congr h b]

theorem memAfter_congr (h : t.pins = s.pins) : ∀ (l : List Store) (m : List Host.Cell), t.memAfter l m = s.memAfter l m
  | [], _ => rfl
  | p :: l, m => by
    simp only [State.memAfter]
    rw [memBytes_congr h, memAfter_congr h l]

theorem memChanges_congr (h : t.pins = s.pins) : ∀ (k : List Change) (m : List Host.Cell), t.memChanges k m = s.memChanges k m
  | [], _ => rfl
  | p :: k, m => by
    have first : t.memUpdate p.1 p.2 m = s.memUpdate p.1 p.2 m := by
      unfold State.memUpdate
      rw [phys_congr h]
    simp only [State.memChanges]
    rw [first, memChanges_congr h k]

theorem SameMemory.paging (h : SameMemory s t) : t.paging = s.paging := by
  unfold State.paging State.cr0Bit
  rw [h.cr0]

theorem SameMemory.writesThrough (h : SameMemory s t) (w : s.WritesThrough) : t.WritesThrough := by
  refine w.imp (fun only => ?_) fun c => ⟨?_, h.cache.trans c.empty, h.stores.trans c.stores⟩
  · unfold State.cacheOnly State.cr0Bit at *
    rw [h.cr0]
    exact only
  · have off := c.off
    unfold State.cr0Bit at *
    rw [h.cr0]
    exact off

/-- A way, and a way from where it ends. -/
theorem Via.trans (h : Via s l k ps t) (g : Via t l' k' qs u) : Via s (l ++ l') (k ++ k') (ps ++ qs) u := by
  induction g with
  | start =>
    simp only [List.append_nil]
    exact h
  | elsewhere _ e ih => exact .elsewhere ih e
  | walk _ e ih => exact .walk ih e
  | read _ ih => exact .read ih
  | store _ e1 e2 ih =>
    rw [← List.append_assoc, ← List.append_assoc]
    exact .store ih e1 e2
  | write _ e1 e2 ih =>
    rw [← List.append_assoc, ← List.append_assoc]
    exact .write ih e1 e2
  | update _ e1 e2 ih =>
    rw [← List.append_assoc, ← List.append_assoc]
    exact .update ih e1 e2
  | commit _ ih => exact .commit ih

/-- A byte that no held store covers. -/
theorem pendingByte_none {x : List Host.Cell} {a : Nat} (h : ∀ p ∈ x, p.1 ≠ a) : pendingByte x a = none := by
  cases e : pendingByte x a with
  | none => rfl
  | some v =>
    obtain ⟨q, hq, hqa⟩ := pendingByte_mem e
    exact absurd hqa (h q hq)

/-- A locked read-modify-write where every write reaches memory. -/
theorem updatePhys_mem (h : s.cacheOnly = false ∨ s.cache = []) (a : Word32) (f : Byte → Byte) :
    (s.updatePhys a f).mem = Memory.write s.mem a.toNat (f (Memory.read s.mem a.toNat)) := by
  have written (v : Byte) : (s.writePhys a v).mem = Memory.write s.mem a.toNat v := by
    rcases h with h | h
    · have only : ¬ (s.cr0Bit 30 && s.cr0Bit 29) = true := by
        rw [show (s.cr0Bit 30 && s.cr0Bit 29) = false from h]
        decide
      unfold State.writePhys
      dsimp only
      split
      · exact congrArg State.mem (if_neg only)
      · rfl
    · rw [writePhys_uncached h]
  unfold State.updatePhys
  dsimp only
  split
  · exact written _
  · exact written _

theorem updatePhys_stores_of_apart {a : Word32} (h : ∀ p ∈ s.insn.stores, p.1 ≠ a.toNat) (f : Byte → Byte) :
    (s.updatePhys a f).insn.stores = s.insn.stores := by
  unfold State.updatePhys
  rw [pendingByte_none h, writePhys_eqn]

end

end Sys2Proof.Machine
end

section
/-!
SUPPORT. Following a meaning that, besides what `Upto` follows, changes bytes at once with locked read-modify-writes
(spec/20_memory.md R131).
-/
namespace Sys2Proof.Machine
open Sys2Proof

/-- The state `t` is `X` but for memory and what an access changes besides it. On the way from `X`, in which nothing was held back,
the stores `l` were made and held back, and the read-modify-writes `k` were made at once. Where `apart` holds, none of these meets a
byte held back before it. -/
structure Trail (apart : Prop) (X t : State) (l : List Store) (k : List Change) : Prop where
  clean : X.insn.stores = []
  eqn : t = { X with mem := t.mem, cache := t.cache, tlb := t.tlb, bufferSpoiled := t.bufferSpoiled, freeCtr := t.freeCtr
                     insn := { X.insn with hits := t.insn.hits, stores := t.insn.stores } }
  held : apart → X.paging = false → t.insn.stores = heldAll X.pins l []
  value : X.paging = false → X.WritesThrough → t.mem = X.memChanges k X.mem
  frame : X.memOk = true → X.paging = false → ∀ a, (∀ p ∈ k, (X.phys p.1).toNat ≠ a) →
    Memory.read t.mem a = Memory.read X.mem a
  via : ∃ ps, Via X l k ps t

/-- A change of registers: what it makes of a state does not depend on memory and what an access changes besides it, and leaves
that as it is. -/
structure OfRegisters (f : State → State) : Prop where
  commutes : ∀ s mem cache tlb spoiled ctr hits stores,
    f { s with mem := mem, cache := cache, tlb := tlb, bufferSpoiled := spoiled, freeCtr := ctr
               insn := { s.insn with hits := hits, stores := stores } } =
      { f s with mem := mem, cache := cache, tlb := tlb, bufferSpoiled := spoiled, freeCtr := ctr
                 insn := { (f s).insn with hits := hits, stores := stores } }
  same : ∀ s, SameMemory s (f s)

section
variable {apart : Prop} {s t u X : State} {l l' : List Store} {k : List Change} {f : State → State}

theorem OfRegisters.eqn (hf : OfRegisters f)
    (h : t = { X with mem := t.mem, cache := t.cache, tlb := t.tlb, bufferSpoiled := t.bufferSpoiled, freeCtr := t.freeCtr
                      insn := { X.insn with hits := t.insn.hits, stores := t.insn.stores } }) :
    f t = { f X with mem := (f t).mem, cache := (f t).cache, tlb := (f t).tlb, bufferSpoiled := (f t).bufferSpoiled
                     freeCtr := (f t).freeCtr, insn := { (f X).insn with hits := (f t).insn.hits, stores := (f t).insn.stores } } := by
  have e := hf.commutes X t.mem t.cache t.tlb t.bufferSpoiled t.freeCtr t.insn.hits t.insn.stores
  rw [← h] at e
  rw [e]

theorem Upto.change (h : Upto X t l) (hf : OfRegisters f) : Upto (f X) (f t) l :=
  h.elsewhere (hf.eqn h.eqn) (hf.same X) (hf.same t)

theorem Upto.trail (h : Upto X t l) (clean : X.insn.stores = []) : Trail apart X t l [] where
  clean := clean
  eqn := h.eqn
  held _ hp := by rw [h.stores hp, clean]
  value hp _ := h.mem hp
  frame _ hp _ _ := by rw [h.mem hp]
  via := h.via

namespace Trail

theorem paging (h : Trail apart X t l k) : t.paging = X.paging := by
  unfold State.paging State.cr0Bit
  rw [h.eqn]

theorem pins (h : Trail apart X t l k) : t.pins = X.pins := by rw [h.eqn]

theorem descAddr (h : Trail apart X t l k) (x : Word16) : Machine.descAddr t x = Machine.descAddr X x := by
  unfold Machine.descAddr
  rw [h.eqn]

/-- Stores held back after the changes. -/
theorem thenUpto (h : Trail apart X t l k) (g : Upto t u l') : Trail apart X u (l ++ l') k where
  clean := h.clean
  eqn := by
    have e := g.eqn
    rw [h.eqn] at e
    rw [e]
  held ha hp := by rw [g.stores (by rw [h.paging]; exact hp), h.held ha hp, h.pins, heldAll_append]
  value hp hw := by rw [g.mem (by rw [h.paging]; exact hp), h.value hp hw]
  frame hw hp a ha := by rw [g.mem (by rw [h.paging]; exact hp), h.frame hw hp a ha]
  via := by
    obtain ⟨ps, w⟩ := h.via
    obtain ⟨qs, v⟩ := g.via
    have way := w.trans v
    rw [List.append_nil] at way
    exact ⟨_, way⟩

theorem reads {α : Type} {x : M α} {a : α} (h : Trail apart X t l k) (hx : Reads x) (e : x t = .ok a u) : Trail apart X u l k := by
  have g := h.thenUpto ((Upto.refl t).reads hx e)
  rwa [List.append_nil] at g

theorem change (h : Trail apart X t l k) (hf : OfRegisters f) : Trail apart (f X) (f t) l k where
  clean := (hf.same X).stores.trans h.clean
  eqn := hf.eqn h.eqn
  held ha hp := by
    rw [(hf.same t).stores, (hf.same X).pins, h.held ha ((hf.same X).paging ▸ hp)]
  value hp hw := by
    have back : SameMemory (f X) X := (hf.same X).symm
    rw [(hf.same t).mem, h.value (back.paging ▸ hp) (back.writesThrough hw), (hf.same X).mem, memChanges_congr (hf.same X).pins]
  frame hw hp a ha := by
    have wf : X.memOk = true := by
      unfold State.memOk at *
      rw [← (hf.same X).mem]
      exact hw
    rw [(hf.same t).mem, (hf.same X).mem]
    exact h.frame wf ((hf.same X).paging ▸ hp) a fun p hp => by rw [← phys_congr (hf.same X).pins]; exact ha p hp
  via := h.via.imp fun _ w => (w.elsewhere (hf.same t)).from (hf.same X).symm

/-- Where every write reaches memory at the start, it does along the way. -/
theorem writes (h : Trail apart X t l k) (hp : X.paging = false) (hw : X.WritesThrough) : t.cacheOnly = false ∨ t.cache = [] := by
  refine hw.imp (fun only => ?_) fun c => ?_
  · rw [h.eqn]
    exact only
  · obtain ⟨ps, w⟩ := h.via
    exact (w.uncached hp c.off c.empty).1

theorem memOk (h : Trail apart X t l k) (hw : X.memOk = true) : Memory.wf t.mem = true := by
  obtain ⟨ps, w⟩ := h.via
  exact (w.frame hw h.clean).1

/-- With paging off a locked read-modify-write at a linear address is one at its physical address. -/
theorem update_off {lin : Word32} {g : Byte → Byte} {qs : List (Word32 × Bool)} {v : State} (h : Trail apart X t l k)
    (hp : X.paging = false) (ht : translateBytes lin true false 1 t = .ok qs v) (hu : updateBytes g qs v = .ok () u) :
    v = t ∧ u = t.updatePhys (X.phys lin) g := by
  obtain ⟨rfl, rfl⟩ := translateBytes_off 1 (by rw [h.paging]; exact hp) ht
  simp only [offAddrs, updateBytes, modify_then, pure_run, EStateM.Result.ok.injEq, true_and] at hu
  refine ⟨rfl, ?_⟩
  rw [← hu, State.phys, ← h.pins]

/-- A locked read-modify-write of a byte. -/
theorem update {lin : Word32} {g : Byte → Byte} (h : Trail apart X t l k) (hu : sysUpdate lin g t = .ok () u)
    (free : apart → ∀ p ∈ l, ¬ X.touches p (X.phys lin).toNat) : Trail apart X u l (k ++ [(lin, g)]) := by
  simp only [sysUpdate, bind_ok_iff] at hu
  obtain ⟨_, t1, hr, qs, v, ht, hu⟩ := hu
  have at1 := h.reads refer_reads hr
  have at2 := at1.reads (translateBytes_reads _ _ _ _) ht
  have off (hp : X.paging = false) : u = t1.updatePhys (X.phys lin) g := (at1.update_off hp ht hu).2
  refine ⟨h.clean, ?_, fun ha hp => ?_, fun hp hw => ?_, fun hw hp a ha => ?_, ?_⟩
  · have e := updateBytes_eqn _ hu
    rw [at2.eqn] at e
    rw [e]
  · have held := at1.held ha hp
    rw [off hp, updatePhys_stores_of_apart, held]
    intro p hq e
    rw [held] at hq
    rcases heldAll_mem X l [] p hq with no | ⟨q, hql, touched⟩
    · cases no
    · exact free ha q hql (e ▸ touched)
  · rw [off hp, updatePhys_mem (at1.writes hp hw), memChanges_append, ← at1.value hp hw]
    rfl
  · rw [off hp, (updatePhys_pokes t1 (X.phys lin, true) g).frame (at1.memOk hw) a fun q hq => ?_]
    · exact at1.frame hw hp a fun p hp => ha p (by simp [hp])
    · simp only [List.mem_singleton] at hq
      rw [hq]
      exact ha (lin, g) (by simp)
  · obtain ⟨ps, w⟩ := at1.via
    exact ⟨_, w.update ht hu⟩

/-- The accessed bit of a descriptor is set, where it is 0. -/
theorem mark {x : Word16} {d : Desc} (h : Trail apart X t l k) (hm : markAccessed x d t = .ok () u)
    (free : apart → X.clearOf x l) : Trail apart X u l (k ++ X.marking x d) := by
  unfold markAccessed at hm
  rw [get_then] at hm
  unfold State.marking
  split at hm
  · next set =>
    rw [if_pos set, List.append_nil]
    exact h.reads (.pure ()) hm
  · next clear =>
    rw [if_neg clear]
    rw [h.descAddr] at hm
    exact h.update hm free

end Trail

/-- What an instruction leaves of memory when it makes the stores `l` and, at once, the read-modify-writes `k`. -/
structure Changed (apart : Prop) (s t : State) (l : List Store) (k : List Change) : Prop where
  reaches : Reaches s t l k
  value : apart → s.paging = false → s.WritesThrough → t.mem = s.memAfter l (s.memChanges k s.mem)
  frame : apart → l = [] → s.memOk = true → s.paging = false → ∀ a, (∀ p ∈ k, (s.phys p.1).toNat ≠ a) →
    Memory.read t.mem a = Memory.read s.mem a

/-- The registers at the end of an instruction that asked its end for nothing. -/
theorem agree_of_eqn (fresh : s.Fresh) (insn : X.insn = s.insn) (latch : X.latch = s.latch)
    (h : u = { X with mem := u.mem, cache := u.cache, tlb := u.tlb, bufferSpoiled := u.bufferSpoiled, freeCtr := u.freeCtr
                      insn := { X.insn with hits := u.insn.hits, stores := u.insn.stores } }) :
    Agree { X with eflags := clearRf X.eflags, latch := s.retired.latch } (finish s u) := by
  have e : ∃ mem cache tlb spoiled ctr hits stores, u = { X with
      mem := mem, cache := cache, tlb := tlb, bufferSpoiled := spoiled, freeCtr := ctr
      insn := { X.insn with hits := hits, stores := stores } } := ⟨_, _, _, _, _, _, _, h⟩
  obtain ⟨mem, cache, tlb, spoiled, ctr, hits, stores, rfl⟩ := e
  refine Agree.congr (finish_eqn s _ ?_ ?_) ?_
  · exact (congrArg Insn.again insn).trans fresh.again
  · exact (congrArg Insn.keepRf insn).trans fresh.keepRf
  · refine ⟨rfl, rfl, rfl, rfl, rfl, rfl, rfl, rfl, rfl, rfl, rfl, rfl, rfl, rfl, rfl, rfl, ?_, rfl, rfl⟩
    rw [retired_latch fresh, ← insn, ← latch]

/-- The end of an instruction commits what it held back. -/
theorem Trail.changed (h : Trail apart X u l k) (same : SameMemory s X) (s0 : State) : Changed apart s (finish s0 u) l k := by
  have hmem : (finish s0 u).mem = (u.commitList u.insn.stores).mem := rfl
  have clean : s.insn.stores = [] := same.stores.symm.trans h.clean
  refine ⟨fun _ => ?_, fun ha hp hw => ?_, fun ha hl hw hp a hk => ?_⟩
  · obtain ⟨ps, w⟩ := h.via
    have w := (w.from same).commit
    exact ⟨ps, _, w, rfl, hmem, fun hw => w.alike hw clean⟩
  · have hp : X.paging = false := same.paging.trans hp
    have hw := same.writesThrough hw
    have whole : (u.commitList u.insn.stores).mem = commitMem u.mem u.insn.stores := by
      rcases h.writes hp hw with only | empty
      · exact commitList_mem u only _
      · exact commitList_mem_empty u empty _
    rw [hmem, whole, h.held ha hp, heldAll_commit, h.value hp hw, memAfter_congr same.pins, memChanges_congr same.pins, same.mem]
    rfl
  · have hp : X.paging = false := same.paging.trans hp
    have wf : X.memOk = true := by
      unfold State.memOk at *
      rw [same.mem]
      exact hw
    rw [hmem, h.held ha hp, hl, ← same.mem]
    exact h.frame wf hp a fun p hq => by rw [phys_congr same.pins]; exact hk p hq

/-- An instruction whose meaning is followed along a trail. -/
theorem run_trail {m : M Unit} (fresh : s.Fresh) (hm : m s = .ok () u) (h : Trail apart X u l k)
    (same : SameMemory s X := by exact ⟨rfl, rfl, rfl, rfl, rfl, rfl, rfl⟩) (insn : X.insn = s.insn := by rfl)
    (latch : X.latch = s.latch := by rfl) : ∃ t, run m s = .next t ∧ Changed apart s t l k ∧
      Agree { X with eflags := clearRf X.eflags, latch := s.retired.latch } t :=
  ⟨finish s u, run_of_ok hm, h.changed same s, agree_of_eqn fresh insn latch h.eqn⟩

end

end Sys2Proof.Machine
end

section
/-! SUPPORT. The descriptor table registers, LDTR and TR (spec/42_int_j_to_l.md R541 to R551, spec/44_int_s_to_x.md R607 to R619);
O32. -/
namespace Sys2Proof.Machine
open Sys2Proof

/-- The base of a table as an operand size takes it: 24 bits for 16. -/
def tableBase (os : Size) (v : Word32) : Word32 :=
  match os with
  | .s16 => v &&& 0x00FFFFFF#32
  | .s32 => v

/-- A pseudo-descriptor of six bytes. -/
def tableOf (os : Size) (v : Nat) : TableReg :=
  { base := tableBase os (BitVec.ofNat 32 (v / 2 ^ 16)), limit := BitVec.ofNat 16 v }

section
variable {os : Size} {m : Mem} {x : RM} {s s1 s2 s3 : State} {v : Word16} {d : Desc}

theorem needCpl0_passes (h : s.privileged = true) : needCpl0 s = .ok () s := by
  unfold needCpl0
  rw [get_then, check_ok_iff]
  exact ⟨h, rfl⟩

theorem loadTable_run {n : Nat} (h : s.privileged = true) (k : readMemN m 6 4 s = .ok n s1) :
    loadTable os m s = .ok (tableOf os n) s1 := by
  unfold loadTable
  rw [bind_of_ok (needCpl0_passes h), bind_of_ok k]
  cases os <;> rfl

theorem tables_load {n : Nat} (fresh : s.Fresh) (h : s.privileged = true) (k : readMemN m 6 4 s = .ok n s1) :
    (∃ t, exec (.lgdt os m) s = .next t ∧ Stored s t [] ∧ Agree { s.retired with gdtr := tableOf os n } t) ∧
    (∃ t, exec (.lidt os m) s = .next t ∧ Stored s t [] ∧ Agree { s.retired with idtr := tableOf os n } t) := by
  have read : Upto s s1 [] := (Upto.refl s).reads (readMemN_reads _ _ _) k
  have gdtr : lgdtOp os m s = .ok () { s1 with gdtr := tableOf os n } := bind_of_ok (loadTable_run h k)
  have idtr : lidtOp os m s = .ok () { s1 with idtr := tableOf os n } := bind_of_ok (loadTable_run h k)
  constructor
  · exact run_upto fresh gdtr (read.change (f := fun s => { s with gdtr := tableOf os n })
      ⟨fun _ _ _ _ _ _ _ _ => rfl, fun _ => ⟨rfl, rfl, rfl, rfl, rfl, rfl, rfl⟩⟩)
  · exact run_upto fresh idtr (read.change (f := fun s => { s with idtr := tableOf os n })
      ⟨fun _ _ _ _ _ _ _ _ => rfl, fun _ => ⟨rfl, rfl, rfl, rfl, rfl, rfl, rfl⟩⟩)

/-- The two accesses of a table store. -/
theorem table_stores {y : TableReg} (fresh : s.Fresh)
    (h : memWrite m.as (s.segOf m) (s.gpr.ea m) 2 4 y.limit.toNat s = .ok () s1)
    (k : memWrite m.as (s.segOf m) (eaPlus m (s.gpr.ea m) 2) 4 1 (tableBase os y.base).toNat s1 = .ok () s2) :
    ∃ t, run (storeTable os m y) s = .next t ∧ Agree s.retired t ∧
      Stored s t [(s.lin m, 2, y.limit.toNat),
        ((s.seg.get (s.segOf m)).base + eaPlus m (s.gpr.ea m) 2, 4, (tableBase os y.base).toNat)] := by
  have ends : storeTable os m y s = .ok () s2 := by
    cases os <;> exact (bind_of_ok h).trans k
  exact (run_upto fresh ends (((Upto.refl s).memWrite h).memWrite k)).imp fun _ => .imp_right .symm

theorem privileged_of_cpl0 (hp : s.prot = true) (h : s.cpl = 0#2) : s.privileged = true := by
  simp [State.privileged, hp, h]

/-- The selector LLDT or LTR reads, after the tests of mode and level. -/
theorem readSelector_then {β : Type} {f : Word16 → M β} (hp : s.prot = true) (h : s.cpl = 0#2) (hv : readRM .word x s = .ok v s1) :
    (needProt >>= fun _ => needCpl0 >>= fun _ => readRM .word x >>= f) s = f v s1 := by
  rw [bind_of_ok (needProt_passes hp), bind_of_ok (needCpl0_passes (privileged_of_cpl0 hp h)), bind_of_ok hv]

theorem Upto.selInTable {t X : State} {l : List Store} (h : Upto X t l) (v : Word16) :
    Machine.selInTable t v = Machine.selInTable X v := by
  unfold Machine.selInTable
  rw [h.ldtr, h.gdtr]

theorem lldt_null (fresh : s.Fresh) (hp : s.prot = true) (h : s.cpl = 0#2) (hv : readRM .word x s = .ok v s1)
    (hn : selNull v = true) : ∃ t, exec (.lldt x) s = .next t ∧ Stored s t [] ∧
      Agree { s.retired with ldtr := { s.ldtr with sel := v, valid := false } } t := by
  have read : Upto s s1 [] := (Upto.refl s).reads (readRM_reads _ x) hv
  have ends : lldtOp x s = .ok () (s1.setLdtr { s.ldtr with sel := v, valid := false }) := by
    refine (readSelector_then hp h hv).trans ?_
    rw [get_then, if_pos hn, modify_run, read.ldtr]
  exact run_upto fresh ends (read.change (f := fun s' => s'.setLdtr { s.ldtr with sel := v, valid := false })
      ⟨fun _ _ _ _ _ _ _ _ => rfl, fun _ => ⟨rfl, rfl, rfl, rfl, rfl, rfl, rfl⟩⟩)

theorem lldt_loads (fresh : s.Fresh) (hp : s.prot = true) (h : s.cpl = 0#2) (hv : readRM .word x s = .ok v s1)
    (hn : selNull v = false) (gdt : selTi v = false) (inside : selInTable s v = true) (hd : readDesc v s1 = .ok d s2)
    (sys : d.s = false) (present : d.present = true) (type : d.typ = 2#4) : ∃ t, exec (.lldt x) s = .next t ∧ Stored s t [] ∧
      Agree { s.retired with ldtr := d.toLdt v } t := by
  have read : Upto s s1 [] := (Upto.refl s).reads (readRM_reads _ x) hv
  have ends : lldtOp x s = .ok () (s2.setLdtr (d.toLdt v)) := by
    refine (readSelector_then hp h hv).trans ?_
    rw [get_then, if_neg (by simp [hn]), check_then (by simp [gdt, read.selInTable, inside]), bind_of_ok hd,
      check_then (by simp [sys, type]), check_then present, modify_run]
  exact run_upto fresh ends ((read.reads (readDesc_reads v) hd).change (f := fun s => s.setLdtr (d.toLdt v))
      ⟨fun _ _ _ _ _ _ _ _ => rfl, fun _ => ⟨rfl, rfl, rfl, rfl, rfl, rfl, rfl⟩⟩)

/-- The busy bit of a descriptor in the GDT. -/
theorem Trail.setBusy {apart : Prop} {X t u : State} {l : List Store} {k : List Change} {b : Bool} (h : Trail apart X t l k)
    (hb : Machine.setBusy v b t = .ok () u) (free : apart → ∀ p ∈ l, ¬ X.touches p (X.phys (X.busyByte v)).toNat) :
    Trail apart X u l (k ++ [X.busyMark v b]) := by
  have gdtr : t.gdtr = X.gdtr := by rw [h.eqn]
  unfold Machine.setBusy at hb
  rw [get_then, gdtr] at hb
  exact h.update hb free

theorem ltr_loads (fresh : s.Fresh) (hp : s.prot = true) (h : s.cpl = 0#2) (hv : readRM .word x s = .ok v s1)
    (hn : selNull v = false) (gdt : selTi v = false) (inside : selInTable s v = true) (hd : readDesc v s1 = .ok d s2)
    (present : d.present = true) (type : d.isFreeTss = true) (hb : setBusy v true s2 = .ok () s3) :
    ∃ t, exec (.ltr x) s = .next t ∧ Changed True s t [] [s.busyMark v true] ∧
      Agree { s.retired with tr := { sel := v, base := d.base, limit := d.limit, format := d.tssFormat } } t := by
  have read : Upto s s1 [] := (Upto.refl s).reads (readRM_reads _ x) hv
  have busy : Trail True s s3 [] [s.busyMark v true] :=
    ((read.reads (readDesc_reads v) hd).trail fresh.stores).setBusy hb fun _ _ no => nomatch no
  have ends : ltrOp x s = .ok () { s3 with tr := { sel := v, base := d.base, limit := d.limit, format := d.tssFormat } } := by
    refine (readSelector_then hp h hv).trans ?_
    rw [get_then, check_then (by simp [hn]), check_then (by simp [gdt, read.selInTable, inside]), bind_of_ok hd, check_then type,
      check_then present, bind_of_ok hb, modify_run]
  exact run_trail fresh ends (busy.change (f := fun s =>
      { s with tr := { sel := v, base := d.base, limit := d.limit, format := d.tssFormat } })
      ⟨fun _ _ _ _ _ _ _ _ => rfl, fun _ => ⟨rfl, rfl, rfl, rfl, rfl, rfl, rfl⟩⟩)

/-- SLDT and STR store their selector. -/
theorem selector_stores {r : State → Word16} {op : RM → M Unit} (fresh : s.Fresh) (hp : s.prot = true)
    (hop : op x = needProt >>= fun _ => get >>= fun s => writeRM .word (r s) x) (hw : writeRM .word (r s) x s = .ok () s1) :
    ∃ t, run (op x) s = .next t ∧ Agree { s.retired with gpr := s.gpr.writeRM .word x (r s) } t ∧
      Stored s t (s.storeRM .word x (r s)) := by
  refine run_keeps_flags fresh ?_ ((Upto.refl s).writeRM hw)
  rw [hop, bind_of_ok (needProt_passes hp)]
  exact hw

end

/-- Settles O32: loads of tables, stores of tables, then the selector loads and stores of Protected Mode. -/
theorem descriptorTablesComplete : Obligations.DescriptorTablesComplete := by
  refine ⟨fun os m s s1 s2 fresh => ⟨fun v hc hv => ?_, fun p hp h k => ?_⟩, fun x s s1 fresh hp => ⟨fun v hc hv =>
    ⟨fun hn => lldt_null fresh hp hc hv hn, fun d s2 hn gdt inside hd sys present => ⟨fun type => ?_, fun s3 type hb => ?_⟩⟩,
    fun os p hq hw => ?_⟩⟩
  · exact tables_load fresh hc hv
  · simp only [List.mem_cons, List.not_mem_nil, or_false] at hp
    rcases hp with rfl | rfl
    · exact table_stores (y := s.gdtr) fresh h k
    · exact table_stores (y := s.idtr) fresh h k
  · exact lldt_loads fresh hp hc hv hn gdt inside hd sys present type
  · obtain ⟨t, e, changed, agree⟩ := ltr_loads fresh hp hc hv hn gdt inside hd present type hb
    refine ⟨t, e, agree, changed.value trivial, fun hw off a ha => ?_, changed.reaches⟩
    exact changed.frame trivial rfl hw off a fun q hq => by rw [List.mem_singleton.mp hq]; exact ha.symm
  · simp only [List.mem_cons, List.not_mem_nil, or_false] at hq
    rcases hq with rfl | rfl
    · exact selector_stores (r := fun s => s.ldtr.sel) (op := sldtOp) fresh hp rfl hw
    · exact selector_stores (r := fun s => s.tr.sel) (op := strOp) fresh hp rfl hw

end Sys2Proof.Machine
end

section
/-! SUPPORT. Far transfers outside Protected Mode, and what the checks of the others read (spec/40_int_a_to_c.md R427,
spec/42_int_j_to_l.md R513, spec/43_int_m_to_r.md R585). -/
namespace Sys2Proof.Machine
open Sys2Proof

theorem farPointer_reads : ∀ f : FarForm, Reads (farPointer f)
  | .ptr _ _ => .pure _
  | .mem _ m => ((readMemN_reads m _ _).bind fun _ => .pure _).bind fun _ => .pure _

theorem farDesc_reads (x : Word16) : Reads (farDesc x) :=
  Reads.get.bind fun _ => (Reads.check _ _).bind fun _ => (Reads.check _ _).bind fun _ => readDesc_reads x

theorem checkDirect_reads (x : Word16) (d : Desc) : Reads (checkDirect x d) :=
  Reads.get.bind fun _ => by
    split
    · exact (Reads.check _ _).bind fun _ => .check _ _
    · exact (Reads.check _ _).bind fun _ => (Reads.check _ _).bind fun _ => .check _ _

theorem checkDpl_reads (x : Word16) (d : Desc) (e : Word16 → Exc) : Reads (checkDpl x d e) :=
  Reads.get.bind fun _ => (Reads.check _ _).bind fun _ => .check _ _

theorem checkGate_reads (x : Word16) (d : Desc) (e : Word16 → Exc) : Reads (checkGate x d e) :=
  (checkDpl_reads x d e).bind fun _ => .check _ _

theorem checkTask_reads (x : Word16) (d : Desc) (e : Word16 → Exc) : Reads (checkTask x d e) :=
  (checkDpl_reads x d e).bind fun _ => (Reads.check _ _).bind fun _ => .check _ _

theorem checkTss_reads (x : Word16) (ext : Bool) (e : Word16 → Exc) : Reads (checkTss x ext e) :=
  Reads.get.bind fun _ => (Reads.check _ _).bind fun _ => (readDesc_reads x).bind fun _ => (Reads.check _ _).bind fun _ =>
    .check _ _

theorem gateTarget_reads (g : Desc) (jmp : Bool) : Reads (gateTarget g jmp) :=
  Reads.get.bind fun _ => (Reads.check _ _).bind fun _ => (Reads.check _ _).bind fun _ => (readDesc_reads _).bind fun _ =>
    (Reads.check _ _).bind fun _ => (Reads.check _ _).bind fun _ => (Reads.check _ _).bind fun _ => .pure _

theorem tssStack_reads (level : BitVec 2) (ext : Bool) : Reads (tssStack level ext) :=
  Reads.get.bind fun _ => by
    split
    · exact (Reads.check _ _).bind fun _ => (sysRead_reads _ _).bind fun _ => (sysRead_reads _ _).bind fun _ => .pure _
    · exact (Reads.check _ _).bind fun _ => (sysRead_reads _ _).bind fun _ => (sysRead_reads _ _).bind fun _ => .pure _

theorem innerStack_reads (level : BitVec 2) (ext : Bool) : Reads (innerStack level ext) :=
  (tssStack_reads level ext).bind fun _ => Reads.get.bind fun _ => (Reads.check _ _).bind fun _ => (Reads.check _ _).bind fun _ =>
    (Reads.check _ _).bind fun _ => (readDesc_reads _).bind fun _ => (Reads.check _ _).bind fun _ =>
    (Reads.check _ _).bind fun _ => (Reads.check _ _).bind fun _ => .pure _

theorem checkReturnCs_reads (x : Word16) (level : BitVec 2) : Reads (checkReturnCs x level) :=
  Reads.get.bind fun _ => (Reads.check _ _).bind fun _ => (Reads.check _ _).bind fun _ => (readDesc_reads _).bind fun _ =>
    (Reads.check _ _).bind fun _ => (Reads.check _ _).bind fun _ => (Reads.check _ _).bind fun _ => .pure _

theorem checkReturnSs_reads (x : Word16) (level : BitVec 2) : Reads (checkReturnSs x level) :=
  Reads.get.bind fun _ => (Reads.check _ _).bind fun _ => (Reads.check _ _).bind fun _ => (Reads.check _ _).bind fun _ =>
    (readDesc_reads _).bind fun _ => (Reads.check _ _).bind fun _ => (Reads.check _ _).bind fun _ =>
    (Reads.check _ _).bind fun _ => .pure _

section
variable {s s1 s2 t u X : State} {l : List Store} {f : FarForm} {off : Word32} {x : Word16} {os : Size}

theorem Upto.prot (h : Upto X t l) : t.prot = X.prot := by
  unfold State.prot State.pe State.vm State.cr0Bit
  rw [h.cr0, h.eflags]

theorem Upto.cs8086 (h : Upto X t l) (x : Word16) : t.cs8086 x = X.cs8086 x := by
  unfold State.cs8086 State.v86 State.pe State.vm State.cr0Bit
  rw [h.cr0, h.eflags, h.seg]

theorem Upto.room (h : Upto X t l) (n : Nat) : t.room n = X.room n := by
  unfold State.room
  rw [h.stackSize, h.sp, h.seg]

theorem Upto.topOk (h : Upto X t l) (n : Nat) : t.topOk n = X.topOk n := by
  unfold State.topOk
  rw [h.stackSize, h.sp, h.seg]

theorem upto_farPointer (hf : farPointer f s = .ok (off, x, os) s1) : Upto s s1 [] :=
  (Upto.refl s).reads (farPointer_reads f) hf

/-- CS and EIP loaded outside Protected Mode. -/
theorem loadTarget_run (x : Word16) (off : Word32) (s : State) :
    (loadCs8086 x >>= fun _ => modify fun t => t.setEip off) s = .ok () ((s.putSeg .cs (s.cs8086 x)).setEip off) := rfl

theorem Upto.loadTarget (h : Upto X t l) (x : Word16) (off : Word32) :
    Upto ((X.putSeg .cs (X.cs8086 x)).setEip off) ((t.putSeg .cs (t.cs8086 x)).setEip off) l := by
  rw [h.cs8086]
  exact (h.putSeg _ _).setEip off

theorem jmpFar_real (fresh : s.Fresh) (hf : farPointer f s = .ok (off, x, os) s1) (hp : s.prot = false)
    (inside : eipOk s.seg.cs.limit off = true) : ∃ t, exec (.jmpFar f) s = .next t ∧ Stored s t [] ∧
      Agree { s.retired with eip := off, seg := s.seg.put .cs (s.cs8086 x) } t := by
  have read := upto_farPointer hf
  have ends : jmpFarOp f s = .ok () ((s1.putSeg .cs (s1.cs8086 x)).setEip off) := by
    unfold jmpFarOp
    rw [bind_of_ok hf]
    dsimp only
    rw [get_then, read.prot, hp, if_neg Bool.false_ne_true, bind_of_ok (checkTarget_passes (by rw [read.seg]; exact inside))]
    exact loadTarget_run x off s1
  exact run_upto fresh ends (read.loadTarget x off)

theorem callFar_real (fresh : s.Fresh) (hf : farPointer f s = .ok (off, x, os) s1) (hp : s.prot = false)
    (room : pushesTo os.bytes [s.seg.cs.sel.toNat, (os.trunc s.eip).toNat] s1 s2) : ∃ t, exec (.callFar f) s = .next t ∧
      Stored s t (s.pushStores os.bytes [s.seg.cs.sel.toNat, (os.trunc s.eip).toNat]) ∧
      Agree { s.retired with eip := off, seg := s.seg.put .cs (s.cs8086 x)
                             gpr := s.espPlus (-BitVec.ofNat 32 (2 * os.bytes)) } t := by
  have read := upto_farPointer hf
  have pushed := (read.pushes room).loadTarget x off
  obtain ⟨u, hcs, rest⟩ := push_of_pushesTo room
  obtain ⟨v, hip, rfl⟩ := push_of_pushesTo rest
  have ends : callFarOp f s = .ok () ((s2.putSeg .cs (s2.cs8086 x)).setEip off) := by
    unfold callFarOp
    rw [bind_of_ok hf]
    dsimp only
    rw [get_then, read.prot, hp, if_neg Bool.false_ne_true, read.seg, read.eip, bind_of_ok hcs, bind_of_ok hip]
    exact loadTarget_run x off s2
  exact run_upto fresh ends pushed

theorem retFar_real {f : RetForm} {k ip cs : Nat} (fresh : s.Fresh) (hf : retParts f = (os, k)) (hp : s.prot = false)
    (hip : stackRead 0 os.bytes s = .ok ip s1) (hcs : stackRead os.bytes os.bytes s1 = .ok cs s2)
    (inside : eipOk s.seg.cs.limit (BitVec.ofNat 32 ip) = true) : ∃ t, exec (.retFar f) s = .next t ∧ Stored s t [] ∧
      Agree { s.retired with eip := BitVec.ofNat 32 ip, seg := s.seg.put .cs (s.cs8086 (BitVec.ofNat 16 cs))
                             gpr := s.espPlus (BitVec.ofNat 32 (2 * os.bytes + k)) } t := by
  have read : Upto s s2 [] := ((Upto.refl s).reads (stackRead_reads _ _) hip).reads (stackRead_reads _ _) hcs
  have ends : retFarOp f s = .ok () (((s2.moveSp (BitVec.ofNat 32 (2 * os.bytes + k))).putSeg .cs
      ((s2.moveSp (BitVec.ofNat 32 (2 * os.bytes + k))).cs8086 (BitVec.ofNat 16 cs))).setEip (BitVec.ofNat 32 ip)) := by
    unfold retFarOp retReal
    rw [hf]
    dsimp only
    rw [get_then, hp, if_neg Bool.false_ne_true, bind_of_ok hip, bind_of_ok hcs,
      bind_of_ok (checkTarget_passes (by rw [read.seg]; exact inside)), bind_of_ok (stackFree_run _ _)]
    exact loadTarget_run _ _ _
  exact run_upto fresh ends ((read.moveSp _).loadTarget _ _)

end

end Sys2Proof.Machine
end

section
/-! SUPPORT. Far transfers of Protected Mode to a code segment, directly and through a call gate of the same level, and returns
(spec/21_segmentation_paging_protection.md R230 to R235). -/
namespace Sys2Proof.Machine
open Sys2Proof

section
variable {apart : Prop} {s s1 s2 s3 s4 s5 t u v w X : State} {l : List Store} {k : List Change} {f : FarForm} {off : Word32}
  {x y : Word16} {c d g : Desc} {os : Size} {m : M Unit} {n : Nat}

theorem Trail.cpl (h : Trail apart X t l k) : t.cpl = X.cpl := by rw [h.eqn]

theorem marking_place {p : Change} (h : p ∈ s.marking x d) : p.1 = Machine.descAddr s x + 5#32 := by
  unfold State.marking at h
  split at h
  · cases h
  · rw [List.mem_singleton.mp h]
    rfl

/-- Where one accessed bit is set and nothing is stored. -/
theorem Changed.marked (h : Changed True s t [] (s.marking x d)) : Reaches s t [] (s.marking x d) ∧
    (s.memOk = true → s.paging = false → ∀ a, a ≠ (s.phys (descAddr s x + 5#32)).toNat →
      Memory.read t.mem a = Memory.read s.mem a) ∧
    (s.paging = false → s.WritesThrough → t.mem = s.memMark x d s.mem) := by
  refine ⟨h.reaches, fun hw hp a ha => h.frame trivial rfl hw hp a fun p hm => ?_, fun hp hw => ?_⟩
  · rw [marking_place hm]
    exact ha.symm
  · rw [h.value trivial hp hw, memChanges_marking]
    rfl

/-- CS and EIP loaded in Protected Mode at the current level. -/
def State.enter (s : State) (x : Word16) (c : Desc) (off : Word32) : State :=
  (s.putSeg .cs (c.toSeg (withRpl x s.cpl))).setEip off

theorem enter_ofRegisters (x : Word16) (c : Desc) (off : Word32) : OfRegisters fun s => s.enter x c off :=
  ⟨fun _ _ _ _ _ _ _ _ => rfl, fun _ => ⟨rfl, rfl, rfl, rfl, rfl, rfl, rfl⟩⟩

theorem enterCode_run (hm : markAccessed x c s = .ok () t) (off : Word32) : enterCode x c off s = .ok () (t.enter x c off) :=
  bind_of_ok hm

/-- A jump to a code segment. -/
theorem enters (fresh : s.Fresh) (read : Upto s v []) (hm : m s = enterCode x c off v) (mark : markAccessed x c v = .ok () u) :
    ∃ t, run m s = .next t ∧ Changed True s t [] (s.marking x c) ∧
      Agree { s.retired with eip := off, seg := s.seg.put .cs (c.toSeg (withRpl x s.cpl)) } t := by
  have marked : Trail True s u [] (s.marking x c) := (read.trail fresh.stores).mark mark fun _ _ no => nomatch no
  exact run_trail fresh (hm.trans (enterCode_run mark off)) (marked.change (enter_ofRegisters x c off))

theorem pushReturn_run (h : pushesTo n [s.seg.cs.sel.toNat, s.eip.toNat] s t) : pushReturn n s = .ok () t := by
  obtain ⟨u, hcs, rest⟩ := push_of_pushesTo h
  obtain ⟨v, hip, rfl⟩ := push_of_pushesTo rest
  unfold pushReturn
  rw [get_then]
  exact (bind_of_ok hcs).trans hip

/-- A call to a code segment: two pushes, then the segment. -/
theorem calls (fresh : s.Fresh) (read : Upto s v []) (hm : m s = (pushReturn n >>= fun _ => enterCode x c off) v)
    (room : pushesTo n [s.seg.cs.sel.toNat, s.eip.toNat] v w) (mark : markAccessed x c w = .ok () u) :
    let l := s.pushStores n [s.seg.cs.sel.toNat, s.eip.toNat]
    ∃ t, run m s = .next t ∧ Reaches s t l (s.marking x c) ∧
      (s.paging = false → s.WritesThrough → s.clearOf x l → t.mem = s.memAfter l (s.memMark x c s.mem)) ∧
      Agree { s.retired with eip := off, seg := s.seg.put .cs (c.toSeg (withRpl x s.cpl))
                             gpr := s.espPlus (-BitVec.ofNat 32 (2 * n)) } t := by
  intro l
  have pushed : Trail (s.clearOf x l) (s.moveSp (-BitVec.ofNat 32 (2 * n))) w l [] := (read.pushes room).trail fresh.stores
  have marked := (pushed.mark mark id).change (enter_ofRegisters x c off)
  rw [← read.seg, ← read.eip] at room
  obtain ⟨t, e, changed, agree⟩ := run_trail fresh
    ((hm.trans (bind_of_ok (pushReturn_run room))).trans (enterCode_run mark off)) marked
  refine ⟨t, e, changed.reaches, fun hp hw clear => ?_, agree⟩
  rw [← memChanges_marking]
  exact changed.value clear hp hw

theorem jmpFar_prot (hf : farPointer f s = .ok (off, x, os) s1) (hp : s1.prot = true) :
    jmpFarOp f s = jmpProtected off x s1 := by
  unfold jmpFarOp
  rw [bind_of_ok hf]
  dsimp only
  rw [get_then, if_pos hp]

theorem callFar_prot (hf : farPointer f s = .ok (off, x, os) s1) (hp : s1.prot = true) :
    callFarOp f s = callProtected off x os s1 := by
  unfold callFarOp
  rw [bind_of_ok hf]
  dsimp only
  rw [get_then, if_pos hp]

section
variable (hd : farDesc x s1 = .ok d s2)
include hd

theorem jmpProtected_code (kind : farTarget d = .code) (hc : checkDirect x d s2 = .ok () s3) (inside : eipOk d.limit off = true) :
    jmpProtected off x s1 = enterCode x d off s3 := by
  unfold jmpProtected
  rw [bind_of_ok hd, kind]
  dsimp only
  rw [bind_of_ok hc, check_then inside]

theorem callProtected_code (kind : farTarget d = .code) (hc : checkDirect x d s2 = .ok () s3) (room : s3.room (2 * os.bytes) = true)
    (inside : eipOk d.limit off = true) :
    callProtected off x os s1 = (pushReturn os.bytes >>= fun _ => enterCode x d off) s3 := by
  unfold callProtected
  rw [bind_of_ok hd, kind]
  dsimp only
  rw [bind_of_ok hc, get_then, check_then room, check_then inside]

theorem jmpProtected_gate (kind : farTarget d = .callGate) (hg : checkGate x d excGP s2 = .ok () s3)
    (hc : gateTarget d true s3 = .ok c s4) (inside : eipOk c.limit d.gateOffset = true) :
    jmpProtected off x s1 = enterCode d.gateSel c d.gateOffset s4 := by
  unfold jmpProtected
  rw [bind_of_ok hd, kind]
  dsimp only
  rw [bind_of_ok hg, bind_of_ok hc, check_then inside]

/-- A far CALL through a call gate goes by the level of the gate's target. -/
theorem callProtected_gate (kind : farTarget d = .callGate) (hg : checkGate x d excGP s2 = .ok () s3)
    (hc : gateTarget d false s3 = .ok c s4) : callProtected off x os s1 =
      (if !c.conforming && decide (c.dpl.toNat < s4.cpl.toNat) then callInner d c else callSame d c) s4 := by
  unfold callProtected
  rw [bind_of_ok hd, kind]
  dsimp only
  rw [bind_of_ok hg, bind_of_ok hc, get_then]

end

theorem callSame_run (room : s.room (2 * g.gateBytes) = true) (inside : eipOk c.limit g.gateOffset = true) :
    callSame g c s = (pushReturn g.gateBytes >>= fun _ => enterCode g.gateSel c g.gateOffset) s := by
  unfold callSame
  rw [get_then, check_then room, check_then inside]

/-- A return to the same level. -/
theorem retFar_same {f : RetForm} {i cs ip : Nat} (fresh : s.Fresh) (hf : retParts f = (os, i)) (hp : s.prot = true)
    (hcs : stackRead os.bytes 2 s = .ok cs s1) (hx : BitVec.ofNat 16 cs = x) (level : selRpl x = s.cpl)
    (hc : checkReturnCs x s.cpl s1 = .ok c s2) (top : s.topOk (2 * os.bytes) = true)
    (hip : stackRead 0 os.bytes s2 = .ok ip s3) (inside : eipOk c.limit (BitVec.ofNat 32 ip) = true)
    (mark : markAccessed x c s3 = .ok () s4) : ∃ t, exec (.retFar f) s = .next t ∧ Changed True s t [] (s.marking x c) ∧
      Agree { s.retired with eip := BitVec.ofNat 32 ip, seg := s.seg.put .cs (c.toSeg x)
                             gpr := s.espPlus (BitVec.ofNat 32 (2 * os.bytes + i)) } t := by
  have read1 : Upto s s1 [] := (Upto.refl s).reads (stackRead_reads _ _) hcs
  have read2 : Upto s s2 [] := read1.reads (checkReturnCs_reads _ _) hc
  have read3 : Upto s s3 [] := read2.reads (stackRead_reads _ _) hip
  have marked : Trail True s s4 [] (s.marking x c) := (read3.trail fresh.stores).mark mark fun _ _ no => nomatch no
  have ends : retFarOp f s = .ok () (((s4.moveSp (BitVec.ofNat 32 (2 * os.bytes + i))).putSeg .cs (c.toSeg x)).setEip
      (BitVec.ofNat 32 ip)) := by
    unfold retFarOp
    rw [hf]
    dsimp only
    rw [get_then, if_pos hp, bind_of_ok hcs, hx, level, check_then (decide_eq_true (Nat.le_refl _)), if_pos rfl]
    unfold retSame
    rw [get_then, read1.cpl, bind_of_ok hc, check_then (by rw [read1.topOk]; exact top), bind_of_ok hip, check_then inside,
      bind_of_ok mark]
    rfl
  exact run_trail fresh ends (marked.change (f := fun s => ((s.moveSp (BitVec.ofNat 32 (2 * os.bytes + i))).putSeg .cs
    (c.toSeg x)).setEip (BitVec.ofNat 32 ip)) ⟨fun _ _ _ _ _ _ _ _ => rfl, fun _ => ⟨rfl, rfl, rfl, rfl, rfl, rfl, rfl⟩⟩)

theorem SegReg.scrub_eq (x : SegReg) (level : BitVec 2) : x.scrub level = x.afterReturn level := by
  unfold SegReg.scrub SegReg.afterReturn
  simp [SegReg.isCode, SegReg.bit2, and_assoc]

theorem returnOuter_eq (s : State) (os : Size) (x y : Word16) (c d : Desc) (ip nsp : Word32) :
    s.returnOuter os x y c d ip nsp = (s.atOuter os x y c d nsp).setEip ip := by
  unfold State.returnOuter State.scrub State.atOuter
  simp only [SegReg.scrub_eq]
  rfl

/-- A return to an outer level. -/
theorem retFar_outer {f : RetForm} {i cs ip sp ss : Nat} {s6 s7 s8 : State} (fresh : s.Fresh) (hf : retParts f = (os, i))
    (hp : s.prot = true) (hcs : stackRead os.bytes 2 s = .ok cs s1) (hx : BitVec.ofNat 16 cs = x) (hy : BitVec.ofNat 16 ss = y)
    (level : s.cpl.toNat < (selRpl x).toNat) (top : s.topOk (4 * os.bytes + i) = true)
    (hc : checkReturnCs x (selRpl x) s1 = .ok c s2) (hsp : stackRead (2 * os.bytes + i) os.bytes s2 = .ok sp s3)
    (hss : stackRead (3 * os.bytes + i) 2 s3 = .ok ss s4) (hd : checkReturnSs y (selRpl x) s4 = .ok d s5)
    (hip : stackRead 0 os.bytes s5 = .ok ip s6) (inside : eipOk c.limit (BitVec.ofNat 32 ip) = true)
    (markC : markAccessed x c s6 = .ok () s7) (markD : markAccessed y d s7 = .ok () s8) :
    let u := s.atOuter os x y c d (BitVec.ofNat 32 sp)
    ∃ t, exec (.retFar f) s = .next t ∧ Changed True s t [] (s.marking x c ++ s.marking y d) ∧
      Agree { u.retired with eip := BitVec.ofNat 32 ip, gpr := u.espPlus (BitVec.ofNat 32 i) } t := by
  intro u
  have read1 : Upto s s1 [] := (Upto.refl s).reads (stackRead_reads _ _) hcs
  have read : Upto s s6 [] := ((((read1.reads (checkReturnCs_reads _ _) hc).reads (stackRead_reads _ _) hsp).reads
    (stackRead_reads _ _) hss).reads (checkReturnSs_reads _ _) hd).reads (stackRead_reads _ _) hip
  have marked : Trail True s s8 [] (s.marking x c ++ s.marking y d) :=
    ((read.trail fresh.stores).mark markC fun _ _ no => nomatch no).mark markD fun _ _ no => nomatch no
  have outer : selRpl x ≠ s.cpl := fun h => by
    rw [h] at level
    exact Nat.lt_irrefl _ level
  have ends : retFarOp f s = .ok () (((s8.atOuter os x y c d (BitVec.ofNat 32 sp)).setEip (BitVec.ofNat 32 ip)).moveSp
      (BitVec.ofNat 32 i)) := by
    unfold retFarOp
    rw [hf]
    dsimp only
    rw [get_then, if_pos hp, bind_of_ok hcs, hx, check_then (decide_eq_true (Nat.le_of_lt level)), if_neg outer]
    unfold retOuter
    rw [get_then, check_then (by rw [read1.topOk]; exact top), bind_of_ok hc, bind_of_ok hsp, bind_of_ok hss, hy, bind_of_ok hd,
      bind_of_ok hip, check_then inside, bind_of_ok markC, bind_of_ok markD, modify_then, returnOuter_eq]
    rfl
  exact run_trail fresh ends (marked.change (f := fun s => ((s.atOuter os x y c d (BitVec.ofNat 32 sp)).setEip
    (BitVec.ofNat 32 ip)).moveSp (BitVec.ofNat 32 i)) ⟨fun _ _ _ _ _ _ _ _ => rfl, fun _ => ⟨rfl, rfl, rfl, rfl, rfl, rfl, rfl⟩⟩)

/-- Where two accessed bits are set and nothing is stored. -/
theorem Changed.marked_two (h : Changed True s t [] (s.marking x c ++ s.marking y d)) :
    Reaches s t [] (s.marking x c ++ s.marking y d) ∧
    (s.memOk = true → s.paging = false → ∀ a, a ≠ (s.phys (descAddr s x + 5#32)).toNat →
      a ≠ (s.phys (descAddr s y + 5#32)).toNat → Memory.read t.mem a = Memory.read s.mem a) ∧
    (s.paging = false → s.WritesThrough → t.mem = s.memMark y d (s.memMark x c s.mem)) := by
  refine ⟨h.reaches, fun hw hp a hx hy => h.frame trivial rfl hw hp a fun p hm => ?_, fun hp hw => ?_⟩
  · rcases List.mem_append.mp hm with hm | hm
    · rw [marking_place hm]
      exact hx.symm
    · rw [marking_place hm]
      exact hy.symm
  · rw [h.value trivial hp hw, memChanges_append, memChanges_marking, memChanges_marking]
    rfl

end

end Sys2Proof.Machine
end

section
/-! SUPPORT. A call through a call gate to an inner level (spec/21_segmentation_paging_protection.md R232): its frame on the inner
stack. -/
namespace Sys2Proof.Machine
open Sys2Proof

section
variable {s t u v w X Y : State} {l : List Store} {k : List Change} {n : Nat} {vs ps ws : List Nat} {x : SegReg} {esp : Word32}

theorem withStack_ofRegisters (x : SegReg) (esp : Word32) : OfRegisters fun s => s.withStack x esp :=
  ⟨fun _ _ _ _ _ _ _ _ => rfl, fun _ => ⟨rfl, rfl, rfl, rfl, rfl, rfl, rfl⟩⟩

theorem onStack_ofRegisters (ns : Word16) (nsp : Word32) (d : Desc) : OfRegisters fun s => s.onStack ns nsp d :=
  ⟨fun _ _ _ _ _ _ _ _ => rfl, fun _ => ⟨rfl, rfl, rfl, rfl, rfl, rfl, rfl⟩⟩

theorem moveSp_ofRegisters (k : Word32) : OfRegisters fun s => s.moveSp k :=
  ⟨fun _ _ _ _ _ _ _ _ => rfl, fun _ => ⟨rfl, rfl, rfl, rfl, rfl, rfl, rfl⟩⟩

/-- Moves of one size are one move. -/
theorem foldl_moveSp (n : Nat) : ∀ (vs : List Nat) (s : State),
    vs.foldl (fun s _ => s.moveSp (-BitVec.ofNat 32 n)) s = s.moveSp (-BitVec.ofNat 32 (vs.length * n))
  | [], s => by
    have e : -BitVec.ofNat 32 (0 * n) = 0#32 := by simp
    rw [List.length_nil, e, State.moveSp_zero, List.foldl_nil]
  | v :: vs, s => by
    rw [List.foldl_cons, foldl_moveSp n vs, State.moveSp_moveSp, neg_add_neg_mul, List.length_cons]

theorem pushStores_append (n : Nat) : ∀ (vs ws : List Nat) (s : State), s.pushStores n (vs ++ ws) =
    s.pushStores n vs ++ (vs.foldl (fun s _ => s.moveSp (-BitVec.ofNat 32 n)) s).pushStores n ws
  | [], _, _ => rfl
  | v :: vs, ws, s => by
    simp only [List.cons_append, State.pushStores, List.foldl_cons]
    rw [pushStores_append n vs ws]

/-- Where pushes store depends on SS, the stack pointer and the size of the stack alone. -/
theorem pushStores_congr (n : Nat) : ∀ (vs : List Nat) {s t : State}, t.seg.ss.base = s.seg.ss.base → t.stackSize = s.stackSize →
    t.gpr.esp = s.gpr.esp → t.pushStores n vs = s.pushStores n vs
  | [], _, _, _, _, _ => rfl
  | v :: vs, s, t, base, size, esp => by
    have sp : t.sp = s.sp := by
      unfold State.sp
      rw [size, esp]
    have rest := pushStores_congr n vs (s := s.moveSp (-BitVec.ofNat 32 n)) (t := t.moveSp (-BitVec.ofNat 32 n)) base size
      (by simp only [State.moveSp, State.espPlus]; rw [size, esp, sp])
    simp only [State.pushStores]
    rw [rest, base, State.pushOff, State.pushOff, size, sp]

theorem Trail.pushStores {apart : Prop} (h : Trail apart X t l k) (n : Nat) (vs : List Nat) :
    t.pushStores n vs = X.pushStores n vs := by
  have cr0 : t.cr0 = X.cr0 := by rw [h.eqn]
  have eflags : t.eflags = X.eflags := by rw [h.eqn]
  have seg : t.seg = X.seg := by rw [h.eqn]
  have gpr : t.gpr = X.gpr := by rw [h.eqn]
  refine pushStores_congr n vs (by rw [seg]) ?_ (by rw [gpr])
  unfold State.stackSize State.prot State.pe State.vm State.cr0Bit
  rw [cr0, eflags, seg]

/-- Parameters copied move the stack pointer by each and hold back a store for each. -/
theorem Upto.params : ∀ {ps : List Nat} {Y t u : State} {l : List Store}, Upto Y t l → paramsTo n x esp ps t u →
    Upto (ps.foldl (fun s _ => s.moveSp (-BitVec.ofNat 32 n)) Y) u (l ++ Y.pushStores n ps)
  | [], Y, t, u, l, h, k => by
    rw [show u = t from k, State.pushStores, List.append_nil]
    exact h
  | v :: ps, Y, t, u, l, h, k => by
    obtain ⟨w, r, hr, hp, rest⟩ := k
    have there := (h.change (withStack_ofRegisters x esp)).reads (stackRead_reads _ _) hr
    have back := there.change (withStack_ofRegisters t.seg.ss t.gpr.esp)
    rw [h.seg, h.gpr] at back hp
    have pushed : Upto (Y.moveSp (-BitVec.ofNat 32 n)) r (l ++ [(Y.seg.ss.base + Y.pushOff n, n, v)]) := back.pushSys hp
    have done := pushed.params rest
    rw [List.append_assoc] at done
    exact done

/-- The frame of a call to an inner level: pushes, the parameters, pushes. -/
theorem Upto.frame (h : Upto Y t []) (hv : Machine.pushAllSys n vs t = .ok () u) (hp : paramsTo n x esp ps u v)
    (hw : Machine.pushAllSys n ws v = .ok () w) :
    Upto (Y.moveSp (-BitVec.ofNat 32 ((vs ++ ps ++ ws).length * n))) w (Y.pushStores n (vs ++ ps ++ ws)) := by
  have done := ((h.pushAllSys hv).params hp).pushAllSys hw
  rw [← foldl_moveSp, pushStores_append, pushStores_append, List.foldl_append, List.foldl_append]
  exact done

end

section
variable {s s4 s5 s6 s7 s8 s9 s10 : State} {c g y : Desc} {ns : Word16} {nsp : Word32} {ps : List Nat} {m : M Unit}

theorem callInner_run (hs : innerStack c.dpl false s4 = .ok (ns, nsp, y) s5)
    (room : roomBelow (y.toSeg ns) y.stackSize nsp (4 * g.gateBytes + g.gateBytes * g.gateCount) = true)
    (inside : eipOk c.limit g.gateOffset = true) (markY : markAccessed ns y s5 = .ok () s6)
    (markC : markAccessed g.gateSel c s6 = .ok () s7)
    (hv : pushAllSys g.gateBytes [s4.seg.ss.sel.toNat, s4.gpr.esp.toNat] (s7.onStack ns nsp y) = .ok () s8)
    (len : ps.length = g.gateCount) (hp : paramsTo g.gateBytes s4.seg.ss s4.gpr.esp ps s8 s9)
    (hw : pushAllSys g.gateBytes [s4.seg.cs.sel.toNat, s4.eip.toNat] s9 = .ok () s10) :
    callInner g c s4 = .ok () (((s10.putSeg .cs (c.toSeg (withRpl g.gateSel c.dpl))).setEip g.gateOffset).setCpl c.dpl) := by
  have copied := copyParams_ok_iff.mpr ⟨ps, len, hp⟩
  unfold callInner
  rw [get_then, bind_of_ok hs]
  dsimp only
  rw [check_then room, check_then inside, bind_of_ok markY, bind_of_ok markC, modify_then, bind_of_ok hv, bind_of_ok copied,
    bind_of_ok hw]
  rfl

/-- A call through a call gate to an inner level. -/
theorem calls_inner (fresh : s.Fresh) (read : Upto s s4 []) (hm : m s = callInner g c s4)
    (hs : innerStack c.dpl false s4 = .ok (ns, nsp, y) s5)
    (room : roomBelow (y.toSeg ns) y.stackSize nsp (4 * g.gateBytes + g.gateBytes * g.gateCount) = true)
    (inside : eipOk c.limit g.gateOffset = true) (markY : markAccessed ns y s5 = .ok () s6)
    (markC : markAccessed g.gateSel c s6 = .ok () s7)
    (hv : pushAllSys g.gateBytes [s.seg.ss.sel.toNat, s.gpr.esp.toNat] (s7.onStack ns nsp y) = .ok () s8)
    (len : ps.length = g.gateCount) (hp : paramsTo g.gateBytes s.seg.ss s.gpr.esp ps s8 s9)
    (hw : pushAllSys g.gateBytes [s.seg.cs.sel.toNat, s.eip.toNat] s9 = .ok () s10) :
    let n := g.gateBytes
    let frame := [s.seg.ss.sel.toNat, s.gpr.esp.toNat] ++ ps ++ [s.seg.cs.sel.toNat, s.eip.toNat]
    let u := s.enterInner c.dpl ns nsp y
    ∃ t, run m s = .next t ∧ Reaches s t (u.pushStores n frame) (s.marking ns y ++ s.marking g.gateSel c) ∧
      (s.paging = false → s.WritesThrough →
        t.mem = u.memAfter (u.pushStores n frame) (s.memMark g.gateSel c (s.memMark ns y s.mem))) ∧
      Agree { s.retired with eip := g.gateOffset, cpl := c.dpl, seg := u.seg.put .cs (c.toSeg (withRpl g.gateSel c.dpl))
                             gpr := u.espPlus (-BitVec.ofNat 32 (4 * n + n * g.gateCount)) } t := by
  intro n frame u
  have marked : Trail True s s7 [] (s.marking ns y ++ s.marking g.gateSel c) :=
    (((read.reads (innerStack_reads _ _) hs).trail fresh.stores).mark markY fun _ _ no => nomatch no).mark markC
      fun _ _ no => nomatch no
  have inner := marked.change (onStack_ofRegisters ns nsp y)
  have pushed := (inner.change (moveSp_ofRegisters (-BitVec.ofNat 32 (frame.length * n)))).thenUpto
    ((Upto.refl _).frame hv hp hw)
  have size : frame.length * n = 4 * n + n * g.gateCount := by
    simp only [frame, List.length_append, List.length_cons, List.length_nil, len]
    ring
  have place : (s7.onStack ns nsp y).pushStores n frame = u.pushStores n frame :=
    (inner.pushStores n frame).trans (pushStores_congr n frame (s := u) rfl rfl rfl)
  rw [size, List.nil_append] at pushed
  rw [show (s7.onStack ns nsp y).pushStores g.gateBytes frame = _ from place] at pushed
  have done := pushed.change (f := fun s => ((s.putSeg .cs (c.toSeg (withRpl g.gateSel c.dpl))).setEip g.gateOffset).setCpl c.dpl)
    ⟨fun _ _ _ _ _ _ _ _ => rfl, fun _ => ⟨rfl, rfl, rfl, rfl, rfl, rfl, rfl⟩⟩
  rw [← read.seg, ← read.gpr] at hv hp
  rw [← read.seg, ← read.eip] at hw
  obtain ⟨t, e, changed, agree⟩ :=
    run_trail fresh (hm.trans (callInner_run hs room inside markY markC hv len hp hw)) done
  refine ⟨t, e, changed.reaches, fun hp hw => ?_, agree⟩
  rw [changed.value trivial hp hw, memChanges_append, memChanges_marking, memChanges_marking]
  exact (memAfter_congr (s := s) (t := u) rfl _ _).symm

end

end Sys2Proof.Machine
end

section
/-! SUPPORT. A task switch leaves the interrupt latches and what an instruction tells its end as they were, but for the shadows, which
end, and RF, which stays as loaded (spec/61_tasking.md R990). -/
namespace Sys2Proof.Machine
open Sys2Proof

/-- The interrupt latches, and what the meaning of an instruction has told the end of it: another iteration, RF kept, the shadows. -/
def State.told (s : State) : IntLatches × Bool × Bool × Bool × Bool :=
  (s.latch, s.insn.again, s.insn.keepRf, s.insn.inhibit, s.insn.stiShadow)

section
variable {α β : Type}

/-- A computation that, where it completes, has told the end of the instruction nothing and left the interrupt latches alone. -/
def Silent (x : M α) : Prop := ∀ s a t, x s = .ok a t → t.told = s.told

theorem Silent.modify {f : State → State} (h : ∀ s, (f s).told = s.told) : Silent (modify f) := by
  intro s a t e
  cases e
  exact h s

theorem Silent.bind {x : M α} {f : α → M β} (hx : Silent x) (hf : ∀ a, Silent (f a)) : Silent (x >>= f) := by
  intro s b u h
  obtain ⟨a, t, first, second⟩ := bind_ok_iff.mp h
  exact (hf a t b u second).trans (hx s a t first)

theorem Silent.ite {c : Prop} [Decidable c] {x y : M α} (hx : Silent x) (hy : Silent y) : Silent (if c then x else y) := by
  split
  · exact hx
  · exact hy

/-- A step made on a condition, then what follows. -/
theorem Silent.joinThen {c : Prop} [Decidable c] {x : M Unit} {k : Unit → M β} (hx : Silent x) (hk : ∀ a, Silent (k a)) :
    Silent (if c then x >>= k else k ()) := .ite (hx.bind hk) (hk ())

/-- A computation that reads is silent. -/
theorem Reads.silent {x : M α} (h : Reads x) : Silent x := by
  intro s a t e
  rw [(h s a t e).eqn]
  rfl

theorem Silent.pure {a : α} : Silent (pure a : M α) := (Reads.pure a).silent

theorem Silent.get : Silent (get : M State) := Reads.get.silent

theorem check_silent {c : Bool} {e : Exc} : Silent (check c e) := (Reads.check c e).silent

theorem readDesc_silent {x : Word16} : Silent (readDesc x) := (readDesc_reads x).silent

end

section
variable {s t u : State} {x ts : Word16} {lin : Word32} {n : Nat} {ext b : Bool} {i : TaskImage} {k : SwitchKind}

theorem updatePhys_told (s : State) (a : Word32) (f : Byte → Byte) : (s.updatePhys a f).told = s.told := by
  rw [updatePhys_eqn]
  rfl

theorem writeBytes_silent : ∀ {ps : List (Word32 × Bool)} {vs : List Byte}, Silent (writeBytes ps vs)
  | [], _ => Silent.pure
  | _ :: _, [] => Silent.pure
  | _ :: _, _ :: _ => .bind (.modify fun _ => updatePhys_told _ _ _) fun _ => writeBytes_silent

theorem sysWrite_silent {v : Nat} : Silent (sysWrite lin n v) :=
  refer_reads.silent.bind fun _ => (translateBytes_reads _ _ _ _).silent.bind fun _ => writeBytes_silent

theorem updateBytes_silent {f : Byte → Byte} : ∀ {ps : List (Word32 × Bool)}, Silent (updateBytes f ps)
  | [] => Silent.pure
  | _ :: _ => .bind (.modify fun _ => updatePhys_told _ _ _) fun _ => updateBytes_silent

theorem sysUpdate_silent {f : Byte → Byte} : Silent (sysUpdate lin f) :=
  refer_reads.silent.bind fun _ => (translateBytes_reads _ _ _ _).silent.bind fun _ => updateBytes_silent

theorem setBusy_silent : Silent (setBusy x b) := .bind .get fun _ => sysUpdate_silent

theorem markAccessed_silent {d : Desc} : Silent (markAccessed x d) := .bind .get fun _ => .ite .pure sysUpdate_silent

theorem sysWriteList_silent : ∀ {vs : List Nat} {a : Word32}, Silent (sysWriteList n a vs)
  | [], _ => Silent.pure
  | _ :: _, _ => sysWrite_silent.bind fun _ => sysWriteList_silent

theorem sysWriteSels_silent : ∀ {vs : List Word16} {a : Word32}, Silent (sysWriteSels n a vs)
  | [], _ => Silent.pure
  | _ :: _, _ => sysWrite_silent.bind fun _ => sysWriteSels_silent

theorem saveTask_silent {ret fl : Word32} : Silent (saveTask ret fl) := by
  refine .bind .get fun s => ?_
  dsimp only
  cases s.tr.format <;> exact sysWriteList_silent.bind fun _ => sysWriteSels_silent

theorem sysProbe_reads (lin : Word32) (n : Nat) (w : Bool) : Reads (sysProbe lin n w) :=
  (translateBytes_reads _ _ _ _).bind fun _ => .pure _

theorem probeDesc_reads (x : Word16) (c : Bool) : Reads (probeDesc x c) :=
  Reads.get.bind fun _ => (sysProbe_reads _ _ _).bind fun _ => .ite (sysProbe_reads _ _ _) (.pure _)

theorem probeTasks_reads (k : SwitchKind) (ts : Word16) (base : Word32) (f : TssFormat) : Reads (probeTasks k ts base f) := by
  refine Reads.get.bind fun s => ?_
  have descs : Reads (if selNull s.tr.sel then probeDesc ts k.takes
      else probeDesc s.tr.sel k.frees >>= fun _ => probeDesc ts k.takes) :=
    .ite (probeDesc_reads _ _) ((probeDesc_reads _ _).bind fun _ => probeDesc_reads _ _)
  cases f <;> cases s.tr.format <;> exact (sysProbe_reads _ _ _).bind fun _ =>
    .ite ((sysProbe_reads _ _ _).bind fun _ => (sysProbe_reads _ _ _).bind fun _ => descs) ((sysProbe_reads _ _ _).bind fun _ => descs)

theorem sysReadList_reads (n : Nat) : ∀ (k : Nat) (a : Word32), Reads (sysReadList n a k)
  | 0, _ => .pure _
  | k + 1, _ => (sysRead_reads _ _).bind fun _ => (sysReadList_reads n k _).bind fun _ => .pure _

theorem tssWord_reads (base : Word32) (off : Nat) : Reads (tssWord base off) := (sysRead_reads _ _).bind fun _ => .pure _

theorem readTask_reads (base : Word32) : ∀ f : TssFormat, Reads (readTask base f)
  | .tss486 => Reads.get.bind fun _ => (sysRead_reads _ _).bind fun _ => (sysReadList_reads _ _ _).bind fun _ =>
      (tssWord_reads _ _).bind fun _ => (tssWord_reads _ _).bind fun _ => (tssWord_reads _ _).bind fun _ =>
      (tssWord_reads _ _).bind fun _ => (tssWord_reads _ _).bind fun _ => (tssWord_reads _ _).bind fun _ =>
      (tssWord_reads _ _).bind fun _ => (tssWord_reads _ _).bind fun _ => .pure _
  | .tss286 => Reads.get.bind fun _ => (sysReadList_reads _ _ _).bind fun _ => (tssWord_reads _ _).bind fun _ =>
      (tssWord_reads _ _).bind fun _ => (tssWord_reads _ _).bind fun _ => (tssWord_reads _ _).bind fun _ =>
      (tssWord_reads _ _).bind fun _ => .pure _

theorem taskLdt_silent : Silent (taskLdt x ext) :=
  .ite .pure (.bind .get fun _ => check_silent.bind fun _ => readDesc_silent.bind fun _ => check_silent.bind fun _ =>
    check_silent.bind fun _ => .modify fun _ => rfl)

theorem taskCs_silent : Silent (taskCs x ext) :=
  .bind .get fun _ => check_silent.bind fun _ => check_silent.bind fun _ => readDesc_silent.bind fun _ => check_silent.bind fun _ =>
    check_silent.bind fun _ => check_silent.bind fun _ => markAccessed_silent.bind fun _ => .modify fun _ => rfl

theorem taskSs_silent : Silent (taskSs x ext) :=
  .bind .get fun _ => check_silent.bind fun _ => check_silent.bind fun _ => check_silent.bind fun _ => readDesc_silent.bind fun _ =>
    check_silent.bind fun _ => check_silent.bind fun _ => check_silent.bind fun _ => markAccessed_silent.bind fun _ =>
    .modify fun _ => rfl

theorem taskData_silent {r : SReg} : Silent (taskData r x ext) :=
  .bind .get fun _ => .ite .pure (check_silent.bind fun _ => readDesc_silent.bind fun _ => check_silent.bind fun _ =>
    check_silent.bind fun _ => check_silent.bind fun _ => markAccessed_silent.bind fun _ => .modify fun _ => rfl)

theorem enterTask_silent : Silent (enterTask i ext) :=
  taskLdt_silent.bind fun _ => .bind .get fun _ => .ite (.modify fun _ => rfl)
    (taskCs_silent.bind fun _ => taskSs_silent.bind fun _ => taskData_silent.bind fun _ => taskData_silent.bind fun _ =>
      taskData_silent.bind fun _ => taskData_silent)

theorem leaveTask_silent {ret : Word32} : Silent (leaveTask k ts ret ext) :=
  .bind .get fun _ => readDesc_silent.bind fun _ => check_silent.bind fun _ => (probeTasks_reads _ _ _ _).silent.bind fun _ =>
    .joinThen setBusy_silent fun _ => saveTask_silent.bind fun _ => .joinThen sysWrite_silent fun _ =>
    .joinThen setBusy_silent fun _ => .bind (.modify fun _ => rfl) fun _ => .pure

theorem loadTask_told (s : State) (k : SwitchKind) (i : TaskImage) : (s.loadTask k i).told =
    ({ s.latch with inhibitNext := false, stiShadow := false, nmiMasked := s.latch.nmiMasked && decide (k ≠ .iret) },
      s.insn.again, true, s.insn.inhibit, s.insn.stiShadow) := by
  unfold State.loadTask State.told
  cases i.cr3 <;> rfl

/-- What a JMP or a CALL that has switched tasks tells its end. -/
theorem switchTasks_told {ret : Word32} (fresh : s.Fresh) (ht : t.told = s.told) (hk : k ≠ .iret)
    (h : switchTasks k ts ret ext t = .ok b u) : u.told = (s.retired.latch, false, true, false, false) := by
  obtain ⟨d, v, i, w, leaves, reads, enters, -⟩ := switchTasks_ok_iff.mp h
  have before : w.told = s.told :=
    (((readTask_reads _ _).silent _ _ _ reads).trans (leaveTask_silent _ _ _ leaves)).trans ht
  obtain ⟨latch, again, -, inhibit, shadow⟩ := by simpa only [State.told, Prod.mk.injEq] using before
  rw [enterTask_silent _ _ _ enters, loadTask_told, latch, again, inhibit, shadow, fresh.again, fresh.inhibit, fresh.stiShadow]
  simp [hk, State.retired]

end

end Sys2Proof.Machine
end

section
/-! SUPPORT. Far transfers of Protected Mode to another task (spec/61_tasking.md R990 steps 16 and 17). -/
namespace Sys2Proof.Machine
open Sys2Proof

section
variable {s t u v : State} {b : Bool} {e : Exc} {m : M Unit} {k : SwitchKind} {x : Word16}

/-- A state with the trap of a T bit pending, where there is one. -/
def State.withTaskTrap (s : State) (b : Bool) : State := { s with traps := { s.traps with bt := s.traps.bt || b } }

theorem finishSwitch_run (inside : eipOk s.seg.cs.limit s.eip = true) (b : Bool) (e : Exc) :
    finishSwitch b e s = .ok () (s.withTaskTrap b) := by
  unfold finishSwitch checkNewEip
  have passes : (get >>= fun s : State => check (eipOk s.seg.cs.limit s.eip) e) s = .ok () s := check_ok_iff.mpr ⟨inside, rfl⟩
  refine (bind_of_ok passes).trans ?_
  cases b <;> simp [pendTaskTrap, State.withTaskTrap]

/-- A write does not look at pending traps. -/
theorem writePhys_withTaskTrap (s : State) (b : Bool) (a : Word32) (y : Byte) :
    (s.withTaskTrap b).writePhys a y = (s.writePhys a y).withTaskTrap b := by
  have set : (s.withTaskTrap b).cacheSetAt a = s.cacheSetAt a := rfl
  unfold State.writePhys
  dsimp only
  rw [set]
  split
  · rw [apply_ite (fun s : State => s.withTaskTrap b)]
    rfl
  · rfl

theorem commitList_withTaskTrap (s : State) (b : Bool) : ∀ l, (s.withTaskTrap b).commitList l = (s.commitList l).withTaskTrap b
  | [] => rfl
  | (a, y) :: l => by
    simp only [State.commitList]
    rw [commitList_withTaskTrap s b l, writePhys_withTaskTrap]

theorem finish_withTaskTrap_mem (s u : State) (b : Bool) : (finish s (u.withTaskTrap b)).mem = (finish s u).mem := by
  show ((u.withTaskTrap b).commitList u.insn.stores).mem = _
  rw [commitList_withTaskTrap]
  rfl

/-- The trap of a T bit is pending after the instruction. -/
theorem finish_withTaskTrap_bt (s u : State) : (finish s (u.withTaskTrap true)).traps.bt = true := by
  have pending : (u.withTaskTrap true).commitStores.traps.bt = true := by
    rw [commitStores_eqn]
    simp [State.withTaskTrap]
  simp [finish, State.addTraps, Traps.any, pending]

/-- The registers at the end of an instruction that has asked its end to keep RF. -/
theorem finish_keeps_eflags (again : t.insn.again = false) (keep : t.insn.keepRf = true) :
    Agree { t with latch := { t.latch with inhibitNext := t.insn.inhibit, stiShadow := t.insn.stiShadow } } (finish s t) := by
  have kept : Agree t t.commitStores := by
    rw [commitStores_eqn]
    exact ⟨rfl, rfl, rfl, rfl, rfl, rfl, rfl, rfl, rfl, rfl, rfl, rfl, rfl, rfl, rfl, rfl, rfl, rfl, rfl⟩
  exact { kept with
    eip := by simp [finish, State.restAt, again]
    eflags := by simp [finish, keep]
    latch := by simp [finish, again] }

/-- The registers at the end of a JMP or CALL that has switched tasks. -/
theorem finish_switched (h : u.told = (s.retired.latch, false, true, false, false)) (b : Bool) :
    Agree { u with latch := s.retired.latch } (finish s (u.withTaskTrap b)) := by
  obtain ⟨latch, again, keep, inhibit, shadow⟩ := by simpa only [State.told, Prod.mk.injEq] using h
  refine (finish_keeps_eflags (t := u.withTaskTrap b) again keep).congr ?_
  refine ⟨rfl, rfl, rfl, rfl, rfl, rfl, rfl, rfl, rfl, rfl, rfl, rfl, rfl, rfl, rfl, rfl, ?_, rfl, rfl⟩
  show s.retired.latch = { u.latch with inhibitNext := u.insn.inhibit, stiShadow := u.insn.stiShadow }
  rw [latch, inhibit, shadow]
  rfl

/-- A far transfer's switch of tasks. -/
def switchTo (k : SwitchKind) (x : Word16) (e : Word16 → Exc) : M Unit := do
  let s ← get
  let t ← switchTasks k x s.eip false
  finishSwitch t (e 0#16)

/-- A JMP or CALL that switches tasks. -/
theorem switches {e : Word16 → Exc} (fresh : s.Fresh) (read : Upto s v []) (hk : k ≠ .iret) (hm : m s = switchTo k x e v)
    (hs : switchTasks k x s.eip false v = .ok b u) (inside : eipOk u.seg.cs.limit u.eip = true) :
    ∃ t, run m s = .next t ∧ Agree { u with latch := s.retired.latch } t ∧ t.mem = (finish s u).mem ∧
      (b = true → t.traps.bt = true) := by
  have told : v.told = s.told := by
    rw [read.eqn]
    rfl
  have ends : m s = .ok () (u.withTaskTrap b) := by
    rw [hm]
    unfold switchTo
    rw [get_then, read.eip, bind_of_ok hs]
    exact finishSwitch_run inside b _
  refine ⟨_, run_of_ok ends, finish_switched (switchTasks_told fresh told hk hs) b, finish_withTaskTrap_mem s u b, fun trap => ?_⟩
  rw [trap]
  exact finish_withTaskTrap_bt s u

end

section
variable {f : FarForm} {off : Word32} {x : Word16} {os : Size} {d : Desc} {s s1 s2 s3 : State} {p : Instr × SwitchKind × (Word16 → Exc)}

/-- A busy TSS is a TSS, not a free one. -/
theorem busy_tss (h : d.isBusyTss = true) : farTarget d = .tss ∧ d.isFreeTss = false := by
  obtain ⟨-, -, -, -, -, tss, free, busy⟩ := descriptor_kinds d
  obtain ⟨sys, type⟩ := busy.mp h
  refine ⟨tss.mpr ⟨sys, ?_⟩, Bool.eq_false_iff.mpr fun no => ?_⟩
  · simp only [List.mem_cons, List.not_mem_nil, or_false] at type ⊢
    exact type.elim (fun e => .inr (.inl e)) fun e => .inr (.inr (.inr e))
  · obtain ⟨-, other⟩ := free.mp no
    simp only [List.mem_cons, List.not_mem_nil, or_false] at type other
    rcases type with e | e <;> rw [e] at other <;> revert other <;> decide

theorem checkTask_busy (e : Word16 → Exc) (h : d.isBusyTss = true) (hc : checkDpl x d e s = .ok () s1) :
    checkTask x d e s = .error (e (selCode x false)) s1 := by
  unfold checkTask
  rw [bind_of_ok hc]
  exact check_fails_then (by simp [(busy_tss h).2])

/-- What a far JMP or CALL does with the descriptor of a task. -/
theorem far_task (hp : p ∈ [(Instr.jmpFar f, SwitchKind.jmp, excGP), (.callFar f, .call, excTS)])
    (hf : farPointer f s = .ok (off, x, os) s1) (prot : s1.prot = true) (hd : farDesc x s1 = .ok d s2) :
    ∃ m : M Unit, exec p.1 s = run m s ∧ p.2.1 ≠ .iret ∧
      (farTarget d = .tss → m s = (checkTask x d p.2.2 >>= fun _ => switchTo p.2.1 x p.2.2) s2) ∧
      (farTarget d = .taskGate → m s =
        (checkGate x d p.2.2 >>= fun _ => checkTss d.gateSel false p.2.2 >>= fun _ => switchTo p.2.1 d.gateSel p.2.2) s2) := by
  simp only [List.mem_cons, List.not_mem_nil, or_false] at hp
  rcases hp with rfl | rfl
  · refine ⟨jmpFarOp f, rfl, by simp, fun kind => ?_, fun kind => ?_⟩
    all_goals
      rw [jmpFar_prot hf prot]
      unfold jmpProtected
      rw [bind_of_ok hd, kind]
      rfl
  · refine ⟨callFarOp f, rfl, by simp, fun kind => ?_, fun kind => ?_⟩
    all_goals
      rw [callFar_prot hf prot]
      unfold callProtected
      rw [bind_of_ok hd, kind]
      rfl

end

end Sys2Proof.Machine
end

section
/-! SUPPORT. The far transfers, case by case; O29. -/
namespace Sys2Proof.Machine
open Sys2Proof

section
variable {f : FarForm} {off : Word32} {x : Word16} {os : Size} {c d : Desc} {s s1 s2 s3 s4 s5 s6 : State}

/-- Up to the code segment a call gate leads to, a far transfer reads and does no more. -/
theorem upto_gateTarget {jmp : Bool} (hf : farPointer f s = .ok (off, x, os) s1) (hd : farDesc x s1 = .ok d s2)
    (hg : checkGate x d excGP s2 = .ok () s3) (hc : gateTarget d jmp s3 = .ok c s4) : Upto s s4 [] :=
  (((upto_farPointer hf).reads (farDesc_reads x) hd).reads (checkGate_reads x d _) hg).reads (gateTarget_reads d _) hc

theorem far_code (fresh : s.Fresh) (hf : farPointer f s = .ok (off, x, os) s1) (hp : s.prot = true)
    (hd : farDesc x s1 = .ok d s2) (kind : farTarget d = .code) (hc : checkDirect x d s2 = .ok () s3)
    (inside : eipOk d.limit off = true) :
    (∀ s4, markAccessed x d s3 = .ok () s4 → ∃ t, exec (.jmpFar f) s = .next t ∧ Changed True s t [] (s.marking x d) ∧
      Agree { s.retired with eip := off, seg := s.seg.put .cs (d.toSeg (withRpl x s.cpl)) } t) ∧
    (∀ s4 s5, s.room (2 * os.bytes) = true → pushesTo os.bytes [s.seg.cs.sel.toNat, s.eip.toNat] s3 s4 →
      markAccessed x d s4 = .ok () s5 →
      let l := s.pushStores os.bytes [s.seg.cs.sel.toNat, s.eip.toNat]
      ∃ t, exec (.callFar f) s = .next t ∧ Reaches s t l (s.marking x d) ∧
        (s.paging = false → s.WritesThrough → s.clearOf x l → t.mem = s.memAfter l (s.memMark x d s.mem)) ∧
        Agree { s.retired with eip := off, seg := s.seg.put .cs (d.toSeg (withRpl x s.cpl))
                               gpr := s.espPlus (-BitVec.ofNat 32 (2 * os.bytes)) } t) := by
  have read1 := upto_farPointer hf
  have read : Upto s s3 [] := (read1.reads (farDesc_reads x) hd).reads (checkDirect_reads x d) hc
  have prot : s1.prot = true := read1.prot.trans hp
  refine ⟨fun s4 mark => ?_, fun s4 s5 room pushed mark => ?_⟩
  · exact enters fresh read ((jmpFar_prot hf prot).trans (jmpProtected_code hd kind hc inside)) mark
  · exact calls fresh read ((callFar_prot hf prot).trans
      (callProtected_code hd kind hc ((read.room _).trans room) inside)) pushed mark

/-- A far CALL through a call gate stays at its level, unless the gate leads to an inner one. -/
theorem callFar_gate (hf : farPointer f s = .ok (off, x, os) s1) (prot : s1.prot = true) (hd : farDesc x s1 = .ok d s2)
    (kind : farTarget d = .callGate) (hg : checkGate x d excGP s2 = .ok () s3) (hc : gateTarget d false s3 = .ok c s4) :
    (c.conforming = true ∨ ¬ c.dpl.toNat < s4.cpl.toNat → callFarOp f s = callSame d c s4) ∧
    (c.conforming = false → c.dpl.toNat < s4.cpl.toNat → callFarOp f s = callInner d c s4) := by
  have goes := (callFar_prot hf prot).trans (callProtected_gate (off := off) (os := os) hd kind hg hc)
  refine ⟨fun level => goes.trans ?_, fun strict level => goes.trans ?_⟩
  · rw [if_neg (by rcases level with h | h <;> simp [h])]
  · rw [if_pos (by simp [strict, level])]

theorem far_gate_same (fresh : s.Fresh) (hf : farPointer f s = .ok (off, x, os) s1) (hp : s.prot = true)
    (hd : farDesc x s1 = .ok d s2) (kind : farTarget d = .callGate) (hg : checkGate x d excGP s2 = .ok () s3)
    (hc : gateTarget d false s3 = .ok c s4) (inside : eipOk c.limit d.gateOffset = true)
    (level : c.conforming = true ∨ ¬ c.dpl.toNat < s.cpl.toNat) (room : s.room (2 * d.gateBytes) = true)
    (pushed : pushesTo d.gateBytes [s.seg.cs.sel.toNat, s.eip.toNat] s4 s5) (mark : markAccessed d.gateSel c s5 = .ok () s6) :
    let l := s.pushStores d.gateBytes [s.seg.cs.sel.toNat, s.eip.toNat]
    ∃ t, exec (.callFar f) s = .next t ∧ Reaches s t l (s.marking d.gateSel c) ∧
      (s.paging = false → s.WritesThrough → s.clearOf d.gateSel l → t.mem = s.memAfter l (s.memMark d.gateSel c s.mem)) ∧
      Agree { s.retired with eip := d.gateOffset, seg := s.seg.put .cs (c.toSeg (withRpl d.gateSel s.cpl))
                             gpr := s.espPlus (-BitVec.ofNat 32 (2 * d.gateBytes)) } t := by
  have read := upto_gateTarget hf hd hg hc
  rw [← read.cpl] at level
  have goes := (callFar_gate hf ((upto_farPointer hf).prot.trans hp) hd kind hg hc).1 level
  exact calls fresh read (goes.trans (callSame_run ((read.room _).trans room) inside)) pushed mark

/-- A far JMP through a call gate. -/
theorem jmpFar_gate (fresh : s.Fresh) (hf : farPointer f s = .ok (off, x, os) s1) (hp : s.prot = true)
    (hd : farDesc x s1 = .ok d s2) (kind : farTarget d = .callGate) (hg : checkGate x d excGP s2 = .ok () s3)
    (hc : gateTarget d true s3 = .ok c s4) (inside : eipOk c.limit d.gateOffset = true)
    (mark : markAccessed d.gateSel c s4 = .ok () s5) :
    ∃ t, exec (.jmpFar f) s = .next t ∧ Changed True s t [] (s.marking d.gateSel c) ∧
      Agree { s.retired with eip := d.gateOffset, seg := s.seg.put .cs (c.toSeg (withRpl d.gateSel s.cpl)) } t := by
  have read := upto_gateTarget hf hd hg hc
  exact enters fresh read ((jmpFar_prot hf ((upto_farPointer hf).prot.trans hp)).trans (jmpProtected_gate hd kind hg hc inside)) mark

variable {p : Instr × SwitchKind × (Word16 → Exc)}

/-- Far transfers to a task: through its TSS, through a task gate, and to one that is busy. -/
theorem far_tasks (fresh : s.Fresh) (hf : farPointer f s = .ok (off, x, os) s1) (hp : s.prot = true)
    (hd : farDesc x s1 = .ok d s2) (hm : p ∈ [(Instr.jmpFar f, SwitchKind.jmp, excGP), (.callFar f, .call, excTS)]) (s3 : State) :
    let ends (b : Bool) (u : State) : Prop := ∃ t, exec p.1 s = .next t ∧ Agree { u with latch := s.retired.latch } t ∧
      t.mem = (finish s u).mem ∧ (b = true → t.traps.bt = true)
    (farTarget d = .tss → checkTask x d p.2.2 s2 = .ok () s3 → ∀ b u, switchTasks p.2.1 x s.eip false s3 = .ok b u →
      eipOk u.seg.cs.limit u.eip = true → ends b u) ∧
    (farTarget d = .taskGate → checkGate x d p.2.2 s2 = .ok () s3 → ∀ s4, checkTss d.gateSel false p.2.2 s3 = .ok () s4 →
      ∀ b u, switchTasks p.2.1 d.gateSel s.eip false s4 = .ok b u → eipOk u.seg.cs.limit u.eip = true → ends b u) ∧
    (d.isBusyTss = true → checkDpl x d p.2.2 s2 = .ok () s3 → exec p.1 s = failure s (p.2.2 (selCode x false)) s3) := by
  intro ends
  have read1 := upto_farPointer hf
  have read : Upto s s2 [] := read1.reads (farDesc_reads x) hd
  obtain ⟨m, he, hk, tss, gate⟩ := far_task hm hf (read1.prot.trans hp) hd
  refine ⟨fun kind hc b u hs inside => ?_, fun kind hg s4 hc b u hs inside => ?_, fun busy hc => ?_⟩
  · have there := read.reads (checkTask_reads x d _) hc
    obtain ⟨t, e, left⟩ := switches fresh there hk ((tss kind).trans (bind_of_ok hc)) hs inside
    exact ⟨t, he.trans e, left⟩
  · have there := (read.reads (checkGate_reads x d _) hg).reads (checkTss_reads _ _ _) hc
    obtain ⟨t, e, left⟩ := switches fresh there hk ((gate kind).trans ((bind_of_ok hg).trans (bind_of_ok hc))) hs inside
    exact ⟨t, he.trans e, left⟩
  · rw [he]
    exact run_of_error ((tss (busy_tss busy).1).trans (bind_of_error (checkTask_busy _ busy hc)))

end

/-- Settles O29, by the mode and by what the descriptor is: reads up to the target, then the frame, the accessed bits, the registers. -/
theorem farTransfersComplete : Obligations.FarTransfersComplete := by
  intro s s1 fresh
  refine ⟨fun f off x os hf => ⟨fun hp inside => ?_, fun s2 hp pushed => ?_, fun d s2 hp hd => ⟨fun s3 kind hc inside => ?_,
    fun s3 kind hg => ⟨fun c s4 s5 hc inside mark => ?_, fun c s4 hc inside => ⟨fun s5 s6 level room pushed mark => ?_, ?_⟩⟩,
    fun p hm s3 => far_tasks fresh hf hp hd hm s3⟩⟩, fun f os k h => ⟨fun ip cs s2 hp hip hcs inside => ?_,
    fun cs ip c s2 s3 s4 hp hcs level hc top hip inside mark => ?_, ?_⟩⟩
  · exact jmpFar_real fresh hf hp inside
  · exact (callFar_real fresh hf hp pushed).imp fun _ => .imp_right .symm
  · obtain ⟨jumps, calls⟩ := far_code fresh hf hp hd kind hc inside
    refine ⟨fun s4 mark => ?_, calls⟩
    exact (jumps s4 mark).imp fun _ => .imp_right (.imp_left Changed.marked)
  · exact (jmpFar_gate fresh hf hp hd kind hg hc inside mark).imp fun _ => .imp_right (.imp_left Changed.marked)
  · exact far_gate_same fresh hf hp hd kind hg hc inside level room pushed mark
  · intro ns nsp y ps s5 s6 s7 s8 s9 s10 strict level hs room markY markC hv len params hw
    have read := upto_gateTarget hf hd hg hc
    rw [← read.cpl] at level
    have goes := (callFar_gate hf ((upto_farPointer hf).prot.trans hp) hd kind hg hc).2 strict level
    exact calls_inner fresh read goes hs room inside markY markC hv len params hw
  · exact retFar_real fresh (retParts_eq h) hp hip hcs inside
  · exact (retFar_same fresh (retParts_eq h) hp hcs rfl level hc top hip inside mark).imp fun _ =>
      .imp_right (.imp_left Changed.marked)
  · intro cs ip sp ss c d s2 s3 s4 s5 s6 s7 s8 hp hcs x y level top hc hsp hss hd hip inside markC markD u
    obtain ⟨t, e, changed, agree⟩ := retFar_outer fresh (retParts_eq h) hp hcs rfl rfl level top hc hsp hss hd hip inside markC markD
    obtain ⟨reaches, frame, value⟩ := changed.marked_two
    exact ⟨t, e, reaches, frame, value, agree⟩

end Sys2Proof.Machine
end

section
/-! SUPPORT. MOV of data (spec/43_int_m_to_r.md R560); O14. -/
namespace Sys2Proof.Machine
open Sys2Proof

section
variable {w : Width} {r : Reg} {v : BitVec w.bits} {x : RM} {m : M Unit} {s s1 : State}

/-- A meaning that reads, then loads one register. -/
theorem run_loads_reg (fresh : s.Fresh) (read : Upto s s1 []) (hm : m s = setReg w r v s1) :
    ∃ t, run m s = .next t ∧ Agree { s.retired with gpr := s.gpr.write w r v } t ∧ Stored s t [] := by
  rw [setReg_run, read.gpr] at hm
  exact run_keeps_flags fresh hm (read.setGpr _)

/-- A meaning that writes one r/m operand. -/
theorem run_writes_rm (fresh : s.Fresh) (hm : m s = writeRM w v x s) (hw : writeRM w v x s = .ok () s1) :
    ∃ t, run m s = .next t ∧ Agree { s.retired with gpr := s.gpr.writeRM w x v } t ∧ Stored s t (s.storeRM w x v) :=
  run_keeps_flags fresh (hm.trans hw) ((Upto.refl s).writeRM hw)

end

/-- Settles O14, form by form. -/
theorem movesComplete : Obligations.MovesComplete := by
  intro s fresh
  refine ⟨fun w x r s1 hw => ?_, fun w x r v s1 hr => ?_, fun w o n s1 hr => ?_, fun w o s1 hw => ?_, fun r v => ?_,
    fun x v s1 hw => ?_⟩
  · exact run_writes_rm (m := movOp (.rmReg w x r)) fresh rfl hw
  · exact run_loads_reg (m := movOp (.regRm w r x)) fresh ((Upto.refl s).reads (readRM_reads w x) hr) (bind_of_ok hr)
  · have read : moffsRead w o s = .ok (BitVec.ofNat _ n) s1 := bind_of_ok hr
    exact run_loads_reg (m := movOp (.accMoffs w o)) fresh ((Upto.refl s).reads (memRead_reads _ _ _ _ _) hr) (bind_of_ok read)
  · exact (run_upto (m := movOp (.moffsAcc w o)) fresh hw ((Upto.refl s).memWrite hw)).imp fun _ => .imp_right .symm
  · exact run_loads_reg (m := movOp (.regImm r v)) fresh (.refl s) rfl
  · exact run_writes_rm (m := movOp (.rmImm x v)) fresh rfl hw

end Sys2Proof.Machine
end

section
/-! SUPPORT. MOVSX, MOVZX, LEA, XLAT and MOV from a segment register (spec/42_int_j_to_l.md R537, spec/43_int_m_to_r.md R561 to R565,
spec/44_int_s_to_x.md R628); O15. -/
namespace Sys2Proof.Machine
open Sys2Proof

section
variable {w : Width} {os : Size} {r : Reg} {x : RM} {s s1 : State} {v : BitVec w.bits}

/-- MOVSX and MOVZX load what `f` makes of the source. -/
theorem extendOp_completes {f : {n : Nat} → BitVec n → (k : Nat) → BitVec k} {form : ExtForm} (fresh : s.Fresh)
    (hf : extendOp f form = readRM w x >>= fun a => setReg os.width r (f a _)) (hr : readRM w x s = .ok v s1) :
    ∃ t, run (extendOp f form) s = .next t ∧ Stored s t [] ∧
      Agree { s.retired with gpr := s.gpr.write os.width r (f v _) } t := by
  have ends : extendOp f form s = setReg os.width r (f v _) s1 := by
    rw [hf]
    exact bind_of_ok hr
  exact (run_loads_reg fresh ((Upto.refl s).reads (readRM_reads w x) hr) ends).imp fun _ => .imp_right .symm

end

/-- Settles O15: a read, or none, and a register loaded; MOV from a segment register writes an r/m operand. -/
theorem extensionsComplete : Obligations.ExtensionsComplete := by
  intro s fresh
  refine ⟨fun os r x v s1 hr => ⟨?_, ?_⟩, fun os r x v s1 hr => ⟨?_, ?_⟩, fun os r m => ?_, fun as n s1 hr => ?_,
    fun os x r s1 hw => ?_⟩
  · exact extendOp_completes (f := fun v k => v.signExtend k) (form := .byte os r x) fresh rfl hr
  · exact extendOp_completes (f := fun v k => v.setWidth k) (form := .byte os r x) fresh rfl hr
  · exact extendOp_completes (f := fun v k => v.signExtend k) (form := .word os r x) fresh rfl hr
  · exact extendOp_completes (f := fun v k => v.setWidth k) (form := .word os r x) fresh rfl hr
  · exact run_writes_gpr (m := leaOp os r m) fresh rfl
  · have ends : xlatOp as s = setReg .byte .eax (BitVec.ofNat 8 n) s1 := bind_of_ok hr
    exact (run_loads_reg fresh ((Upto.refl s).reads (memRead_reads _ _ _ _ _) hr) ends).imp fun _ => .imp_right .symm
  · exact run_writes_rm (m := movFromSegOp x r) fresh rfl hw

end Sys2Proof.Machine
end

section
/-! SUPPORT. The products of MUL and IMUL by numbers (spec/43_int_m_to_r.md R566, spec/41_int_d_to_i.md R457); O11. -/
namespace Sys2Proof.Machine
open Sys2Proof

section
variable {n : Nat}

theorem two_pow_two_mul (n : Nat) : 2 ^ (2 * n) = 2 ^ n * 2 ^ n := by rw [Nat.two_mul, Nat.pow_add]

/-- The two halves of a double-width number. -/
theorem halves_ofNat (p : Nat) : (BitVec.ofNat (2 * n) p).setWidth n = BitVec.ofNat n p ∧
    (BitVec.ofNat (2 * n) p).extractLsb' n n = BitVec.ofNat n (p / 2 ^ n) := by
  constructor
  · exact BitVec.setWidth_ofNat_of_le (by omega) p
  · apply BitVec.eq_of_toNat_eq
    rw [BitVec.extractLsb'_toNat, BitVec.toNat_ofNat, BitVec.toNat_ofNat, Nat.shiftRight_eq_div_pow, two_pow_two_mul,
      Nat.mod_mul_right_div_self, Nat.mod_mod]

/-- A number with sign and its remainder are the same bit vector. -/
theorem ofInt_eq_ofNat (k : Nat) (p : Int) : BitVec.ofInt k p = BitVec.ofNat k (p % (2 ^ k : Nat)).toNat := by
  apply BitVec.eq_of_toNat_eq
  have le : 0 ≤ p % (2 ^ k : Nat) := Int.emod_nonneg _ (by positivity)
  have lt : p % (2 ^ k : Nat) < (2 ^ k : Nat) := Int.emod_lt_of_pos _ (by positivity)
  rw [BitVec.toNat_ofInt, BitVec.toNat_ofNat, Nat.mod_eq_of_lt (by omega)]

theorem ofInt_congr {k : Nat} {p q : Int} (h : p % (2 ^ k : Nat) = q % (2 ^ k : Nat)) : BitVec.ofInt k p = BitVec.ofInt k q := by
  rw [ofInt_eq_ofNat, ofInt_eq_ofNat, h]

theorem emod_mul_ediv_emod (p : Int) {m : Int} (h : 0 < m) : p % (m * m) / m % m = p / m % m := by
  have e : p % (m * m) = p + m * (m * -(p / (m * m))) := by
    rw [Int.emod_def]
    ring
  rw [e, Int.add_mul_ediv_left _ _ h.ne', Int.add_mul_emod_self_left]

/-- The two halves of a double-width number with sign. -/
theorem halves_ofInt (p : Int) : (BitVec.ofInt (2 * n) p).setWidth n = BitVec.ofInt n p ∧
    (BitVec.ofInt (2 * n) p).extractLsb' n n = BitVec.ofInt n (p / 2 ^ n) := by
  have le : 0 ≤ p % (2 ^ (2 * n) : Nat) := Int.emod_nonneg _ (by positivity)
  obtain ⟨low, high⟩ := halves_ofNat (n := n) (p % (2 ^ (2 * n) : Nat)).toNat
  rw [← ofInt_eq_ofNat, ← BitVec.ofInt_natCast] at low high
  rw [low, high]
  constructor
  · apply ofInt_congr
    rw [Int.toNat_of_nonneg le, Int.emod_emod_of_dvd]
    exact Int.natCast_dvd_natCast.mpr (two_pow_two_mul n ▸ Nat.dvd_mul_right _ _)
  · apply ofInt_congr
    rw [Int.natCast_ediv, Int.toNat_of_nonneg le, two_pow_two_mul]
    push_cast
    exact emod_mul_ediv_emod p (by positivity)

end

theorem mulOp_eq {n : Nat} (a b : BitVec n) : mulOp a b =
    (BitVec.ofNat (2 * n) (a.toNat * b.toNat), productFlags (decide (2 ^ n ≤ a.toNat * b.toNat))) := rfl

theorem imulOp_eq {n : Nat} (a b : BitVec n) : imulOp a b = (BitVec.ofInt (2 * n) (a.toInt * b.toInt),
    productFlags (decide ((BitVec.ofInt n (a.toInt * b.toInt)).toInt ≠ a.toInt * b.toInt))) := by
  simp only [imulOp, productFlags, ne_comm]

section
variable {w : Width} {r : Reg} {x : RM} {s s1 : State} {v : BitVec w.bits}

theorem setHalves_run (low high : BitVec w.bits) (s : State) :
    setHalves w low high s = .ok () (s.setGpr (s.gpr.halves w low high)) := by cases w <;> rfl

/-- A product left in two registers. -/
theorem multiplyOp_completes {op : (n : Nat) → BitVec n → BitVec n → BitVec (2 * n) × StatusUpd} {p : BitVec (2 * w.bits)}
    {f : StatusUpd} {low high : BitVec w.bits} (fresh : s.Fresh) (hr : readRM w x s = .ok v s1)
    (product : op w.bits (s.gpr.read w .eax) v = (p, f)) (parts : p.setWidth _ = low ∧ p.extractLsb' w.bits w.bits = high) :
    ∃ t d, run (multiplyOp op w x) s = .next t ∧ Stored s t [] ∧
      Agree { s.retired with gpr := s.gpr.halves w low high, eflags := clearRf (f.apply d s.eflags) } t := by
  obtain ⟨rfl, rfl⟩ := parts
  have read : Upto s s1 [] := (Upto.refl s).reads (readRM_reads w x) hr
  have ends : multiplyOp op w x s = setStatus f (s1.setGpr (s.gpr.halves w (p.setWidth _) (p.extractLsb' w.bits w.bits))) := by
    unfold multiplyOp
    rw [bind_of_ok hr, getReg_then, read.gpr, product]
    exact (bind_of_ok (setHalves_run _ _ _)).trans (by rw [read.gpr])
  exact (run_sets_status fresh (read.setGpr _) ends).imp fun _ => .imp fun _ => .imp_right .symm

/-- A product whose low half is left in a register. -/
theorem imulTo_completes {other : M (BitVec w.bits)} {b : BitVec w.bits} (fresh : s.Fresh) (hr : readRM w x s = .ok v s1)
    (ho : other s1 = .ok b s1) : ∃ t d, run (imulTo w r x other) s = .next t ∧ Stored s t [] ∧ Agree { s.retired with
      gpr := s.gpr.write w r (BitVec.ofInt _ (v.toInt * b.toInt))
      eflags := clearRf ((productFlags
        (decide ((BitVec.ofInt w.bits (v.toInt * b.toInt)).toInt ≠ v.toInt * b.toInt))).apply d s.eflags) } t := by
  have read : Upto s s1 [] := (Upto.refl s).reads (readRM_reads w x) hr
  have ends : imulTo w r x other s = setStatus (imulOp v b).2 (s1.setGpr (s.gpr.write w r ((imulOp v b).1.setWidth _))) := by
    unfold imulTo
    rw [bind_of_ok hr, bind_of_ok ho, ← read.gpr]
    rfl
  obtain ⟨t, d, e, agree, stored⟩ := run_sets_status fresh (read.setGpr _) ends
  simp only [imulOp_eq, (halves_ofInt _).1] at agree
  exact ⟨t, d, e, stored, agree⟩

end

/-- Settles O11. -/
theorem multipliesComplete : Obligations.MultipliesComplete := by
  refine ⟨fun w x s s1 v fresh hr => ⟨?_, ?_⟩, fun f w r x b s s1 v fresh hr form => ?_⟩
  · exact multiplyOp_completes (op := fun _ a b => mulOp a b) fresh hr (mulOp_eq _ _) (halves_ofNat _)
  · exact multiplyOp_completes (op := fun _ a b => imulOp a b) fresh hr (imulOp_eq _ _) (halves_ofInt _)
  · have read : Upto s s1 [] := (Upto.refl s).reads (readRM_reads w x) hr
    rcases form with ⟨os, rfl, ⟨rfl, rfl⟩ | ⟨i, rfl, rfl⟩⟩ | ⟨i, rfl, rfl, rfl⟩
    · exact imulTo_completes fresh hr (by rw [getReg_run, read.gpr])
    · rw [← BitVec.toInt_signExtend_of_le (show 8 ≤ os.width.bits by cases os <;> decide)]
      exact imulTo_completes fresh hr rfl
    · exact imulTo_completes fresh hr rfl

end Sys2Proof.Machine
end

section
/-! SUPPORT. PUSH and POP of data, PUSH of a segment register (spec/43_int_m_to_r.md R573, R577); O19, O21. -/
namespace Sys2Proof.Machine
open Sys2Proof

section
variable {n v : Nat} {m : M Unit} {s s1 s2 t X : State} {l : List Store}

theorem Upto.v86 (h : Upto X t l) : t.v86 = X.v86 := by
  unfold State.v86 State.pe State.vm State.cr0Bit
  rw [h.cr0, h.eflags]

/-- A push that can be made, where V86 Mode does not shut down. -/
theorem pushValue_run (stays : ¬ (s.v86 = true ∧ s.sp = 1#32)) (room : pushesTo n [v] s t) : pushValue n v s = .ok () t := by
  obtain ⟨u, hu, rfl⟩ := push_of_pushesTo room
  unfold pushValue
  rw [get_then, if_neg (by simpa using stays)]
  exact hu

/-- A meaning that reads, then pushes. -/
theorem run_pushes (fresh : s.Fresh) (read : Upto s s1 []) (stays : ¬ (s.v86 = true ∧ s.sp = 1#32))
    (hm : m s = pushValue n v s1) (room : pushesTo n [v] s1 s2) : ∃ t, run m s = .next t ∧
      Agree { s.retired with gpr := s.espPlus (-BitVec.ofNat 32 n) } t ∧ Stored s t (s.pushStores n [v]) := by
  have pushed := read.pushes room
  rw [List.length_singleton, Nat.one_mul] at pushed
  rw [← read.v86, ← read.sp] at stays
  exact run_keeps_flags fresh (hm.trans (pushValue_run stays room)) pushed

end

/-- Settles O19: the value is read, or is there, and pushed. -/
theorem pushesComplete : Obligations.PushesComplete := by
  rintro s s1 s2 i n v fresh form stays room
  rcases form with ⟨os, x, b, rfl, rfl, hr, rfl⟩ | ⟨rfl, ⟨os, r, rfl, rfl, rfl⟩ | ⟨os, b, rfl, rfl, rfl⟩ | ⟨b, rfl, rfl, rfl⟩ |
    ⟨os, r, rfl, rfl, rfl⟩⟩
  · exact run_pushes (m := pushOp (.rm os x)) fresh ((Upto.refl s).reads (readRM_reads _ x) hr) stays (bind_of_ok hr) room
  · exact run_pushes (m := pushOp (.reg os r)) fresh (.refl _) stays rfl room
  · exact run_pushes (m := pushOp (.imm8 os b)) fresh (.refl _) stays rfl room
  · exact run_pushes (m := pushOp (.imm b)) fresh (.refl _) stays rfl room
  · exact run_pushes (m := pushSegOp os r) fresh (.refl _) stays rfl room

/-- Settles O21: the stack pointer is raised, then the destination written. -/
theorem popsComplete : Obligations.PopsComplete := by
  intro os s s1 v fresh hv
  have raised : Upto (s.moveSp (BitVec.ofNat 32 os.bytes)) (s1.moveSp (BitVec.ofNat 32 os.bytes)) [] :=
    ((Upto.refl s).reads (stackRead_reads _ _) hv).moveSp _
  refine ⟨fun r => ?_, fun x s2 hw => ?_⟩
  · have ends : popOp (.reg os r) s = .ok () _ := (bind_of_ok (pop_run hv)).trans (setReg_run _ _ _ _)
    rw [raised.gpr] at ends
    exact (run_keeps_flags (g := (s.espPlus (BitVec.ofNat 32 os.bytes)).write os.width r (BitVec.ofNat _ v)) fresh ends
      (raised.setGpr _)).imp fun _ => .imp_right .symm
  · exact run_keeps_flags (m := popOp (.rm os x)) fresh ((bind_of_ok (pop_run hv)).trans hw) (raised.writeRM hw)

end Sys2Proof.Machine
end

section
/-! SUPPORT. PUSHA, PUSHAD, POPA and POPAD (spec/43_int_m_to_r.md R574, R575, R578, R579); O22. -/
namespace Sys2Proof.Machine
open Sys2Proof

section
variable {os : Size} {n k off : Nat} {s t : State}

theorem pushAll_run : ∀ {vs : List Nat} {s : State}, pushesTo n vs s t → pushAll n vs s = .ok () t
  | [], _, h => congrArg _ h.symm
  | _ :: _, _, h => by
    obtain ⟨u, first, rest⟩ := push_of_pushesTo h
    exact (bind_of_ok first).trans (pushAll_run rest)

theorem stackItems_reads (n : Nat) : ∀ (k off : Nat), Reads (stackItems n off k)
  | 0, _ => .pure _
  | k + 1, _ => (stackRead_reads _ _).bind fun _ => (stackItems_reads n k _).bind fun _ => .pure _

/-- A register written in the size of an instruction keeps the bits above it. -/
theorem Gprs.write_ofNat (g : Gprs) (os : Size) (r : Reg) (v : Nat) :
    g.write os.width r (BitVec.ofNat _ v) = g.put r (os.merge (g.get r) (BitVec.ofNat 32 v)) := by
  cases os with
  | s16 =>
    rw [Size.merge, BitVec.setWidth_ofNat_of_le (by decide)]
    rfl
  | s32 => rfl

/-- POPA reads eight items and loads seven. -/
theorem popAll_run {di si bp x bx dx cx ax : Nat} (top : s.topOk (8 * os.bytes) = true)
    (h : stackItems os.bytes 0 8 s = .ok [di, si, bp, x, bx, dx, cx, ax] t) :
    popAll os s = .ok () (t.setGpr
      { eax := os.merge t.gpr.eax (BitVec.ofNat 32 ax), ecx := os.merge t.gpr.ecx (BitVec.ofNat 32 cx)
        edx := os.merge t.gpr.edx (BitVec.ofNat 32 dx), ebx := os.merge t.gpr.ebx (BitVec.ofNat 32 bx)
        esp := (t.espPlus (BitVec.ofNat 32 (8 * os.bytes))).esp
        ebp := os.merge t.gpr.ebp (BitVec.ofNat 32 bp), esi := os.merge t.gpr.esi (BitVec.ofNat 32 si)
        edi := os.merge t.gpr.edi (BitVec.ofNat 32 di) }) := by
  unfold popAll
  rw [get_then, check_then top, bind_of_ok h, bind_of_ok (stackFree_run _ _)]
  simp only [setReg_then, setReg_run, List.map_cons, List.getD_cons_zero, List.getD_cons_succ, Gprs.write_ofNat, State.setGpr_gpr, Gprs.put, Gprs.get]
  rfl

end

/-- Settles O22: eight pushes, or eight items read. -/
theorem allRegistersComplete : Obligations.AllRegistersComplete := by
  intro os s s2 fresh regs
  refine ⟨fun checked room => ?_, fun di si bp x bx dx cx ax top items => ?_⟩
  · have ends : pushAllRegs os s = .ok () s2 := (bind_of_ok checked).trans (pushAll_run room)
    have done := run_keeps_flags fresh ends ((Upto.refl s).pushes room)
    cases os <;> exact done
  · have read : Upto s s2 [] := (Upto.refl s).reads (stackItems_reads _ _ _) items
    have ends := popAll_run top items
    rw [read.gpr, read.espPlus] at ends
    obtain ⟨u, e, agree, stored⟩ := run_keeps_flags fresh ends (read.setGpr _)
    refine ⟨u, ?_, stored, agree⟩
    cases os <;> exact e

end Sys2Proof.Machine
end

section
/-! SUPPORT. PUSHF and POPF (spec/43_int_m_to_r.md R576, R580), and what is loaded of the flags (spec/41_int_d_to_i.md R467,
spec/10_state.md R25); O20. -/
namespace Sys2Proof.Machine
open Sys2Proof

/-! The flags loaded. -/

/-- The bits of EFLAGS that are taken from an image of a size, where the level may change IF, may change IOPL, and RF is loaded. -/
def loadedBits (size : Size) (mayIf mayIopl rf : Bool) : Word32 :=
  0x4DD5#32 ||| (if mayIf then 0x200#32 else 0#32) ||| (if mayIopl then 0x3000#32 else 0#32) |||
    (match size with
      | .s16 => 0#32
      | .s32 => if rf then 0x50000#32 else 0x40000#32)

theorem loadFlags_eq (image : Word32) (size : Size) (cpl : BitVec 2) (rf : Bool) (old : Word32) :
    loadFlags image size cpl rf old =
      fixFlags (mix (loadedBits size (decide (cpl.toNat ≤ (old.extractLsb' 12 2).toNat)) (decide (cpl = 0#2)) rf) image old) := by
  unfold loadedBits
  simp only [decide_eq_true_eq]
  rfl

/-- Every bit below 19 but the reserved ones: the status flags, TF, DF and NT are loaded, the others as the level, the size and the
instruction allow, VM never. -/
theorem getLsbD_loadedBits (size : Size) (mayIf mayIopl rf : Bool) :
    let m := loadedBits size mayIf mayIopl rf
    (∀ i ∈ [0, 2, 4, 6, 7, 8, 10, 11, 14], m.getLsbD i = true) ∧ m.getLsbD 9 = mayIf ∧ m.getLsbD 12 = mayIopl ∧
      m.getLsbD 13 = mayIopl ∧ m.getLsbD 16 = (decide (size = .s32) && rf) ∧ m.getLsbD 17 = false ∧
      m.getLsbD 18 = decide (size = .s32) := by
  cases size <;> revert mayIf mayIopl rf <;> decide

theorem getLsbD_mix (m new old : Word32) (i : Nat) :
    (mix m new old).getLsbD i = if m.getLsbD i then new.getLsbD i else old.getLsbD i := by
  unfold mix
  by_cases h : i < 32
  · simp only [BitVec.getLsbD_or, BitVec.getLsbD_and, BitVec.getLsbD_not, h, decide_true, Bool.true_and]
    cases m.getLsbD i <;> simp
  · have high (v : Word32) : v.getLsbD i = false := BitVec.getLsbD_of_ge v i (by omega)
    simp [high]

theorem getLsbD_fixFlags (v : Word32) (i : Nat) :
    (fixFlags v).getLsbD i = (v.getLsbD i && (0x00077FD5#32).getLsbD i || (0x2#32).getLsbD i) := by
  unfold fixFlags
  rw [BitVec.getLsbD_or, BitVec.getLsbD_and]

/-- A bit that is not reserved comes from the image where it is loaded, else stays. -/
theorem getLsbD_loadFlags (image : Word32) (size : Size) (cpl : BitVec 2) (rf : Bool) (old : Word32) {i : Nat} {b : Bool}
    (hb : (loadedBits size (decide (cpl.toNat ≤ (old.extractLsb' 12 2).toNat)) (decide (cpl = 0#2)) rf).getLsbD i = b)
    (open' : (0x00077FD5#32).getLsbD i = true := by decide) (free : (0x2#32).getLsbD i = false := by decide) :
    (loadFlags image size cpl rf old).getLsbD i = if b then image.getLsbD i else old.getLsbD i := by
  rw [loadFlags_eq, getLsbD_fixFlags, getLsbD_mix, hb, open', free, Bool.and_true, Bool.or_false]

/-- IOPL, from its two bits. -/
theorem iopl_of_bits {u v : Word32} (h12 : u.getLsbD 12 = v.getLsbD 12) (h13 : u.getLsbD 13 = v.getLsbD 13) :
    u.extractLsb' 12 2 = v.extractLsb' 12 2 := by
  apply BitVec.eq_of_getLsbD_eq
  intro i hi
  have place : i = 0 ∨ i = 1 := by omega
  rcases place with rfl | rfl
  · simpa using h12
  · simpa using h13

theorem flagsLoaded_loadFlags (image : Word32) (size : Size) (cpl : BitVec 2) (rf : Bool) (old : Word32) :
    FlagsLoaded image size cpl rf old (loadFlags image size cpl rf old) := by
  obtain ⟨always, h9, h12, h13, h16, h17, h18⟩ := getLsbD_loadedBits size
    (decide (cpl.toNat ≤ (old.extractLsb' 12 2).toNat)) (decide (cpl = 0#2)) rf
  have opened : ∀ i ∈ [0, 2, 4, 6, 7, 8, 10, 11, 14], (0x00077FD5#32).getLsbD i = true ∧ (0x2#32).getLsbD i = false := by decide
  have closed : ∀ i < 32, i ∈ [3, 5, 15] ∨ 19 ≤ i → (0x00077FD5#32).getLsbD i = false ∧ (0x2#32).getLsbD i = false := by decide
  refine ⟨fun i hi => ?_, ?_, ?_, ?_, ?_, ?_, ?_, fun i hi => ?_⟩
  · exact getLsbD_loadFlags _ _ _ _ _ (always i hi) (opened i hi).1 (opened i hi).2
  · simpa using getLsbD_loadFlags image _ _ _ _ h9
  · have b12 := getLsbD_loadFlags image _ _ _ _ h12
    have b13 := getLsbD_loadFlags image _ _ _ _ h13
    split at b12
    · next h =>
      rw [if_pos h] at b13
      rw [if_pos (by simpa using h)]
      exact iopl_of_bits b12 b13
    · next h =>
      rw [if_neg h] at b13
      rw [if_neg (by simpa using h)]
      exact iopl_of_bits b12 b13
  · simpa using getLsbD_loadFlags image _ _ _ _ h16
  · simpa using getLsbD_loadFlags image _ _ _ _ h17
  · simpa using getLsbD_loadFlags image _ _ _ _ h18
  · rw [loadFlags_eq, getLsbD_fixFlags]
    simp
  · rw [loadFlags_eq, getLsbD_fixFlags]
    by_cases h : i < 32
    · rw [(closed i h hi).1, (closed i h hi).2, Bool.and_false, Bool.or_false]
    · rw [BitVec.getLsbD_of_ge (0x00077FD5#32) i (by omega), BitVec.getLsbD_of_ge (0x2#32) i (by omega), Bool.and_false,
        Bool.or_false]

/-! The instructions. -/

section
variable {os : Size} {v : Nat} {l : List Store} {s s1 s2 u X : State}

theorem needV86Iopl_passes (h : s.v86 = true → s.iopl = 3#2) : needV86Iopl s = .ok () s := by
  unfold needV86Iopl
  rw [get_then, check_ok_iff]
  refine ⟨?_, rfl⟩
  cases e : s.v86 with
  | false => rfl
  | true => simp [h e]

theorem pushFlags_completes (fresh : s.Fresh) (h : s.v86 = true → s.iopl = 3#2)
    (hv : ((s.eflags &&& 0xFFFDFFFF#32).setWidth os.width.bits).toNat = v) (room : pushesTo os.bytes [v] s s2) :
    ∃ t, run (pushFlags os) s = .next t ∧ Agree { s.retired with gpr := s.espPlus (-BitVec.ofNat 32 os.bytes) } t ∧
      Stored s t (s.pushStores os.bytes [v]) := by
  subst hv
  have pushed := (Upto.refl s).pushes room
  rw [List.length_singleton, Nat.one_mul] at pushed
  obtain ⟨u, hu, rfl⟩ := push_of_pushesTo room
  exact run_keeps_flags fresh ((bind_of_ok (needV86Iopl_passes h)).trans hu) pushed

/-- RF asked to be kept. -/
def State.keepingRf (s : State) : State := { s with insn := { s.insn with keepRf := true } }

theorem keepingRf_ofRegisters : OfRegisters State.keepingRf :=
  ⟨fun _ _ _ _ _ _ _ _ => rfl, fun _ => ⟨rfl, rfl, rfl, rfl, rfl, rfl, rfl⟩⟩

/-- An instruction that asks its end to keep the flags as it leaves them. -/
theorem run_keeping_flags {m : M Unit} (fresh : s.Fresh) (hm : m s = .ok () u) (h : Upto X.keepingRf u l)
    (same : SameMemory s X) (insn : X.insn = s.insn) (latch : X.latch = s.latch) :
    ∃ t, run m s = .next t ∧ Stored s t l ∧ Agree { X with latch := s.retired.latch } t := by
  refine ⟨finish s u, run_of_ok hm, h.storedAt fresh same.cr0 same.pins same.mem same.stores same.cr3 same.tlb same.cache, ?_⟩
  have e : ∃ mem cache tlb spoiled ctr hits stores, u = { X.keepingRf with
      mem := mem, cache := cache, tlb := tlb, bufferSpoiled := spoiled, freeCtr := ctr
      insn := { X.keepingRf.insn with hits := hits, stores := stores } } := ⟨_, _, _, _, _, _, _, h.eqn⟩
  obtain ⟨mem, cache, tlb, spoiled, ctr, hits, stores, rfl⟩ := e
  refine (finish_keeps_eflags ?_ rfl).congr ?_
  · exact (congrArg Insn.again insn).trans fresh.again
  · refine ⟨rfl, rfl, rfl, rfl, rfl, rfl, rfl, rfl, rfl, rfl, rfl, rfl, rfl, rfl, rfl, rfl, ?_, rfl, rfl⟩
    rw [retired_latch fresh, ← insn, ← latch]
    rfl

theorem popFlags_completes (fresh : s.Fresh) (h : s.v86 = true → s.iopl = 3#2) (hv : stackRead 0 os.bytes s = .ok v s1) :
    ∃ t, run (popFlags os) s = .next t ∧ Stored s t [] ∧ Agree { s.retired with
      gpr := s.espPlus (BitVec.ofNat 32 os.bytes), eflags := loadFlags (BitVec.ofNat 32 v) os s.cpl false s.eflags } t := by
  have read : Upto s s1 [] := (Upto.refl s).reads (stackRead_reads _ _) hv
  have loaded := ((read.moveSp (BitVec.ofNat 32 os.bytes)).setEflags (loadFlags (BitVec.ofNat 32 v) os s.cpl false s.eflags)).change
    keepingRf_ofRegisters
  have ends : popFlags os s = .ok () ((s1.moveSp (BitVec.ofNat 32 os.bytes)).setEflags
      (loadFlags (BitVec.ofNat 32 v) os s.cpl false s.eflags)).keepingRf := by
    rw [← read.cpl, ← read.eflags]
    exact (bind_of_ok (needV86Iopl_passes h)).trans (bind_of_ok (pop_run hv))
  exact run_keeping_flags fresh ends loaded ⟨rfl, rfl, rfl, rfl, rfl, rfl, rfl⟩ rfl rfl

end

/-- Settles O20. -/
theorem flagStackComplete : Obligations.FlagStackComplete := by
  refine ⟨flagsLoaded_loadFlags, fun s fresh h => ⟨fun s2 room => ?_, fun s2 room => ?_, fun v s1 hv => ?_, fun v s1 hv => ?_⟩⟩
  · exact pushFlags_completes (os := .s16) fresh h (BitVec.toNat_setWidth _ _) room
  · exact pushFlags_completes (os := .s32) fresh h rfl room
  · exact popFlags_completes (os := .s16) fresh h hv
  · exact popFlags_completes (os := .s32) fresh h hv

end Sys2Proof.Machine
end

section
/-! SUPPORT. What the reads of a descriptor find does not depend on the general registers (spec/21_segmentation_paging_protection.md
R188, R265). -/
namespace Sys2Proof.Machine
open Sys2Proof

section
variable {α β : Type}

/-- A computation that, where it completes, does so with other general registers too, finding the same and leaving them alone. -/
def IgnoresGpr (x : M α) : Prop := ∀ s a t, x s = .ok a t → ∀ g, x (s.setGpr g) = .ok a (t.setGpr g)

theorem IgnoresGpr.pure {a : α} : IgnoresGpr (pure a : M α) := by
  intro s b t h g
  cases h
  rfl

theorem IgnoresGpr.throw {e : Exc} : IgnoresGpr (throw e : M α) := fun _ _ _ h => nomatch h

theorem IgnoresGpr.bind {x : M α} {f : α → M β} (hx : IgnoresGpr x) (hf : ∀ a, IgnoresGpr (f a)) : IgnoresGpr (x >>= f) := by
  intro s b u h g
  obtain ⟨a, t, first, second⟩ := bind_ok_iff.mp h
  exact (bind_of_ok (hx s a t first g)).trans (hf a t b u second g)

theorem IgnoresGpr.get {f : State → M β} (same : ∀ s g, f (s.setGpr g) = f s) (hf : ∀ s, IgnoresGpr (f s)) :
    IgnoresGpr (MonadState.get >>= f) := by
  intro s b t h g
  rw [get_then] at h
  rw [get_then, same]
  exact hf s s b t h g

theorem IgnoresGpr.modify {f : State → State} (same : ∀ s g, f (s.setGpr g) = (f s).setGpr g) : IgnoresGpr (modify f) := by
  intro s b t h g
  cases h
  exact congrArg _ (same s g)

theorem IgnoresGpr.ite {c : Prop} [Decidable c] {x y : M α} (hx : IgnoresGpr x) (hy : IgnoresGpr y) :
    IgnoresGpr (if c then x else y) := by
  split
  · exact hx
  · exact hy

theorem readPhys_setGpr (s : State) (g : Gprs) (a : Word32) (c l : Bool) :
    (s.setGpr g).readPhys a c l = ((s.readPhys a c l).1, (s.readPhys a c l).2.setGpr g) := by
  have set : (s.setGpr g).cacheSetAt a = s.cacheSetAt a := rfl
  have fill : (s.setGpr g).mayFill c l = s.mayFill c l := rfl
  unfold State.readPhys
  rw [State.setGpr_insn]
  split
  · rfl
  · dsimp only
    rw [set, fill]
    split
    · rfl
    · split <;> rfl

/-- A byte read, then what follows. -/
theorem IgnoresGpr.readByte {a : Word32} {c l : Bool} {k : Byte → M β} (hk : ∀ v, IgnoresGpr (k v)) :
    IgnoresGpr (MonadState.get >>= fun s => set (s.readPhys a c l).2 >>= fun _ => k (s.readPhys a c l).1) := by
  intro s b t h g
  rw [get_then, set_then] at h
  rw [get_then, set_then, readPhys_setGpr]
  exact hk _ _ b t h g

theorem writePhys_setGpr (s : State) (g : Gprs) (a : Word32) (v : Byte) :
    (s.setGpr g).writePhys a v = (s.writePhys a v).setGpr g := by
  have set : (s.setGpr g).cacheSetAt a = s.cacheSetAt a := rfl
  unfold State.writePhys
  dsimp only
  rw [set]
  split
  · rw [apply_ite (fun s : State => s.setGpr g)]
    rfl
  · rfl

theorem updatePhys_setGpr (s : State) (g : Gprs) (a : Word32) (f : Byte → Byte) :
    (s.setGpr g).updatePhys a f = (s.updatePhys a f).setGpr g := by
  unfold State.updatePhys
  dsimp only
  rw [writePhys_setGpr, State.setGpr_insn, State.setGpr_mem]
  split <;> rfl

end

/-! The paging unit. -/

theorem maskA20_ignoresGpr {a : Word32} : IgnoresGpr (maskA20 a) := .get (fun _ _ => rfl) fun _ => .ite .pure (.ite .pure .throw)

theorem physRead_ignoresGpr {c l : Bool} : ∀ {n : Nat} {a : Word32}, IgnoresGpr (physRead a c l n)
  | 0, _ => .pure
  | _ + 1, _ => maskA20_ignoresGpr.bind fun _ => .readByte fun _ => physRead_ignoresGpr.bind fun _ => .pure

theorem physOr_ignoresGpr : ∀ {l : List Byte} {a : Word32}, IgnoresGpr (physOr a l)
  | [], _ => .pure
  | _ :: _, _ => maskA20_ignoresGpr.bind fun _ => (IgnoresGpr.modify fun _ _ => updatePhys_setGpr _ _ _ _).bind fun _ => physOr_ignoresGpr

theorem physDword_ignoresGpr {a : Word32} {c l : Bool} : IgnoresGpr (physDword a c l) := physRead_ignoresGpr.bind fun _ => .pure

theorem pageFault_ignoresGpr {α : Type} {lin : Word32} {p w u : Bool} : IgnoresGpr (pageFault lin p w u : M α) :=
  fun _ _ _ h => absurd h pageFault_not_ok

theorem secondRead_ignoresGpr {a o b : Word32} : IgnoresGpr (secondRead a o b) := .ite .pure physDword_ignoresGpr

theorem setEntryBits_ignoresGpr {a o b : Word32} : IgnoresGpr (setEntryBits a o b) := .ite .pure physOr_ignoresGpr

theorem checkPde_ignoresGpr {lin pde : Word32} {w u : Bool} : IgnoresGpr (checkPde lin w u pde) := .ite .pure pageFault_ignoresGpr

theorem checkPte_ignoresGpr {lin pde pte : Word32} {w u : Bool} : IgnoresGpr (checkPte lin w u pde pte) :=
  .get (fun _ _ => rfl) fun _ => .ite pageFault_ignoresGpr (.ite .pure pageFault_ignoresGpr)

theorem walk_ignoresGpr {lin : Word32} {w u : Bool} : IgnoresGpr (walk lin w u) :=
  .get (fun _ _ => rfl) fun _ => physDword_ignoresGpr.bind fun _ => checkPde_ignoresGpr.bind fun _ =>
    secondRead_ignoresGpr.bind fun _ => checkPde_ignoresGpr.bind fun _ => setEntryBits_ignoresGpr.bind fun _ =>
    physDword_ignoresGpr.bind fun _ => checkPte_ignoresGpr.bind fun _ => secondRead_ignoresGpr.bind fun _ =>
    checkPte_ignoresGpr.bind fun _ => setEntryBits_ignoresGpr.bind fun _ => .pure

theorem translate_ignoresGpr {lin : Word32} {w u : Bool} : IgnoresGpr (translate lin w u) := by
  intro s a t h g
  unfold translate at h ⊢
  rw [get_then] at h ⊢
  have paging : (s.setGpr g).paging = s.paging := rfl
  have serves : (s.setGpr g).tlbServes lin w u = s.tlbServes lin w u := rfl
  rw [paging, serves]
  split at h
  · next off =>
    rw [if_pos off]
    exact IgnoresGpr.pure s a t h g
  · next on =>
    rw [if_neg on]
    cases e : s.tlbServes lin w u with
    | none =>
      rw [e] at h
      exact walk_ignoresGpr.bind (fun _ => (IgnoresGpr.modify fun _ _ => rfl).bind fun _ => .pure) s a t h g
    | some y =>
      rw [e] at h
      dsimp only at h ⊢
      have permits : pagePermits (s.setGpr g) = pagePermits s := rfl
      split at h
      · next ok =>
        cases h
        rw [permits, show (s.setGpr g).tlbSetAt = s.tlbSetAt from rfl, if_pos ok]
        rfl
      · exact absurd h pageFault_not_ok

theorem translateBytes_ignoresGpr {w u : Bool} : ∀ {n : Nat} {lin : Word32}, IgnoresGpr (translateBytes lin w u n)
  | 0, _ => .pure
  | _ + 1, _ => translate_ignoresGpr.bind fun _ => maskA20_ignoresGpr.bind fun _ => translateBytes_ignoresGpr.bind fun _ => .pure

theorem readBytes_ignoresGpr {l : Bool} : ∀ {ps : List (Word32 × Bool)}, IgnoresGpr (readBytes l ps)
  | [] => .pure
  | _ :: _ => .readByte fun _ => readBytes_ignoresGpr.bind fun _ => .pure

theorem sysRead_ignoresGpr {lin : Word32} {n : Nat} : IgnoresGpr (sysRead lin n) :=
  (IgnoresGpr.modify fun _ _ => rfl).bind fun _ => translateBytes_ignoresGpr.bind fun _ => readBytes_ignoresGpr.bind fun _ => .pure

theorem readDesc_ignoresGpr {x : Word16} : IgnoresGpr (readDesc x) :=
  .get (fun _ _ => rfl) fun _ => sysRead_ignoresGpr.bind fun _ => sysRead_ignoresGpr.bind fun _ => .pure

end Sys2Proof.Machine
end

section
/-! SUPPORT. Loads of segment registers: what they leave of memory, and how the instructions that make them end
(spec/42_int_j_to_l.md R536, spec/43_int_m_to_r.md R561, R573); O17. -/
namespace Sys2Proof.Machine
open Sys2Proof

/-- What a load with the selector `v` leaves alone with paging off: every byte but the accessed byte of the descriptor. -/
def OthersKept (s : State) (v : Word16) (t : State) : Prop := s.memOk = true → s.paging = false →
  ∀ a, a ≠ (s.phys (descAddr s v + 5#32)).toNat → Memory.read t.mem a = Memory.read s.mem a

/-- What a load with the selector `v` makes of memory: nothing where no descriptor is read, else the mark of the descriptor that is
read in the state `u`. -/
def LoadMarks (s : State) (v : Word16) (u t : State) : Prop :=
  let plain : Prop := s.paging = false ∧ s.WritesThrough
  (s.prot = false ∨ selNull v = true → (plain → t.mem = s.mem) ∧ Reaches s t [] []) ∧
  (∀ d w, s.prot = true → selNull v = false → readDesc v u = .ok d w →
    (plain → t.mem = s.memMark v d s.mem) ∧ Reaches s t [] (s.marking v d))

section
variable {r : SReg} {v : Word16} {s t u X : State} {k : List Change}

theorem putSeg_ofRegisters (r : SReg) (y : SegReg) : OfRegisters fun s => s.putSeg r y :=
  ⟨fun _ _ _ _ _ _ _ _ => rfl, fun _ => ⟨rfl, rfl, rfl, rfl, rfl, rfl, rfl⟩⟩

/-- A load that reads no descriptor changes the register alone. -/
theorem loadSeg_plain (plain : s.prot = false ∨ selNull v = true) (h : loadSeg r v s = .ok () t) : ∃ y, t = s.putSeg r y := by
  obtain ⟨real, v86, null, -⟩ := loadSeg_rules r v s t h
  by_cases hp : s.prot = true
  · have hn : selNull v = true := plain.resolve_left (by simp [hp])
    exact ⟨_, (null hp hn).2⟩
  · by_cases hr : s.real = true
    · exact ⟨_, real hr⟩
    · have pe : s.pe = true := by simpa [State.real] using hr
      have vm : s.vm = true := by simpa [State.prot, pe] using hp
      exact ⟨_, v86 (v86_iff.mpr ⟨pe, vm⟩)⟩

/-- A load from a descriptor reads it, marks it accessed and changes the register. -/
theorem loadSeg_descriptor (hp : s.prot = true) (hn : selNull v = false) (h : loadSeg r v s = .ok () t) :
    ∃ d u w, readDesc v s = .ok d u ∧ markAccessed v d u = .ok () w ∧ t = w.putSeg r (d.toSeg v) := by
  unfold loadSeg at h
  rw [get_then, if_pos hp] at h
  by_cases hs : r = .ss
  · subst hs
    rw [if_pos rfl] at h
    obtain ⟨-, -, -, d, u, w, hd, -, -, -, hm, hset⟩ := loadStackSeg_ok h
    cases hset
    exact ⟨d, u, w, hd, hm, rfl⟩
  · rw [if_neg hs] at h
    obtain ⟨-, d, u, w, hd, -, -, -, hm, hset⟩ := loadDataSeg_ok hn h
    cases hset
    exact ⟨d, u, w, hd, hm, rfl⟩

/-- The read-modify-writes of a load: none, or the mark of the descriptor. -/
structure LoadChanges (s : State) (v : Word16) (u : State) (k : List Change) : Prop where
  none : s.prot = false ∨ selNull v = true → k = []
  mark : ∀ d w, s.prot = true → selNull v = false → readDesc v u = .ok d w → k = s.marking v d
  place : ∀ p ∈ k, p.1 = descAddr s v + 5#32

/-- A load followed. -/
theorem loadSeg_trail (read : Upto X t []) (clean : X.insn.stores = []) (h : loadSeg r v t = .ok () u) :
    ∃ y k, Trail True (X.putSeg r y) u [] k ∧ LoadChanges X v t k := by
  have start : Trail True X t [] [] := read.trail clean
  by_cases plain : t.prot = false ∨ selNull v = true
  · obtain ⟨y, rfl⟩ := loadSeg_plain plain h
    rw [read.prot] at plain
    refine ⟨y, [], start.change (putSeg_ofRegisters r y), fun _ => rfl, fun d w hp hn _ => ?_, fun p no => nomatch no⟩
    exact absurd plain (by simp [hp, hn])
  · have hp : t.prot = true := by simpa using fun e => plain (.inl e)
    have hn : selNull v = false := by simpa using fun e => plain (.inr e)
    obtain ⟨d, u1, w, hd, hm, rfl⟩ := loadSeg_descriptor hp hn h
    rw [read.prot] at plain
    have marked := (start.reads (readDesc_reads v) hd).mark hm fun _ _ no => nomatch no
    refine ⟨_, _, marked.change (putSeg_ofRegisters r _), fun no => absurd no plain, fun d' w' _ _ hd' => ?_, fun p => marking_place⟩
    rw [hd] at hd'
    cases hd'
    rfl

/-- The registers at the end of an instruction that asked its end for shadows, perhaps. -/
theorem agree_of_told (again : X.insn.again = false) (keep : X.insn.keepRf = false)
    (h : u = { X with mem := u.mem, cache := u.cache, tlb := u.tlb, bufferSpoiled := u.bufferSpoiled, freeCtr := u.freeCtr
                      insn := { X.insn with hits := u.insn.hits, stores := u.insn.stores } }) :
    Agree { X with eflags := clearRf X.eflags
                   latch := { X.latch with inhibitNext := X.insn.inhibit, stiShadow := X.insn.stiShadow } } (finish s u) := by
  have e : ∃ mem cache tlb spoiled ctr hits stores, u = { X with
      mem := mem, cache := cache, tlb := tlb, bufferSpoiled := spoiled, freeCtr := ctr
      insn := { X.insn with hits := hits, stores := stores } } := ⟨_, _, _, _, _, _, _, h⟩
  obtain ⟨mem, cache, tlb, spoiled, ctr, hits, stores, rfl⟩ := e
  refine Agree.congr (finish_eqn s _ ?_ ?_) ?_
  · exact again
  · exact keep
  · exact ⟨rfl, rfl, rfl, rfl, rfl, rfl, rfl, rfl, rfl, rfl, rfl, rfl, rfl, rfl, rfl, rfl, rfl, rfl, rfl⟩

/-- What the changes of a load leave of memory. -/
theorem Changed.loaded (h : Changed True s t [] k) (c : LoadChanges s v u k) : OthersKept s v t ∧ LoadMarks s v u t := by
  refine ⟨fun hw hp a ha => h.frame trivial rfl hw hp a fun p hm => ?_, fun plain => ⟨fun hm => ?_, ?_⟩, fun d w hp hn hd =>
    ⟨fun hm => ?_, ?_⟩⟩
  · rw [c.place p hm]
    exact ha.symm
  · rw [h.value trivial hm.1 hm.2, c.none plain]
    rfl
  · rw [← c.none plain]
    exact h.reaches
  · rw [h.value trivial hm.1 hm.2, c.mark d w hp hn hd, memChanges_marking]
    rfl
  · rw [← c.mark d w hp hn hd]
    exact h.reaches

/-- The shadow that a load of SS by MOV or POP begins. -/
def State.shadowing (s : State) (r : SReg) : State := if r = .ss then { s with insn := { s.insn with inhibit := true } } else s

theorem shadowing_ofRegisters (r : SReg) : OfRegisters fun s => s.shadowing r := by
  unfold State.shadowing
  by_cases h : r = .ss
  · simp only [if_pos h]
    exact ⟨fun _ _ _ _ _ _ _ _ => rfl, fun _ => ⟨rfl, rfl, rfl, rfl, rfl, rfl, rfl⟩⟩
  · simp only [if_neg h]
    exact ⟨fun _ _ _ _ _ _ _ _ => rfl, fun _ => ⟨rfl, rfl, rfl, rfl, rfl, rfl, rfl⟩⟩

theorem shadowIfSs_run (r : SReg) (s : State) : shadowIfSs r s = .ok () (s.shadowing r) := by
  unfold shadowIfSs State.shadowing
  split <;> rfl

variable {g : Gprs} {F : State → State} {m : M Unit}

/-- An instruction that reads, loads a segment register and then makes the change `F` of registers. -/
theorem run_loads_seg (fresh : s.Fresh) (read : Upto (s.setGpr g) t []) (h : loadSeg r v t = .ok () u) (hF : OfRegisters F)
    (again : ∀ x, (F x).insn.again = x.insn.again) (keep : ∀ x, (F x).insn.keepRf = x.insn.keepRf)
    (hm : m s = .ok () (F u)) : ∃ y t', u.seg = s.seg.put r y ∧ run m s = .next t' ∧ OthersKept s v t' ∧ LoadMarks s v t t' ∧
      let X := F ((s.setGpr g).putSeg r y)
      Agree { X with eflags := clearRf X.eflags
                     latch := { X.latch with inhibitNext := X.insn.inhibit, stiShadow := X.insn.stiShadow } } t' := by
  obtain ⟨y, k, trail, changes⟩ := loadSeg_trail read fresh.stores h
  have same : SameMemory s (F ((s.setGpr g).putSeg r y)) := by
    obtain ⟨mem, cache, tlb, cr0, cr3, pins, stores⟩ := hF.same ((s.setGpr g).putSeg r y)
    exact ⟨mem, cache, tlb, cr0, cr3, pins, stores⟩
  have here : LoadChanges s v t k := ⟨changes.none, changes.mark, changes.place⟩
  obtain ⟨others, marks⟩ := ((trail.change hF).changed same s).loaded here
  refine ⟨y, finish s (F u), ?_, run_of_ok hm, others, marks, agree_of_told ?_ ?_ (hF.eqn trail.eqn)⟩
  · rw [trail.eqn]
    rfl
  · exact (again _).trans fresh.again
  · exact (keep _).trans fresh.keepRf

/-- The shadow alone, of what the end of an instruction is told. -/
theorem told_shadowing (r : SReg) (x : State) :
    (x.shadowing r).insn = { x.insn with inhibit := decide (r = .ss) || x.insn.inhibit } ∧ x.shadowing r = { x with insn := (x.shadowing r).insn } := by
  unfold State.shadowing
  by_cases h : r = .ss <;> simp [h]

/-- MOV and POP: the load, then the shadow of a load of SS. -/
theorem run_loads_seg_shadowing (fresh : s.Fresh) (read : Upto (s.setGpr g) t []) (h : loadSeg r v t = .ok () u)
    (hm : m s = (loadSeg r v >>= fun _ => shadowIfSs r) t) :
    ∃ t', run m s = .next t' ∧ OthersKept s v t' ∧ LoadMarks s v t t' ∧
      Agree { s.retired with gpr := g, seg := u.seg, latch := { s.retired.latch with inhibitNext := decide (r = .ss) } } t' := by
  have insn (x : State) : (x.shadowing r).insn = { x.insn with inhibit := decide (r = .ss) || x.insn.inhibit } := (told_shadowing r x).1
  obtain ⟨y, t', seg, e, others, marks, agree⟩ := run_loads_seg fresh read h (shadowing_ofRegisters r)
    (fun x => by rw [insn]) (fun x => by rw [insn]) (hm.trans ((bind_of_ok h).trans (shadowIfSs_run r u)))
  refine ⟨t', e, others, marks, agree.congr ?_⟩
  dsimp only
  rw [(told_shadowing r _).2, insn, seg]
  refine ⟨rfl, rfl, rfl, rfl, rfl, rfl, rfl, rfl, rfl, rfl, rfl, rfl, rfl, rfl, rfl, rfl, ?_, rfl, rfl⟩
  rw [retired_latch fresh]
  show _ = { s.latch with inhibitNext := decide (r = SReg.ss) || s.insn.inhibit, stiShadow := s.insn.stiShadow }
  rw [fresh.inhibit, Bool.or_false]

theorem popSeg_completes {os : Size} {n : Nat} (fresh : s.Fresh) (hr : r ≠ .cs) (hn : stackRead 0 os.bytes s = .ok n t)
    (h : loadSeg r (BitVec.ofNat 16 n) (t.moveSp (BitVec.ofNat 32 os.bytes)) = .ok () u) :
    ∃ t', exec (.popSeg os r) s = .next t' ∧ OthersKept s (BitVec.ofNat 16 n) t' ∧ LoadMarks s (BitVec.ofNat 16 n) t t' ∧
      Agree { s.retired with gpr := s.espPlus (BitVec.ofNat 32 os.bytes), seg := u.seg
                             latch := { s.retired.latch with inhibitNext := decide (r = .ss) } } t' := by
  have raised := ((Upto.refl s).reads (stackRead_reads _ _) hn).moveSp (BitVec.ofNat 32 os.bytes)
  obtain ⟨t', e, others, ⟨plain, marked⟩, agree⟩ := run_loads_seg_shadowing (m := popSegOp os r) fresh raised h
    ((check_then (by simp [hr])).trans (bind_of_ok (pop_run hn)))
  exact ⟨t', e, others, ⟨plain, fun d w hp hnull hd => marked d _ hp hnull (readDesc_ignoresGpr _ _ _ hd _)⟩, agree⟩

/-- The far pointer loads run `loadFar`. -/
theorem exec_farLoader {p : (Size → Reg → Mem → Instr) × SReg} (hp : p ∈ farLoaders) (os : Size) (d : Reg) (x : Mem) (s : State) :
    exec (p.1 os d x) s = run (loadFar p.2 os d x) s := by
  simp only [farLoaders, List.mem_cons, List.not_mem_nil, or_false] at hp
  rcases hp with rfl | rfl | rfl | rfl | rfl <;> rfl

theorem readFar_reads (os : Size) (x : Mem) : Reads (readFar os x) :=
  Reads.get.bind fun _ => (memRead_reads _ _ _ _ _).bind fun _ => (memRead_reads _ _ _ _ _).bind fun _ => .pure _

theorem setGpr_ofRegisters (g : Gprs) : OfRegisters fun s => s.setGpr g :=
  ⟨fun _ _ _ _ _ _ _ _ => rfl, fun _ => ⟨rfl, rfl, rfl, rfl, rfl, rfl, rfl⟩⟩

theorem loadFar_completes {os : Size} {d : Reg} {x : Mem} {f : Word32 × Word16} (fresh : s.Fresh) (hf : readFar os x s = .ok f t)
    (h : loadSeg r f.2 t = .ok () u) : ∃ t', run (loadFar r os d x) s = .next t' ∧ OthersKept s f.2 t' ∧ LoadMarks s f.2 t t' ∧
      Agree { s.retired with gpr := s.gpr.write os.width d (f.1.setWidth _), seg := u.seg } t' := by
  have read : Upto s t [] := (Upto.refl s).reads (readFar_reads os x) hf
  have gpr : u.gpr = s.gpr := by
    obtain ⟨y, k, trail, -⟩ := loadSeg_trail read fresh.stores h
    rw [trail.eqn]
    rfl
  have ends : loadFar r os d x s = .ok () (u.setGpr (s.gpr.write os.width d (f.1.setWidth _))) := by
    rw [← gpr]
    exact (bind_of_ok hf).trans (bind_of_ok h)
  obtain ⟨y, t', seg, e, others, marks, agree⟩ := run_loads_seg (g := s.gpr) fresh read h (setGpr_ofRegisters _) (fun _ => rfl)
    (fun _ => rfl) ends
  refine ⟨t', e, others, marks, agree.congr ?_⟩
  refine ⟨rfl, rfl, rfl, seg, rfl, rfl, rfl, rfl, rfl, rfl, rfl, rfl, rfl, rfl, rfl, rfl, ?_, rfl, rfl⟩
  exact retired_latch fresh

end

/-- Settles O17. -/
theorem segmentLoadsComplete : Obligations.SegmentLoadsComplete := by
  intro s fresh others marks
  refine ⟨fun r x v s1 s2 hr hv h => ?_, fun os r v s1 s2 hr hv h => popSeg_completes fresh hr hv h,
    fun p hp os d m f s1 s2 hf h => ?_⟩
  · exact run_loads_seg_shadowing (g := s.gpr) (m := movToSegOp r x) fresh ((Upto.refl s).reads (readRM_reads _ x) hv) h
      ((check_then (by simp [hr])).trans (bind_of_ok hv))
  · rw [exec_farLoader hp]
    exact loadFar_completes fresh hf h

end Sys2Proof.Machine
end

section
/-! SUPPORT. One iteration of a string instruction that is repeated, and how the instruction goes on from it
(spec/43_int_m_to_r.md R584, spec/71_io_control_pins.md R1089); O25. -/
namespace Sys2Proof.Machine
open Sys2Proof

/-- Where the instruction stands: what its end has been told, its first byte, and EIP. -/
def State.course (s : State) : (IntLatches × Bool × Bool × Bool × Bool) × Word32 × Word32 := (s.told, s.insn.start, s.eip)

section
variable {α β : Type}

/-- A computation that, where it completes, leaves the instruction where it stands. -/
def StaysPut (x : M α) : Prop := ∀ s a t, x s = .ok a t → t.course = s.course

theorem StaysPut.modify {f : State → State} (h : ∀ s, (f s).course = s.course) : StaysPut (modify f) := by
  intro s a t e
  cases e
  exact h s

theorem StaysPut.bind {x : M α} {f : α → M β} (hx : StaysPut x) (hf : ∀ a, StaysPut (f a)) : StaysPut (x >>= f) := by
  intro s b u h
  obtain ⟨a, t, first, second⟩ := bind_ok_iff.mp h
  exact (hf a t b u second).trans (hx s a t first)

/-- A computation that reads leaves the instruction where it stands. -/
theorem Reads.staysPut {x : M α} (h : Reads x) : StaysPut x := by
  intro s a t e
  rw [(h s a t e).eqn]
  rfl

theorem StaysPut.get : StaysPut (get : M State) := Reads.get.staysPut

end

section
variable {w : Width} {as z : Size} {r : SReg} {off : Word32} {n a v : Nat}

theorem memRead_staysPut : StaysPut (memRead z r off n a) := (memRead_reads _ _ _ _ _).staysPut

theorem memWrite_staysPut : StaysPut (memWrite z r off n a v) := by
  intro s b t h
  rw [(memWrite_holds h).eqn]
  rfl

theorem setStatus_staysPut {x : StatusUpd} : StaysPut (setStatus x) := by
  intro s b t h
  obtain ⟨d, k, e⟩ := setStatus_run x s
  cases e.symm.trans h
  rfl

theorem stepSrc_staysPut : StaysPut (stepSrc z n) := .modify fun _ => rfl

theorem stepDst_staysPut : StaysPut (stepDst z n) := .modify fun _ => rfl

theorem ioIn_staysPut {p : Word16} : StaysPut (ioIn p n) := by
  intro s b t h
  cases h
  rfl

theorem cmpsOp_staysPut : StaysPut (cmpsOp w as) := .bind .get fun _ => memRead_staysPut.bind fun _ => memRead_staysPut.bind fun _ =>
  stepSrc_staysPut.bind fun _ => stepDst_staysPut.bind fun _ => setStatus_staysPut

theorem insOp_staysPut : StaysPut (insOp w as) := .bind .get fun _ => (ioPermit_reads _ _).staysPut.bind fun _ =>
  (memProbe_reads _ _ _ _ _).staysPut.bind fun _ => ioIn_staysPut.bind fun _ => memWrite_staysPut.bind fun _ => stepDst_staysPut

theorem lodsOp_staysPut : StaysPut (lodsOp w as) := .bind .get fun _ => memRead_staysPut.bind fun _ =>
  .bind (.modify fun _ => rfl) fun _ => stepSrc_staysPut

theorem movsOp_staysPut : StaysPut (movsOp w as) := .bind .get fun _ => (segCheck_reads _ _ _ _ _).staysPut.bind fun _ =>
  (segCheck_reads _ _ _ _ _).staysPut.bind fun _ => memRead_staysPut.bind fun _ => memWrite_staysPut.bind fun _ =>
  stepSrc_staysPut.bind fun _ => stepDst_staysPut

theorem outsOp_staysPut : StaysPut (outsOp w as) := .bind .get fun _ => (ioPermit_reads _ _).staysPut.bind fun _ =>
  memRead_staysPut.bind fun _ => .bind (.modify fun _ => rfl) fun _ => stepSrc_staysPut

theorem scasOp_staysPut : StaysPut (scasOp w as) := .bind .get fun _ => memRead_staysPut.bind fun _ =>
  stepDst_staysPut.bind fun _ => setStatus_staysPut

theorem stosOp_staysPut : StaysPut (stosOp w as) := .bind .get fun _ => memWrite_staysPut.bind fun _ => stepDst_staysPut

/-- The string instructions run their iteration under `repeated`, and an iteration leaves the instruction where it stands. -/
theorem stringBody_exec {i : Instr} {cmp : Bool} {body : M Unit} (h : stringBody i = some (as, cmp, body)) :
    (∀ s, exec i s = run (repeated as cmp body) s) ∧ StaysPut body := by
  cases i <;> cases h
  case cmpsb | cmpsw => exact ⟨fun _ => rfl, cmpsOp_staysPut⟩
  case insb | insw => exact ⟨fun _ => rfl, insOp_staysPut⟩
  case lodsb | lodsw => exact ⟨fun _ => rfl, lodsOp_staysPut⟩
  case movsb | movsw => exact ⟨fun _ => rfl, movsOp_staysPut⟩
  case outsb | outsw => exact ⟨fun _ => rfl, outsOp_staysPut⟩
  case scasb | scasw => exact ⟨fun _ => rfl, scasOp_staysPut⟩
  case stosb | stosw => exact ⟨fun _ => rfl, stosOp_staysPut⟩

end

/-! The end of an iteration. -/

section
variable {s u t : State} {as : Size} {cmp : Bool} {body : M Unit} {p : Rep}

/-- A state with other general registers and another instruction latch. -/
def State.withGprInsn (s : State) (g : Gprs) (j : Insn) : State := { s with gpr := g, insn := j }

/-- A write looks at neither the general registers nor the instruction latch. -/
theorem writePhys_withGprInsn (s : State) (g : Gprs) (j : Insn) (a : Word32) (y : Byte) :
    (s.withGprInsn g j).writePhys a y = (s.writePhys a y).withGprInsn g j := by
  have set : (s.withGprInsn g j).cacheSetAt a = s.cacheSetAt a := rfl
  unfold State.writePhys
  dsimp only
  rw [set]
  split
  · rw [apply_ite (fun s : State => s.withGprInsn g j)]
    rfl
  · rfl

theorem commitList_withGprInsn (s : State) (g : Gprs) (j : Insn) :
    ∀ l, (s.withGprInsn g j).commitList l = (s.commitList l).withGprInsn g j
  | [] => rfl
  | (a, y) :: l => by
    simp only [State.commitList]
    rw [commitList_withGprInsn s g j l, writePhys_withGprInsn]

/-- The end of an instruction commits the same stores whatever the registers and the rest of the latch are. -/
theorem finish_withGprInsn_mem (g : Gprs) {j : Insn} (h : j.stores = u.insn.stores) :
    (finish s (u.withGprInsn g j)).mem = (finish s u).mem := by
  show ((u.withGprInsn g j).commitList j.stores).mem = (u.commitList u.insn.stores).mem
  rw [commitList_withGprInsn, h]
  rfl

/-- The state an iteration leaves once the count register is lowered. -/
def State.counted (u : State) (as : Size) : State := u.setGpr { u.gpr with ecx := as.merge u.gpr.ecx (u.gpr.ecx - 1#32) }

/-- The same, with another iteration to come. -/
def State.goingOn (u : State) (as : Size) : State := { u.counted as with insn := { u.insn with again := true } }

/-- Another iteration comes while the count is not 0 and ZF does not end it. -/
def State.more (u : State) (as : Size) (cmp : Bool) (p : Rep) : Prop :=
  as.trunc (as.merge u.gpr.ecx (u.gpr.ecx - 1#32)) ≠ 0#32 ∧ (cmp = true → (u.zf = true ↔ p = .repe))

theorem repeated_zero (rep : s.insn.rep = some p) (zero : as.trunc s.gpr.ecx = 0#32) : repeated as cmp body s = .ok () s := by
  unfold repeated
  rw [get_then, rep]
  dsimp only
  rw [if_pos zero]
  rfl

/-- The iteration is followed by another one, or not. -/
theorem again_unless {stop : Bool} (h : stop = false ↔ u.more as cmp p) (run : M Unit)
    (e : run = if stop = true then pure () else modify fun t => { t with insn := { t.insn with again := true } }) :
    (u.more as cmp p → run (u.counted as) = .ok () (u.goingOn as)) ∧
    (¬ u.more as cmp p → run (u.counted as) = .ok () (u.counted as)) := by
  subst e
  cases stop with
  | false => exact ⟨fun _ => rfl, fun n => absurd (h.mp rfl) n⟩
  | true => exact ⟨fun m => absurd (h.mpr m) (by decide), fun _ => rfl⟩

theorem repeated_iteration (rep : s.insn.rep = some p) (count : as.trunc s.gpr.ecx ≠ 0#32) (h : body s = .ok () u) :
    (u.more as cmp p → repeated as cmp body s = .ok () (u.goingOn as)) ∧
    (¬ u.more as cmp p → repeated as cmp body s = .ok () (u.counted as)) := by
  unfold repeated
  rw [get_then, rep]
  dsimp only
  rw [if_neg count, bind_of_ok h, countDown, modify_then, get_then]
  refine again_unless ?_ _ rfl
  cases p with
  | repe => simp [State.more, State.setGpr, State.zf]
  | repne => simp [State.more, State.setGpr, State.zf]

/-- After an iteration that is not the last EIP is back at the first byte; EFLAGS and the latches are as the iteration left them. -/
theorem finish_goingOn (again : t.insn.again = true) : Agree { t with eip := t.insn.start } (finish s t) := by
  have kept : Agree t t.commitStores := by
    rw [commitStores_eqn]
    exact ⟨rfl, rfl, rfl, rfl, rfl, rfl, rfl, rfl, rfl, rfl, rfl, rfl, rfl, rfl, rfl, rfl, rfl, rfl, rfl⟩
  exact { kept with
    eip := by simp [finish, State.restAt, again]
    eflags := by simp [finish, again]
    latch := by simp [finish, again] }

end

/-- Settles O25: the iteration leaves the instruction where it stands, and the end of it commits the iteration's stores. -/
theorem repeatsComplete : Obligations.RepeatsComplete := by
  intro i as cmp body s u p named fresh rep
  obtain ⟨runs, stays⟩ := stringBody_exec named
  rw [runs]
  refine ⟨fun zero => ?_, fun count h => ?_⟩
  · obtain ⟨t, e, stored, agree⟩ := run_upto (X := s) fresh (repeated_zero rep zero) (.refl s)
    exact ⟨t, e, agree, stored⟩
  obtain ⟨goes, ends⟩ := repeated_iteration (as := as) (cmp := cmp) rep count h
  have course := stays s () u h
  simp only [State.course, State.told, Prod.mk.injEq] at course
  obtain ⟨⟨latch, again, keep, inhibit, shadow⟩, start, eip⟩ := course
  intro left more
  by_cases hm : more
  · have agree : Agree { u.goingOn as with eip := u.insn.start } (finish s (u.goingOn as)) := finish_goingOn rfl
    refine ⟨_, run_of_ok (goes hm), finish_withGprInsn_mem (u := u) _ rfl, ?_, ?_⟩
    · rw [if_pos hm, agree.eip, start]
    · rw [if_pos hm, if_pos hm, ← latch]
      exact { agree with eip := rfl }
  · have agree := finish_eqn s (u.counted as) (again.trans fresh.again) (keep.trans fresh.keepRf)
    refine ⟨_, run_of_ok (ends hm), finish_withGprInsn_mem (u := u) _ rfl, ?_, ?_⟩
    · rw [if_neg hm, agree.eip, ← eip]
      rfl
    · rw [if_neg hm, if_neg hm]
      refine { agree with eip := rfl, latch := agree.latch.trans ?_ }
      show { u.latch with inhibitNext := u.insn.inhibit, stiShadow := u.insn.stiShadow } = s.retired.latch
      rw [latch, inhibit, shadow, retired_latch fresh]

end Sys2Proof.Machine
end

section
/-! SUPPORT. The shifts and rotates (spec/43_int_m_to_r.md R581 to R587, spec/44_int_s_to_x.md R601 to R610): how they complete, what
they move where, and the flags they leave; O3. -/
namespace Sys2Proof.Machine
open Sys2Proof

/-! How they complete. -/

section
variable {w : Width} {x : RM} {c : Count} {s s1 s2 : State} {op : ShiftOp}

/-- The shifts and rotates run `shiftForm`. -/
theorem exec_shifter {p : (Width → RM → Count → Instr) × ShiftOp} (hp : p ∈ shifters) :
    exec (p.1 w x c) s = run (shiftForm p.2 w x c) s := by
  simp only [shifters, List.mem_cons, List.not_mem_nil, or_false] at hp
  rcases hp with rfl | rfl | rfl | rfl | rfl | rfl | rfl | rfl <;> rfl

theorem readCount_run (c : Count) (s : State) : readCount c s = .ok (s.count c) s := by cases c <;> rfl

theorem shiftForm_run {a : BitVec w.bits} (h : updateRM w x s = .ok a s1)
    (k : writeRM w (op w.bits a s1.cf (s.count c)).1 x s1 = .ok () s2) :
    shiftForm op w x c s = setStatus (op w.bits a s1.cf (s.count c)).2 s2 := by
  unfold shiftForm
  rw [bind_of_ok (readCount_run c s), bind_of_ok h, get_then]
  exact bind_of_ok k

end

/-! What the rotates move where. -/

section
variable {n k i : Nat}

/-- The place `k` places on from a place of `n`. -/
theorem add_mod_eq_of_lt (h : i < n) (k : Nat) : (i + k) % n = if i + k % n < n then i + k % n else i + k % n - n := by
  have small : k % n < n := Nat.mod_lt _ (by omega)
  rw [← Nat.add_mod_mod]
  exact mod_of_lt_two_mul (by omega)

theorem getLsbD_rotateLeft_add_mod (a : BitVec n) (h : i < n) (k : Nat) :
    (a.rotateLeft (k % n)).getLsbD ((i + k) % n) = a.getLsbD i := by
  have small : k % n < n := Nat.mod_lt _ (by omega)
  rw [BitVec.getLsbD_rotateLeft, Nat.mod_mod, add_mod_eq_of_lt h]
  split
  · next inside => simp [inside]
  · next outside =>
    rw [decide_eq_true (by omega), cond_true]
    congr 1
    omega

theorem getLsbD_rotateRight_eq (a : BitVec n) (h : i < n) (k : Nat) :
    (a.rotateRight (k % n)).getLsbD i = a.getLsbD ((i + k) % n) := by
  have small : k % n < n := Nat.mod_lt _ (by omega)
  rw [BitVec.getLsbD_rotateRight, Nat.mod_mod, add_mod_eq_of_lt h]
  split
  · next inside =>
    rw [decide_eq_true (by omega), cond_true, Nat.add_comm]
  · next outside =>
    rw [decide_eq_false (by omega), cond_false, decide_eq_true h, Bool.true_and]
    congr 1
    omega

/-- The low bits and the top bit of a value of one bit more. -/
theorem getLsbD_setWidth_or_msb (v : BitVec (n + 1)) (h : i < n + 1) :
    (if i < n then (v.setWidth n).getLsbD i else v.msb) = v.getLsbD i := by
  split
  · next low => simp [low]
  · next top => rw [BitVec.msb_eq_getLsbD_last, show n + 1 - 1 = i by omega]

theorem getLsbD_cons_of_le (c : Bool) (a : BitVec n) (h : i ≤ n) :
    (BitVec.cons c a).getLsbD i = if i < n then a.getLsbD i else c := by
  rw [BitVec.getLsbD_cons]
  by_cases top : i = n
  · simp [top]
  · rw [if_neg top, if_pos (by omega)]

end

/-! The flags. -/

section
variable {n k : Nat} {a r : BitVec n} {c o : Bool} {cf : FlagUpd} {d : BitVec 6} {v : Word32}

/-- The flag of a count of 1, free after another count. -/
theorem overflowAfter_bit {u : StatusUpd} (h : u.of = if k = 1 then .set o else .undef) : overflowAfter k d o (u.apply d v) := by
  unfold overflowAfter
  rw [StatusUpd.getLsbD_apply, h]
  by_cases one : k = 1 <;> simp [one, FlagUpd.bit]

theorem shiftFlags_flags (cf : FlagUpd) (o : Bool) (r : BitVec n) {e : Option Bool}
    (h : ∀ old, cf.bit (d.getLsbD 0) old = e.getD (d.getLsbD 0)) :
    ShiftFlags (shiftFlags k cf o r) k d v e o := by
  refine ⟨signZeroParity_withSzp _ _ _ _, ?_, ?_, overflowAfter_bit rfl⟩
  · rw [StatusUpd.getLsbD_apply]
    exact h _
  · rw [StatusUpd.getLsbD_apply]
    rfl

theorem carry_rotateFlags : ((rotateFlags k c o r).2.apply d v).getLsbD 0 = c := by
  rw [StatusUpd.getLsbD_apply]
  rfl

theorem rotateFlags_flags : RotateFlags (rotateFlags k c o r) k d v o := by
  refine ⟨overflowAfter_bit rfl, fun i hi => ?_⟩
  simp only [List.mem_cons, List.not_mem_nil, or_false, not_or] at hi
  obtain ⟨h0, h11⟩ := hi
  rw [StatusUpd.getLsbD_apply, if_neg h11, if_neg h0]
  simp only [rotateFlags, FlagUpd.bit]
  split_ifs <;> simp only [*]

/-- A carry that is defined up to the width of the operand. -/
theorem carryUpTo_bit {p : Prop} [Decidable p] (b free old : Bool) :
    (if p then FlagUpd.set b else .undef).bit free old = (if p then some b else none).getD free := by
  split <;> rfl

end

/-! Value and flags of each, for a count that is not 0. -/

section
variable {n k : Nat} {d : BitVec 6} {v : Word32} (a : BitVec n) (c : Bool)

theorem shlOp_spec (h : 0 < k) : (shlOp a k).1.toNat = a.toNat * 2 ^ k % 2 ^ n ∧
    ShiftFlags (shlOp a k) k d v (if k ≤ n then some (a.getLsbD (n - k)) else none) ((shlOp a k).1.msb != a.getLsbD (n - k)) := by
  unfold shlOp
  rw [if_neg (by omega)]
  refine ⟨?_, shiftFlags_flags _ _ _ fun _ => carryUpTo_bit _ _ _⟩
  rw [← Nat.shiftLeft_eq]
  exact BitVec.toNat_shiftLeft

theorem shrOp_spec (h : 0 < k) : (shrOp a k).1.toNat = a.toNat / 2 ^ k ∧
    ShiftFlags (shrOp a k) k d v (if k ≤ n then some (a.getLsbD (k - 1)) else none) a.msb := by
  unfold shrOp
  rw [if_neg (by omega)]
  refine ⟨?_, shiftFlags_flags _ _ _ fun _ => carryUpTo_bit _ _ _⟩
  rw [← Nat.shiftRight_eq_div_pow]
  exact BitVec.toNat_ushiftRight a k

theorem sarOp_spec (hn : 0 < n) (h : 0 < k) : (sarOp a k).1.toInt = a.toInt / 2 ^ k ∧
    ShiftFlags (sarOp a k) k d v (some (if k ≤ n then a.getLsbD (k - 1) else a.msb)) false := by
  have out : (a.sshiftRight (k - 1)).getLsbD 0 = if k ≤ n then a.getLsbD (k - 1) else a.msb := by
    rw [BitVec.getLsbD_sshiftRight, decide_eq_false (by omega)]
    by_cases inside : k ≤ n
    · rw [if_pos (by omega), if_pos inside]
      rfl
    · rw [if_neg (by omega), if_neg inside]
      rfl
  unfold sarOp
  rw [if_neg (by omega)]
  refine ⟨?_, shiftFlags_flags _ _ _ fun _ => out⟩
  refine (BitVec.toInt_sshiftRight (x := a) (n := k)).trans ?_
  rw [Int.shiftRight_eq_div_pow]
  norm_cast

theorem rolOp_spec (h : 0 < k) : (∀ i < n, (rolOp a k).1.getLsbD ((i + k) % n) = a.getLsbD i) ∧
    ((rolOp a k).2.apply d v).getLsbD 0 = (rolOp a k).1.getLsbD 0 ∧
    RotateFlags (rolOp a k) k d v ((rolOp a k).1.msb != (rolOp a k).1.getLsbD 0) := by
  unfold rolOp
  rw [if_neg (by omega)]
  exact ⟨fun i hi => getLsbD_rotateLeft_add_mod a hi k, carry_rotateFlags, rotateFlags_flags⟩

theorem rorOp_spec (h : 0 < k) : (∀ i < n, (rorOp a k).1.getLsbD i = a.getLsbD ((i + k) % n)) ∧
    ((rorOp a k).2.apply d v).getLsbD 0 = (rorOp a k).1.msb ∧
    RotateFlags (rorOp a k) k d v ((rorOp a k).1.msb != (rorOp a k).1.getLsbD (n - 2)) := by
  unfold rorOp
  rw [if_neg (by omega)]
  exact ⟨fun i hi => getLsbD_rotateRight_eq a hi k, carry_rotateFlags, rotateFlags_flags⟩

theorem rclOp_spec (h : 0 < k) :
    (∀ i ≤ n, (if (i + k) % (n + 1) < n then (rclOp a c k).1.getLsbD ((i + k) % (n + 1))
      else ((rclOp a c k).2.apply d v).getLsbD 0) = if i < n then a.getLsbD i else c) ∧
    RotateFlags (rclOp a c k) k d v ((rclOp a c k).1.msb != ((rclOp a c k).2.apply d v).getLsbD 0) := by
  unfold rclOp
  rw [if_neg (by omega)]
  dsimp only
  rw [carry_rotateFlags]
  refine ⟨fun i hi => ?_, rotateFlags_flags⟩
  calc _ = ((BitVec.cons c a).rotateLeft (k % (n + 1))).getLsbD ((i + k) % (n + 1)) :=
        getLsbD_setWidth_or_msb _ (Nat.mod_lt _ (by omega))
    _ = (BitVec.cons c a).getLsbD i := getLsbD_rotateLeft_add_mod _ (by omega) k
    _ = _ := getLsbD_cons_of_le c a hi

theorem rcrOp_spec (h : 0 < k) :
    (∀ i ≤ n, (if i < n then (rcrOp a c k).1.getLsbD i else ((rcrOp a c k).2.apply d v).getLsbD 0) =
      if (i + k) % (n + 1) < n then a.getLsbD ((i + k) % (n + 1)) else c) ∧
    RotateFlags (rcrOp a c k) k d v ((rcrOp a c k).1.msb != (rcrOp a c k).1.getLsbD (n - 2)) := by
  unfold rcrOp
  rw [if_neg (by omega)]
  dsimp only
  rw [carry_rotateFlags]
  refine ⟨fun i hi => ?_, rotateFlags_flags⟩
  have place : (i + k) % (n + 1) < n + 1 := Nat.mod_lt _ (by omega)
  calc _ = ((BitVec.cons c a).rotateRight (k % (n + 1))).getLsbD i := getLsbD_setWidth_or_msb _ (by omega)
    _ = (BitVec.cons c a).getLsbD ((i + k) % (n + 1)) := getLsbD_rotateRight_eq _ (by omega) k
    _ = _ := getLsbD_cons_of_le c a (by omega)

/-- An update that names no flag changes none. -/
theorem apply_nothing (d : BitVec 6) (v : Word32) : StatusUpd.apply {} d v = v := rfl

end

/-- Settles O3: one form for all of them, then each operation by itself. -/
theorem shiftsComplete : Obligations.ShiftsComplete := by
  refine ⟨fun p hp w x c s a s1 s2 fresh hr hw => ?_, fun w a c d v => ⟨fun y hy => ?_, fun k pos _ => ?_⟩⟩
  · have read : Upto s s1 [] := (Upto.refl s).reads (updateRM_reads w x) hr
    rw [← read.cf] at hw ⊢
    rw [exec_shifter hp]
    exact run_sets_status fresh (read.writeRM hw) (shiftForm_run hr hw)
  · simp only [List.mem_cons, List.not_mem_nil, or_false] at hy
    rcases hy with rfl | rfl | rfl | rfl | rfl | rfl | rfl <;> exact ⟨rfl, apply_nothing d v⟩
  · exact ⟨shlOp_spec a pos, shrOp_spec a pos, sarOp_spec a w.bits_pos pos, rolOp_spec a pos, rorOp_spec a pos,
      rclOp_spec a c pos, rcrOp_spec a c pos⟩

end Sys2Proof.Machine
end

section
/-! SUPPORT. The end of an instruction that makes no access to memory and leaves the status flags undefined. -/
namespace Sys2Proof.Machine
open Sys2Proof

section
variable {s t u W : State} {m : M Unit}

/-- Memory as it was is memory after no store, whatever became of the cache and the TLB. -/
theorem stored_nothing (fresh : s.Fresh) (mem : t.mem = s.mem) : Stored s t [] :=
  ⟨fun _ _ a _ => by rw [mem], fun _ _ => mem,
    fun _ => ⟨[], s, .start, fresh.stores, mem, fun ok => by rw [mem]; exact Via.start.alike ok fresh.stores⟩⟩

/-- The status flags undefined, the free values being `d`, and RF clear. -/
def State.undefinedFlags (s : State) (d : BitVec 6) : Word32 := clearRf (StatusUpd.undefined.apply d s.eflags)

/-- How an instruction ends that leaves the state `W`, memory as in `s` and the status flags undefined: memory, the cache, the TLB and
the mark of the buffer are those of `W`. -/
structure EndsUndefined (s W : State) (d : BitVec 6) (t : State) : Prop where
  agree : Agree { W with eflags := s.undefinedFlags d, latch := s.retired.latch } t
  stored : Stored s t []
  mem : t.mem = s.mem
  cache : t.cache = W.cache
  tlb : t.tlb = W.tlb
  spoiled : t.bufferSpoiled = W.bufferSpoiled

/-- Nothing is committed where nothing is held back. -/
theorem commitStores_of_empty (h : u.insn.stores = []) : u.commitStores.mem = u.mem ∧ u.commitStores.cache = u.cache ∧
    u.commitStores.tlb = u.tlb ∧ u.commitStores.bufferSpoiled = u.bufferSpoiled := by
  unfold State.commitStores
  rw [h]
  exact ⟨rfl, rfl, rfl, rfl⟩

theorem run_then_undefined (fresh : s.Fresh) (hm : m s = setStatus .undefined W) (mem : W.mem = s.mem := by rfl)
    (insn : W.insn = s.insn := by rfl) (latch : W.latch = s.latch := by rfl) (eflags : W.eflags = s.eflags := by rfl) :
    ∃ t d, run m s = .next t ∧ EndsUndefined s W d t := by
  obtain ⟨d, n, e⟩ := setStatus_run .undefined W
  have ends := finish_eqn s { W with eflags := StatusUpd.undefined.apply d W.eflags, freeCtr := n }
    ((congrArg Insn.again insn).trans fresh.again) ((congrArg Insn.keepRf insn).trans fresh.keepRf)
  obtain ⟨kept, cache, tlb, spoiled⟩ :=
    commitStores_of_empty (u := { W with eflags := StatusUpd.undefined.apply d W.eflags, freeCtr := n })
      ((congrArg Insn.stores insn).trans fresh.stores)
  refine ⟨_, d, run_of_ok (hm.trans e), ?_, stored_nothing fresh (kept.trans mem), kept.trans mem, cache, tlb, spoiled⟩
  refine { ends with eflags := ends.eflags.trans ?_, latch := ends.latch.trans ?_ }
  · show clearRf (StatusUpd.undefined.apply d W.eflags) = s.undefinedFlags d
    rw [eflags]
    rfl
  · show { W.latch with inhibitNext := W.insn.inhibit, stiShadow := W.insn.stiShadow } = s.retired.latch
    rw [latch, insn, retired_latch fresh]

end

/-! Bits kept under a mask. -/

section
variable {x v mask : Word32} {l : List Nat}

/-- The bits of `v` a list names, and no other. -/
def KeepsBits (v x : Word32) (l : List Nat) : Prop := ∀ n, x.getLsbD n = (decide (n ∈ l) && v.getLsbD n)

theorem keepsBits_and (hm : ∀ n < 32, mask.getLsbD n = decide (n ∈ l)) : KeepsBits v (v &&& mask) l := by
  intro n
  rw [BitVec.getLsbD_and]
  by_cases h : n < 32
  · rw [hm n h, Bool.and_comm]
  · simp [BitVec.getLsbD_of_ge v n (by omega)]

theorem KeepsBits.eq_and (h : KeepsBits v x l) (hm : ∀ n < 32, mask.getLsbD n = decide (n ∈ l)) : x = v &&& mask :=
  BitVec.eq_of_getLsbD_eq fun n _ => (h n).trans (keepsBits_and hm n).symm

end

end Sys2Proof.Machine
end

section
/-! SUPPORT. MOV to and from the control and debug registers (spec/43_int_m_to_r.md R562, spec/10_state.md R31, R32, R35, R43); O36. -/
namespace Sys2Proof.Machine
open Sys2Proof

section
variable {s : State} {r : Reg}

theorem movFromCr_completes (fresh : s.Fresh) (h : s.privileged = true) (c : CReg) : ∃ t d,
    exec (.movFromCr r c) s = .next t ∧ EndsUndefined s (s.setGpr (s.gpr.put r (s.readCr c))) d t :=
  run_then_undefined (m := movFromCrOp r c) fresh (bind_of_ok (needCpl0_passes h))

/-- A MOV to a control register whose write succeeds. -/
theorem movToCr_completes {c : CReg} {W : State} (fresh : s.Fresh) (h : s.privileged = true) (hw : writeCr c (s.gpr.get r) s = .ok () W)
    (mem : W.mem = s.mem := by rfl) (insn : W.insn = s.insn := by rfl) (latch : W.latch = s.latch := by rfl)
    (eflags : W.eflags = s.eflags := by rfl) : ∃ t d, exec (.movToCr c r) s = .next t ∧ EndsUndefined s W d t :=
  run_then_undefined (m := movToCrOp c r) fresh ((bind_of_ok (needCpl0_passes h)).trans (bind_of_ok hw)) mem insn latch eflags

theorem cr0Legal_iff (v : Word32) : cr0Legal v = true ↔
    (v.getLsbD 31 = true → v.getLsbD 0 = true) ∧ (v.getLsbD 29 = true → v.getLsbD 30 = true) := by
  unfold cr0Legal
  cases v.getLsbD 31 <;> cases v.getLsbD 0 <;> cases v.getLsbD 30 <;> cases v.getLsbD 29 <;> decide

theorem cr0Value_eq (v : Word32) : cr0Value v = (v &&& 0xE005002F#32) ||| 0x10#32 := by
  have split : (0xE005003F#32 : Word32) = 0xE005002F#32 ||| 0x10#32 := by decide
  unfold cr0Value
  rw [split, BitVec.and_or_distrib_left, BitVec.or_assoc]
  congr 1
  apply BitVec.eq_of_getLsbD_eq
  intro i _
  simp only [BitVec.getLsbD_or, BitVec.getLsbD_and]
  cases v.getLsbD i <;> simp

theorem writeCr0_legal {v : Word32} (h : cr0Legal v = true) : writeCr .cr0 v s = .ok () (s.setCr0 (cr0Value v)) :=
  bind_of_ok (a := ()) (check_ok_iff.mpr ⟨h, rfl⟩)

theorem movToCr0_illegal (h : s.privileged = true) (illegal : cr0Legal (s.gpr.get r) = false) :
    exec (.movToCr .cr0 r) s = failure s (excGP 0#16) s := by
  have refused : writeCr .cr0 (s.gpr.get r) s = .error (excGP 0#16) s := by
    unfold writeCr
    refine bind_of_error ?_
    unfold check
    rw [illegal]
    rfl
  have ends : movToCrOp .cr0 r s = .error (excGP 0#16) s := by
    unfold movToCrOp
    rw [bind_of_ok (needCpl0_passes h), getReg_then]
    exact bind_of_error refused
  exact run_of_error ends

theorem needNoGd_passes (h : s.dr.dr7.getLsbD 13 = false) : needNoGd s = .ok () s := by
  unfold needNoGd
  rw [get_then, h]
  rfl

theorem movFromDr_completes (fresh : s.Fresh) (h : s.privileged = true) (gd : s.dr.dr7.getLsbD 13 = false) (x : DReg) : ∃ t d,
    exec (.movFromDr r x) s = .next t ∧ EndsUndefined s (s.setGpr (s.gpr.put r (s.dr.get x))) d t :=
  run_then_undefined (m := movFromDrOp r x) fresh ((bind_of_ok (needCpl0_passes h)).trans (bind_of_ok (needNoGd_passes gd)))

theorem movToDr_completes (fresh : s.Fresh) (h : s.privileged = true) (gd : s.dr.dr7.getLsbD 13 = false) (x : DReg) : ∃ t d,
    exec (.movToDr x r) s = .next t ∧ EndsUndefined s { s with dr := s.dr.put x (s.gpr.get r) } d t :=
  run_then_undefined (m := movToDrOp x r) fresh ((bind_of_ok (needCpl0_passes h)).trans (bind_of_ok (needNoGd_passes gd)))

end

end Sys2Proof.Machine
end

section
/-! SUPPORT. MOV to and from the test registers and their commands (spec/71_debug_and_test_registers.md R1100 to R1104); O36. -/
namespace Sys2Proof.Machine
open Sys2Proof

section
variable {s : State} {r : Reg} {v : Word32}

theorem readTr_tr3 (s : State) : readTr .tr3 s = (if s.test.tr5.extractLsb' 0 2 = 0#2 ∧ s.bufferSpoiled = false
    then pure (s.test.read.get (entrySelect s.test.tr5)) else draw 32 : M Word32) s := rfl

/-- What a read of a test register finds: the register, for TR3 the buffer where it is whole. -/
theorem readTr_run (x : TReg) (s : State) : ∃ u n, readTr x s = .ok u { s with freeCtr := n } ∧
    (x = .tr4 → u = s.test.tr4) ∧ (x = .tr5 → u = s.test.tr5) ∧ (x = .tr6 → u = s.test.tr6) ∧ (x = .tr7 → u = s.test.tr7) ∧
    (x = .tr3 → s.test.tr5.extractLsb' 0 2 = 0#2 → s.bufferSpoiled = false →
      u = s.test.read.get (s.test.tr5.extractLsb' 2 2)) := by
  cases x with
  | tr3 =>
    rw [readTr_tr3]
    split
    · exact ⟨_, s.freeCtr, rfl, nofun, nofun, nofun, nofun, fun _ _ _ => rfl⟩
    · next free => exact ⟨_, _, rfl, nofun, nofun, nofun, nofun, fun _ control whole => absurd ⟨control, whole⟩ free⟩
  | tr4 => exact ⟨_, s.freeCtr, rfl, fun _ => rfl, nofun, nofun, nofun, nofun⟩
  | tr5 => exact ⟨_, s.freeCtr, rfl, nofun, fun _ => rfl, nofun, nofun, nofun⟩
  | tr6 => exact ⟨_, s.freeCtr, rfl, nofun, nofun, fun _ => rfl, nofun, nofun⟩
  | tr7 => exact ⟨_, s.freeCtr, rfl, nofun, nofun, nofun, fun _ => rfl, nofun⟩

theorem movFromTr_completes {x : TReg} {u : Word32} {n : Nat} (fresh : s.Fresh) (h : s.privileged = true)
    (hr : readTr x s = .ok u { s with freeCtr := n }) : ∃ t d, exec (.movFromTr r x) s = .next t ∧
      EndsUndefined s (({ s with freeCtr := n } : State).setGpr (s.gpr.put r u)) d t :=
  run_then_undefined (m := movFromTrOp r x) fresh ((bind_of_ok (needCpl0_passes h)).trans (bind_of_ok hr))

/-- What a write to a test register may change: the test registers, the cache, the TLB, the mark of the buffer and the draw counter. -/
structure TestOnly (s W : State) : Prop where
  eqn : W = { s with test := W.test, cache := W.cache, tlb := W.tlb, bufferSpoiled := W.bufferSpoiled, freeCtr := W.freeCtr }

theorem movToTr_completes {x : TReg} {W : State} (fresh : s.Fresh) (h : s.privileged = true)
    (hw : writeTr x (s.gpr.get r) s = .ok () W) (only : TestOnly s W) : ∃ t d, exec (.movToTr x r) s = .next t ∧ Stored s t [] ∧
      Agree { s.retired with test := W.test, eflags := s.undefinedFlags d } t ∧
      t.cache = W.cache ∧ t.tlb = W.tlb ∧ t.bufferSpoiled = W.bufferSpoiled := by
  have e := only.eqn
  obtain ⟨t, d, ends, after⟩ := run_then_undefined (m := movToTrOp x r) fresh
    ((bind_of_ok (needCpl0_passes h)).trans (bind_of_ok hw)) (by rw [e]) (by rw [e]) (by rw [e]) (by rw [e])
  refine ⟨t, d, ends, after.stored, ?_, after.cache, after.tlb, after.spoiled⟩
  have agree := after.agree
  rw [e] at agree
  exact { agree with test := agree.test }

/-! The cache. -/

/-- The set of the cache of an index. -/
def State.cacheSetNo (s : State) (i : Nat) : CacheSet := sparseGet .blank s.cache i

theorem control_cases (v : Word32) : v.extractLsb' 0 2 = 0#2 ∨ v.extractLsb' 0 2 = 1#2 ∨ v.extractLsb' 0 2 = 2#2 ∨
    v.extractLsb' 0 2 = 3#2 := by
  generalize v.extractLsb' 0 2 = c
  revert c
  decide

theorem writeTr5_fill (h : v.extractLsb' 0 2 = 0#2) : s.writeTr5 v = s.setTest { s.test with tr5 := v } := by
  unfold State.writeTr5
  rw [h]
  rfl

theorem writeTr5_write (h : v.extractLsb' 0 2 = 1#2) : s.writeTr5 v = (s.setTest { s.test with tr5 := v }).cacheTestWrite v := by
  unfold State.writeTr5
  rw [h]
  rfl

theorem writeTr5_read (h : v.extractLsb' 0 2 = 2#2) : s.writeTr5 v = (s.setTest { s.test with tr5 := v }).cacheTestRead v := by
  unfold State.writeTr5
  rw [h]
  rfl

theorem writeTr5_flush (h : v.extractLsb' 0 2 = 3#2) : s.writeTr5 v = (s.setTest { s.test with tr5 := v }).flushCache := by
  unfold State.writeTr5
  rw [h]
  rfl

theorem testOnly_writeTr5 (s : State) (v : Word32) : TestOnly s (s.writeTr5 v) := by
  rcases control_cases v with h | h | h | h
  · rw [writeTr5_fill h]; exact ⟨rfl⟩
  · rw [writeTr5_write h]; exact ⟨rfl⟩
  · rw [writeTr5_read h]; exact ⟨rfl⟩
  · rw [writeTr5_flush h]; exact ⟨rfl⟩

theorem bufferSpoiled_writeTr5 (s : State) (v : Word32) :
    (s.writeTr5 v).bufferSpoiled = if v.extractLsb' 0 2 = 2#2 then false else s.bufferSpoiled := by
  rcases control_cases v with h | h | h | h <;> rw [h]
  · rw [writeTr5_fill h]; rfl
  · rw [writeTr5_write h]; rfl
  · rw [writeTr5_read h]; rfl
  · rw [writeTr5_flush h]; rfl

theorem tlb_writeTr5 (s : State) (v : Word32) : (s.writeTr5 v).tlb = s.tlb := by
  rcases control_cases v with h | h | h | h
  · rw [writeTr5_fill h]; rfl
  · rw [writeTr5_write h]; rfl
  · rw [writeTr5_read h]; rfl
  · rw [writeTr5_flush h]; rfl

/-- What a sparse array gives after each of its elements is changed by a function that keeps the default. -/
theorem sparseGet_map {α : Type} {d : α} {f : α → α} (h : f d = d) (i : Nat) :
    ∀ l : List (Nat × α), sparseGet d (l.map fun p => (p.1, f p.2)) i = f (sparseGet d l i)
  | [] => h.symm
  | (k, y) :: l => by
    have ih := sparseGet_map h i l
    simp only [List.map_cons, sparseGet]
    split
    · rfl
    split
    · exact h.symm
    · exact ih

theorem cacheSetNo_flushCache (s : State) (i : Nat) : s.flushCache.cacheSetNo i = (s.cacheSetNo i).flushed :=
  sparseGet_map rfl i s.cache

theorem CacheSet.get_flushed (c : CacheSet) (w : Way) : c.flushed.get w = { c.get w with valid := false } := by cases w <;> rfl

theorem Lru.getLsbD_bits (l : Lru) (i : Nat) :
    l.bits.getLsbD i = if i = 0 then l.b0 else if i = 1 then l.b1 else if i = 2 then l.b2 else false := by
  unfold Lru.bits
  grind [BitVec.getLsbD_ofBool]

/-- TR4 shows the line read, field by field. -/
theorem CacheSet.status_fields (c : CacheSet) (w : Way) : let q := c.status w
    q.extractLsb' 11 21 = (c.get w).tag ∧ q.getLsbD 10 = (c.get w).valid ∧ q.getLsbD 9 = c.lru.b2 ∧ q.getLsbD 8 = c.lru.b1 ∧
    q.getLsbD 7 = c.lru.b0 ∧ q.getLsbD 6 = c.i3.valid ∧ q.getLsbD 5 = c.i2.valid ∧ q.getLsbD 4 = c.i1.valid ∧
    q.getLsbD 3 = c.i0.valid ∧ q.extractLsb' 0 3 = 0#3 := by
  intro q
  have bit : ∀ i, q.getLsbD i = (c.status w).getLsbD i := fun _ => rfl
  unfold CacheSet.status at bit
  simp only [BitVec.getLsbD_append, BitVec.getLsbD_ofBool, Lru.getLsbD_bits] at bit
  refine ⟨?_, ?_, ?_, ?_, ?_, ?_, ?_, ?_, ?_, ?_⟩
  · apply BitVec.eq_of_getLsbD_eq
    intro i hi
    rw [BitVec.getLsbD_extractLsb', bit, decide_eq_true hi, Bool.true_and]
    simp (disch := omega) only [if_neg]
    congr 1
    omega
  case refine_10 =>
    apply BitVec.eq_of_getLsbD_eq
    intro i hi
    rw [BitVec.getLsbD_extractLsb', bit, decide_eq_true hi, Bool.true_and, Nat.zero_add, if_pos hi]
  all_goals exact bit _

/-! The TLB. -/

/-- A pair of protection bits matches as TR6 says. -/
theorem pairMatch_eq (b nb y : Bool) : pairMatch b nb y = (b == nb && b || b != nb && y == b) := by
  cases b <;> cases nb <;> cases y <;> rfl

theorem pairValue_of_ne {b nb free : Bool} (h : b ≠ nb) : pairValue b nb free = b := by
  unfold pairValue
  rw [if_neg (by simpa using h)]

/-- TR7 shows the entry found, field by field. -/
theorem TlbSet.status_fields (c : TlbSet) (w : Way) : let q := c.status w
    q.extractLsb' 12 20 = (c.get w).page ∧ q.getLsbD 11 = (c.get w).pcd ∧ q.getLsbD 10 = (c.get w).pwt ∧ q.getLsbD 9 = c.lru.b2 ∧
    q.getLsbD 8 = c.lru.b1 ∧ q.getLsbD 7 = c.lru.b0 ∧ q.getLsbD 4 = true ∧ q.extractLsb' 2 2 = w.toBits := by
  intro q
  have bit : ∀ i, q.getLsbD i = (c.status w).getLsbD i := fun _ => rfl
  unfold TlbSet.status at bit
  simp only [BitVec.getLsbD_append, BitVec.getLsbD_ofBool, Lru.getLsbD_bits] at bit
  refine ⟨?_, ?_, ?_, ?_, ?_, ?_, ?_, ?_⟩
  · apply BitVec.eq_of_getLsbD_eq
    intro i hi
    rw [BitVec.getLsbD_extractLsb', bit, decide_eq_true hi, Bool.true_and]
    simp (disch := omega) only [if_neg]
    congr 1
    omega
  case refine_8 =>
    apply BitVec.eq_of_getLsbD_eq
    intro i hi
    rw [BitVec.getLsbD_extractLsb', bit, decide_eq_true hi, Bool.true_and, if_neg (by omega), if_pos (by omega),
      Nat.add_sub_cancel_left]
  all_goals exact bit _

end

end Sys2Proof.Machine
end

section
/-! SUPPORT. The commands of TR5 and TR6 as they leave the cache and the TLB; O36. -/
namespace Sys2Proof.Machine
open Sys2Proof

section
variable {s : State} {r : Reg} {v : Word32}

/-! The cache. -/

theorem cacheSetNo_putCacheSet (s : State) (i j : Nat) (c : CacheSet) :
    (s.putCacheSet i c).cacheSetNo j = if i = j then c else s.cacheSetNo j := sparseGet_sparseSet _ _ _ _ _

/-- The line a cache test write makes of TR4 and the fill buffer. -/
def State.filledLine (s : State) : CacheLine :=
  { valid := s.test.tr4.getLsbD 10, tag := s.test.tr4.extractLsb' 11 21, data := s.test.fill.line }

theorem cacheSetNo_writeTr5_write (h : v.extractLsb' 0 2 = 1#2) (j : Nat) : (s.writeTr5 v).cacheSetNo j =
    let i := setSelect v
    let w := Way.ofBits (entrySelect v)
    if i = j then { (s.cacheSetNo i).put w s.filledLine with lru := (s.cacheSetNo i).lru.touch w } else s.cacheSetNo j := by
  rw [writeTr5_write h]
  exact cacheSetNo_putCacheSet _ _ _ _

theorem cacheSetNo_writeTr5_flush (h : v.extractLsb' 0 2 = 3#2) (j : Nat) :
    (s.writeTr5 v).cacheSetNo j = (s.cacheSetNo j).flushed := by
  rw [writeTr5_flush h]
  exact cacheSetNo_flushCache _ j

/-- The test registers after a cache test read. -/
theorem test_writeTr5_read (h : v.extractLsb' 0 2 = 2#2) : (s.writeTr5 v).test =
    let c := s.cacheSetNo (setSelect v)
    let w := Way.ofBits (entrySelect v)
    { s.test with tr5 := v, read := LineBuf.ofLine (c.get w).data, tr4 := c.status w } := by
  rw [writeTr5_read h]
  rfl

/-- The test registers after the commands of TR5 that read nothing. -/
theorem test_writeTr5 (h : v.extractLsb' 0 2 ≠ 2#2) : (s.writeTr5 v).test = { s.test with tr5 := v } := by
  rcases control_cases v with k | k | k | k
  · rw [writeTr5_fill k]; rfl
  · rw [writeTr5_write k]; rfl
  · exact absurd k h
  · rw [writeTr5_flush k]; rfl

theorem cache_writeTr5_fill (h : v.extractLsb' 0 2 = 0#2) : (s.writeTr5 v).cache = s.cache := by
  rw [writeTr5_fill h]
  rfl

theorem cache_writeTr5_read (h : v.extractLsb' 0 2 = 2#2) : (s.writeTr5 v).cache = s.cache := by
  rw [writeTr5_read h]
  rfl

theorem movToTr5_completes (fresh : s.Fresh) (h : s.privileged = true) : ∃ t d, exec (.movToTr .tr5 r) s = .next t ∧ Stored s t [] ∧
    Agree { s.retired with test := (s.writeTr5 (s.gpr.get r)).test, eflags := s.undefinedFlags d } t ∧
    t.cache = (s.writeTr5 (s.gpr.get r)).cache ∧ t.tlb = s.tlb ∧
    t.bufferSpoiled = if (s.gpr.get r).extractLsb' 0 2 = 2#2 then false else s.bufferSpoiled := by
  rw [← bufferSpoiled_writeTr5, ← tlb_writeTr5 s (s.gpr.get r)]
  exact movToTr_completes fresh h rfl (testOnly_writeTr5 s _)

/-! The TLB. -/

theorem tlbSetAt_putTlbSet_eq (s : State) (i j : Nat) (c : TlbSet) :
    (s.putTlbSet i c).tlbSetAt j = if i = j then c else s.tlbSetAt j := sparseGet_sparseSet _ _ _ _ _

/-- The entry a TLB test write makes of TR6, TR7 and the values of the undefined pairs. -/
def tlbTestEntry (v tr7 : Word32) (u : BitVec 3) : TlbEntry :=
  { valid := v.getLsbD 11, tag := tlbTag v
    dirty := pairValue (v.getLsbD 10) (v.getLsbD 9) (u.getLsbD 2)
    user := pairValue (v.getLsbD 8) (v.getLsbD 7) (u.getLsbD 1)
    writable := pairValue (v.getLsbD 6) (v.getLsbD 5) (u.getLsbD 0)
    page := tr7.extractLsb' 12 20, pcd := tr7.getLsbD 11, pwt := tr7.getLsbD 10 }

/-- The way a TLB test write takes. -/
def State.tlbTestWay (s : State) (v : Word32) : Way :=
  if s.test.tr7.getLsbD 4 then Way.ofBits (s.test.tr7.extractLsb' 2 2) else (s.tlbSetAt (tlbIndex v)).victim

/-- TR6 written, before its command. -/
def State.tr6Written (s : State) (v : Word32) : State := s.setTest { s.test with tr6 := v &&& 0xFFFFFFE1#32 }

theorem writeTr6_write (h : v.getLsbD 0 = false) : ∃ u n, writeTr6 v s = .ok ()
    (({ s.tr6Written v with freeCtr := n } : State).putTlbSet (tlbIndex v)
      { (s.tlbSetAt (tlbIndex v)).put (s.tlbTestWay v) (tlbTestEntry v s.test.tr7 u) with
        lru := (s.tlbSetAt (tlbIndex v)).lru.touch (s.tlbTestWay v) }) := by
  refine ⟨Config.freeBits 3 s.freeCtr, s.freeCtr + 1, ?_⟩
  unfold writeTr6
  rw [modify_then, h]
  rfl

/-- Does an entry answer the lookup TR6 asks for? -/
def tlbAnswers (v : Word32) (e : TlbEntry) : Bool := e.valid && e.tag == tlbTag v && pairMatch (v.getLsbD 10) (v.getLsbD 9) e.dirty
  && pairMatch (v.getLsbD 8) (v.getLsbD 7) e.user && pairMatch (v.getLsbD 6) (v.getLsbD 5) e.writable

theorem tlbTestLookup_hit {w : Way} (h : (s.tlbSetAt (tlbIndex v)).matching (tlbAnswers v) = [w]) : tlbTestLookup v s = .ok ()
    ((s.putTlbSet (tlbIndex v) { s.tlbSetAt (tlbIndex v) with lru := (s.tlbSetAt (tlbIndex v)).lru.touch w }).setTest
      { s.test with tr7 := (s.tlbSetAt (tlbIndex v)).status w }) := by
  unfold tlbAnswers at h
  unfold tlbTestLookup
  rw [get_then]
  dsimp only
  rw [h]
  rfl

theorem tlbTestLookup_miss (h : ∀ w, (s.tlbSetAt (tlbIndex v)).matching (tlbAnswers v) ≠ [w]) : ∃ u n, tlbTestLookup v s = .ok ()
    (({ s with freeCtr := n } : State).setTest { s.test with tr7 := u &&& 0xFFFFFF8C#32 }) := by
  refine ⟨Config.freeBits 32 s.freeCtr, s.freeCtr + 1, ?_⟩
  unfold tlbAnswers at h
  unfold tlbTestLookup
  rw [get_then]
  dsimp only
  revert h
  generalize (s.tlbSetAt (tlbIndex v)).matching _ = ways
  intro h
  match ways with
  | [] => rfl
  | [w] => exact absurd rfl (h w)
  | _ :: _ :: _ => rfl

theorem writeTr6_lookup (h : v.getLsbD 0 = true) : writeTr6 v s = tlbTestLookup v (s.tr6Written v) := by
  unfold writeTr6
  rw [modify_then, h]
  rfl

theorem movToTr6_writes (fresh : s.Fresh) (h : s.privileged = true) (write : (s.gpr.get r).getLsbD 0 = false) : let v := s.gpr.get r
    ∃ t d u, exec (.movToTr .tr6 r) s = .next t ∧ Stored s t [] ∧
      Agree { s.retired with test := (s.tr6Written v).test, eflags := s.undefinedFlags d } t ∧
      t.cache = s.cache ∧ t.bufferSpoiled = s.bufferSpoiled ∧ ∀ j, t.tlbSetAt j = if tlbIndex v = j
        then { (s.tlbSetAt (tlbIndex v)).put (s.tlbTestWay v) (tlbTestEntry v s.test.tr7 u) with
          lru := (s.tlbSetAt (tlbIndex v)).lru.touch (s.tlbTestWay v) }
        else s.tlbSetAt j := by
  intro v
  obtain ⟨u, n, e⟩ := writeTr6_write (s := s) write
  obtain ⟨t, d, ends, stored, agree, cache, tlb, spoiled⟩ := movToTr_completes (x := .tr6) fresh h e ⟨rfl⟩
  refine ⟨t, d, u, ends, stored, agree, cache, spoiled, fun j => ?_⟩
  unfold State.tlbSetAt at *
  rw [tlb]
  exact tlbSetAt_putTlbSet_eq _ _ _ _

theorem movToTr6_finds {w : Way} (fresh : s.Fresh) (h : s.privileged = true) (lookup : (s.gpr.get r).getLsbD 0 = true)
    (found : (s.tlbSetAt (tlbIndex (s.gpr.get r))).matching (tlbAnswers (s.gpr.get r)) = [w]) : let v := s.gpr.get r
    ∃ t d, exec (.movToTr .tr6 r) s = .next t ∧ Stored s t [] ∧
      Agree { s.retired with test := { (s.tr6Written v).test with tr7 := (s.tlbSetAt (tlbIndex v)).status w }
                             eflags := s.undefinedFlags d } t ∧
      t.cache = s.cache ∧ t.bufferSpoiled = s.bufferSpoiled ∧ ∀ j, t.tlbSetAt j = if tlbIndex v = j
        then { s.tlbSetAt (tlbIndex v) with lru := (s.tlbSetAt (tlbIndex v)).lru.touch w } else s.tlbSetAt j := by
  intro v
  have e := (writeTr6_lookup (s := s) lookup).trans (tlbTestLookup_hit (s := s.tr6Written v) found)
  obtain ⟨t, d, ends, stored, agree, cache, tlb, spoiled⟩ := movToTr_completes (x := .tr6) fresh h e ⟨rfl⟩
  refine ⟨t, d, ends, stored, agree, cache, spoiled, fun j => ?_⟩
  unfold State.tlbSetAt at *
  rw [tlb]
  exact tlbSetAt_putTlbSet_eq _ _ _ _

theorem movToTr6_misses (fresh : s.Fresh) (h : s.privileged = true) (lookup : (s.gpr.get r).getLsbD 0 = true)
    (missed : ∀ w, (s.tlbSetAt (tlbIndex (s.gpr.get r))).matching (tlbAnswers (s.gpr.get r)) ≠ [w]) :
    ∃ t d u, exec (.movToTr .tr6 r) s = .next t ∧ Stored s t [] ∧
      Agree { s.retired with test := { (s.tr6Written (s.gpr.get r)).test with tr7 := u &&& 0xFFFFFF8C#32 }
                             eflags := s.undefinedFlags d } t ∧
      t.cache = s.cache ∧ t.bufferSpoiled = s.bufferSpoiled ∧ t.tlb = s.tlb := by
  obtain ⟨u, n, e⟩ := tlbTestLookup_miss (s := s.tr6Written (s.gpr.get r)) missed
  obtain ⟨t, d, ends, stored, agree, cache, tlb, spoiled⟩ :=
    movToTr_completes (x := .tr6) fresh h ((writeTr6_lookup lookup).trans e) ⟨rfl⟩
  exact ⟨t, d, u, ends, stored, agree, cache, spoiled, tlb⟩

end

end Sys2Proof.Machine
end

section
/-! SUPPORT. The moves to the test registers and the statement of O36, assembled. -/
namespace Sys2Proof.Machine
open Sys2Proof

section
variable {s : State} {r : Reg}

/-- The ways that answer a lookup, as TR6 describes them. -/
theorem matching_tlbAnswers (c : TlbSet) (v : Word32) : c.matching (tlbAnswers v) = [Way.w0, .w1, .w2, .w3].filter fun w =>
    (c.get w).valid && (c.get w).tag == v.extractLsb' 15 17 &&
      (v.getLsbD 10 == v.getLsbD 9 && v.getLsbD 10 || v.getLsbD 10 != v.getLsbD 9 && (c.get w).dirty == v.getLsbD 10) &&
      (v.getLsbD 8 == v.getLsbD 7 && v.getLsbD 8 || v.getLsbD 8 != v.getLsbD 7 && (c.get w).user == v.getLsbD 8) &&
      (v.getLsbD 6 == v.getLsbD 5 && v.getLsbD 6 || v.getLsbD 6 != v.getLsbD 5 && (c.get w).writable == v.getLsbD 6) := by
  unfold TlbSet.matching tlbAnswers
  simp only [pairMatch_eq]
  rfl

/-- A write to DR6 or DR7 keeps the bits it has. -/
theorem debugRegs_put {d : DebugRegs} {v six seven : Word32} (h6 : KeepsBits v six [0, 1, 2, 3, 13, 14, 15])
    (h7 : KeepsBits v seven ((List.range 32).filter fun n => decide (n ∉ [10, 11, 12, 14, 15]))) :
    d.put .dr6 v = { d with dr6 := six } ∧ d.put .dr7 v = { d with dr7 := seven } := by
  rw [h6.eq_and (mask := 0x0000E00F#32) (by decide), h7.eq_and (mask := 0xFFFF23FF#32) (by decide)]
  exact ⟨rfl, rfl⟩

end

/-- Settles O36: the control and debug registers, then the test registers one by one. -/
theorem specialMovesComplete : Obligations.SpecialMovesComplete := by
  intro s r fresh h fl v keeps legal
  refine ⟨fun p hp => ?_, fun hl => ?_, fun hl => ?_, ?_, ?_, fun gd six seven h6 h7 p hp => ?_, fun x => ?_, fun x => ?_⟩
  · -- from a control register
    obtain ⟨t, d, e, ends⟩ := movFromCr_completes (r := r) fresh h p.1
    simp only [List.mem_cons, List.not_mem_nil, or_false] at hp
    rcases hp with rfl | rfl | rfl <;> exact ⟨t, d, e, ends.stored, ends.agree⟩
  · -- to CR0
    obtain ⟨t, d, e, ends⟩ := movToCr_completes (r := r) fresh h (writeCr0_legal ((cr0Legal_iff v).mpr hl))
    rw [cr0Value_eq] at ends
    exact ⟨t, d, _, e, ends.mem, keepsBits_and (by decide), ends.agree⟩
  · -- to CR0, illegal
    exact movToCr0_illegal h (by rw [← Bool.not_eq_true]; exact mt (cr0Legal_iff v).mp hl)
  · -- to CR2
    obtain ⟨t, d, e, ends⟩ := movToCr_completes (c := .cr2) (r := r) fresh h rfl
    exact ⟨t, d, e, ends.stored, ends.agree⟩
  · -- to CR3, which empties the TLB
    obtain ⟨t, d, e, ends⟩ := movToCr_completes (c := .cr3) (r := r) fresh h rfl
    refine ⟨t, d, e, ends.stored, fun i w => ?_, { ends.agree with cr3 := ends.agree.cr3 }⟩
    unfold State.tlbSetAt
    rw [ends.tlb]
    cases w <;> rfl
  · -- from and to a debug register
    obtain ⟨put6, put7⟩ := debugRegs_put (d := s.dr) h6 h7
    obtain ⟨t, d, e, ends⟩ := movFromDr_completes (r := r) fresh h gd p.1
    obtain ⟨u, f, k, done⟩ := movToDr_completes (r := r) fresh h gd p.1
    have found : s.dr.get p.1 = p.2.1 ∧ s.dr.put p.1 v = p.2.2 := by
      simp only [List.mem_cons, List.not_mem_nil, or_false] at hp
      rcases hp with rfl | rfl | rfl | rfl | rfl | rfl
      case inr.inr.inr.inr.inl => exact ⟨rfl, put6⟩
      case inr.inr.inr.inr.inr => exact ⟨rfl, put7⟩
      all_goals exact ⟨rfl, rfl⟩
    rw [found.1] at ends
    rw [found.2] at done
    exact ⟨⟨t, d, e, ends.stored, ends.agree⟩, u, f, k, done.stored, done.agree⟩
  · -- from a test register
    obtain ⟨u, n, hr, is4, is5, is6, is7, is3⟩ := readTr_run x s
    obtain ⟨t, d, e, ends⟩ := movFromTr_completes (r := r) fresh h hr
    exact ⟨t, u, d, e, ends.stored, ends.cache, ends.tlb, is4, is5, is6, is7, is3, { ends.agree with gpr := ends.agree.gpr }⟩
  cases x with
  | tr3 =>
    obtain ⟨t, d, e, stored, agree, cache, tlb, spoiled⟩ := movToTr_completes (x := .tr3) (r := r) fresh h rfl ⟨rfl⟩
    exact ⟨t, d, _, e, stored, agree, fun _ => cache, spoiled, fun _ => tlb, fun _ => rfl, nofun, nofun, nofun, nofun⟩
  | tr4 =>
    obtain ⟨t, d, e, stored, agree, cache, tlb, spoiled⟩ := movToTr_completes (x := .tr4) (r := r) fresh h rfl ⟨rfl⟩
    exact ⟨t, d, _, e, stored, agree, fun _ => cache, spoiled, fun _ => tlb, nofun, fun _ => rfl, nofun, nofun, nofun⟩
  | tr7 =>
    obtain ⟨t, d, e, stored, agree, cache, tlb, spoiled⟩ := movToTr_completes (x := .tr7) (r := r) fresh h rfl ⟨rfl⟩
    exact ⟨t, d, _, e, stored, agree, fun _ => cache, spoiled, fun _ => tlb, nofun, nofun, fun _ => rfl, nofun, nofun⟩
  | tr5 =>
    obtain ⟨t, d, e, stored, agree, cache, tlb, spoiled⟩ := movToTr5_completes (r := r) fresh h
    have set : ∀ j, sparseGet .blank t.cache j = (s.writeTr5 v).cacheSetNo j := fun j => by rw [cache]; rfl
    refine ⟨t, d, _, e, stored, agree, fun n => absurd rfl n, ?_, fun _ => tlb, nofun, nofun, nofun, fun _ => ?_, nofun⟩
    · rw [spoiled]
      simp only [true_and]
      rfl
    -- the buffer filled, a line written, a line read, the cache flushed
    refine ⟨fun c => ?_, fun c => ?_, fun c => ?_, fun c => ?_⟩
    · exact ⟨test_writeTr5 (by rw [c]; decide), cache.trans (cache_writeTr5_fill c)⟩
    · refine ⟨test_writeTr5 (by rw [c]; decide), fun j hj => ?_, ?_⟩
      · exact (set j).trans ((cacheSetNo_writeTr5_write c j).trans (if_neg (Ne.symm hj)))
      · exact (set _).trans ((cacheSetNo_writeTr5_write c _).trans (if_pos rfl))
    · exact ⟨cache.trans (cache_writeTr5_read c), _, test_writeTr5_read c, CacheSet.status_fields _ _⟩
    · refine ⟨test_writeTr5 (by rw [c]; decide), fun j y => ?_⟩
      have flushed := (set j).trans (cacheSetNo_writeTr5_flush c j)
      exact ⟨congrArg CacheSet.lru flushed, (congrArg (·.get y) flushed).trans (CacheSet.get_flushed _ _)⟩
  | tr6 =>
    cases c : v.getLsbD 0 with
    | false =>
      obtain ⟨t, d, u, e, stored, agree, cache, spoiled, tlb⟩ := movToTr6_writes fresh h c
      refine ⟨t, d, _, e, stored, agree, fun _ => cache, spoiled, fun n => absurd rfl n, nofun, nofun, nofun, nofun, fun _ =>
        ⟨fun _ => ⟨rfl, fun j hj => (tlb j).trans (if_neg (Ne.symm hj)), _, _, rfl, (tlb _).trans (if_pos rfl), rfl, rfl, rfl, rfl, rfl,
          pairValue_of_ne, pairValue_of_ne, pairValue_of_ne⟩, nofun⟩⟩
    | true =>
      by_cases found : ∃ w, (s.tlbSetAt (tlbIndex v)).matching (tlbAnswers v) = [w]
      · obtain ⟨w, one⟩ := found
        obtain ⟨t, d, e, stored, agree, cache, spoiled, tlb⟩ := movToTr6_finds fresh h c one
        rw [matching_tlbAnswers] at one
        refine ⟨t, d, _, e, stored, agree, fun _ => cache, spoiled, fun n => absurd rfl n, nofun, nofun, nofun, nofun, fun _ =>
          ⟨nofun, fun _ => ⟨fun y hy => ?_, fun none => absurd one (none w)⟩⟩⟩
        obtain rfl : w = y := by simpa using one.symm.trans hy
        exact ⟨fun j hj => (tlb j).trans (if_neg (Ne.symm hj)), (tlb _).trans (if_pos rfl), _, rfl, TlbSet.status_fields _ _⟩
      · have none := not_exists.mp found
        obtain ⟨t, d, u, e, stored, agree, cache, spoiled, tlb⟩ := movToTr6_misses fresh h c none
        simp only [matching_tlbAnswers] at none
        refine ⟨t, d, _, e, stored, agree, fun _ => cache, spoiled, fun n => absurd rfl n, nofun, nofun, nofun, nofun, fun _ =>
          ⟨nofun, fun _ => ⟨fun y hy => absurd hy (none y), fun _ => ⟨tlb, _, rfl, ?_⟩⟩⟩⟩
        rw [BitVec.getLsbD_and]
        exact Bool.and_false _

end Sys2Proof.Machine
end

section
/-! SUPPORT. SETcc (spec/44_int_s_to_x.md R606) and the conditions it writes (spec/30_encoding.md R318); O7. -/
namespace Sys2Proof.Machine
open Sys2Proof

/-- The instructions SETcc run `setccOp` on their condition. -/
theorem exec_setter {p : (RM → Instr) × Cond} (hp : p ∈ setters) (x : RM) (s : State) : exec (p.1 x) s = run (setccOp p.2 x) s := by
  simp only [setters, List.mem_cons, List.not_mem_nil, or_false] at hp
  rcases hp with rfl | rfl | rfl | rfl | rfl | rfl | rfl | rfl | rfl | rfl | rfl | rfl | rfl | rfl | rfl | rfl <;> rfl

/-- What a condition says of CF, PF, ZF, SF and OF (30_encoding.md R318). -/
def State.Meets (s : State) : Cond → Prop
  | .o => s.of = true
  | .no => s.of = false
  | .b => s.cf = true
  | .nb => s.cf = false
  | .e => s.zf = true
  | .ne => s.zf = false
  | .be => s.cf = true ∨ s.zf = true
  | .nbe => s.cf = false ∧ s.zf = false
  | .s => s.sf = true
  | .ns => s.sf = false
  | .p => s.pf = true
  | .np => s.pf = false
  | .l => s.sf ≠ s.of
  | .nl => s.sf = s.of
  | .le => s.zf = true ∨ s.sf ≠ s.of
  | .nle => s.zf = false ∧ s.sf = s.of

theorem cond_iff (s : State) (c : Cond) : s.cond c = true ↔ s.Meets c := by
  cases c <;> simp [State.cond, State.Meets]

/-- Settles O7: a condition is a test of the flags, and the byte is written as an r/m operand is. -/
theorem setccComplete : Obligations.SetccComplete := by
  refine ⟨fun s => ?_, fun p hp x s s1 fresh hw => ?_⟩
  · intro cf pf zf sf of p hp
    have meets := cond_iff s p.1
    simp only [List.mem_cons, List.not_mem_nil, or_false] at hp
    rcases hp with rfl | rfl | rfl | rfl | rfl | rfl | rfl | rfl | rfl | rfl | rfl | rfl | rfl | rfl | rfl | rfl <;> exact meets
  · rw [exec_setter hp]
    exact run_keeps_flags fresh hw ((Upto.refl s).writeRM hw)

end Sys2Proof.Machine
end

section
/-! SUPPORT. SHLD and SHRD (spec/44_int_s_to_x.md R609, R611), by the range of the masked count; O4. -/
namespace Sys2Proof.Machine
open Sys2Proof

/-! What the shifts give. -/

section
variable {n k : Nat} {d : BitVec 6} {v : Word32} (a b : BitVec n)

theorem getLsbD_shldOp (hk : k < n) : ∀ i < n,
    (shldOp a b k).1.getLsbD i = if i < k then b.getLsbD (n - k + i) else a.getLsbD (i - k) := by
  intro i hi
  have bit : (shldOp a b k).1.getLsbD i = ((a <<< k).getLsbD i || (b >>> (n - k)).getLsbD i) := BitVec.getLsbD_or
  rw [bit, BitVec.getLsbD_shiftLeft, BitVec.getLsbD_ushiftRight, decide_eq_true hi]
  split
  · next low => simp [low]
  · next high => simp [high, BitVec.getLsbD_of_ge b (n - k + i) (by omega)]

theorem getLsbD_shrdOp (hk : k < n) : ∀ i < n,
    (shrdOp a b k).1.getLsbD i = if i < n - k then a.getLsbD (i + k) else b.getLsbD (i + k - n) := by
  intro i hi
  have bit : (shrdOp a b k).1.getLsbD i = ((a >>> k).getLsbD i || (b <<< (n - k)).getLsbD i) := BitVec.getLsbD_or
  rw [bit, BitVec.getLsbD_ushiftRight, BitVec.getLsbD_shiftLeft, decide_eq_true hi, Nat.add_comm k i]
  split
  · next low => simp [low]
  · next high => simp [high, BitVec.getLsbD_of_ge a (i + k) (by omega), show i - (n - k) = i + k - n by omega]

theorem shldOp_flags : ShiftFlags (shldOp a b k) k d v (some (a.getLsbD (n - k))) ((shldOp a b k).1.msb != a.msb) :=
  shiftFlags_flags _ _ _ fun _ => rfl

theorem shrdOp_flags : ShiftFlags (shrdOp a b k) k d v (some (a.getLsbD (k - 1))) ((shrdOp a b k).1.msb != a.msb) :=
  shiftFlags_flags _ _ _ fun _ => rfl

end

/-! How they complete. -/

section
variable {op : (n : Nat) → BitVec n → BitVec n → Nat → BitVec n × StatusUpd} {os : Size} {x : RM} {r : Reg} {c : DCount}
  {s s1 s2 : State} {d : BitVec os.width.bits}

/-- SHLD and SHRD run `doubleShift`. -/
theorem exec_doubleShifter {p : (Size → RM → Reg → DCount → Instr) × ((n : Nat) → BitVec n → BitVec n → Nat → BitVec n × StatusUpd)}
    (hp : p ∈ doubleShifters) : exec (p.1 os x r c) s = run (doubleShift p.2 os x r c) s := by
  simp only [doubleShifters, List.mem_cons, List.not_mem_nil, or_false] at hp
  rcases hp with rfl | rfl <;> rfl

theorem readDCount_run (c : DCount) (s : State) : readDCount c s = .ok (s.dcount c) s := by cases c <;> rfl

/-- The count and the operands once read. -/
theorem doubleShift_read (h : updateRM os.width x s = .ok d s1) : doubleShift op os x r c s =
    (if s.dcount c = 0 then writeRM os.width d x
      else if s.dcount c < os.bits then do
        writeRM os.width (op os.width.bits d (s1.gpr.read os.width r) (s.dcount c)).1 x
        setStatus (op os.width.bits d (s1.gpr.read os.width r) (s.dcount c)).2
      else do
        let v ← draw os.width.bits
        writeRM os.width v x
        setStatus .undefined) s1 := by
  unfold doubleShift
  rw [bind_of_ok (readDCount_run c s), bind_of_ok h, getReg_then]

theorem doubleShift_zero (h : updateRM os.width x s = .ok d s1) (zero : s.dcount c = 0) :
    doubleShift op os x r c s = writeRM os.width d x s1 := by
  rw [doubleShift_read h, if_pos zero]

theorem doubleShift_below (h : updateRM os.width x s = .ok d s1) (pos : 0 < s.dcount c) (below : s.dcount c < os.bits)
    (hw : writeRM os.width (op os.width.bits d (s1.gpr.read os.width r) (s.dcount c)).1 x s1 = .ok () s2) :
    doubleShift op os x r c s = setStatus (op os.width.bits d (s1.gpr.read os.width r) (s.dcount c)).2 s2 := by
  rw [doubleShift_read h, if_neg (by omega), if_pos below]
  exact bind_of_ok hw

theorem doubleShift_beyond (h : updateRM os.width x s = .ok d s1) (beyond : os.bits ≤ s.dcount c)
    (hw : writeRM os.width (Config.freeBits os.width.bits s1.freeCtr) x { s1 with freeCtr := s1.freeCtr + 1 } = .ok () s2) :
    doubleShift op os x r c s = setStatus .undefined s2 := by
  have pos : 0 < os.bits := by cases os <;> decide
  rw [doubleShift_read h, if_neg (by omega), if_neg (by omega), draw_then]
  exact bind_of_ok hw

end

/-- Settles O4: the shifts bit by bit, then the three ranges of the count. -/
theorem doubleShiftsComplete : Obligations.DoubleShiftsComplete := by
  refine ⟨fun w a b d v k _ below => ⟨getLsbD_shldOp a b below, shldOp_flags a b, getLsbD_shrdOp a b below, shrdOp_flags a b⟩,
    fun p hp os x r c s s1 d fresh hr => ?_⟩
  have read : Upto s s1 [] := upto_of_update hr
  rw [exec_doubleShifter hp, ← read.gpr]
  refine ⟨fun zero s2 hw => ?_, fun pos below s2 hw => ?_, fun beyond writable => ?_⟩
  · rw [read.gpr]
    exact run_keeps_flags fresh ((doubleShift_zero hr zero).trans hw) (read.writeRM hw)
  · have ends := run_sets_status fresh (read.writeRM hw) (doubleShift_below hr pos below hw)
    rw [← read.gpr] at ends
    exact ends
  · obtain ⟨s2, hw⟩ := writable (Config.freeBits os.width.bits s1.freeCtr)
    obtain ⟨t, e, ends⟩ := run_sets_status fresh ((read.setCtr _).writeRM hw) (doubleShift_beyond hr beyond hw)
    rw [← read.gpr] at ends
    exact ⟨t, _, e, ends⟩

end Sys2Proof.Machine
end

section
/-! SUPPORT. A delivery that completes leaves the processor running (spec/10_state.md R64): it begins so, and nothing it does changes
the run state. -/
namespace Sys2Proof.Machine
open Sys2Proof

section
variable {α β : Type}

/-- A computation that, where it completes, leaves the run state alone. -/
def KeepsRun (x : M α) : Prop := ∀ s a t, x s = .ok a t → t.run = s.run

theorem KeepsRun.modify {f : State → State} (h : ∀ s, (f s).run = s.run) : KeepsRun (modify f) := by
  intro s a t e
  cases e
  exact h s

theorem KeepsRun.bind {x : M α} {f : α → M β} (hx : KeepsRun x) (hf : ∀ a, KeepsRun (f a)) : KeepsRun (x >>= f) := by
  intro s b u h
  obtain ⟨a, t, first, second⟩ := bind_ok_iff.mp h
  exact (hf a t b u second).trans (hx s a t first)

theorem KeepsRun.ite {c : Prop} [Decidable c] {x y : M α} (hx : KeepsRun x) (hy : KeepsRun y) : KeepsRun (if c then x else y) := by
  split
  · exact hx
  · exact hy

/-- A step made on a condition, then what follows. -/
theorem KeepsRun.joinThen {c : Prop} [Decidable c] {x : M Unit} {k : Unit → M β} (hx : KeepsRun x) (hk : ∀ a, KeepsRun (k a)) :
    KeepsRun (if c then x >>= k else k ()) := .ite (hx.bind hk) (hk ())

theorem Reads.keepsRun {x : M α} (h : Reads x) : KeepsRun x := by
  intro s a t e
  rw [(h s a t e).eqn]

theorem KeepsRun.pure {a : α} : KeepsRun (pure a : M α) := (Reads.pure a).keepsRun

theorem KeepsRun.get : KeepsRun (get : M State) := Reads.get.keepsRun

end

section
variable {s t : State} {x ts : Word16} {lin ret : Word32} {n : Nat} {ext b : Bool} {i : TaskImage} {k : SwitchKind} {ev : Event}
  {d g c : Desc}

theorem check_keepsRun {c : Bool} {e : Exc} : KeepsRun (check c e) := (Reads.check c e).keepsRun

theorem readDesc_keepsRun : KeepsRun (readDesc x) := (readDesc_reads x).keepsRun

theorem updatePhys_run (s : State) (a : Word32) (f : Byte → Byte) : (s.updatePhys a f).run = s.run := by rw [updatePhys_eqn]

theorem writeBytes_keepsRun : ∀ {ps : List (Word32 × Bool)} {vs : List Byte}, KeepsRun (writeBytes ps vs)
  | [], _ => .pure
  | _ :: _, [] => .pure
  | _ :: _, _ :: _ => .bind (.modify fun _ => updatePhys_run _ _ _) fun _ => writeBytes_keepsRun

theorem updateBytes_keepsRun {f : Byte → Byte} : ∀ {ps : List (Word32 × Bool)}, KeepsRun (updateBytes f ps)
  | [] => .pure
  | _ :: _ => .bind (.modify fun _ => updatePhys_run _ _ _) fun _ => updateBytes_keepsRun

theorem sysWrite_keepsRun {v : Nat} : KeepsRun (sysWrite lin n v) :=
  refer_reads.keepsRun.bind fun _ => (translateBytes_reads _ _ _ _).keepsRun.bind fun _ => writeBytes_keepsRun

theorem sysUpdate_keepsRun {f : Byte → Byte} : KeepsRun (sysUpdate lin f) :=
  refer_reads.keepsRun.bind fun _ => (translateBytes_reads _ _ _ _).keepsRun.bind fun _ => updateBytes_keepsRun

theorem setBusy_keepsRun : KeepsRun (setBusy x b) := .bind .get fun _ => sysUpdate_keepsRun

theorem markAccessed_keepsRun : KeepsRun (markAccessed x d) := .bind .get fun _ => .ite .pure sysUpdate_keepsRun

theorem pushSys_keepsRun {v : Nat} : KeepsRun (pushSys n v) := fun s _ _ h => ((Upto.refl s).pushSys h).run

theorem pushAllSys_keepsRun : ∀ {vs : List Nat}, KeepsRun (pushAllSys n vs)
  | [] => .pure
  | _ :: _ => pushSys_keepsRun.bind fun _ => pushAllSys_keepsRun

/-! A task switch. -/

theorem sysWriteList_keepsRun : ∀ {vs : List Nat} {a : Word32}, KeepsRun (sysWriteList n a vs)
  | [], _ => .pure
  | _ :: _, _ => sysWrite_keepsRun.bind fun _ => sysWriteList_keepsRun

theorem sysWriteSels_keepsRun : ∀ {vs : List Word16} {a : Word32}, KeepsRun (sysWriteSels n a vs)
  | [], _ => .pure
  | _ :: _, _ => sysWrite_keepsRun.bind fun _ => sysWriteSels_keepsRun

theorem saveTask_keepsRun {fl : Word32} : KeepsRun (saveTask ret fl) := by
  refine .bind .get fun s => ?_
  dsimp only
  cases s.tr.format <;> exact sysWriteList_keepsRun.bind fun _ => sysWriteSels_keepsRun

theorem leaveTask_keepsRun : KeepsRun (leaveTask k ts ret ext) :=
  .bind .get fun _ => readDesc_keepsRun.bind fun _ => check_keepsRun.bind fun _ => (probeTasks_reads _ _ _ _).keepsRun.bind fun _ =>
    .joinThen setBusy_keepsRun fun _ => saveTask_keepsRun.bind fun _ => .joinThen sysWrite_keepsRun fun _ =>
    .joinThen setBusy_keepsRun fun _ => .bind (.modify fun _ => rfl) fun _ => .pure

theorem taskLdt_keepsRun : KeepsRun (taskLdt x ext) :=
  .ite .pure (.bind .get fun _ => check_keepsRun.bind fun _ => readDesc_keepsRun.bind fun _ => check_keepsRun.bind fun _ =>
    check_keepsRun.bind fun _ => .modify fun _ => rfl)

theorem taskCs_keepsRun : KeepsRun (taskCs x ext) :=
  .bind .get fun _ => check_keepsRun.bind fun _ => check_keepsRun.bind fun _ => readDesc_keepsRun.bind fun _ =>
    check_keepsRun.bind fun _ => check_keepsRun.bind fun _ => check_keepsRun.bind fun _ => markAccessed_keepsRun.bind fun _ =>
    .modify fun _ => rfl

theorem taskSs_keepsRun : KeepsRun (taskSs x ext) :=
  .bind .get fun _ => check_keepsRun.bind fun _ => check_keepsRun.bind fun _ => check_keepsRun.bind fun _ =>
    readDesc_keepsRun.bind fun _ => check_keepsRun.bind fun _ => check_keepsRun.bind fun _ => check_keepsRun.bind fun _ =>
    markAccessed_keepsRun.bind fun _ => .modify fun _ => rfl

theorem taskData_keepsRun {r : SReg} : KeepsRun (taskData r x ext) :=
  .bind .get fun _ => .ite .pure (check_keepsRun.bind fun _ => readDesc_keepsRun.bind fun _ => check_keepsRun.bind fun _ =>
    check_keepsRun.bind fun _ => check_keepsRun.bind fun _ => markAccessed_keepsRun.bind fun _ => .modify fun _ => rfl)

theorem enterTask_keepsRun : KeepsRun (enterTask i ext) :=
  taskLdt_keepsRun.bind fun _ => .bind .get fun _ => .ite (.modify fun _ => rfl)
    (taskCs_keepsRun.bind fun _ => taskSs_keepsRun.bind fun _ => taskData_keepsRun.bind fun _ => taskData_keepsRun.bind fun _ =>
      taskData_keepsRun.bind fun _ => taskData_keepsRun)

theorem loadTask_run (s : State) (k : SwitchKind) (i : TaskImage) : (s.loadTask k i).run = s.run := by
  unfold State.loadTask
  cases i.cr3 <;> rfl

theorem switchTasks_keepsRun : KeepsRun (switchTasks k ts ret ext) :=
  leaveTask_keepsRun.bind fun _ => (readTask_reads _ _).keepsRun.bind fun _ => .bind (.modify fun _ => loadTask_run _ _ _) fun _ =>
    enterTask_keepsRun.bind fun _ => .pure

/-! A delivery. -/

theorem deliverReal_keepsRun : KeepsRun (deliverReal ev ret) :=
  .bind .get fun _ => check_keepsRun.bind fun _ => pushAllSys_keepsRun.bind fun _ => (sysRead_reads _ _).keepsRun.bind fun _ =>
    (sysRead_reads _ _).keepsRun.bind fun _ => .modify fun _ => rfl

theorem deliverSame_keepsRun : KeepsRun (deliverSame ev ret g c) :=
  .bind .get fun _ => check_keepsRun.bind fun _ => check_keepsRun.bind fun _ => markAccessed_keepsRun.bind fun _ =>
    pushAllSys_keepsRun.bind fun _ => .modify fun _ => rfl

theorem deliverInner_keepsRun : KeepsRun (deliverInner ev ret g c) :=
  .bind .get fun _ => check_keepsRun.bind fun _ => (innerStack_reads _ _).keepsRun.bind fun ⟨_, _, _⟩ => check_keepsRun.bind fun _ =>
    check_keepsRun.bind fun _ => markAccessed_keepsRun.bind fun _ => markAccessed_keepsRun.bind fun _ => .ite
      (.bind (.modify fun _ => rfl) fun _ => pushAllSys_keepsRun.bind fun _ => .bind (.modify fun _ => rfl) fun _ =>
        pushAllSys_keepsRun.bind fun _ => .modify fun _ => rfl)
      (.bind (.modify fun _ => rfl) fun _ => pushAllSys_keepsRun.bind fun _ => .modify fun _ => rfl)

theorem deliverGate_keepsRun : KeepsRun (deliverGate ev ret g) :=
  .bind .get fun _ => check_keepsRun.bind fun _ => check_keepsRun.bind fun _ => readDesc_keepsRun.bind fun _ =>
    check_keepsRun.bind fun _ => check_keepsRun.bind fun _ => .ite deliverInner_keepsRun
    (check_keepsRun.bind fun _ => check_keepsRun.bind fun _ => deliverSame_keepsRun)

theorem deliverTask_keepsRun : KeepsRun (deliverTask ev ret g) := by
  have arrived {b : Bool} : KeepsRun (setArrived b) := .modify fun _ => rfl
  have inside {e : Exc} : KeepsRun (checkNewEip e) := .bind .get fun _ => check_keepsRun
  have traps {b : Bool} : KeepsRun (pendTaskTrap b) := .ite (.modify fun _ => rfl) .pure
  exact (checkTss_reads _ _ _).keepsRun.bind fun _ => switchTasks_keepsRun.bind fun _ => arrived.bind fun _ => .bind .get fun _ =>
    check_keepsRun.bind fun _ => arrived.bind fun _ => inside.bind fun _ => arrived.bind fun _ =>
    pushAllSys_keepsRun.bind fun _ => traps

theorem deliverProtected_keepsRun : KeepsRun (deliverProtected ev ret) :=
  .bind .get fun _ => check_keepsRun.bind fun _ => (sysRead_reads _ _).keepsRun.bind fun _ => (sysRead_reads _ _).keepsRun.bind fun _ =>
    check_keepsRun.bind fun _ => check_keepsRun.bind fun _ => check_keepsRun.bind fun _ =>
    .ite deliverTask_keepsRun deliverGate_keepsRun

theorem deliver_running (h : deliver ev ret s = .ok () t) : t.run = .running := by
  have handler : KeepsRun (get >>= fun s : State => if s.real then deliverReal ev ret else deliverProtected ev ret) :=
    .bind .get fun _ => .ite deliverReal_keepsRun deliverProtected_keepsRun
  exact handler (s.startDelivery ev) () t h

end

end Sys2Proof.Machine
end

section
/-! SUPPORT. How a step leaves the halted, frozen and shutdown states, and delivers an event left for it (spec/10_state.md R64,
spec/60_exceptions.md R935, R944); O34. -/
namespace Sys2Proof.Machine
open Sys2Proof

section
variable {s t u : State} {ev : Event}

/-- An event delivered at the EIP of the state ends a wait. -/
theorem deliverAt_wakes (h : deliver ev s.eip (s.restAt s.eip) = .ok () u) :
    s.deliverAt ev = .next (u.settle false) ∧ u.run = .running := ⟨deliverAt_of_ok h, deliver_running h⟩

theorem step_redeliver (h : s.run = .redeliver ev) :
    step s = ({ s.restAt s.eip with run := .running } : State).deliverAt ev := by
  unfold step
  rw [h]

/-! Halted or frozen. -/

theorem step_waiting (h : s.run = .halted ∨ s.run = .frozen) : step s = (s.restAt s.eip).stepWaiting := by
  unfold step
  rcases h with h | h <;> rw [h]

theorem stepWaiting_of_trap (h : s.pendingTrap = some ev) : s.stepWaiting = ({ s with traps := .none } : State).deliverAt ev := by
  unfold State.stepWaiting State.trapNow
  rw [h]
  rfl

theorem stepWaiting_of_nmi (h : s.pendingTrap = none) (hn : s.nmiReady = true) :
    s.stepWaiting = s.takeNmi.deliverAt (interruptEvent 2#8) := by
  unfold State.stepWaiting State.trapNow State.external
  rw [h, hn]
  rfl

theorem stepWaiting_of_intr (h : s.pendingTrap = none) (hn : s.nmiReady = false) (hi : s.intrReady = true) :
    s.stepWaiting = s.takeIntr.deliverAt (interruptEvent s.pins.intVector) := by
  unfold State.stepWaiting State.trapNow State.external
  rw [h, hn, hi]
  rfl

theorem stepWaiting_of_none (h : s.pendingTrap = none) (hn : s.nmiReady = false) (hi : s.intrReady = false) :
    s.stepWaiting = .next s := by
  unfold State.stepWaiting State.trapNow State.external
  rw [h, hn, hi]
  rfl

theorem step_wakes_by_trap {d : Word32} (run : s.run = .halted ∨ s.run = .frozen)
    (due : (s.traps.any && !s.latch.inhibitNext) = true) (h15 : d.getLsbD 15 = s.traps.bt) (h14 : d.getLsbD 14 = s.traps.bs)
    (h0 : d.extractLsb' 0 4 = s.traps.hits) (hd : d &&& 0xFFFF3FF0#32 = 0#32)
    (h : deliver { interruptEvent 1#8 with debug := some d } s.eip { s.restAt s.eip with traps := .none } = .ok () u) :
    step s = .next (u.settle false) ∧ u.run = .running := by
  rw [step_waiting run, stepWaiting_of_trap (s := s.restAt s.eip) (pendingTrap_of_due due h15 h14 h0 hd)]
  exact deliverAt_wakes h

theorem step_wakes_by_nmi (run : s.run = .halted ∨ s.run = .frozen) (noTrap : (s.traps.any && !s.latch.inhibitNext) = false)
    (nmi : (s.latch.nmiPending && !s.latch.nmiMasked) = true) (free : s.latch.inhibitNext = false)
    (h : deliver (interruptEvent 2#8) s.eip (s.restAt s.eip).takeNmi = .ok () u) :
    step s = .next (u.settle false) ∧ u.run = .running := by
  have due : s.nmiReady = true := by simp only [State.nmiReady, nmi, free, Bool.not_false, Bool.and_self]
  rw [step_waiting run, stepWaiting_of_nmi (s := s.restAt s.eip) (pendingTrap_none_iff.mpr noTrap) due]
  exact deliverAt_wakes h

theorem step_wakes_by_intr (run : s.run = .halted ∨ s.run = .frozen) (noTrap : (s.traps.any && !s.latch.inhibitNext) = false)
    (noNmi : (s.latch.nmiPending && !s.latch.nmiMasked) = false) (intr : s.pins.intr = true) (ifl : s.ifl = true)
    (free : s.latch.inhibitNext = false) (noShadow : s.latch.stiShadow = false)
    (h : deliver (interruptEvent s.pins.intVector) s.eip (s.restAt s.eip).takeIntr = .ok () u) :
    step s = .next (u.settle false) ∧ u.run = .running := by
  have quiet : s.nmiReady = false := by simp only [State.nmiReady, noNmi, Bool.false_and]
  have due : s.intrReady = true := by simp only [State.intrReady, intr, ifl, free, noShadow, Bool.not_false, Bool.and_self]
  rw [step_waiting run, stepWaiting_of_intr (s := s.restAt s.eip) (pendingTrap_none_iff.mpr noTrap) quiet due]
  exact deliverAt_wakes h

/-- With nothing due a step changes the latch of the instruction alone. -/
theorem step_waits (run : s.run = .halted ∨ s.run = .frozen) (noTrap : (s.traps.any && !s.latch.inhibitNext) = false)
    (noNmi : (s.latch.nmiPending && !s.latch.nmiMasked) = false ∨ s.latch.inhibitNext = true)
    (noIntr : s.pins.intr = false ∨ s.ifl = false ∨ s.latch.inhibitNext = true ∨ s.latch.stiShadow = true) :
    step s = .next (s.restAt s.eip) := by
  have quiet : s.nmiReady = false := by rcases noNmi with e | e <;> simp [State.nmiReady, e]
  have still : s.intrReady = false := by rcases noIntr with e | e | e | e <;> simp [State.intrReady, e]
  exact (step_waiting run).trans (stepWaiting_of_none (s := s.restAt s.eip) (pendingTrap_none_iff.mpr noTrap) quiet still)

/-! In shutdown. -/

theorem step_shutdown (h : s.run = .shutdown) : step s = (s.restAt s.eip).stepShutdown := by
  unfold step
  rw [h]

theorem stepShutdown_of_none (h : (s.latch.nmiPending && !s.latch.nmiMasked) = false) : s.stepShutdown = .next s := by
  unfold State.stepShutdown
  rw [h]
  rfl

/-- In Real Mode the NMI is delivered where vector 2 lies within the table and there is room for the frame. -/
theorem stepShutdown_real (nmi : (s.latch.nmiPending && !s.latch.nmiMasked) = true) (real : s.real = true) : s.stepShutdown =
    if 0x17 ≤ s.idtr.limit.toNat ∧ 5 < s.gpr.esp.toNat % 2 ^ 16 then s.takeNmi.deliverAt (interruptEvent 2#8)
    else .next (s.takeNmi.shut s.eip) := by
  unfold State.stepShutdown
  rw [nmi, real, BitVec.toNat_setWidth]
  simp only [if_true, Bool.and_eq_true, decide_eq_true_eq]
  rfl

theorem stepShutdown_of_ok (nmi : (s.latch.nmiPending && !s.latch.nmiMasked) = true) (real : s.real = false)
    (h : deliver (interruptEvent 2#8) s.eip (s.takeNmi.restAt s.eip) = .ok () u) : s.stepShutdown = .next (u.settle false) := by
  unfold State.stepShutdown
  rw [nmi, real]
  simp only [if_true, Bool.false_eq_true, if_false]
  rw [show s.takeNmi.eip = s.eip from rfl, h]

theorem stepShutdown_of_error {v : Byte} {c : Option Word16} {d : Word32}
    (nmi : (s.latch.nmiPending && !s.latch.nmiMasked) = true) (real : s.real = false)
    (h : deliver (interruptEvent 2#8) s.eip (s.takeNmi.restAt s.eip) = .error (.exn v c d) t) (arrived : t.insn.arrived = false) :
    s.stepShutdown = .next (s.takeNmi.shutBy t s.eip) := by
  unfold State.stepShutdown
  rw [nmi, real]
  simp only [if_true, Bool.false_eq_true, if_false]
  rw [show s.takeNmi.eip = s.eip from rfl, h]
  simp only [arrived, Bool.false_eq_true, if_false]

/-- An NMI that is delivered ends a shutdown; in Real Mode vector 2 lies within the table then, and there is room for the frame. -/
theorem step_leaves_shutdown (run : s.run = .shutdown) (nmi : (s.latch.nmiPending && !s.latch.nmiMasked) = true)
    (room : s.real = true → 0x17 ≤ s.idtr.limit.toNat ∧ 5 < s.gpr.esp.toNat % 2 ^ 16)
    (h : deliver (interruptEvent 2#8) s.eip (s.restAt s.eip).takeNmi = .ok () u) :
    step s = .next (u.settle false) ∧ u.run = .running := by
  rw [step_shutdown run]
  cases real : s.real with
  | true =>
    obtain ⟨next, runs⟩ := deliverAt_wakes (s := (s.restAt s.eip).takeNmi) h
    exact ⟨((stepShutdown_real (s := s.restAt s.eip) nmi real).trans (if_pos (room real))).trans next, runs⟩
  | false => exact ⟨stepShutdown_of_ok (s := s.restAt s.eip) nmi real h, deliver_running h⟩

/-- A delivery that fails drives another shutdown cycle, after whatever the attempt has shown the platform. -/
theorem shutBy_events (p t : State) (a : Word32) : (p.shutBy t a).run = .shutdown ∧
    (p.shutBy t a).events = t.events ++ [.shutdown] := by
  refine ⟨rfl, ?_⟩
  have left : (p.leftBy t a).events = t.events := by
    unfold State.leftBy
    split
    · rw [commitStores_eqn]
      rfl
    · rfl
  show (p.leftBy t a).events ++ _ = _
  rw [left]

end

end Sys2Proof.Machine
end

section
/-! SUPPORT. The end of an instruction that reads memory, perhaps, and then changes registers, the cache or the TLB. -/
namespace Sys2Proof.Machine
open Sys2Proof

section
variable {s t u W : State} {m : M Unit} {l : List Store} {k : List Change} {ps : List (Word32 × Bool)}

/-- On a way without stores nothing comes to be held back. -/
theorem Via.holds_nothing (h : Via s l k ps t) (none : l = []) (clean : s.insn.stores = []) : t.insn.stores = [] := by
  have kept {x y : State} (hx : x.insn.stores = []) (hy : ∀ p ∈ y.insn.stores, ∃ q ∈ x.insn.stores, q.1 = p.1) :
      y.insn.stores = [] := by
    refine List.eq_nil_iff_forall_not_mem.mpr fun p hp => ?_
    obtain ⟨q, hq, -⟩ := hy p hp
    rw [hx] at hq
    cases hq
  induction h with
  | start => exact clean
  | elsewhere _ same ih => rw [same.stores, ih none]
  | walk _ walks ih => exact kept (ih none) (translate_marks walks).stores
  | read _ ih => rw [readPhys_eqn]; exact ih none
  | store => simp at none
  | write => simp at none
  | update _ walks updates ih =>
    exact kept (kept (ih none) (translateBytes_marks _ walks).stores) (updateBytes_pokes _ _ _ _ _ updates).stores
  | commit => rfl

/-- Memory as reads have left it is memory after no store, whatever became of the registers, the cache and the TLB. -/
theorem Upto.stored_nothing (read : Upto s u []) (clean : s.insn.stores = []) (mem : t.mem = u.mem) : Stored s t [] := by
  obtain ⟨ps, way⟩ := read.via
  exact ⟨fun _ off a _ => by rw [mem, read.mem off], fun off _ => mem.trans (read.mem off),
    fun _ => ⟨ps, u, way, way.holds_nothing rfl clean, mem, fun ok => by rw [mem]; exact way.alike ok clean⟩⟩

/-- A meaning that reads and then leaves `W`, which differs from what the reads left neither in memory nor in the latches. -/
theorem run_after_reads (fresh : s.Fresh) (read : Upto s u []) (hm : m s = .ok () W) (mem : W.mem = u.mem := by rfl)
    (insn : W.insn = u.insn := by rfl) (latch : W.latch = u.latch := by rfl) :
    ∃ t, run m s = .next t ∧ Stored s t [] ∧ Agree { W with eflags := clearRf W.eflags, latch := s.retired.latch } t ∧
      t.cache = W.cache ∧ t.tlb = W.tlb := by
  have told := insn.trans read.insn
  obtain ⟨ps, way⟩ := read.via
  have clean : W.insn.stores = [] := (congrArg Insn.stores insn).trans (way.holds_nothing rfl fresh.stores)
  have ends := finish_eqn s W (by rw [told]; exact fresh.again) (by rw [told]; exact fresh.keepRf)
  obtain ⟨kept, cache, tlb, -⟩ := commitStores_of_empty clean
  refine ⟨finish s W, run_of_ok hm, read.stored_nothing fresh.stores (kept.trans mem), ?_, cache, tlb⟩
  refine { ends with latch := ends.latch.trans ?_ }
  rw [retired_latch fresh, latch, read.latch, told]

end

end Sys2Proof.Machine
end

section
/-! SUPPORT. SMSW, LMSW, CLTS, HLT, INVD, WBINVD and INVLPG (spec/44_int_s_to_x.md R614, R625, spec/42_int_j_to_l.md R545,
spec/40_int_a_to_c.md R433, spec/41_int_d_to_i.md R455, R465, R466), and the statement of O34. -/
namespace Sys2Proof.Machine
open Sys2Proof

section
variable {s s1 : State} {x : RM}

/-- LMSW replaces MP, EM and TS and can only set PE. -/
theorem lmsw_cr0 (v c : Word32) :
    mix 0xE#32 v c ||| (v &&& 1#32) = (c &&& 0xFFFFFFF1#32) ||| (v &&& 0xF#32) := by
  unfold mix
  rw [show (0xF#32 : Word32) = 0xE#32 ||| 1#32 from rfl, BitVec.and_or_distrib_left, ← BitVec.or_assoc,
    BitVec.or_comm (v &&& 0xE#32)]
  rfl

theorem smsw_completes (fresh : s.Fresh) (os : Size) (hw : writeRM .word (s.cr0.setWidth 16) x s = .ok () s1) :
    ∃ t, exec (.smsw os x) s = .next t ∧ Agree { s.retired with gpr := s.gpr.writeRM .word x (s.cr0.setWidth 16) } t ∧
      Stored s t (s.storeRM .word x (s.cr0.setWidth 16)) :=
  run_keeps_flags (m := smswOp x) fresh hw ((Upto.refl s).writeRM hw)

theorem lmsw_completes {v : Word16} (fresh : s.Fresh) (h : s.privileged = true) (hr : readRM .word x s = .ok v s1) :
    ∃ t, exec (.lmsw x) s = .next t ∧ Stored s t [] ∧
      Agree { s.retired with cr0 := (s.cr0 &&& 0xFFFFFFF1#32) ||| (v.setWidth 32 &&& 0xF#32) } t := by
  have read : Upto s s1 [] := (Upto.refl s).reads (readRM_reads .word x) hr
  have ends : lmswOp x s = .ok () (s1.setCr0 ((s.cr0 &&& 0xFFFFFFF1#32) ||| (v.setWidth 32 &&& 0xF#32))) := by
    unfold lmswOp
    rw [bind_of_ok (needCpl0_passes h), bind_of_ok hr, modify_run, lmsw_cr0, read.cr0]
  obtain ⟨t, runs, stored, agree, -⟩ := run_after_reads fresh read ends
  rw [read.eqn] at agree
  exact ⟨t, runs, stored, { agree with }⟩

theorem clts_completes (fresh : s.Fresh) (h : s.privileged = true) : ∃ t, exec .clts s = .next t ∧ Stored s t [] ∧
    Agree { s.retired with cr0 := s.cr0 &&& 0xFFFFFFF7#32 } t := by
  obtain ⟨t, runs, stored, agree, -⟩ := run_after_reads (m := cltsOp) fresh (.refl s) (bind_of_ok (needCpl0_passes h))
  exact ⟨t, runs, stored, agree⟩

theorem hlt_completes (fresh : s.Fresh) (h : s.privileged = true) : ∃ t, exec .hlt s = .next t ∧ Stored s t [] ∧
    Agree { s.retired with run := .halted, events := s.events ++ [.halt] } t := by
  obtain ⟨t, runs, stored, agree, -⟩ := run_after_reads (m := hltOp) fresh (.refl s) (bind_of_ok (needCpl0_passes h))
  exact ⟨t, runs, stored, agree⟩

/-- A set with no valid line answers no tag. -/
theorem CacheSet.hit_flushed (c : CacheSet) (tag : BitVec 21) : c.flushed.hit tag = none := rfl

/-- In a flushed cache nothing is found. -/
theorem hit_of_flushed {t : State} (h : t.cache = s.flushCache.cache) (a : Word32) : (t.cacheSetAt a).hit (cacheTag a) = none := by
  have set : t.cacheSetAt a = (s.cacheSetNo (cacheIndex a)).flushed := by
    unfold State.cacheSetAt
    rw [h]
    exact cacheSetNo_flushCache s (cacheIndex a)
  rw [set, CacheSet.hit_flushed]

theorem invd_completes (fresh : s.Fresh) (h : s.privileged = true) : ∃ t, exec .invd s = .next t ∧ Stored s t [] ∧
    Agree { s.retired with events := s.events ++ [.flush] } t ∧ ∀ a, (t.cacheSetAt a).hit (cacheTag a) = none := by
  obtain ⟨t, runs, stored, agree, cache, -⟩ := run_after_reads (m := invdOp) fresh (.refl s) (bind_of_ok (needCpl0_passes h))
  exact ⟨t, runs, stored, { agree with }, hit_of_flushed cache⟩

theorem wbinvd_completes (fresh : s.Fresh) (h : s.privileged = true) : ∃ t, exec .wbinvd s = .next t ∧ Stored s t [] ∧
    Agree { s.retired with events := s.events ++ [.writeBack, .flush] } t ∧
    ∀ a, (t.cacheSetAt a).hit (cacheTag a) = none := by
  obtain ⟨t, runs, stored, agree, cache, -⟩ := run_after_reads (m := wbinvdOp) fresh (.refl s) (bind_of_ok (needCpl0_passes h))
  exact ⟨t, runs, stored, { agree with events := agree.events.trans (List.append_assoc _ _ _) }, hit_of_flushed cache⟩

/-- What an invalidation of the page of a linear address leaves of the sets of the TLB. -/
theorem tlbSetAt_invalidatePage (s : State) (lin : Word32) (j : Nat) :
    ((s.invalidatePage lin).tlbSetAt j).lru = (s.tlbSetAt j).lru ∧ ∀ w,
      ((s.invalidatePage lin).tlbSetAt j).get w = if j = tlbIndex lin ∧ ((s.tlbSetAt j).get w).tag = tlbTag lin
        then { (s.tlbSetAt j).get w with valid := false } else (s.tlbSetAt j).get w := by
  unfold State.invalidatePage
  dsimp only
  rw [tlbSetAt_putTlbSet_eq]
  by_cases h : tlbIndex lin = j
  · subst h
    rw [if_pos rfl]
    refine ⟨rfl, fun w => ?_⟩
    cases w <;> simp [TlbSet.get]
  · rw [if_neg h]
    exact ⟨rfl, fun w => (if_neg fun both => h both.1.symm).symm⟩

/-- No valid entry of the page is left. -/
theorem invalid_of_invalidatePage (s : State) (lin : Word32) (w : Way)
    (tag : (((s.invalidatePage lin).tlbSetAt (tlbIndex lin)).get w).tag = tlbTag lin) :
    (((s.invalidatePage lin).tlbSetAt (tlbIndex lin)).get w).valid = false := by
  rw [(tlbSetAt_invalidatePage s lin (tlbIndex lin)).2 w] at tag ⊢
  by_cases held : (((s.tlbSetAt (tlbIndex lin)).get w).tag = tlbTag lin)
  · rw [if_pos ⟨rfl, held⟩]
  · rw [if_neg fun both => held both.2] at tag
    exact absurd tag held

theorem invlpg_completes (fresh : s.Fresh) (h : s.privileged = true) (m : Mem) : ∃ t, exec (.invlpg m) s = .next t ∧
    Stored s t [] ∧ Agree s.retired t ∧ ∀ j, t.tlbSetAt j = (s.invalidatePage (s.lin m)).tlbSetAt j := by
  obtain ⟨t, runs, stored, agree, -, tlb⟩ :=
    run_after_reads (m := invlpgOp m) fresh (.refl s) (bind_of_ok (needCpl0_passes h))
  refine ⟨t, runs, stored, { agree with }, fun j => ?_⟩
  unfold State.tlbSetAt
  rw [tlb]
  rfl

end

/-- Settles O34: the run states one by one, then the instructions. -/
theorem machineControlComplete : Obligations.MachineControlComplete := by
  refine ⟨fun s u => ?_, fun s s1 fresh => ⟨fun os x hw => smsw_completes fresh os hw, fun h =>
    ⟨fun x v hr => lmsw_completes fresh h hr, clts_completes fresh h, hlt_completes fresh h, invd_completes fresh h,
      wbinvd_completes fresh h, fun m => ?_⟩⟩⟩
  · intro b ev trap nmi accepted wakes
    refine ⟨fun run => ⟨fun due d h15 h14 h0 hd h => ?_, fun none due free h => ?_, fun none noNmi intr ifl free noShadow h => ?_,
      fun none noNmi noIntr => ?_⟩, fun run => ?_, fun e run h => ?_⟩
    · exact step_wakes_by_trap run due h15 h14 h0 hd h
    · exact step_wakes_by_nmi run none due free h
    · exact step_wakes_by_intr run none noNmi intr ifl free noShadow h
    · exact step_waits run none noNmi noIntr
    · intro room
      refine ⟨fun none => ?_, fun due => ⟨fun real no => ?_, fun enough h => ?_, fun real v c d t h arrived => ?_⟩⟩
      · exact (step_shutdown run).trans (stepShutdown_of_none (s := b) none)
      · exact (step_shutdown run).trans ((stepShutdown_real (s := b) due real).trans (if_neg no))
      · exact step_leaves_shutdown run due enough h
      · exact ⟨_, (step_shutdown run).trans (stepShutdown_of_error (s := b) due real h arrived), shutBy_events _ _ _⟩
    · rw [step_redeliver run]
      exact deliverAt_wakes h
  · -- INVLPG
    obtain ⟨t, runs, stored, agree, sets⟩ := invlpg_completes fresh h m
    refine ⟨t, runs, stored, agree, fun w => ?_, fun j => ?_⟩
    · rw [sets]
      exact invalid_of_invalidatePage s (s.lin m) w
    · rw [sets]
      exact tlbSetAt_invalidatePage s (s.lin m) j

end Sys2Proof.Machine
end
